-- ==== Sys2Proof/Word.lean ====
section
/-! DEFINITION. The widths of the block: a byte, a 32-bit value or address, an 80-bit command word. -/

namespace Sys2Proof

/-- One byte of memory (20_memory.md R60). -/
abbrev Byte := BitVec 8

/-- A value, a count, a result or a memory address: `XLEN = AW = 32` (00_scope.md R6). -/
abbrev Word := BitVec 32

/-- A command word (30_encoding.md R90). -/
abbrev CommandWord := BitVec 80

/-- A bit stream, numbered from its first bit on. It is only ever an argument of a function, never
a part of the state. -/
abbrev BitStream := Nat → Bool

end Sys2Proof
end

