-- ==== Sys2Proof/Syntax.lean ====
section
/-! DEFINITION. The commands of TBC-1, the token and code forms of the compressed stream, and the
names the block uses for its codes, states and outcomes. -/

namespace Sys2Proof

/-- The `c` field: which cursor context a command works on (10_state.md R21, 30_encoding.md R92). -/
inductive CurSel where
  | c0
  | c1
deriving DecidableEq, Repr

/-- The mode operand of `codec_open`, `n[0]`: 0 encode, 1 decode (30_encoding.md R95). -/
inductive CodecMode where
  | enc
  | dec
deriving DecidableEq, Repr

/-- `VLC_TYPE`: the strategy of the variable-length code unit; the value 3 is never stored
(10_state.md R29, 44_vlc.md R224). -/
inductive VlcType where
  | fixed
  | golomb
  | gamma
deriving DecidableEq, Repr

/-- The status field of a response (30_encoding.md R97). -/
inductive Status where
  /-- 0x00 -/
  | ok
  /-- 0x01, `get_string` only -/
  | notFound
  /-- 0x02, the codec reached the end of its input -/
  | done
  /-- 0x03, the output region cannot take the next token -/
  | outFull
  /-- 0x10, unaligned access -/
  | eUnaligned
  /-- 0x11, out-of-bounds access -/
  | eBounds
  /-- 0x12, illegal command word -/
  | eIllegal
  /-- 0x13, command not legal in the present codec state -/
  | eSequence
  /-- 0x20, VLC code out of range -/
  | eCodecVlc
  /-- 0x21, match offset outside the window -/
  | eCodecOffset
  /-- 0x22, token cut short by the end of the input -/
  | eCodecTrunc
deriving DecidableEq, Repr

/-- One token of the compressed stream (30_encoding.md R103 to R105). `value` of a match is the
stored length field, the match length less 2. -/
inductive Token where
  | literalPair (b0 b1 : Byte)
  | singleLiteral (b0 : Byte)
  | matchRef (offset value : Word)
deriving DecidableEq, Repr

/-- One constructor per row of the opcode table: the 57 commands (30_encoding.md R96), then the
three token forms (R103 to R105) and the three code forms (44_vlc.md R225 to R227), which are no
commands but stand in the compressed stream (log 10). -/
inductive Instr where
  /-- `attach`, R130 -/
  | attach (c : CurSel) (a b : Word)
  /-- `goto`, R131 -/
  | goto (c : CurSel) (a : Word)
  /-- `sync`, R132 -/
  | sync (c : CurSel)
  /-- `tell`, R133 -/
  | tell (c : CurSel)
  /-- `left_bytes`, R135 -/
  | leftBytes (c : CurSel)
  /-- `left_bits`, R136 -/
  | leftBits (c : CurSel)
  /-- `skip_bytes`, R138 -/
  | skipBytes (c : CurSel) (a : Word)
  /-- `skip_bits`, R139 -/
  | skipBits (c : CurSel) (a : Word)
  /-- `get_u1`, R150 -/
  | getU1 (c : CurSel)
  /-- `set_u1`, R151 -/
  | setU1 (c : CurSel) (a : Word)
  /-- `get_ubits`, R152 -/
  | getUbits (c : CurSel) (n : BitVec 6)
  /-- `get_sbits`, R154 -/
  | getSbits (c : CurSel) (n : BitVec 6)
  /-- `set_ubits`, R153 -/
  | setUbits (c : CurSel) (n : BitVec 6) (a : Word)
  /-- `set_sbits`, R155 -/
  | setSbits (c : CurSel) (n : BitVec 6) (a : Word)
  /-- `peek_ubits`, R156 -/
  | peekUbits (c : CurSel) (n : BitVec 6)
  /-- `peek_sbits`, R157 -/
  | peekSbits (c : CurSel) (n : BitVec 6)
  /-- `get_u8`, R176 -/
  | getU8 (c : CurSel)
  /-- `get_u16_le`, R177 -/
  | getU16Le (c : CurSel)
  /-- `get_u24_le`, R178 -/
  | getU24Le (c : CurSel)
  /-- `get_u32_le`, R179 -/
  | getU32Le (c : CurSel)
  /-- `get_u16_be`, R180 -/
  | getU16Be (c : CurSel)
  /-- `get_u24_be`, R181 -/
  | getU24Be (c : CurSel)
  /-- `get_u32_be`, R182 -/
  | getU32Be (c : CurSel)
  /-- `get_s8`, R183 -/
  | getS8 (c : CurSel)
  /-- `get_s16_le`, R184 -/
  | getS16Le (c : CurSel)
  /-- `get_s24_le`, R185 -/
  | getS24Le (c : CurSel)
  /-- `get_s32_le`, R186 -/
  | getS32Le (c : CurSel)
  /-- `get_s16_be`, R187 -/
  | getS16Be (c : CurSel)
  /-- `get_s24_be`, R188 -/
  | getS24Be (c : CurSel)
  /-- `get_s32_be`, R189 -/
  | getS32Be (c : CurSel)
  /-- `set_u8`, R190 -/
  | setU8 (c : CurSel) (a : Word)
  /-- `set_u16_le`, R191 -/
  | setU16Le (c : CurSel) (a : Word)
  /-- `set_u24_le`, R192 -/
  | setU24Le (c : CurSel) (a : Word)
  /-- `set_u32_le`, R193 -/
  | setU32Le (c : CurSel) (a : Word)
  /-- `set_u16_be`, R194 -/
  | setU16Be (c : CurSel) (a : Word)
  /-- `set_u24_be`, R195 -/
  | setU24Be (c : CurSel) (a : Word)
  /-- `set_u32_be`, R196 -/
  | setU32Be (c : CurSel) (a : Word)
  /-- `set_s8`, R197 -/
  | setS8 (c : CurSel) (a : Word)
  /-- `set_s16_le`, R198 -/
  | setS16Le (c : CurSel) (a : Word)
  /-- `set_s24_le`, R199 -/
  | setS24Le (c : CurSel) (a : Word)
  /-- `set_s32_le`, R200 -/
  | setS32Le (c : CurSel) (a : Word)
  /-- `set_s16_be`, R201 -/
  | setS16Be (c : CurSel) (a : Word)
  /-- `set_s24_be`, R202 -/
  | setS24Be (c : CurSel) (a : Word)
  /-- `set_s32_be`, R203 -/
  | setS32Be (c : CurSel) (a : Word)
  /-- `get_string`, R210 -/
  | getString (c : CurSel)
  /-- `get_data`, R212 -/
  | getData (c : CurSel) (a b : Word)
  /-- `set_data`, R214 -/
  | setData (c : CurSel) (a b : Word)
  /-- `vlc_put`, R230 -/
  | vlcPut (c : CurSel) (a : Word)
  /-- `vlc_get`, R231 -/
  | vlcGet (c : CurSel)
  /-- `codec_open`, R270 -/
  | codecOpen (mode : CodecMode) (ty : VlcType) (a : Word)
  /-- `codec_close`, R271 -/
  | codecClose
  /-- `deflate_step`, R273 -/
  | deflateStep
  /-- `deflate_run`, R276 -/
  | deflateRun
  /-- `inflate_step`, R292 -/
  | inflateStep
  /-- `inflate_run`, R299 -/
  | inflateRun
  /-- `codec_state`, R277 -/
  | codecState
  /-- `win_find`, R257 -/
  | winFind
  /-- `token.literal_pair`, R103 -/
  | tokenLiteralPair (b0 b1 : Byte)
  /-- `token.match`, R104 -/
  | tokenMatch (offset value : Word)
  /-- `token.single_literal`, R105 -/
  | tokenSingleLiteral (b0 : Byte)
  /-- `vlc.fixed`, R225 -/
  | vlcFixed (v : Word)
  /-- `vlc.golomb`, R226 -/
  | vlcGolomb (v : Word)
  /-- `vlc.gamma`, R227 -/
  | vlcGamma (v : Word)
deriving DecidableEq, Repr

/-- The table row a token stands for. -/
def Token.instr : Token → Instr
  | .literalPair b0 b1 => .tokenLiteralPair b0 b1
  | .singleLiteral b0 => .tokenSingleLiteral b0
  | .matchRef offset value => .tokenMatch offset value

/-- The table row that the code of `v` under a strategy stands for. -/
def VlcType.instr (ty : VlcType) (v : Word) : Instr :=
  match ty with
  | .fixed => .vlcFixed v
  | .golomb => .vlcGolomb v
  | .gamma => .vlcGamma v

end Sys2Proof
end

