-- ==== Sys2Proof/WellFormed.lean ====
section
/-! DEFINITION. Which terms of `Instr` stand for a command or a stream form of the spec. -/

namespace Sys2Proof

/-- The legal range of the VLC parameter of `codec_open` (44_vlc.md R224). -/
def vlcParamOk (ty : VlcType) (a : Word) : Bool :=
  match ty with
  | .fixed => decide (1 ≤ a.toNat ∧ a.toNat ≤ 32)
  | .golomb => decide (a.toNat ≤ 31)
  | .gamma => decide (a = 0)

/-- A bit count of the `*bits` commands is 0 to 32 (30_encoding.md R95, R99). -/
def countOk (n : BitVec 6) : Bool := decide (n.toNat ≤ 32)

/-- Well-formedness: the checks of 30_encoding.md R99 that a term of `Instr` can fail, and
44_vlc.md R222 (Elias-gamma has no code for 0). -/
def Instr.wf : Instr → Bool
  | .attach _ _ _ => true
  | .goto _ _ => true
  | .sync _ => true
  | .tell _ => true
  | .leftBytes _ => true
  | .leftBits _ => true
  | .skipBytes _ _ => true
  | .skipBits _ _ => true
  | .getU1 _ => true
  | .setU1 _ _ => true
  | .getUbits _ n => countOk n
  | .getSbits _ n => countOk n
  | .setUbits _ n _ => countOk n
  | .setSbits _ n _ => countOk n
  | .peekUbits _ n => countOk n
  | .peekSbits _ n => countOk n
  | .getU8 _ => true
  | .getU16Le _ => true
  | .getU24Le _ => true
  | .getU32Le _ => true
  | .getU16Be _ => true
  | .getU24Be _ => true
  | .getU32Be _ => true
  | .getS8 _ => true
  | .getS16Le _ => true
  | .getS24Le _ => true
  | .getS32Le _ => true
  | .getS16Be _ => true
  | .getS24Be _ => true
  | .getS32Be _ => true
  | .setU8 _ _ => true
  | .setU16Le _ _ => true
  | .setU24Le _ _ => true
  | .setU32Le _ _ => true
  | .setU16Be _ _ => true
  | .setU24Be _ _ => true
  | .setU32Be _ _ => true
  | .setS8 _ _ => true
  | .setS16Le _ _ => true
  | .setS24Le _ _ => true
  | .setS32Le _ _ => true
  | .setS16Be _ _ => true
  | .setS24Be _ _ => true
  | .setS32Be _ _ => true
  | .getString _ => true
  | .getData _ _ _ => true
  | .setData _ _ _ => true
  | .vlcPut _ _ => true
  | .vlcGet _ => true
  | .codecOpen _ ty a => vlcParamOk ty a
  | .codecClose => true
  | .deflateStep => true
  | .deflateRun => true
  | .inflateStep => true
  | .inflateRun => true
  | .codecState => true
  | .winFind => true
  | .tokenLiteralPair _ _ => true
  | .tokenMatch _ _ => true
  | .tokenSingleLiteral _ => true
  | .vlcFixed _ => true
  | .vlcGolomb _ => true
  | .vlcGamma v => decide (v ≠ 0)

end Sys2Proof
end

