-- ==== Sys2Proof/Decode.lean ====
section
/-! DEFINITION. Decoding and encoding of the 80-bit commands (30_encoding.md R91 to R99), of the
variable-length codes (44_vlc.md R222 to R229) and of the tokens (30_encoding.md R102 to R106). -/

namespace Sys2Proof

/-! ## Commands -/

/-- The six fields of a command word (30_encoding.md R91). -/
structure CommandFields where
  op : BitVec 8
  c : BitVec 1
  z : BitVec 1
  n : BitVec 6
  a : Word
  b : Word
deriving DecidableEq, Repr

/-- Bits 79:72, 71, 70, 69:64, 63:32 and 31:0 of a command word (30_encoding.md R91). -/
def unpackCommand (w : CommandWord) : CommandFields :=
  { op := w.extractLsb' 72 8
    c := w.extractLsb' 71 1
    z := w.extractLsb' 70 1
    n := w.extractLsb' 64 6
    a := w.extractLsb' 32 32
    b := w.extractLsb' 0 32 }

/-- The command word with these fields (30_encoding.md R91). -/
def packCommand (f : CommandFields) : CommandWord :=
  f.op ++ f.c ++ f.z ++ f.n ++ f.a ++ f.b

/-- The formats of 30_encoding.md R93. -/
inductive Format where
  | Z
  | N
  | A
  | NA
  | AB
  | O
  | P
deriving DecidableEq, Repr

/-- Why a word is illegal (30_encoding.md R99), by name. -/
inductive DecodeError where
  /-- `op` is not in the table of R96. -/
  | reservedOpcode (op : BitVec 8)
  /-- Bit 70 is set. -/
  | reservedBitSet
  /-- `c` is not 0 in a format that does not use it. -/
  | cursorNotZero
  /-- `n` is not 0 in a format that does not use it. -/
  | countNotZero
  /-- `n` is 33 to 63 in format N or NA. -/
  | countTooWide (n : BitVec 6)
  /-- `n[5:3]` is not 0 in format P. -/
  | modeBitsNotZero
  /-- `a` is not 0 in a format that does not use it. -/
  | operandANotZero
  /-- `b` is not 0 in a format that does not use it. -/
  | operandBNotZero
  /-- `n[2:1] = 3` in `codec_open`. -/
  | vlcTypeReserved
  /-- The parameter of `codec_open` is outside its range. -/
  | vlcParamOutOfRange
deriving DecidableEq, Repr

/-- Does the format use the `c` field? (30_encoding.md R93) -/
def Format.usesC : Format → Bool
  | .Z | .N | .A | .NA | .AB => true
  | .O | .P => false

/-- Does the format use the `a` field? (30_encoding.md R93) -/
def Format.usesA : Format → Bool
  | .A | .NA | .AB | .P => true
  | .Z | .N | .O => false

/-- Does the format use the `b` field? (30_encoding.md R93) -/
def Format.usesB : Format → Bool
  | .AB => true
  | .Z | .N | .A | .NA | .O | .P => false

/-- What is wrong with the `n` field under a format (30_encoding.md R93, R99). -/
def countError (fmt : Format) (n : BitVec 6) : Option DecodeError :=
  match fmt with
  | .N | .NA => if countOk n then none else some (.countTooWide n)
  | .P => if n.extractLsb' 3 3 = 0 then none else some .modeBitsNotZero
  | .Z | .A | .AB | .O => if n = 0 then none else some .countNotZero

/-- The first field that breaks the format, if one does (30_encoding.md R93, R99). -/
def formatError (fmt : Format) (f : CommandFields) : Option DecodeError :=
  if f.z ≠ 0 then some .reservedBitSet
  else if fmt.usesC = false ∧ f.c ≠ 0 then some .cursorNotZero
  else match countError fmt f.n with
    | some e => some e
    | none =>
      if fmt.usesA = false ∧ f.a ≠ 0 then some .operandANotZero
      else if fmt.usesB = false ∧ f.b ≠ 0 then some .operandBNotZero
      else none

/-- The command `i`, if the fields keep to its format. -/
def checked (fmt : Format) (f : CommandFields) (i : Instr) : Except DecodeError Instr :=
  match formatError fmt f with
  | some e => .error e
  | none => .ok i

/-- `c = 0` is `CUR[0]`, `c = 1` is `CUR[1]` (30_encoding.md R91). -/
def curSelOf (c : BitVec 1) : CurSel := if c = 0 then .c0 else .c1

/-- The `c` field of a cursor selection. -/
def CurSel.code : CurSel → BitVec 1
  | .c0 => 0
  | .c1 => 1

/-- `n[0]` of `codec_open` (30_encoding.md R95). -/
def codecModeOf (m : BitVec 1) : CodecMode := if m = 0 then .enc else .dec

/-- The mode bit of `codec_open`. -/
def CodecMode.code : CodecMode → BitVec 1
  | .enc => 0
  | .dec => 1

/-- `n[2:1]` of `codec_open`; 3 is illegal (30_encoding.md R95). -/
def vlcTypeOf (t : BitVec 2) : Option VlcType :=
  match t.toNat with
  | 0 => some .fixed
  | 1 => some .golomb
  | 2 => some .gamma
  | _ => none

/-- The number of a strategy in `VLC_TYPE` (10_state.md R29). -/
def VlcType.code : VlcType → BitVec 2
  | .fixed => 0
  | .golomb => 1
  | .gamma => 2

/-- `codec_open` from its fields: mode, type and the range of the parameter (30_encoding.md R95,
R99; 44_vlc.md R224). -/
def decodeCodecOpen (f : CommandFields) : Except DecodeError Instr :=
  match formatError .P f with
  | some e => .error e
  | none =>
    match vlcTypeOf (f.n.extractLsb' 1 2) with
    | none => .error .vlcTypeReserved
    | some ty =>
      if vlcParamOk ty f.a then .ok (.codecOpen (codecModeOf (f.n.extractLsb' 0 1)) ty f.a)
      else .error .vlcParamOutOfRange

/-- The opcode map of 30_encoding.md R96; every other value of `op` is illegal. -/
def decodeFields (f : CommandFields) : Except DecodeError Instr :=
  match f.op.toNat with
  | 0x01 => checked .AB f (.attach (curSelOf f.c) f.a f.b)
  | 0x02 => checked .A f (.goto (curSelOf f.c) f.a)
  | 0x03 => checked .Z f (.sync (curSelOf f.c))
  | 0x04 => checked .Z f (.tell (curSelOf f.c))
  | 0x05 => checked .Z f (.leftBytes (curSelOf f.c))
  | 0x06 => checked .Z f (.leftBits (curSelOf f.c))
  | 0x08 => checked .A f (.skipBytes (curSelOf f.c) f.a)
  | 0x09 => checked .A f (.skipBits (curSelOf f.c) f.a)
  | 0x10 => checked .Z f (.getU1 (curSelOf f.c))
  | 0x11 => checked .A f (.setU1 (curSelOf f.c) f.a)
  | 0x12 => checked .N f (.getUbits (curSelOf f.c) f.n)
  | 0x13 => checked .N f (.getSbits (curSelOf f.c) f.n)
  | 0x14 => checked .NA f (.setUbits (curSelOf f.c) f.n f.a)
  | 0x15 => checked .NA f (.setSbits (curSelOf f.c) f.n f.a)
  | 0x16 => checked .N f (.peekUbits (curSelOf f.c) f.n)
  | 0x17 => checked .N f (.peekSbits (curSelOf f.c) f.n)
  | 0x20 => checked .Z f (.getU8 (curSelOf f.c))
  | 0x21 => checked .Z f (.getU16Le (curSelOf f.c))
  | 0x22 => checked .Z f (.getU24Le (curSelOf f.c))
  | 0x23 => checked .Z f (.getU32Le (curSelOf f.c))
  | 0x25 => checked .Z f (.getU16Be (curSelOf f.c))
  | 0x26 => checked .Z f (.getU24Be (curSelOf f.c))
  | 0x27 => checked .Z f (.getU32Be (curSelOf f.c))
  | 0x28 => checked .Z f (.getS8 (curSelOf f.c))
  | 0x29 => checked .Z f (.getS16Le (curSelOf f.c))
  | 0x2A => checked .Z f (.getS24Le (curSelOf f.c))
  | 0x2B => checked .Z f (.getS32Le (curSelOf f.c))
  | 0x2D => checked .Z f (.getS16Be (curSelOf f.c))
  | 0x2E => checked .Z f (.getS24Be (curSelOf f.c))
  | 0x2F => checked .Z f (.getS32Be (curSelOf f.c))
  | 0x30 => checked .A f (.setU8 (curSelOf f.c) f.a)
  | 0x31 => checked .A f (.setU16Le (curSelOf f.c) f.a)
  | 0x32 => checked .A f (.setU24Le (curSelOf f.c) f.a)
  | 0x33 => checked .A f (.setU32Le (curSelOf f.c) f.a)
  | 0x35 => checked .A f (.setU16Be (curSelOf f.c) f.a)
  | 0x36 => checked .A f (.setU24Be (curSelOf f.c) f.a)
  | 0x37 => checked .A f (.setU32Be (curSelOf f.c) f.a)
  | 0x38 => checked .A f (.setS8 (curSelOf f.c) f.a)
  | 0x39 => checked .A f (.setS16Le (curSelOf f.c) f.a)
  | 0x3A => checked .A f (.setS24Le (curSelOf f.c) f.a)
  | 0x3B => checked .A f (.setS32Le (curSelOf f.c) f.a)
  | 0x3D => checked .A f (.setS16Be (curSelOf f.c) f.a)
  | 0x3E => checked .A f (.setS24Be (curSelOf f.c) f.a)
  | 0x3F => checked .A f (.setS32Be (curSelOf f.c) f.a)
  | 0x40 => checked .Z f (.getString (curSelOf f.c))
  | 0x41 => checked .AB f (.getData (curSelOf f.c) f.a f.b)
  | 0x42 => checked .AB f (.setData (curSelOf f.c) f.a f.b)
  | 0x48 => checked .A f (.vlcPut (curSelOf f.c) f.a)
  | 0x49 => checked .Z f (.vlcGet (curSelOf f.c))
  | 0x50 => decodeCodecOpen f
  | 0x51 => checked .O f .codecClose
  | 0x52 => checked .O f .deflateStep
  | 0x53 => checked .O f .deflateRun
  | 0x54 => checked .O f .inflateStep
  | 0x55 => checked .O f .inflateRun
  | 0x56 => checked .O f .codecState
  | 0x57 => checked .O f .winFind
  | _ => .error (.reservedOpcode f.op)

/-- Decoding is total: every 80-bit word is one command or illegal by a named reason
(30_encoding.md R99). -/
def decode (w : CommandWord) : Except DecodeError Instr := decodeFields (unpackCommand w)

/-- The fields of a command; the stream forms have no command word. -/
def encodeFields : Instr → Option CommandFields
  | .attach c a b => some ⟨0x01, c.code, 0, 0, a, b⟩
  | .goto c a => some ⟨0x02, c.code, 0, 0, a, 0⟩
  | .sync c => some ⟨0x03, c.code, 0, 0, 0, 0⟩
  | .tell c => some ⟨0x04, c.code, 0, 0, 0, 0⟩
  | .leftBytes c => some ⟨0x05, c.code, 0, 0, 0, 0⟩
  | .leftBits c => some ⟨0x06, c.code, 0, 0, 0, 0⟩
  | .skipBytes c a => some ⟨0x08, c.code, 0, 0, a, 0⟩
  | .skipBits c a => some ⟨0x09, c.code, 0, 0, a, 0⟩
  | .getU1 c => some ⟨0x10, c.code, 0, 0, 0, 0⟩
  | .setU1 c a => some ⟨0x11, c.code, 0, 0, a, 0⟩
  | .getUbits c n => some ⟨0x12, c.code, 0, n, 0, 0⟩
  | .getSbits c n => some ⟨0x13, c.code, 0, n, 0, 0⟩
  | .setUbits c n a => some ⟨0x14, c.code, 0, n, a, 0⟩
  | .setSbits c n a => some ⟨0x15, c.code, 0, n, a, 0⟩
  | .peekUbits c n => some ⟨0x16, c.code, 0, n, 0, 0⟩
  | .peekSbits c n => some ⟨0x17, c.code, 0, n, 0, 0⟩
  | .getU8 c => some ⟨0x20, c.code, 0, 0, 0, 0⟩
  | .getU16Le c => some ⟨0x21, c.code, 0, 0, 0, 0⟩
  | .getU24Le c => some ⟨0x22, c.code, 0, 0, 0, 0⟩
  | .getU32Le c => some ⟨0x23, c.code, 0, 0, 0, 0⟩
  | .getU16Be c => some ⟨0x25, c.code, 0, 0, 0, 0⟩
  | .getU24Be c => some ⟨0x26, c.code, 0, 0, 0, 0⟩
  | .getU32Be c => some ⟨0x27, c.code, 0, 0, 0, 0⟩
  | .getS8 c => some ⟨0x28, c.code, 0, 0, 0, 0⟩
  | .getS16Le c => some ⟨0x29, c.code, 0, 0, 0, 0⟩
  | .getS24Le c => some ⟨0x2A, c.code, 0, 0, 0, 0⟩
  | .getS32Le c => some ⟨0x2B, c.code, 0, 0, 0, 0⟩
  | .getS16Be c => some ⟨0x2D, c.code, 0, 0, 0, 0⟩
  | .getS24Be c => some ⟨0x2E, c.code, 0, 0, 0, 0⟩
  | .getS32Be c => some ⟨0x2F, c.code, 0, 0, 0, 0⟩
  | .setU8 c a => some ⟨0x30, c.code, 0, 0, a, 0⟩
  | .setU16Le c a => some ⟨0x31, c.code, 0, 0, a, 0⟩
  | .setU24Le c a => some ⟨0x32, c.code, 0, 0, a, 0⟩
  | .setU32Le c a => some ⟨0x33, c.code, 0, 0, a, 0⟩
  | .setU16Be c a => some ⟨0x35, c.code, 0, 0, a, 0⟩
  | .setU24Be c a => some ⟨0x36, c.code, 0, 0, a, 0⟩
  | .setU32Be c a => some ⟨0x37, c.code, 0, 0, a, 0⟩
  | .setS8 c a => some ⟨0x38, c.code, 0, 0, a, 0⟩
  | .setS16Le c a => some ⟨0x39, c.code, 0, 0, a, 0⟩
  | .setS24Le c a => some ⟨0x3A, c.code, 0, 0, a, 0⟩
  | .setS32Le c a => some ⟨0x3B, c.code, 0, 0, a, 0⟩
  | .setS16Be c a => some ⟨0x3D, c.code, 0, 0, a, 0⟩
  | .setS24Be c a => some ⟨0x3E, c.code, 0, 0, a, 0⟩
  | .setS32Be c a => some ⟨0x3F, c.code, 0, 0, a, 0⟩
  | .getString c => some ⟨0x40, c.code, 0, 0, 0, 0⟩
  | .getData c a b => some ⟨0x41, c.code, 0, 0, a, b⟩
  | .setData c a b => some ⟨0x42, c.code, 0, 0, a, b⟩
  | .vlcPut c a => some ⟨0x48, c.code, 0, 0, a, 0⟩
  | .vlcGet c => some ⟨0x49, c.code, 0, 0, 0, 0⟩
  | .codecOpen mode ty a => some ⟨0x50, 0, 0, (0 : BitVec 3) ++ ty.code ++ mode.code, a, 0⟩
  | .codecClose => some ⟨0x51, 0, 0, 0, 0, 0⟩
  | .deflateStep => some ⟨0x52, 0, 0, 0, 0, 0⟩
  | .deflateRun => some ⟨0x53, 0, 0, 0, 0, 0⟩
  | .inflateStep => some ⟨0x54, 0, 0, 0, 0, 0⟩
  | .inflateRun => some ⟨0x55, 0, 0, 0, 0, 0⟩
  | .codecState => some ⟨0x56, 0, 0, 0, 0, 0⟩
  | .winFind => some ⟨0x57, 0, 0, 0, 0, 0⟩
  | .tokenLiteralPair _ _ => none
  | .tokenMatch _ _ => none
  | .tokenSingleLiteral _ => none
  | .vlcFixed _ => none
  | .vlcGolomb _ => none
  | .vlcGamma _ => none

/-- The word of a command, written from the same table as the decoder (30_encoding.md R91, R96). -/
def encode (i : Instr) : Option CommandWord := (encodeFields i).map packCommand

/-! ## Fields of a bit stream, most significant bit first (00_scope.md R9) -/

/-- The number that `n` bits of a stream, from bit `i` on, stand for. -/
def readField (bits : BitStream) (i : Nat) : Nat → Nat
  | 0 => 0
  | n + 1 => 2 * readField bits i n + (bits (i + n)).toNat

/-- The low `n` bits of `v`, most significant first. -/
def fieldBits : Nat → Nat → List Bool
  | 0, _ => []
  | n + 1, v => v.testBit n :: fieldBits n v

/-! ## Variable-length codes -/

/-- `VLC_MIN` (44_vlc.md R222). -/
def vlcMin : VlcType → Nat
  | .fixed => 0
  | .golomb => 0
  | .gamma => 1

/-- `VLC_MAX` (44_vlc.md R222). -/
def vlcMax (ty : VlcType) (p : Nat) : Nat :=
  match ty with
  | .fixed => 2 ^ p - 1
  | .golomb => 2 ^ 32 - 1
  | .gamma => 2 ^ 32 - 1

/-- `vlc_len(v)` (44_vlc.md R223). -/
def vlcLen (ty : VlcType) (p v : Nat) : Nat :=
  match ty with
  | .fixed => p
  | .golomb => v / 2 ^ p + 1 + p
  | .gamma => 2 * Nat.log2 v + 1

/-- The code of `v`, first bit first (44_vlc.md R225 to R227). -/
def vlcCode (ty : VlcType) (p v : Nat) : List Bool :=
  match ty with
  | .fixed => fieldBits p v
  | .golomb => List.replicate (v / 2 ^ p) true ++ false :: fieldBits p v
  | .gamma => List.replicate (Nat.log2 v) false ++ fieldBits (Nat.log2 v + 1) v

/-- The unary part of a code: how many bits equal to `one` stand before the first other bit. The
first number counts the bits left, `q` the bits met. The order of the tests is that of
44_vlc.md R229: no bit left, then the closing bit, then the limit. -/
def vlcUnary (bits : BitStream) (one : Bool) (limit : Nat) : Nat → Nat → Nat → Except Status Nat
  | 0, _, _ => .error .eCodecTrunc
  | left + 1, i, q =>
    if bits i = one then
      if q + 1 > limit then .error .eCodecVlc else vlcUnary bits one limit left (i + 1) (q + 1)
    else .ok q

/-- `vlc_decode` (44_vlc.md R229): the value and the length of the code that starts at bit `i`, with
`left` bits left from there on. -/
def vlcDecode (ty : VlcType) (p : Nat) (bits : BitStream) (i left : Nat) : Except Status (Nat × Nat) :=
  match ty with
  | .fixed => if left < p then .error .eCodecTrunc else .ok (readField bits i p, p)
  | .golomb =>
    match vlcUnary bits true ((2 ^ 32 - 1) / 2 ^ p) left i 0 with
    | .error e => .error e
    | .ok q =>
      if left - (q + 1) < p then .error .eCodecTrunc
      else .ok (q * 2 ^ p + readField bits (i + q + 1) p, q + 1 + p)
  | .gamma =>
    match vlcUnary bits false 31 left i 0 with
    | .error e => .error e
    | .ok n =>
      if left - (n + 1) < n then .error .eCodecTrunc
      else .ok (2 ^ n + readField bits (i + n + 1) n, 2 * n + 1)

/-! ## Tokens -/

/-- The bits of a token, first bit first; `posBits` is `POS_BITS` before the token
(30_encoding.md R103 to R105). -/
def tokenBits (posBits : Nat) (ty : VlcType) (p : Nat) : Token → List Bool
  | .literalPair b0 b1 => false :: (fieldBits 8 b0.toNat ++ fieldBits 8 b1.toNat)
  | .singleLiteral b0 => false :: fieldBits 8 b0.toNat
  | .matchRef offset value => true :: (fieldBits posBits offset.toNat ++ vlcCode ty p value.toNat)

/-- The length of a token in bits (30_encoding.md R109). -/
def tokenLen (posBits : Nat) (ty : VlcType) (p : Nat) : Token → Nat
  | .literalPair _ _ => 17
  | .singleLiteral _ => 9
  | .matchRef _ value => 1 + posBits + vlcLen ty p value.toNat

/-- The token that starts at bit 0 of a stream with `left` bits left, and its length; `left` is at
least 9 where the block calls it (30_encoding.md R106; 47_lzsw_decode.md R292). -/
def decodeToken (posBits : Nat) (ty : VlcType) (p : Nat) (bits : BitStream) (left : Nat) :
    Except Status (Token × Nat) :=
  if bits 0 then
    if left - 1 < posBits then .error .eCodecTrunc
    else match vlcDecode ty p bits (1 + posBits) (left - 1 - posBits) with
      | .error e => .error e
      | .ok (v, len) =>
        .ok (.matchRef (BitVec.ofNat 32 (readField bits 1 posBits)) (BitVec.ofNat 32 v), 1 + posBits + len)
  else if 16 ≤ left - 1 then
    .ok (.literalPair (BitVec.ofNat 8 (readField bits 1 8)) (BitVec.ofNat 8 (readField bits 9 8)), 17)
  else .ok (.singleLiteral (BitVec.ofNat 8 (readField bits 1 8)), 9)

/-! ## Rows of the opcode table as numbers -/

/-- A token row of the table: a pattern of `width` stream bits whose last bit is bit 0 of `w`, padded
with zero bits to whole bytes (log 14). -/
def decodeTokenRow (width w : Nat) : Option Instr :=
  match decodeToken 0 .fixed 8 (fun i => decide (i < width) && w.testBit (width - 1 - i))
      (8 * ((width + 7) / 8)) with
  | .ok (t, _) => some t.instr
  | .error _ => none

/-- The instruction that the decoder reads from a row of the opcode table whose bits are `w`: a
command is one 80-bit word, bit 31..0 its `b` field; the literal tokens have 17 and 9 bits (24 and 16
in whole bytes). The rows `token.match` and `vlc.*` have no fixed width and are no command words
(log 14). -/
def decodeTableWord (nbits w : Nat) : Option Instr :=
  match nbits with
  | 80 => (decode (BitVec.ofNat 80 w)).toOption
  | 17 => decodeTokenRow 17 w
  | 24 => decodeTokenRow 17 w
  | 9 => decodeTokenRow 9 w
  | 16 => decodeTokenRow 9 w
  | _ => none

end Sys2Proof
end

