-- ==== Sys2Proof/Config.lean ====
section
/-! DEFINITION. What an implementation fixes and the free values: opaque constants, so that nothing
can be proved of their value beyond their type. -/

namespace Sys2Proof

/-- `MAX_WINDOW - 2`. The range of the type is the range the spec gives the parameter:
`2 <= MAX_WINDOW <= 2^31` (00_scope.md R6, log 3). -/
opaque Config.maxWindowLessTwo : Fin 2147483647

/-- The OPEN parameter `MAX_WINDOW` of a block (00_scope.md R6). -/
def Config.maxWindow : Nat := Config.maxWindowLessTwo.val + 2

/-- `TABLE_SIZE - 1`, for `1 <= TABLE_SIZE` (00_scope.md R6, log 3). -/
opaque Config.tableSizeLessOne : Nat

/-- The OPEN parameter `TABLE_SIZE` of a block (00_scope.md R6). -/
def Config.tableSize : Nat := Config.tableSizeLessOne + 1

/-- FREE VALUE. A byte that a command had not finished writing when reset was asserted during it
(70_reset_and_hazards.md R350, 93_implementation_defined.md U12, log 8). The argument is the counter
`State.freeCount`. -/
opaque Config.tornByte : Nat → Byte

/-- FREE VALUE. The offset that `find` reports for a node whose address lies below the window, which
only a host that rewrites indexed source bytes can bring about (70_reset_and_hazards.md R362,
93_implementation_defined.md U11, log 9). The arguments are the node's address and the window start. -/
opaque Config.staleOffset : Word → Word → Word

end Sys2Proof
end

