-- ==== Sys2Proof/Machine/State.lean ====
section
/-! DEFINITION. The state of the block, the memory it shares with the host, and what the host does
next (10_state.md, 20_memory.md, 70_reset_and_hazards.md). -/

namespace Sys2Proof.Machine

/-- Memory as a list of (address, byte) pairs; an address not listed reads 0 (log 2). The canonical
form is `Memory.wf`. -/
abbrev Memory := List Host.Cell

/-- A cursor context (10_state.md R20). -/
structure Cursor where
  /-- `ORIGIN`: address of the first byte of the region. -/
  origin : Word
  /-- `POS`: address of the byte the next access touches. -/
  pos : Word
  /-- `END`: address one past the last byte of the region. -/
  fin : Word
  /-- `BITOFF`: bits already consumed or produced in the current byte. -/
  bitoff : BitVec 3
deriving DecidableEq, Repr

/-- `CSTATE` (10_state.md R28). The values 6 and 7 are never produced and have no constructor. -/
inductive CodecState where
  | closed
  | enc
  | dec
  | encDone
  | decDone
  | failed
deriving DecidableEq, Repr

/-- A live node of the pool (10_state.md R33). -/
structure Node where
  /-- `sig[0]`, `sig[1]`, `sig[2]`: the three bytes at `addr` when the node was made. -/
  sig : Byte × Byte × Byte
  addr : Word
  /-- `circular_offset`. -/
  coff : Nat
  prev : Nat
  next : Nat
deriving DecidableEq, Repr

/-- The hash table, the node pool and the free list (10_state.md R32 to R34). -/
structure WindowIndex where
  /-- `HT`: slot and head, slots rising; a slot not listed is `EMPTY`. -/
  ht : List (Nat × Nat)
  /-- `NODE`: index and node of every live node, indices rising; a node not listed is free. -/
  nodes : List (Nat × Node)
  /-- The top part of the free list: nodes freed since the pool was set up, the last freed first. -/
  freed : List Nat
  /-- The rest of the free list is `fresh, fresh + 1, ..., MAX_WINDOW - 1`. -/
  fresh : Nat
deriving DecidableEq, Repr

/-- The index right after `codec_open`: every slot `EMPTY`, every node free, 0 on top of the free
list (10_state.md R34). -/
def WindowIndex.empty : WindowIndex := { ht := [], nodes := [], freed := [], fresh := 0 }

/-- A response: status and the two results (30_encoding.md R94). -/
structure Response where
  status : Status
  r0 : Word
  r1 : Word
deriving DecidableEq, Repr

/-- What the host does next (00_scope.md R7; log 5). -/
inductive HostInput where
  /-- The host presents a command word and waits for its response (30_encoding.md R90). -/
  | command (w : CommandWord)
  /-- The host writes a byte of its memory between commands (10_state.md R37, 20_memory.md R71). -/
  | write (a : Word) (b : Byte)
  /-- Reset is asserted between commands (70_reset_and_hazards.md R350). -/
  | reset
  /-- Reset is asserted while the block executes this command (70_reset_and_hazards.md R350). -/
  | resetDuring (w : CommandWord)
deriving DecidableEq, Repr

/-- Why the machine stops with a fault: nothing stops it. Every exception of the spec is a command
that ends with an error status, after which the next command is accepted (60_exceptions.md R320), and
memory is total, so an access always meets a byte (93_implementation_defined.md U9, log 1). A closed
inductive without constructors: no step faults (safe or unsafe: see log 1). -/
inductive Fault where
deriving DecidableEq, Repr

/-- Why the machine refuses a command. -/
inductive Refusal where
  /-- Raised by an arm of `exec` whose instruction has no meaning yet; no arm does (safe). -/
  | notModelled (mnemonic : String)
deriving DecidableEq, Repr

/-- The state of the system: the block's registers and index, the host's memory, the parameters of
the block and the model's own fields (INVENTORY.md, State). -/
structure State where
  /-- `CUR[0]` -/
  cur0 : Cursor
  /-- `CUR[1]` -/
  cur1 : Cursor
  /-- `CSTATE` -/
  cstate : CodecState
  /-- `VLC_TYPE` -/
  vlcType : VlcType
  /-- `VLC_PARAM` -/
  vlcParam : BitVec 6
  /-- `W_ORG` -/
  wOrg : Word
  /-- `W_END` -/
  wEnd : Word
  /-- `W_LEN` -/
  wLen : Word
  /-- `POS_BITS` -/
  posBits : BitVec 6
  /-- `BASE` -/
  base : Word
  /-- `S_END` -/
  sEnd : Word
  /-- `HT`, `NODE` and the free list -/
  index : WindowIndex
  /-- memory (10_state.md R37) -/
  mem : Memory
  /-- the parameter `MAX_WINDOW` of this block (log 3) -/
  maxWindow : Nat
  /-- the parameter `TABLE_SIZE` of this block (log 3) -/
  tableSize : Nat
  /-- what the host does next (log 5) -/
  inputs : List HostInput
  /-- the last response, which no command reads (10_state.md R27; log 6) -/
  response : Option Response
  /-- the counter of free values read (log 8) -/
  freeCount : Nat
deriving DecidableEq, Repr

/-- A detached cursor at address 0 (10_state.md R23, R38). -/
def Cursor.detached : Cursor := { origin := 0, pos := 0, fin := 0, bitoff := 0 }

/-- The machine right after reset (10_state.md R38, 70_reset_and_hazards.md R351). The index, the
memory and the model's own fields take the values of log 2 to log 8. -/
def State.reset : State :=
  { cur0 := Cursor.detached
    cur1 := Cursor.detached
    cstate := .closed
    vlcType := .fixed
    vlcParam := 0
    wOrg := 0
    wEnd := 0
    wLen := 0
    posBits := 0
    base := 0
    sEnd := 0
    index := WindowIndex.empty
    mem := []
    maxWindow := Config.maxWindow
    tableSize := Config.tableSize
    inputs := []
    response := none
    freeCount := 0 }

end Sys2Proof.Machine
end

