-- ==== Sys2Proof/Machine/Flags.lean ====
section
/-! DEFINITION. The block has no flag (10_state.md R27): the outcome of a command is the status field
of its response. This file gives the numbers the host sees: the status codes, the response word and
the codes of `CSTATE`. -/

namespace Sys2Proof.Machine

/-- The code of a status (30_encoding.md R97). -/
def statusCode : Status → BitVec 8
  | .ok => 0x00
  | .notFound => 0x01
  | .done => 0x02
  | .outFull => 0x03
  | .eUnaligned => 0x10
  | .eBounds => 0x11
  | .eIllegal => 0x12
  | .eSequence => 0x13
  | .eCodecVlc => 0x20
  | .eCodecOffset => 0x21
  | .eCodecTrunc => 0x22

/-- An error status is 0x10 and above (30_encoding.md R94, 60_exceptions.md R312). -/
def isError (st : Status) : Bool := decide (0x10 ≤ (statusCode st).toNat)

/-- The 72-bit response word: status 71:64, r0 63:32, r1 31:0 (30_encoding.md R94). -/
def responseWord (r : Response) : BitVec 72 := statusCode r.status ++ r.r0 ++ r.r1

/-- The value of `CSTATE` (10_state.md R28). -/
def codecStateCode : CodecState → BitVec 3
  | .closed => 0
  | .enc => 1
  | .dec => 2
  | .encDone => 3
  | .decDone => 4
  | .failed => 5

end Sys2Proof.Machine
end

