-- ==== Sys2Proof/Machine/Operands.lean ====
section
/-! DEFINITION. Operand arithmetic: extension to 32 bits, byte order, `clog2` (00_scope.md R8,
10_state.md R25, 20_memory.md R63). -/

namespace Sys2Proof.Machine

/-- A number as a 32-bit result, its value mod 2^32. -/
def word (v : Nat) : Word := BitVec.ofNat 32 v

/-- `zext_32(v)` of a `w`-bit number (00_scope.md R8). -/
def zext32 (w v : Nat) : Word := word (v % 2 ^ w)

/-- `sext_32(v, w)`: bit `w - 1` of the low `w` bits of `v` copied upwards; 0 for `w = 0`
(00_scope.md R8, 41_cursor_bits.md R154, 42_cursor_bytes.md R173). -/
def sext32 (w v : Nat) : Word := (BitVec.ofNat w v).signExtend 32

/-- `clog2(n)`, the ceiling of the base-2 logarithm, 0 at 0 and 1 (10_state.md R25). -/
def clog2 (n : Nat) : Nat := if n ≤ 1 then 0 else Nat.log2 (n - 1) + 1

/-- Byte order of a multi-byte access, chosen per command (20_memory.md R63). -/
inductive ByteOrder where
  | little
  | big
deriving DecidableEq, Repr

/-- The number a list of bytes stands for, its first byte the least significant. -/
def littleValue : List Byte → Nat
  | [] => 0
  | b :: rest => b.toNat + 256 * littleValue rest

/-- The bytes in ascending address order as one number (20_memory.md R63). -/
def composeBytes : ByteOrder → List Byte → Nat
  | .little, bs => littleValue bs
  | .big, bs => littleValue bs.reverse

/-- The low `n` bytes of `v`, the least significant first. -/
def littleBytes : Nat → Nat → List Byte
  | 0, _ => []
  | n + 1, v => BitVec.ofNat 8 v :: littleBytes n (v / 256)

/-- The low `n` bytes of `v` in ascending address order (20_memory.md R63). -/
def decomposeBytes (order : ByteOrder) (n v : Nat) : List Byte :=
  match order with
  | .little => littleBytes n v
  | .big => (littleBytes n v).reverse

end Sys2Proof.Machine
end

