-- ==== Sys2Proof/Machine/Ops.lean ====
section
/-! DEFINITION. The named operations over memory, cursors and the response, and the accesses that
the command families share. -/

namespace Sys2Proof.Machine

/-! ## Memory -/

/-- The byte at an address; an address not listed reads 0 (log 2). -/
def memRead : Memory → Nat → Byte
  | [], _ => 0
  | (k, b) :: rest, a => if k = a then b else memRead rest a

/-- Memory without an entry for the address. -/
def memErase : Memory → Nat → Memory
  | [], _ => []
  | (k, b) :: rest, a => if k = a then memErase rest a else (k, b) :: memErase rest a

/-- Insertion of an entry before the first higher address. -/
def memInsert : Memory → Nat → Byte → Memory
  | [], a, v => [(a, v)]
  | (k, b) :: rest, a, v => if a < k then (a, v) :: (k, b) :: rest else (k, b) :: memInsert rest a v

/-- `M[a] <- v` (00_scope.md R10). Writing 0, what an unlisted address reads, removes the entry. -/
def memWrite (m : Memory) (a : Nat) (v : Byte) : Memory :=
  if v = 0 then memErase m a else memInsert (memErase m a) a v

/-- The canonical form of memory: addresses strictly rising and below 2^32, no entry equal to what an
unlisted address reads. -/
def Memory.wf : Memory → Bool
  | [] => true
  | (k, b) :: rest =>
    decide (k < 2 ^ 32) && decide (b ≠ 0) && rest.all (fun cell => decide (k < cell.1)) && Memory.wf rest

/-- `MemRead(a, n)`: n bytes in ascending address order (00_scope.md R10). -/
def memReadBytes (m : Memory) (a : Nat) : Nat → List Byte
  | 0 => []
  | n + 1 => memRead m a :: memReadBytes m (a + 1) n

/-- `MemWrite(a, n, bytes)`: bytes stored at ascending addresses (00_scope.md R10). -/
def memWriteBytes (m : Memory) (a : Nat) : List Byte → Memory
  | [] => m
  | b :: rest => memWriteBytes (memWrite m a b) (a + 1) rest

/-- A copy of `n` bytes, one byte at a time in ascending order, each read before it is written
(20_memory.md R69, 47_lzsw_decode.md R296). -/
def memCopy (m : Memory) (src dst : Nat) : Nat → Memory
  | 0 => m
  | n + 1 => memCopy (memWrite m dst (memRead m src)) (src + 1) (dst + 1) n

/-! ## Bits of memory: bit `p` of the address space is bit `7 - p mod 8` of byte `p / 8`
(00_scope.md R9, 10_state.md R26) -/

/-- The bit at a bit address. -/
def readBit (m : Memory) (p : Nat) : Bool := (memRead m (p / 8)).getLsbD (7 - p % 8)

/-- The byte with one bit replaced, its other seven bits as they were (41_cursor_bits.md R151). -/
def putBit (old : Byte) (bitoff : Nat) (v : Bool) : Byte :=
  let mask : Byte := 1 <<< (7 - bitoff)
  (old &&& ~~~mask) ||| (if v then mask else 0)

/-- A bit write: read, modify and write back one byte (41_cursor_bits.md R151). -/
def writeBit (m : Memory) (p : Nat) (v : Bool) : Memory :=
  memWrite m (p / 8) (putBit (memRead m (p / 8)) (p % 8) v)

/-- Bits written one after the other from a bit address on. -/
def writeBits (m : Memory) (p : Nat) : List Bool → Memory
  | [] => m
  | v :: rest => writeBits (writeBit m p v) (p + 1) rest

/-! ## Cursors -/

/-- `CUR[c]` -/
def getCur (s : State) : CurSel → Cursor
  | .c0 => s.cur0
  | .c1 => s.cur1

/-- `CUR[c] <- k` -/
def setCur (s : State) (c : CurSel) (k : Cursor) : State :=
  match c with
  | .c0 => { s with cur0 := k }
  | .c1 => { s with cur1 := k }

/-- `size(c)` (10_state.md R24). Differences are of natural numbers (log 16). -/
def regionSize (k : Cursor) : Nat := k.fin.toNat - k.origin.toNat

/-- `offset(c)` (10_state.md R24). -/
def regionOffset (k : Cursor) : Nat := k.pos.toNat - k.origin.toNat

/-- `left_bytes(c)` (10_state.md R24). -/
def leftBytes (k : Cursor) : Nat := k.fin.toNat - k.pos.toNat

/-- `left_bits(c)` (10_state.md R24). -/
def leftBits (k : Cursor) : Nat := 8 * (k.fin.toNat - k.pos.toNat) - k.bitoff.toNat

/-- The bit address `8*POS + BITOFF` (10_state.md R26). -/
def bitAddr (k : Cursor) : Nat := 8 * k.pos.toNat + k.bitoff.toNat

/-- The cursor moved `n` bits forward, overflow of the bit offset carried into the byte position
(40_cursor_control.md R139). -/
def advance (k : Cursor) (n : Nat) : Cursor :=
  { k with pos := word (k.pos.toNat + (k.bitoff.toNat + n) / 8)
           bitoff := BitVec.ofNat 3 ((k.bitoff.toNat + n) % 8) }

/-- The synced cursor moved `n` whole bytes forward. -/
def advanceBytes (k : Cursor) (n : Nat) : Cursor := { k with pos := word (k.pos.toNat + n) }

/-- `sync` (40_cursor_control.md R132). -/
def syncCursor (k : Cursor) : Cursor :=
  if k.bitoff = 0 then k else { k with pos := word (k.pos.toNat + 1), bitoff := 0 }

/-- The bits of memory from the cursor on. -/
def bitsAt (m : Memory) (k : Cursor) : BitStream := fun i => readBit m (bitAddr k + i)

/-! ## Response -/

/-- The command ends: `return (S, r0, r1)` (00_scope.md R10). -/
def respond (st : Status) (r0 r1 : Word) (s : State) : Host.Outcome State Fault Refusal :=
  .next { s with response := some { status := st, r0 := r0, r1 := r1 } }

/-- TAKING AN EXCEPTION: `raise X`. The command ends with the error status and results 0; nothing is
saved, no mode changes, control goes nowhere, and the next command is accepted
(00_scope.md R10; 60_exceptions.md R312, R313, R319, R320). There is no return from it. -/
def raise (st : Status) (s : State) : Host.Outcome State Fault Refusal := respond st 0 0 s

/-! ## Accesses that the cursor commands share -/

/-- A bit-level getter of `n` bits: bounds check on the whole width, then the field, extended by
`ext`, and the advance (41_cursor_bits.md R150, R152, R154). -/
def getField (n : Nat) (ext : Nat → Word) (c : CurSel) (s : State) : Host.Outcome State Fault Refusal :=
  let k := getCur s c
  if leftBits k < n then raise .eBounds s
  else respond .ok (ext (readField (bitsAt s.mem k) 0 n)) 0 (setCur s c (advance k n))

/-- A peek: the getter's result with the cursor left where it was (41_cursor_bits.md R156, R157). -/
def peekField (n : Nat) (ext : Nat → Word) (c : CurSel) (s : State) : Host.Outcome State Fault Refusal :=
  let k := getCur s c
  if leftBits k < n then raise .eBounds s
  else respond .ok (ext (readField (bitsAt s.mem k) 0 n)) 0 s

/-- A bit-level setter of `n` bits: the low `n` bits of `v`, most significant first
(41_cursor_bits.md R151, R153, R155). -/
def setField (n v : Nat) (c : CurSel) (s : State) : Host.Outcome State Fault Refusal :=
  let k := getCur s c
  if leftBits k < n then raise .eBounds s
  else
    respond .ok 0 0
      (setCur { s with mem := writeBits s.mem (bitAddr k) (fieldBits n v) } c (advance k n))

/-- A byte-level getter of `n` bytes (42_cursor_bytes.md R171). -/
def getBytes (n : Nat) (order : ByteOrder) (ext : Nat → Word) (c : CurSel) (s : State) :
    Host.Outcome State Fault Refusal :=
  let k := getCur s c
  if k.bitoff ≠ 0 then raise .eUnaligned s
  else if leftBytes k < n then raise .eBounds s
  else
    respond .ok (ext (composeBytes order (memReadBytes s.mem k.pos.toNat n))) 0
      (setCur s c (advanceBytes k n))

/-- A byte-level setter of `n` bytes, which stores the low `n` bytes of `v`
(42_cursor_bytes.md R174, R175). -/
def setBytes (n : Nat) (order : ByteOrder) (v : Nat) (c : CurSel) (s : State) :
    Host.Outcome State Fault Refusal :=
  let k := getCur s c
  if k.bitoff ≠ 0 then raise .eUnaligned s
  else if leftBytes k < n then raise .eBounds s
  else
    respond .ok 0 0
      (setCur { s with mem := memWriteBytes s.mem k.pos.toNat (decomposeBytes order n v) } c
        (advanceBytes k n))

end Sys2Proof.Machine
end

