-- ==== Sys2Proof/Machine/CursorBits.lean ====
section
/-! DEFINITION. The bit-level cursor commands (41_cursor_bits.md). A count of 33 to 63, which no legal
word carries, answers E_ILLEGAL (30_encoding.md R99). -/

namespace Sys2Proof.Machine

/-- `get_u1` (R150). -/
def execGetU1 (c : CurSel) (s : State) : Host.Outcome State Fault Refusal :=
  getField 1 (zext32 1) c s

/-- `set_u1` (R151): the bit is `a[0]`. -/
def execSetU1 (c : CurSel) (a : Word) (s : State) : Host.Outcome State Fault Refusal :=
  setField 1 a.toNat c s

/-- `get_ubits` (R152). -/
def execGetUbits (c : CurSel) (n : BitVec 6) (s : State) : Host.Outcome State Fault Refusal :=
  if countOk n then getField n.toNat (zext32 n.toNat) c s else raise .eIllegal s

/-- `get_sbits` (R154). -/
def execGetSbits (c : CurSel) (n : BitVec 6) (s : State) : Host.Outcome State Fault Refusal :=
  if countOk n then getField n.toNat (sext32 n.toNat) c s else raise .eIllegal s

/-- `set_ubits` (R153). -/
def execSetUbits (c : CurSel) (n : BitVec 6) (a : Word) (s : State) : Host.Outcome State Fault Refusal :=
  if countOk n then setField n.toNat a.toNat c s else raise .eIllegal s

/-- `set_sbits` (R155): the stored bits are those of `set_ubits`. -/
def execSetSbits (c : CurSel) (n : BitVec 6) (a : Word) (s : State) : Host.Outcome State Fault Refusal :=
  if countOk n then setField n.toNat a.toNat c s else raise .eIllegal s

/-- `peek_ubits` (R156). -/
def execPeekUbits (c : CurSel) (n : BitVec 6) (s : State) : Host.Outcome State Fault Refusal :=
  if countOk n then peekField n.toNat (zext32 n.toNat) c s else raise .eIllegal s

/-- `peek_sbits` (R157). -/
def execPeekSbits (c : CurSel) (n : BitVec 6) (s : State) : Host.Outcome State Fault Refusal :=
  if countOk n then peekField n.toNat (sext32 n.toNat) c s else raise .eIllegal s

end Sys2Proof.Machine
end

