-- ==== Sys2Proof/Machine/CursorBlock.lean ====
section
/-! DEFINITION. The block cursor commands (43_cursor_block.md). -/

namespace Sys2Proof.Machine

/-- How many bytes stand before the first zero byte of the `n` bytes from `a` on, if one is there
(R210): the scan of `get_string`. -/
def scanString (m : Memory) (a : Nat) : Nat → Option Nat
  | 0 => none
  | n + 1 => if memRead m a = 0 then some 0 else (scanString m (a + 1) n).map (· + 1)

/-- `get_string` (R210). -/
def execGetString (c : CurSel) (s : State) : Host.Outcome State Fault Refusal :=
  let k := getCur s c
  if k.bitoff ≠ 0 then raise .eUnaligned s
  else match scanString s.mem k.pos.toNat (leftBytes k) with
    | none => respond .notFound 0 0 s
    | some len => respond .ok k.pos (word len) (setCur s c (advanceBytes k (len + 1)))

/-- The clipped count of a block copy, `min(b, left_bytes(c))` (R212, R214). -/
def clippedCount (k : Cursor) (b : Word) : Nat := min b.toNat (leftBytes k)

/-- The `ext` range check (R213): a range of `n > 0` bytes at `a` must not pass the top address. -/
def extRangeOk (a : Word) (n : Nat) : Bool := decide (n = 0 ∨ a.toNat + n ≤ 2 ^ 32)

/-- `get_data` (R212): copy from the cursor to memory at `a`. -/
def execGetData (c : CurSel) (a b : Word) (s : State) : Host.Outcome State Fault Refusal :=
  let k := getCur s c
  let n := clippedCount k b
  if k.bitoff ≠ 0 then raise .eUnaligned s
  else if extRangeOk a n then
    respond .ok (word n) 0
      (setCur { s with mem := memCopy s.mem k.pos.toNat a.toNat n } c (advanceBytes k n))
  else raise .eBounds s

/-- `set_data` (R214): copy from memory at `a` to the cursor. -/
def execSetData (c : CurSel) (a b : Word) (s : State) : Host.Outcome State Fault Refusal :=
  let k := getCur s c
  let n := clippedCount k b
  if k.bitoff ≠ 0 then raise .eUnaligned s
  else if extRangeOk a n then
    respond .ok (word n) 0
      (setCur { s with mem := memCopy s.mem a.toNat k.pos.toNat n } c (advanceBytes k n))
  else raise .eBounds s

end Sys2Proof.Machine
end

