-- ==== Sys2Proof/Machine/CursorBytes.lean ====
section
/-! DEFINITION. The byte-level cursor commands (42_cursor_bytes.md): the skeletons of R171 and R174
at each width, byte order and signedness. -/

namespace Sys2Proof.Machine

/-- `get_u8` (R176) (a single byte has no order). -/
def execGetU8 (c : CurSel) (s : State) : Host.Outcome State Fault Refusal :=
  getBytes 1 .little (zext32 8) c s

/-- `get_u16_le` (R177). -/
def execGetU16Le (c : CurSel) (s : State) : Host.Outcome State Fault Refusal :=
  getBytes 2 .little (zext32 16) c s

/-- `get_u24_le` (R178). -/
def execGetU24Le (c : CurSel) (s : State) : Host.Outcome State Fault Refusal :=
  getBytes 3 .little (zext32 24) c s

/-- `get_u32_le` (R179). -/
def execGetU32Le (c : CurSel) (s : State) : Host.Outcome State Fault Refusal :=
  getBytes 4 .little (zext32 32) c s

/-- `get_u16_be` (R180). -/
def execGetU16Be (c : CurSel) (s : State) : Host.Outcome State Fault Refusal :=
  getBytes 2 .big (zext32 16) c s

/-- `get_u24_be` (R181). -/
def execGetU24Be (c : CurSel) (s : State) : Host.Outcome State Fault Refusal :=
  getBytes 3 .big (zext32 24) c s

/-- `get_u32_be` (R182). -/
def execGetU32Be (c : CurSel) (s : State) : Host.Outcome State Fault Refusal :=
  getBytes 4 .big (zext32 32) c s

/-- `get_s8` (R183) (a single byte has no order). -/
def execGetS8 (c : CurSel) (s : State) : Host.Outcome State Fault Refusal :=
  getBytes 1 .little (sext32 8) c s

/-- `get_s16_le` (R184). -/
def execGetS16Le (c : CurSel) (s : State) : Host.Outcome State Fault Refusal :=
  getBytes 2 .little (sext32 16) c s

/-- `get_s24_le` (R185). -/
def execGetS24Le (c : CurSel) (s : State) : Host.Outcome State Fault Refusal :=
  getBytes 3 .little (sext32 24) c s

/-- `get_s32_le` (R186). -/
def execGetS32Le (c : CurSel) (s : State) : Host.Outcome State Fault Refusal :=
  getBytes 4 .little (sext32 32) c s

/-- `get_s16_be` (R187). -/
def execGetS16Be (c : CurSel) (s : State) : Host.Outcome State Fault Refusal :=
  getBytes 2 .big (sext32 16) c s

/-- `get_s24_be` (R188). -/
def execGetS24Be (c : CurSel) (s : State) : Host.Outcome State Fault Refusal :=
  getBytes 3 .big (sext32 24) c s

/-- `get_s32_be` (R189). -/
def execGetS32Be (c : CurSel) (s : State) : Host.Outcome State Fault Refusal :=
  getBytes 4 .big (sext32 32) c s

/-- `set_u8` (R190) (a single byte has no order). -/
def execSetU8 (c : CurSel) (a : Word) (s : State) : Host.Outcome State Fault Refusal :=
  setBytes 1 .little a.toNat c s

/-- `set_u16_le` (R191). -/
def execSetU16Le (c : CurSel) (a : Word) (s : State) : Host.Outcome State Fault Refusal :=
  setBytes 2 .little a.toNat c s

/-- `set_u24_le` (R192). -/
def execSetU24Le (c : CurSel) (a : Word) (s : State) : Host.Outcome State Fault Refusal :=
  setBytes 3 .little a.toNat c s

/-- `set_u32_le` (R193). -/
def execSetU32Le (c : CurSel) (a : Word) (s : State) : Host.Outcome State Fault Refusal :=
  setBytes 4 .little a.toNat c s

/-- `set_u16_be` (R194). -/
def execSetU16Be (c : CurSel) (a : Word) (s : State) : Host.Outcome State Fault Refusal :=
  setBytes 2 .big a.toNat c s

/-- `set_u24_be` (R195). -/
def execSetU24Be (c : CurSel) (a : Word) (s : State) : Host.Outcome State Fault Refusal :=
  setBytes 3 .big a.toNat c s

/-- `set_u32_be` (R196). -/
def execSetU32Be (c : CurSel) (a : Word) (s : State) : Host.Outcome State Fault Refusal :=
  setBytes 4 .big a.toNat c s

/-- `set_s8` (R197) (a single byte has no order). -/
def execSetS8 (c : CurSel) (a : Word) (s : State) : Host.Outcome State Fault Refusal :=
  setBytes 1 .little a.toNat c s

/-- `set_s16_le` (R198). -/
def execSetS16Le (c : CurSel) (a : Word) (s : State) : Host.Outcome State Fault Refusal :=
  setBytes 2 .little a.toNat c s

/-- `set_s24_le` (R199). -/
def execSetS24Le (c : CurSel) (a : Word) (s : State) : Host.Outcome State Fault Refusal :=
  setBytes 3 .little a.toNat c s

/-- `set_s32_le` (R200). -/
def execSetS32Le (c : CurSel) (a : Word) (s : State) : Host.Outcome State Fault Refusal :=
  setBytes 4 .little a.toNat c s

/-- `set_s16_be` (R201). -/
def execSetS16Be (c : CurSel) (a : Word) (s : State) : Host.Outcome State Fault Refusal :=
  setBytes 2 .big a.toNat c s

/-- `set_s24_be` (R202). -/
def execSetS24Be (c : CurSel) (a : Word) (s : State) : Host.Outcome State Fault Refusal :=
  setBytes 3 .big a.toNat c s

/-- `set_s32_be` (R203). -/
def execSetS32Be (c : CurSel) (a : Word) (s : State) : Host.Outcome State Fault Refusal :=
  setBytes 4 .big a.toNat c s

end Sys2Proof.Machine
end

