-- ==== Sys2Proof/Machine/CursorControl.lean ====
section
/-! DEFINITION. The cursor control commands (40_cursor_control.md). -/

namespace Sys2Proof.Machine

/-- `attach` (R130): bind a cursor to the region of `b` bytes at `a`. -/
def execAttach (c : CurSel) (a b : Word) (s : State) : Host.Outcome State Fault Refusal :=
  if b.toNat = 0 ∨ 2 ^ 32 - 1 < a.toNat + b.toNat then raise .eBounds s
  else
    respond .ok 0 0 (setCur s c { origin := a, pos := a, fin := word (a.toNat + b.toNat), bitoff := 0 })

/-- `goto` (R131): move to byte offset `a` of the region. -/
def execGoto (c : CurSel) (a : Word) (s : State) : Host.Outcome State Fault Refusal :=
  let k := getCur s c
  if regionSize k < a.toNat then raise .eBounds s
  else respond .ok 0 0 (setCur s c { k with pos := word (k.origin.toNat + a.toNat), bitoff := 0 })

/-- `sync` (R132): round the cursor up to a byte boundary. -/
def execSync (c : CurSel) (s : State) : Host.Outcome State Fault Refusal :=
  respond .ok 0 0 (setCur s c (syncCursor (getCur s c)))

/-- `tell` (R133): sync, then report the byte offset. -/
def execTell (c : CurSel) (s : State) : Host.Outcome State Fault Refusal :=
  let k := syncCursor (getCur s c)
  respond .ok (word (regionOffset k)) 0 (setCur s c k)

/-- `left_bytes` (R135): sync, then report the whole bytes left. -/
def execLeftBytes (c : CurSel) (s : State) : Host.Outcome State Fault Refusal :=
  let k := syncCursor (getCur s c)
  respond .ok (word (leftBytes k)) 0 (setCur s c k)

/-- `left_bits` (R136): the exact count of bits left, bits 31..0 in `r0` and 35..32 in `r1`. -/
def execLeftBits (c : CurSel) (s : State) : Host.Outcome State Fault Refusal :=
  let left := leftBits (getCur s c)
  respond .ok (word left) (word (left / 2 ^ 32 % 2 ^ 4)) s

/-- `skip_bytes` (R138): advance `a` whole bytes. -/
def execSkipBytes (c : CurSel) (a : Word) (s : State) : Host.Outcome State Fault Refusal :=
  let k := getCur s c
  if k.bitoff ≠ 0 then raise .eUnaligned s
  else if leftBytes k < a.toNat then raise .eBounds s
  else respond .ok 0 0 (setCur s c (advanceBytes k a.toNat))

/-- `skip_bits` (R139): advance `a` bits. -/
def execSkipBits (c : CurSel) (a : Word) (s : State) : Host.Outcome State Fault Refusal :=
  let k := getCur s c
  if leftBits k < a.toNat then raise .eBounds s
  else respond .ok 0 0 (setCur s c (advance k a.toNat))

end Sys2Proof.Machine
end

