-- ==== Sys2Proof/Machine/Window.lean ====
section
/-! DEFINITION. The sliding window index and `win_find` (45_window_index.md, 10_state.md R32 to R35).
The rings, the pool and the free list are run as the spec's pseudocode writes them. -/

namespace Sys2Proof.Machine

/-! ## Tables by key, keys rising -/

/-- The entry of a key. -/
def tableGet {α : Type} : List (Nat × α) → Nat → Option α
  | [], _ => none
  | (k, x) :: rest, i => if k = i then some x else tableGet rest i

/-- The table without the key. -/
def tableErase {α : Type} : List (Nat × α) → Nat → List (Nat × α)
  | [], _ => []
  | (k, x) :: rest, i => if k = i then tableErase rest i else (k, x) :: tableErase rest i

/-- Insertion of an entry before the first higher key. -/
def tableInsert {α : Type} : List (Nat × α) → Nat → α → List (Nat × α)
  | [], i, y => [(i, y)]
  | (k, x) :: rest, i, y => if i < k then (i, y) :: (k, x) :: rest else (k, x) :: tableInsert rest i y

/-- The table with the key bound to an entry. -/
def tableSet {α : Type} (t : List (Nat × α)) (i : Nat) (y : α) : List (Nat × α) :=
  tableInsert (tableErase t i) i y

/-! ## Signatures and nodes -/

/-- `sig(p)`, the three bytes starting at `p` (R241). -/
def signature (m : Memory) (p : Nat) : Byte × Byte × Byte :=
  (memRead m p, memRead m (p + 1), memRead m (p + 2))

/-- `hash(s)`: the byte sum mod `TABLE_SIZE` (R242). -/
def sigHash (tableSize : Nat) (g : Byte × Byte × Byte) : Nat :=
  (g.1.toNat + g.2.1.toNat + g.2.2.toNat) % tableSize

/-- `HT[h]` -/
def headOf (ix : WindowIndex) (h : Nat) : Option Nat := tableGet ix.ht h

/-- `HT[h] <- i` -/
def setHead (ix : WindowIndex) (h i : Nat) : WindowIndex := { ix with ht := tableSet ix.ht h i }

/-- `HT[h] <- EMPTY` -/
def clearHead (ix : WindowIndex) (h : Nat) : WindowIndex := { ix with ht := tableErase ix.ht h }

/-- `NODE[i]`, if it is live. -/
def nodeAt (ix : WindowIndex) (i : Nat) : Option Node := tableGet ix.nodes i

/-- A change of a field of `NODE[i]`; a free node has no fields (log 17). -/
def changeNode (ix : WindowIndex) (i : Nat) (f : Node → Node) : WindowIndex :=
  match nodeAt ix i with
  | none => ix
  | some n => { ix with nodes := tableSet ix.nodes i (f n) }

/-- `alloc()`: the node index on top of the free list, if there is one (R243, R249). -/
def allocNode (maxWindow : Nat) (ix : WindowIndex) : Option (Nat × WindowIndex) :=
  match ix.freed with
  | i :: rest => some (i, { ix with freed := rest })
  | [] => if ix.fresh < maxWindow then some (ix.fresh, { ix with fresh := ix.fresh + 1 }) else none

/-- `free(i)`: the node is free and on top of the free list (R243). -/
def freeNode (ix : WindowIndex) (i : Nat) : WindowIndex :=
  { ix with nodes := tableErase ix.nodes i, freed := i :: ix.freed }

/-! ## insert and remove -/

/-- `splice_head(h, i)` for a node just made (R245): the node with its links, at the head of ring `h`. -/
def spliceHead (ix : WindowIndex) (h i : Nat) (n : Node) : WindowIndex :=
  match headOf ix h with
  | none => setHead { ix with nodes := tableSet ix.nodes i { n with next := i, prev := i } } h i
  | some hd =>
    let tl := match nodeAt ix hd with
      | some x => x.prev
      | none => hd
    let ix1 := { ix with nodes := tableSet ix.nodes i { n with next := hd, prev := tl } }
    let ix2 := changeNode ix1 tl (fun x => { x with next := i })
    let ix3 := changeNode ix2 hd (fun x => { x with prev := i })
    setHead ix3 h i

/-- `insert` at one position (R246): no node without a full signature, none when the pool is empty. -/
def insertPosition (maxWindow tableSize : Nat) (m : Memory) (wOrg se p : Nat) (ix : WindowIndex) :
    WindowIndex :=
  if se < p + 3 then ix
  else match allocNode maxWindow ix with
    | none => ix
    | some (i, ix') =>
      let g := signature m p
      spliceHead ix' (sigHash tableSize g) i
        { sig := g, addr := word p, coff := (p - wOrg) % maxWindow, prev := i, next := i }

/-- `insert(lo, lo + n)`, positions ascending (R246). -/
def insertRange (maxWindow tableSize : Nat) (m : Memory) (wOrg se : Nat) :
    Nat → Nat → WindowIndex → WindowIndex
  | 0, _, ix => ix
  | n + 1, lo, ix =>
    insertRange maxWindow tableSize m wOrg se n (lo + 1)
      (insertPosition maxWindow tableSize m wOrg se lo ix)

/-- `unlink(h, i)`: take node `i` out of ring `h` and free it (R247). -/
def unlinkNode (ix : WindowIndex) (h i : Nat) : WindowIndex :=
  match nodeAt ix i with
  | none => ix
  | some n =>
    if n.next = i then freeNode (clearHead ix h) i
    else
      let ix1 := changeNode ix n.prev (fun x => { x with next := n.next })
      let ix2 := changeNode ix1 n.next (fun x => { x with prev := n.prev })
      let ix3 := if headOf ix2 h = some i then setHead ix2 h n.next else ix2
      freeNode ix3 i

/-- The node of a ring with address `p`, walking from node `i` along `next` until back at the head
`hd`. The first number bounds the walk by the count of live nodes (R248, R256). -/
def findInRing (ix : WindowIndex) (hd p : Nat) : Nat → Nat → Option Nat
  | 0, _ => none
  | fuel + 1, i =>
    match nodeAt ix i with
    | none => none
    | some n =>
      if n.addr.toNat = p then some i
      else if n.next = hd then none
      else findInRing ix hd p fuel n.next

/-- `remove` at one position (R248): the ring is found from the bytes in memory. -/
def removePosition (tableSize : Nat) (m : Memory) (se p : Nat) (ix : WindowIndex) : WindowIndex :=
  if se < p + 3 then ix
  else
    let h := sigHash tableSize (signature m p)
    match headOf ix h with
    | none => ix
    | some hd =>
      match findInRing ix hd p ix.nodes.length hd with
      | none => ix
      | some i => unlinkNode ix h i

/-- `remove(lo, lo + n)`, positions ascending (R248). -/
def removeRange (tableSize : Nat) (m : Memory) (se : Nat) : Nat → Nat → WindowIndex → WindowIndex
  | 0, _, ix => ix
  | n + 1, lo, ix => removeRange tableSize m se n (lo + 1) (removePosition tableSize m se lo ix)

/-! ## find -/

/-- The extension of a candidate at `p` against the source at `sp` from length `len` on, at most
`room` more bytes (R251). -/
def extendMatch (m : Memory) (p sp : Nat) : Nat → Nat → Nat
  | 0, len => len
  | room + 1, len =>
    if memRead m (p + len) = memRead m (sp + len) then extendMatch m p sp room (len + 1) else len

/-- `addr - ws`, the position of a candidate in the window (R254). For a stale node, below the window
start, the spec gives no value: a free value (R362, log 9). -/
def windowOffset (addr : Word) (ws : Nat) : Nat :=
  if ws ≤ addr.toNat then addr.toNat - ws else (Config.staleOffset addr (word ws)).toNat

/-- One candidate of the ring walk: its signature test, its extension, and the tie-break "greater
than or equal" (R250, R252). `best` is (offset, length). -/
def tryCandidate (m : Memory) (ws sp se : Nat) (g : Byte × Byte × Byte) (n : Node)
    (best : Nat × Nat) : Nat × Nat :=
  if n.sig = g then
    let len := extendMatch m n.addr.toNat sp (se - sp - 3) 3
    if best.2 ≤ len then (windowOffset n.addr ws, len) else best
  else best

/-- The ring walk of `find` from node `i`, until back at the head `hd`; the first number bounds the
walk by the count of live nodes (R250, R256). -/
def walkRing (ix : WindowIndex) (m : Memory) (ws sp se : Nat) (g : Byte × Byte × Byte) (hd : Nat) :
    Nat → Nat → Nat × Nat → Nat × Nat
  | 0, _, best => best
  | fuel + 1, i, best =>
    match nodeAt ix i with
    | none => best
    | some n =>
      let best' := tryCandidate m ws sp se g n best
      if n.next = hd then best' else walkRing ix m ws sp se g hd fuel n.next best'

/-- `find(sp, se)`: (offset, length) of the longest match, (0, 0) for none (R250, R253, R254). -/
def findMatch (tableSize : Nat) (ix : WindowIndex) (m : Memory) (ws sp se : Nat) : Nat × Nat :=
  if se - sp < 3 then (0, 0)
  else
    let g := signature m sp
    match headOf ix (sigHash tableSize g) with
    | none => (0, 0)
    | some hd => walkRing ix m ws sp se g hd ix.nodes.length hd (0, 0)

/-- `find` at the source cursor of a state. -/
def findAtCursor (s : State) : Nat × Nat :=
  findMatch s.tableSize s.index s.mem (s.wEnd.toNat - s.wLen.toNat) s.cur0.pos.toNat s.cur0.fin.toNat

/-! ## The window of an encode instance -/

/-- Two regions are disjoint (20_memory.md R76). -/
def regionsDisjoint (k l : Cursor) : Bool :=
  decide (k.fin.toNat ≤ l.origin.toNat ∨ l.fin.toNat ≤ k.origin.toNat)

/-- `enc_ready` (46_lzsw_encode.md R272). -/
def encReady (s : State) : Bool :=
  decide (s.cstate = .enc) && decide (s.cur0.bitoff = 0) && decide (s.cur0.pos = s.wEnd)
    && decide (s.cur0.origin.toNat ≤ s.wOrg.toNat) && decide (s.cur0.fin = s.sEnd)
    && regionsDisjoint s.cur0 s.cur1

/-- `win_find` (R257): the raw result of `find`, nothing changed. -/
def execWinFind (s : State) : Host.Outcome State Fault Refusal :=
  if encReady s then respond .ok (word (findAtCursor s).1) (word (findAtCursor s).2) s
  else raise .eSequence s

end Sys2Proof.Machine
end

