-- ==== Sys2Proof/Machine/Encode.lean ====
section
/-! DEFINITION. Codec control and LZSW encode (46_lzsw_encode.md). -/

namespace Sys2Proof.Machine

/-! ## Opening, closing, state -/

/-- `codec_open` (R270). A parameter out of range, which no legal word carries, answers E_ILLEGAL
(30_encoding.md R99). -/
def execCodecOpen (mode : CodecMode) (ty : VlcType) (a : Word) (s : State) :
    Host.Outcome State Fault Refusal :=
  let k := match mode with
    | .enc => s.cur0
    | .dec => s.cur1
  if vlcParamOk ty a = false then raise .eIllegal s
  else if k.bitoff ≠ 0 then raise .eUnaligned s
  else
    respond .ok 0 0
      { s with
        cstate := match mode with
          | .enc => .enc
          | .dec => .dec
        vlcType := ty
        vlcParam := a.extractLsb' 0 6
        wOrg := k.pos
        wEnd := k.pos
        wLen := 0
        posBits := 0
        base := 0
        sEnd := match mode with
          | .enc => s.cur0.fin
          | .dec => 0
        index := WindowIndex.empty }

/-- `codec_close` (R271). -/
def execCodecClose (s : State) : Host.Outcome State Fault Refusal :=
  if s.cstate = .closed then raise .eSequence s
  else respond .ok 0 0 { s with cstate := .closed }

/-- `codec_state` (R277): `POS_BITS`, `VLC_PARAM`, `VLC_TYPE`, `CSTATE` as 8 bits each, and `W_LEN`. -/
def execCodecState (s : State) : Host.Outcome State Fault Refusal :=
  respond .ok
    (s.posBits.setWidth 8 ++ s.vlcParam.setWidth 8 ++ s.vlcType.code.setWidth 8
      ++ (codecStateCode s.cstate).setWidth 8)
    s.wLen s

/-! ## Encode -/

/-- `slide(new_end)` (R278): evict, move the window, index. -/
def slideWindow (s : State) (newEnd : Nat) : State :=
  let oldEnd := s.wEnd.toNat
  let oldStart := s.wEnd.toNat - s.wLen.toNat
  let newLen := min (newEnd - s.wOrg.toNat) s.maxWindow
  let newStart := newEnd - newLen
  let se := s.cur0.fin.toNat
  let evicted := removeRange s.tableSize s.mem se (newStart - oldStart) oldStart s.index
  { s with
    wEnd := word newEnd
    wLen := word newLen
    posBits := BitVec.ofNat 6 (clog2 newLen)
    base := word ((newStart - s.wOrg.toNat) % s.maxWindow)
    index := insertRange s.maxWindow s.tableSize s.mem s.wOrg.toNat se
      (newEnd - max oldEnd newStart) (max oldEnd newStart) evicted }

/-- The token that a step emits at the source cursor, and the source bytes it stands for: a match
longer than 2, its length clamped to `VLC_MAX + 2`, else a literal pair, else the single literal
(R273, R275, R279). -/
def chooseToken (s : State) : Token × Nat :=
  let sp := s.cur0.pos.toNat
  let found := findAtCursor s
  if 2 < found.2 then
    let len := min found.2 (vlcMax s.vlcType s.vlcParam.toNat + 2)
    (.matchRef (word found.1) (word (len - 2)), len)
  else if 2 ≤ s.cur0.fin.toNat - sp then
    (.literalPair (memRead s.mem sp) (memRead s.mem (sp + 1)), 2)
  else (.singleLiteral (memRead s.mem sp), 1)

/-- One iteration of encode in a state where `enc_ready` holds (R273, R274, R280): the next state, the
status, the source bytes consumed and the token bits written. -/
def deflateToken (s : State) : State × Status × Nat × Nat :=
  if s.cur0.pos = s.cur0.fin then
    ({ s with cur1 := syncCursor s.cur1, cstate := .encDone }, .done, 0, 0)
  else
    let t := (chooseToken s).1
    let adv := (chooseToken s).2
    let len := tokenLen s.posBits.toNat s.vlcType s.vlcParam.toNat t
    if leftBits s.cur1 < len then (s, .outFull, 0, 0)
    else
      let sp := s.cur0.pos.toNat
      let written :=
        { s with
          mem := writeBits s.mem (bitAddr s.cur1)
            (tokenBits s.posBits.toNat s.vlcType s.vlcParam.toNat t)
          cur1 := advance s.cur1 len }
      let slid := slideWindow written (sp + adv)
      ({ slid with cur0 := { s.cur0 with pos := word (sp + adv) } }, .ok, adv, len)

/-- `deflate_step` (R273). -/
def execDeflateStep (s : State) : Host.Outcome State Fault Refusal :=
  if encReady s then
    match deflateToken s with
    | (s', st, adv, len) => respond st (word adv) (word len) s'
  else raise .eSequence s

/-- The token loop of `deflate_run` (R276): the next state, the status that ended it and the source
bytes consumed. Every token with status OK consumes at least one source byte (R371), so the loop ends
within as many further tokens as bytes are left; the first number counts them. -/
def deflateLoop : Nat → State → Nat → State × Status × Nat
  | 0, s, consumed =>
    match deflateToken s with
    | (s', st, adv, _) => (s', st, consumed + adv)
  | fuel + 1, s, consumed =>
    match deflateToken s with
    | (s', .ok, adv, _) => deflateLoop fuel s' (consumed + adv)
    | (s', st, _, _) => (s', st, consumed)

/-- `deflate_run` (R276). -/
def execDeflateRun (s : State) : Host.Outcome State Fault Refusal :=
  if encReady s then
    match deflateLoop (leftBytes s.cur0) s 0 with
    | (s', st, consumed) =>
      respond st (word consumed) (word (s'.cur1.pos.toNat - s.cur1.pos.toNat)) s'
  else raise .eSequence s

end Sys2Proof.Machine
end

