-- ==== Sys2Proof/Machine/Inflate.lean ====
section
/-! DEFINITION. LZSW decode (47_lzsw_decode.md). -/

namespace Sys2Proof.Machine

/-- `dec_ready` (R291). -/
def decReady (s : State) : Bool :=
  decide (s.cstate = .dec) && decide (s.cur1.bitoff = 0) && decide (s.cur1.pos = s.wEnd)
    && decide (s.cur1.origin.toNat ≤ s.wOrg.toNat) && regionsDisjoint s.cur0 s.cur1

/-- A malformed token (R297): nothing written, the input cursor at the token's first bit, `FAILED`. -/
def failToken (e : Status) (s : State) : State × Status × Nat × Nat :=
  ({ s with cstate := .failed }, e, 0, 0)

/-- The end of a decoded token (R292, R300): the input cursor past its `len` bits, `n` bytes put out in
memory `m`, the window registers set from the new output position. -/
def commitToken (s : State) (m : Memory) (n len : Nat) : State × Status × Nat × Nat :=
  let out := s.cur1.pos.toNat + n
  let newLen := min (out - s.wOrg.toNat) s.maxWindow
  ({ s with
      mem := m
      cur0 := advance s.cur0 len
      cur1 := advanceBytes s.cur1 n
      wEnd := word out
      wLen := word newLen
      posBits := BitVec.ofNat 6 (clog2 newLen) }, .ok, n, len)

/-- The effect of a token of `len` bits that stands at the input cursor (R292 after the fields are
read): the checks on length, offset and room in the order written, then the bytes (R296). -/
def applyToken (t : Token) (len : Nat) (s : State) : State × Status × Nat × Nat :=
  let dst := s.cur1.pos.toNat
  match t with
  | .matchRef offset value =>
    let n := value.toNat + 2
    if 2 ^ 32 - 1 < n then failToken .eCodecVlc s
    else if s.wLen.toNat ≤ offset.toNat then failToken .eCodecOffset s
    else if leftBytes s.cur1 < n then (s, .outFull, 0, 0)
    else
      commitToken s (memCopy s.mem (s.wEnd.toNat - s.wLen.toNat + offset.toNat) dst n) n len
  | .literalPair b0 b1 =>
    if leftBytes s.cur1 < 2 then (s, .outFull, 0, 0)
    else commitToken s (memWriteBytes s.mem dst [b0, b1]) 2 len
  | .singleLiteral b0 =>
    if leftBytes s.cur1 < 1 then (s, .outFull, 0, 0)
    else commitToken s (memWriteBytes s.mem dst [b0]) 1 len

/-- The token at the input cursor, read from memory with the open strategy (R292; R303: nothing is
buffered between steps). -/
def tokenAtCursor (s : State) : Except Status (Token × Nat) :=
  decodeToken s.posBits.toNat s.vlcType s.vlcParam.toNat (bitsAt s.mem s.cur0) (leftBits s.cur0)

/-- One iteration of decode in a state where `dec_ready` holds (R292, R293, R298): the next state, the
status, the bytes produced and the token bits consumed. DEDUCED, log 19: every token that starts with
fewer than 9 bits left is lost, be it one or several; R301 item 2 and 30_encoding.md R108 speak of the
last one only. -/
def inflateToken (s : State) : State × Status × Nat × Nat :=
  if leftBits s.cur0 < 9 then ({ s with cstate := .decDone }, .done, 0, 0)
  else if leftBytes s.cur1 = 0 then (s, .outFull, 0, 0)
  else match tokenAtCursor s with
    | .error e => failToken e s
    | .ok (t, len) => applyToken t len s

/-- `inflate_step` (R292). -/
def execInflateStep (s : State) : Host.Outcome State Fault Refusal :=
  if decReady s then
    match inflateToken s with
    | (s', st, n, len) => respond st (word n) (word len) s'
  else raise .eSequence s

/-- The token loop of `inflate_run` (R299): the next state, the status that ended it and the bytes
produced. Every token with status OK consumes at least one bit (a short match token fewer than the 9
that R371 names, log 13); the first number counts the bits left. -/
def inflateLoop : Nat → State → Nat → State × Status × Nat
  | 0, s, produced =>
    match inflateToken s with
    | (s', st, n, _) => (s', st, produced + n)
  | fuel + 1, s, produced =>
    match inflateToken s with
    | (s', .ok, n, _) => inflateLoop fuel s' (produced + n)
    | (s', st, _, _) => (s', st, produced)

/-- `inflate_run` (R299): an error status answers results 0 and keeps the effects of the earlier
tokens. -/
def execInflateRun (s : State) : Host.Outcome State Fault Refusal :=
  if decReady s then
    match inflateLoop (leftBits s.cur0) s 0 with
    | (s', st, produced) =>
      if isError st then raise st s'
      else respond st (word produced) (word (s'.cur0.pos.toNat - s.cur0.pos.toNat)) s'
  else raise .eSequence s

end Sys2Proof.Machine
end

