-- ==== Sys2Proof/Machine/VlcCommands.lean ====
section
/-! DEFINITION. The two commands of the variable-length code unit (44_vlc.md). -/

namespace Sys2Proof.Machine

/-- `VLC_MIN <= v <= VLC_MAX` under the open strategy (R222). -/
def representable (s : State) (v : Nat) : Bool :=
  decide (vlcMin s.vlcType ≤ v ∧ v ≤ vlcMax s.vlcType s.vlcParam.toNat)

/-- `vlc_put` (R228, R230): the value is tested before the room. -/
def execVlcPut (c : CurSel) (a : Word) (s : State) : Host.Outcome State Fault Refusal :=
  let k := getCur s c
  let len := vlcLen s.vlcType s.vlcParam.toNat a.toNat
  if s.cstate = .closed then raise .eSequence s
  else if representable s a.toNat = false then raise .eCodecVlc s
  else if leftBits k < len then raise .eBounds s
  else
    respond .ok (word len) 0
      (setCur { s with mem := writeBits s.mem (bitAddr k) (vlcCode s.vlcType s.vlcParam.toNat a.toNat) } c
        (advance k len))

/-- `vlc_get` (R229, R231): on a failure the cursor stays where it was. -/
def execVlcGet (c : CurSel) (s : State) : Host.Outcome State Fault Refusal :=
  let k := getCur s c
  if s.cstate = .closed then raise .eSequence s
  else match vlcDecode s.vlcType s.vlcParam.toNat (bitsAt s.mem k) 0 (leftBits k) with
    | .error e => raise e s
    | .ok (v, len) => respond .ok (word v) (word len) (setCur s c (advance k len))

end Sys2Proof.Machine
end

