-- ==== Sys2Proof/Machine/StreamForms.lean ====
section
/-! DEFINITION. The rows of the opcode table that are no commands: the three token forms
(30_encoding.md R103 to R105) and the three code forms (44_vlc.md R225 to R227). Executing one is what
the block does when that form stands at the input cursor `CUR[0]`: a token as `inflate_step` decodes
it, a code as `vlc_get` reads it (log 10). -/

namespace Sys2Proof.Machine

/-- A token form met by the decoder: the tests that `inflate_step` makes before it (47_lzsw_decode.md
R292), a token longer than the input left is cut short (R297), then its effect. -/
def meetToken (t : Token) (s : State) : Host.Outcome State Fault Refusal :=
  let len := tokenLen s.posBits.toNat s.vlcType s.vlcParam.toNat t
  if decReady s then
    match
      (if leftBits s.cur0 < 9 then ({ s with cstate := .decDone }, .done, 0, 0)
      else if leftBytes s.cur1 = 0 then (s, .outFull, 0, 0)
      else if leftBits s.cur0 < len then failToken .eCodecTrunc s
      else applyToken t len s) with
    | (s', st, n, bits) => respond st (word n) (word bits) s'
  else raise .eSequence s

/-- `token.literal_pair` (30_encoding.md R103). -/
def execTokenLiteralPair (b0 b1 : Byte) (s : State) : Host.Outcome State Fault Refusal :=
  meetToken (.literalPair b0 b1) s

/-- `token.match` (30_encoding.md R104): a stored length that the open strategy has no code for is out
of range (47_lzsw_decode.md R297). -/
def execTokenMatch (offset value : Word) (s : State) : Host.Outcome State Fault Refusal :=
  if decReady s && decide (9 ≤ leftBits s.cur0 ∧ leftBytes s.cur1 ≠ 0) && !representable s value.toNat then
    respond .eCodecVlc 0 0 { s with cstate := .failed }
  else meetToken (.matchRef offset value) s

/-- `token.single_literal` (30_encoding.md R105). -/
def execTokenSingleLiteral (b0 : Byte) (s : State) : Host.Outcome State Fault Refusal :=
  meetToken (.singleLiteral b0) s

/-- A code form met by `vlc_get` at `CUR[0]` (44_vlc.md R229, R231). The code of another strategy than
the open one does not occur: E_SEQUENCE. -/
def meetCode (ty : VlcType) (v : Word) (s : State) : Host.Outcome State Fault Refusal :=
  let len := vlcLen ty s.vlcParam.toNat v.toNat
  if s.cstate = .closed ∨ s.vlcType ≠ ty then raise .eSequence s
  else if representable s v.toNat = false then raise .eCodecVlc s
  else if leftBits s.cur0 < len then raise .eCodecTrunc s
  else respond .ok v (word len) { s with cur0 := advance s.cur0 len }

/-- `vlc.fixed` (44_vlc.md R225). -/
def execVlcFixed (v : Word) (s : State) : Host.Outcome State Fault Refusal := meetCode .fixed v s

/-- `vlc.golomb` (44_vlc.md R226). -/
def execVlcGolomb (v : Word) (s : State) : Host.Outcome State Fault Refusal := meetCode .golomb v s

/-- `vlc.gamma` (44_vlc.md R227). -/
def execVlcGamma (v : Word) (s : State) : Host.Outcome State Fault Refusal := meetCode .gamma v s

end Sys2Proof.Machine
end

