-- ==== Sys2Proof/Machine/Dispatch.lean ====
section
/-! DEFINITION. One arm per row of the opcode table. -/

namespace Sys2Proof.Machine

def exec (i : Instr) (s : State) : Host.Outcome State Fault Refusal :=
  match i with
  | .attach c a b => Sys2Proof.Machine.execAttach c a b s
  | .goto c a => Sys2Proof.Machine.execGoto c a s
  | .sync c => Sys2Proof.Machine.execSync c s
  | .tell c => Sys2Proof.Machine.execTell c s
  | .leftBytes c => Sys2Proof.Machine.execLeftBytes c s
  | .leftBits c => Sys2Proof.Machine.execLeftBits c s
  | .skipBytes c a => Sys2Proof.Machine.execSkipBytes c a s
  | .skipBits c a => Sys2Proof.Machine.execSkipBits c a s
  | .getU1 c => Sys2Proof.Machine.execGetU1 c s
  | .setU1 c a => Sys2Proof.Machine.execSetU1 c a s
  | .getUbits c n => Sys2Proof.Machine.execGetUbits c n s
  | .getSbits c n => Sys2Proof.Machine.execGetSbits c n s
  | .setUbits c n a => Sys2Proof.Machine.execSetUbits c n a s
  | .setSbits c n a => Sys2Proof.Machine.execSetSbits c n a s
  | .peekUbits c n => Sys2Proof.Machine.execPeekUbits c n s
  | .peekSbits c n => Sys2Proof.Machine.execPeekSbits c n s
  | .getU8 c => Sys2Proof.Machine.execGetU8 c s
  | .getU16Le c => Sys2Proof.Machine.execGetU16Le c s
  | .getU24Le c => Sys2Proof.Machine.execGetU24Le c s
  | .getU32Le c => Sys2Proof.Machine.execGetU32Le c s
  | .getU16Be c => Sys2Proof.Machine.execGetU16Be c s
  | .getU24Be c => Sys2Proof.Machine.execGetU24Be c s
  | .getU32Be c => Sys2Proof.Machine.execGetU32Be c s
  | .getS8 c => Sys2Proof.Machine.execGetS8 c s
  | .getS16Le c => Sys2Proof.Machine.execGetS16Le c s
  | .getS24Le c => Sys2Proof.Machine.execGetS24Le c s
  | .getS32Le c => Sys2Proof.Machine.execGetS32Le c s
  | .getS16Be c => Sys2Proof.Machine.execGetS16Be c s
  | .getS24Be c => Sys2Proof.Machine.execGetS24Be c s
  | .getS32Be c => Sys2Proof.Machine.execGetS32Be c s
  | .setU8 c a => Sys2Proof.Machine.execSetU8 c a s
  | .setU16Le c a => Sys2Proof.Machine.execSetU16Le c a s
  | .setU24Le c a => Sys2Proof.Machine.execSetU24Le c a s
  | .setU32Le c a => Sys2Proof.Machine.execSetU32Le c a s
  | .setU16Be c a => Sys2Proof.Machine.execSetU16Be c a s
  | .setU24Be c a => Sys2Proof.Machine.execSetU24Be c a s
  | .setU32Be c a => Sys2Proof.Machine.execSetU32Be c a s
  | .setS8 c a => Sys2Proof.Machine.execSetS8 c a s
  | .setS16Le c a => Sys2Proof.Machine.execSetS16Le c a s
  | .setS24Le c a => Sys2Proof.Machine.execSetS24Le c a s
  | .setS32Le c a => Sys2Proof.Machine.execSetS32Le c a s
  | .setS16Be c a => Sys2Proof.Machine.execSetS16Be c a s
  | .setS24Be c a => Sys2Proof.Machine.execSetS24Be c a s
  | .setS32Be c a => Sys2Proof.Machine.execSetS32Be c a s
  | .getString c => Sys2Proof.Machine.execGetString c s
  | .getData c a b => Sys2Proof.Machine.execGetData c a b s
  | .setData c a b => Sys2Proof.Machine.execSetData c a b s
  | .vlcPut c a => Sys2Proof.Machine.execVlcPut c a s
  | .vlcGet c => Sys2Proof.Machine.execVlcGet c s
  | .codecOpen mode ty a => Sys2Proof.Machine.execCodecOpen mode ty a s
  | .codecClose => Sys2Proof.Machine.execCodecClose s
  | .deflateStep => Sys2Proof.Machine.execDeflateStep s
  | .deflateRun => Sys2Proof.Machine.execDeflateRun s
  | .inflateStep => Sys2Proof.Machine.execInflateStep s
  | .inflateRun => Sys2Proof.Machine.execInflateRun s
  | .codecState => Sys2Proof.Machine.execCodecState s
  | .winFind => Sys2Proof.Machine.execWinFind s
  | .tokenLiteralPair b0 b1 => Sys2Proof.Machine.execTokenLiteralPair b0 b1 s
  | .tokenMatch offset value => Sys2Proof.Machine.execTokenMatch offset value s
  | .tokenSingleLiteral b0 => Sys2Proof.Machine.execTokenSingleLiteral b0 s
  | .vlcFixed v => Sys2Proof.Machine.execVlcFixed v s
  | .vlcGolomb v => Sys2Proof.Machine.execVlcGolomb v s
  | .vlcGamma v => Sys2Proof.Machine.execVlcGamma v s

end Sys2Proof.Machine
end

