-- ==== Sys2Proof/Machine/HostPort.lean ====
section
/-! DEFINITION. The command interface: what one act of the host does (00_scope.md R7; 30_encoding.md
R90; 70_reset_and_hazards.md R350, R351), and how a word is put where the next step takes it. -/

namespace Sys2Proof.Machine

/-- A command word is executed: the command it decodes to, or E_ILLEGAL (30_encoding.md R99,
60_exceptions.md R318). -/
def runCommand (w : CommandWord) (s : State) : Host.Outcome State Fault Refusal :=
  match decode w with
  | .ok i => exec i s
  | .error _ => raise .eIllegal s

/-- Reset: every register and the index at its reset value, memory kept, no response pending
(10_state.md R38, 70_reset_and_hazards.md R351). The parameters are fixed for a block. -/
def resetBlock (s : State) : State :=
  { State.reset with
    mem := s.mem
    maxWindow := s.maxWindow
    tableSize := s.tableSize
    inputs := s.inputs
    freeCount := s.freeCount }

/-- The memory after a command was cut off by reset: at every listed address where the finished
command would have changed the byte, a free byte (70_reset_and_hazards.md R350, log 8). The number is
the counter of free values read. -/
def tearMemory (old new : Memory) : List Nat → Memory → Nat → Memory × Nat
  | [], m, k => (m, k)
  | a :: rest, m, k =>
    if memRead old a = memRead new a then tearMemory old new rest m k
    else tearMemory old new rest (memWrite m a (Config.tornByte k)) (k + 1)

/-- Reset while a command executes (70_reset_and_hazards.md R350): no response, the registers at their
reset values, any part of the command's writes done. -/
def resetDuringCommand (w : CommandWord) (s : State) : State :=
  match runCommand w s with
  | .next t =>
    let torn := tearMemory s.mem t.mem (s.mem.map Prod.fst ++ t.mem.map Prod.fst) s.mem s.freeCount
    { resetBlock s with mem := torn.1, freeCount := torn.2 }
  | .fault _ => resetBlock s
  | .refused _ => resetBlock s

/-- One act of the host. -/
def runInput (x : HostInput) (s : State) : Host.Outcome State Fault Refusal :=
  match x with
  | .command w => runCommand w s
  | .write a b => .next { s with mem := memWrite s.mem a.toNat b }
  | .reset => .next (resetBlock s)
  | .resetDuring w => .next (resetDuringCommand w s)

/-- One step: the next act of the host; with none the block is idle and keeps its state
(60_exceptions.md R336, log 7). -/
def takeInput (s : State) : Host.Outcome State Fault Refusal :=
  match s.inputs with
  | [] => .next s
  | x :: rest => runInput x { s with inputs := rest }

/-- The state in which the next step meets a token row of the table as the first token of an open
decode instance: the row's `width` bits, padded with zeros, are the input region at address 0, the
output region follows it, and the host's next act is `inflate_step` (log 14). -/
def presentToken (s : State) (width w : Nat) : State :=
  let bytes := (width + 7) / 8
  { s with
    cur0 := { origin := 0, pos := 0, fin := word bytes, bitoff := 0 }
    cur1 := { origin := 16, pos := 16, fin := 18, bitoff := 0 }
    cstate := .dec
    vlcType := .fixed
    vlcParam := 8
    wOrg := 16
    wEnd := 16
    wLen := 0
    posBits := 0
    mem := writeBits s.mem 0 (fieldBits (8 * bytes) ((w % 2 ^ width) * 2 ^ (8 * bytes - width)))
    inputs := .command 0x54000000000000000000 :: s.inputs }

/-- A row of the opcode table put where the next step takes its command (log 14): a command word is
the host's next act. -/
def presentWord (s : State) (nbits w : Nat) : State :=
  match nbits with
  | 17 => presentToken s 17 w
  | 24 => presentToken s 17 w
  | 9 => presentToken s 9 w
  | 16 => presentToken s 9 w
  | _ => { s with inputs := .command (BitVec.ofNat 80 w) :: s.inputs }

end Sys2Proof.Machine
end

