-- ==== Sys2Proof/Machine/Step.lean ====
section
/-! DEFINITION. One step of the machine. -/

namespace Sys2Proof.Machine

/-- A step is the complete execution of one command that the host presents (00_scope.md R7,
30_encoding.md R90), or another act of the host between commands (log 5). -/
def step (s : State) : Host.Outcome State Fault Refusal := takeInput s

/-- The state with a row of the opcode table as what the next step executes (log 14). -/
def State.withFetchWord (s : State) (nbits w : Nat) : State := presentWord s nbits w

end Sys2Proof.Machine
end

