-- ==== Sys2Proof/Safety.lean ====
section
/-! DEFINITION. What counts as a good state and a good run: the invariants of 10_state.md (R22, R31, R34,
R35), and the words in which claims about the commands are stated. -/

namespace Sys2Proof.Machine

/-! ## Invariants -/

/-- The cursor invariants of 10_state.md R22. Items 2 and 4 hold by the widths of the fields. -/
abbrev CursorOk (k : Cursor) : Prop :=
  k.origin.toNat ≤ k.pos.toNat ∧ k.pos.toNat ≤ k.fin.toNat ∧
    (k.bitoff ≠ 0 → k.pos.toNat < k.fin.toNat)

/-- Both contexts meet R22. -/
abbrev CursorsOk (s : State) : Prop := CursorOk s.cur0 ∧ CursorOk s.cur1

/-- The parameters are in the range of 00_scope.md R6. -/
abbrev ParamsOk (s : State) : Prop := 2 ≤ s.maxWindow ∧ s.maxWindow ≤ 2 ^ 31 ∧ 1 ≤ s.tableSize

/-- The strategy of an open instance is one of 44_vlc.md R224 (10_state.md R29). -/
abbrev StrategyOk (s : State) : Prop :=
  s.cstate ≠ .closed → vlcParamOk s.vlcType (s.vlcParam.setWidth 32) = true

/-- The window invariants of 10_state.md R31, items 1 to 3, and `W_ORG <= W_END`. -/
abbrev WindowOk (s : State) : Prop :=
  s.cstate ≠ .closed →
    s.wOrg.toNat ≤ s.wEnd.toNat ∧
    s.wLen.toNat = min (s.wEnd.toNat - s.wOrg.toNat) s.maxWindow ∧
    s.posBits.toNat = clog2 s.wLen.toNat ∧
    ((s.cstate = .enc ∨ s.cstate = .encDone) →
      s.base.toNat = (s.wEnd.toNat - s.wLen.toNat - s.wOrg.toNat) % s.maxWindow)

/-- The indices of the live nodes. -/
def liveIndices (ix : WindowIndex) : List Nat := ix.nodes.map Prod.fst

/-- The pool is conserved (10_state.md R33, R34, R35 item 3): every node index below `fresh` is live or
on the free list exactly once, and there are at most `MAX_WINDOW` of them. -/
abbrev PoolOk (s : State) : Prop :=
  (s.index.freed ++ liveIndices s.index).Nodup ∧
    (∀ i ∈ s.index.freed ++ liveIndices s.index, i < s.index.fresh) ∧
    s.index.freed.length + s.index.nodes.length = s.index.fresh ∧
    s.index.fresh ≤ s.maxWindow

/-- The invariant of the machine. -/
abbrev Good (s : State) : Prop :=
  CursorsOk s ∧ ParamsOk s ∧ StrategyOk s ∧ WindowOk s ∧ PoolOk s ∧ Memory.wf s.mem = true

/-! ## The index against the memory (10_state.md R35, 45_window_index.md R258) -/

/-- `window_start` (10_state.md R30). -/
def windowStart (s : State) : Nat := s.wEnd.toNat - s.wLen.toNat

/-- The nodes of a ring in walking order from node `i`, with their indices, until back at the head
`hd`; the first number bounds the walk. -/
def ringFrom (ix : WindowIndex) (hd : Nat) : Nat → Nat → Option (List (Nat × Node))
  | 0, _ => none
  | fuel + 1, i =>
    match nodeAt ix i with
    | none => none
    | some n => if n.next = hd then some [(i, n)] else (ringFrom ix hd fuel n.next).map ((i, n) :: ·)

/-- The nodes of ring `h`, none if the slot is `EMPTY`. -/
def ringNodes (ix : WindowIndex) (h : Nat) : Option (List (Nat × Node)) :=
  match headOf ix h with
  | none => some []
  | some hd => ringFrom ix hd ix.nodes.length hd

/-- The positions of the window that have a full signature (R35 item 2), from the oldest on. -/
def indexedPositions (s : State) : List Nat :=
  (List.range s.wLen.toNat).map (windowStart s + ·) |>.filter (fun p => decide (p + 3 ≤ s.cur0.fin.toNat))

/-- What ring `h` has to hold, walked from its head: the indexed positions of its slot from the newest
to the oldest, each with its three bytes and its circular offset (R35 items 1, 2 and 4). -/
def expectedRing (s : State) (h : Nat) : List (Nat × (Byte × Byte × Byte) × Nat) :=
  ((indexedPositions s).filter fun p => decide (sigHash s.tableSize (signature s.mem p) = h)).reverse.map
    fun p => (p, signature s.mem p, (p - s.wOrg.toNat) % s.maxWindow)

/-- Ring `h` closes, holds what it has to hold, and `prev` is the inverse of `next` (R35 item 4). -/
def ringOk (s : State) (h : Nat) : Bool :=
  match ringNodes s.index h with
  | none => false
  | some ring =>
    decide (ring.map (fun e => (e.2.addr.toNat, e.2.sig, e.2.coff)) = expectedRing s h) &&
      decide (ring.map (fun e => e.2.prev) = (ring.map Prod.fst).rotateRight 1)

/-- The index agrees with the window and the memory (R35): every ring is as it has to be, and there is
one live node for every indexed position. -/
abbrev IndexOk (s : State) : Prop :=
  (∀ h < s.tableSize, ringOk s h = true) ∧ s.index.nodes.length = (indexedPositions s).length

/-- How far the bytes from `p` agree with the bytes from `sp`, at most `room` (R258). -/
def agreement (m : Memory) (p sp : Nat) : Nat → Nat
  | 0 => 0
  | room + 1 => if memRead m p = memRead m sp then agreement m (p + 1) (sp + 1) room + 1 else 0

/-- `p` is a candidate of `find` at `sp`: in the window, with the same three first bytes (R258). -/
abbrev Candidate (s : State) (p : Nat) : Prop :=
  windowStart s ≤ p ∧ p < s.wEnd.toNat ∧ signature s.mem p = signature s.mem s.cur0.pos.toNat

/-! ## Legal command words (30_encoding.md R93, R96, R99) -/

/-- The bits of a word that must match under a format: the last column of R93. -/
def formatMask : Format → CommandWord
  | .Z => 0xFF7FFFFFFFFFFFFFFFFF
  | .N => 0xFF40FFFFFFFFFFFFFFFF
  | .A => 0xFF7F00000000FFFFFFFF
  | .NA => 0xFF4000000000FFFFFFFF
  | .AB => 0xFF7F0000000000000000
  | .O => 0xFFFFFFFFFFFFFFFFFFFF
  | .P => 0xFFF800000000FFFFFFFF

/-- An opcode and its format. -/
abbrev OpcodeRow := BitVec 8 × Format

/-- The opcodes and their formats (R96). -/
def opcodeMap : List OpcodeRow :=
  ([(0x01, .AB), (0x02, .A), (0x03, .Z), (0x04, .Z), (0x05, .Z), (0x06, .Z), (0x08, .A), (0x09, .A)] : List OpcodeRow) ++
  ([(0x10, .Z), (0x11, .A), (0x12, .N), (0x13, .N), (0x14, .NA), (0x15, .NA), (0x16, .N), (0x17, .N)] : List OpcodeRow) ++
  ([(0x20, .Z), (0x21, .Z), (0x22, .Z), (0x23, .Z), (0x25, .Z), (0x26, .Z), (0x27, .Z), (0x28, .Z)] : List OpcodeRow) ++
  ([(0x29, .Z), (0x2A, .Z), (0x2B, .Z), (0x2D, .Z), (0x2E, .Z), (0x2F, .Z), (0x30, .A), (0x31, .A)] : List OpcodeRow) ++
  ([(0x32, .A), (0x33, .A), (0x35, .A), (0x36, .A), (0x37, .A), (0x38, .A), (0x39, .A), (0x3A, .A)] : List OpcodeRow) ++
  ([(0x3B, .A), (0x3D, .A), (0x3E, .A), (0x3F, .A), (0x40, .Z), (0x41, .AB), (0x42, .AB), (0x48, .A)] : List OpcodeRow) ++
  ([(0x49, .Z), (0x50, .P), (0x51, .O), (0x52, .O), (0x53, .O), (0x54, .O), (0x55, .O), (0x56, .O)] : List OpcodeRow) ++
  ([(0x57, .O)] : List OpcodeRow)

/-- A word is a command of R96 that breaks nothing of R99: it matches the pattern of its row, a bit
count is at most 32, and `codec_open` names a strategy with a parameter in its range (44_vlc.md
R224). -/
def legalWord (w : CommandWord) : Prop :=
  ∃ row ∈ opcodeMap, w &&& formatMask row.2 = row.1 ++ (0 : BitVec 72) ∧
    (row.2 = .N ∨ row.2 = .NA → (w.extractLsb' 64 6).toNat ≤ 32) ∧
    (row.2 = .P →
      (w.extractLsb' 65 2 = 0 ∧ 1 ≤ (w.extractLsb' 32 32).toNat ∧ (w.extractLsb' 32 32).toNat ≤ 32) ∨
      (w.extractLsb' 65 2 = 1 ∧ (w.extractLsb' 32 32).toNat ≤ 31) ∨
      (w.extractLsb' 65 2 = 2 ∧ w.extractLsb' 32 32 = 0))

/-! ## Words for the statements -/

/-- The state with a response. -/
def answered (s : State) (st : Status) (r0 r1 : Word) : State :=
  { s with response := some { status := st, r0 := r0, r1 := r1 } }

/-- The number of the `w` bytes at `p` in a byte order, as the sums of 20_memory.md R63. -/
def byteSum (m : Memory) (p w : Nat) : ByteOrder → Nat
  | .little => ((List.range w).map fun i => (memRead m (p + i)).toNat * 256 ^ i).sum
  | .big => ((List.range w).map fun i => (memRead m (p + i)).toNat * 256 ^ (w - 1 - i)).sum

/-- The two's complement reading of a `w`-bit number in 32 bits. -/
def signedWord (w v : Nat) : Word :=
  word (if v < 2 ^ (w - 1) then v else v + (2 ^ 32 - 2 ^ w))

/-- Memory `m'` is `m` but for the `w` bytes at `p`, which are the low `w` bytes of `v` in a byte
order (20_memory.md R63). -/
def storesBytes (m m' : Memory) (p w v : Nat) (order : ByteOrder) : Prop :=
  ∀ x, (memRead m' x).toNat =
    if p ≤ x ∧ x < p + w then
      match order with
      | .little => v / 256 ^ (x - p) % 256
      | .big => v / 256 ^ (w - 1 - (x - p)) % 256
    else (memRead m x).toNat

/-- Memory `m'` is `m` but for the bits from bit address `p` on, which are `bits`. -/
def storesBits (m m' : Memory) (p : Nat) (bits : List Bool) : Prop :=
  ∀ x, readBit m' x = if p ≤ x ∧ x < p + bits.length then bits.getD (x - p) false else readBit m x

/-- The stream that starts at the cursor begins with these bits. -/
def bitsStand (m : Memory) (k : Cursor) (bits : List Bool) : Prop :=
  bits.length ≤ leftBits k ∧ ∀ i < bits.length, bitsAt m k i = bits.getD i false

/-- The cursor `n` bits further on in the same region, by its bit address (10_state.md R26). -/
def movedBits (k k' : Cursor) (n : Nat) : Prop :=
  bitAddr k' = bitAddr k + n ∧ k'.origin = k.origin ∧ k'.fin = k.fin

/-- The other context. -/
def otherCursor : CurSel → CurSel
  | .c0 => .c1
  | .c1 => .c0

/-- The registers of the codec and the index: everything of the block but the cursors. -/
def sameCodec (s t : State) : Prop :=
  t.cstate = s.cstate ∧ t.vlcType = s.vlcType ∧ t.vlcParam = s.vlcParam ∧ t.wOrg = s.wOrg ∧
    t.wEnd = s.wEnd ∧ t.wLen = s.wLen ∧ t.posBits = s.posBits ∧ t.base = s.base ∧ t.sEnd = s.sEnd ∧
    t.index = s.index

/-- The registers of the model's own and the parameters, which no command writes. -/
def sameHost (s t : State) : Prop :=
  t.inputs = s.inputs ∧ t.maxWindow = s.maxWindow ∧ t.tableSize = s.tableSize ∧ t.freeCount = s.freeCount

/-- Memory `m'` is `m` but for the bytes that a copy of `n` bytes from `src` to `dst` stores: ascending,
one byte at a time, so that a byte stored early is read again where the ranges overlap
(20_memory.md R69). -/
def copiesBytes (m m' : Memory) (src dst n : Nat) : Prop :=
  (∀ j < n, memRead m' (dst + j) =
    if dst ≤ src + j ∧ src + j < dst + j then memRead m' (src + j) else memRead m (src + j)) ∧
  ∀ x, x < dst ∨ dst + n ≤ x → memRead m' x = memRead m x

/-- What an encoded token leaves (46_lzsw_encode.md R273, R278): its bits at the output cursor and
nothing else in memory, both cursors past it, the window up to the new source position. The index is
the subject of `IndexOk`. -/
def Encoded (s t : State) (bits : List Bool) (n : Nat) : Prop :=
  storesBits s.mem t.mem (bitAddr s.cur1) bits ∧ movedBits s.cur1 t.cur1 bits.length ∧
    movedBits s.cur0 t.cur0 (8 * n) ∧
    t.wEnd.toNat = s.wEnd.toNat + n ∧
    t.wLen.toNat = min (s.wEnd.toNat + n - s.wOrg.toNat) s.maxWindow ∧
    t.posBits.toNat = clog2 t.wLen.toNat ∧
    t.base.toNat = (t.wEnd.toNat - t.wLen.toNat - s.wOrg.toNat) % s.maxWindow ∧
    t.wOrg = s.wOrg ∧ t.sEnd = s.sEnd ∧ t.cstate = s.cstate ∧ t.vlcType = s.vlcType ∧
    t.vlcParam = s.vlcParam ∧ sameHost s t

/-- What a decoded token of `len` bits leaves beside the `n` bytes it puts out (47_lzsw_decode.md R292,
R300): both cursors past it and the window up to the new output position; the rest as it was. -/
def Decoded (s t : State) (n len : Nat) : Prop :=
  movedBits s.cur0 t.cur0 len ∧ movedBits s.cur1 t.cur1 (8 * n) ∧
    t.wEnd.toNat = s.wEnd.toNat + n ∧
    t.wLen.toNat = min (s.wEnd.toNat + n - s.wOrg.toNat) s.maxWindow ∧
    t.posBits.toNat = clog2 t.wLen.toNat ∧
    t.wOrg = s.wOrg ∧ t.base = s.base ∧ t.sEnd = s.sEnd ∧ t.index = s.index ∧ t.cstate = s.cstate ∧
    t.vlcType = s.vlcType ∧ t.vlcParam = s.vlcParam ∧ sameHost s t

/-- The bytes of a match (47_lzsw_decode.md R296): the `d` bytes before the output position repeated
to `n` bytes, the rest of memory as it was. -/
def repeatsBytes (m m' : Memory) (dst d n : Nat) : Prop :=
  (∀ j < n, memRead m' (dst + j) = memRead m (dst - d + j % d)) ∧
  ∀ x, x < dst ∨ dst + n ≤ x → memRead m' x = memRead m x

/-- The cursor context that a cursor command or a VLC command names (30_encoding.md R92); the codec
commands and the stream forms name none. -/
def namedCursor : Instr → Option CurSel
  | .attach c _ _ => some c
  | .goto c _ => some c
  | .sync c => some c
  | .tell c => some c
  | .leftBytes c => some c
  | .leftBits c => some c
  | .skipBytes c _ => some c
  | .skipBits c _ => some c
  | .getU1 c => some c
  | .setU1 c _ => some c
  | .getUbits c _ => some c
  | .getSbits c _ => some c
  | .setUbits c _ _ => some c
  | .setSbits c _ _ => some c
  | .peekUbits c _ => some c
  | .peekSbits c _ => some c
  | .getU8 c => some c
  | .getU16Le c => some c
  | .getU24Le c => some c
  | .getU32Le c => some c
  | .getU16Be c => some c
  | .getU24Be c => some c
  | .getU32Be c => some c
  | .getS8 c => some c
  | .getS16Le c => some c
  | .getS24Le c => some c
  | .getS32Le c => some c
  | .getS16Be c => some c
  | .getS24Be c => some c
  | .getS32Be c => some c
  | .setU8 c _ => some c
  | .setU16Le c _ => some c
  | .setU24Le c _ => some c
  | .setU32Le c _ => some c
  | .setU16Be c _ => some c
  | .setU24Be c _ => some c
  | .setU32Be c _ => some c
  | .setS8 c _ => some c
  | .setS16Le c _ => some c
  | .setS24Le c _ => some c
  | .setS32Le c _ => some c
  | .setS16Be c _ => some c
  | .setS24Be c _ => some c
  | .setS32Be c _ => some c
  | .getString c => some c
  | .getData c _ _ => some c
  | .setData c _ _ => some c
  | .vlcPut c _ => some c
  | .vlcGet c => some c
  | .codecOpen _ _ _ => none
  | .codecClose => none
  | .deflateStep => none
  | .deflateRun => none
  | .inflateStep => none
  | .inflateRun => none
  | .codecState => none
  | .winFind => none
  | .tokenLiteralPair _ _ => none
  | .tokenMatch _ _ => none
  | .tokenSingleLiteral _ => none
  | .vlcFixed _ => none
  | .vlcGolomb _ => none
  | .vlcGamma _ => none

/-- The bytes that a command may store to (10_state.md R39, column "memory write"): the part of a
cursor's region from its position on, or the clipped `ext` range of `get_data`. -/
def mayStore (i : Instr) (s : State) (x : Nat) : Prop :=
  match i with
  | .attach _ _ _ => False
  | .goto _ _ => False
  | .sync _ => False
  | .tell _ => False
  | .leftBytes _ => False
  | .leftBits _ => False
  | .skipBytes _ _ => False
  | .skipBits _ _ => False
  | .getU1 _ => False
  | .setU1 c _ => (getCur s c).pos.toNat ≤ x ∧ x < (getCur s c).fin.toNat
  | .getUbits _ _ => False
  | .getSbits _ _ => False
  | .setUbits c _ _ => (getCur s c).pos.toNat ≤ x ∧ x < (getCur s c).fin.toNat
  | .setSbits c _ _ => (getCur s c).pos.toNat ≤ x ∧ x < (getCur s c).fin.toNat
  | .peekUbits _ _ => False
  | .peekSbits _ _ => False
  | .getU8 _ => False
  | .getU16Le _ => False
  | .getU24Le _ => False
  | .getU32Le _ => False
  | .getU16Be _ => False
  | .getU24Be _ => False
  | .getU32Be _ => False
  | .getS8 _ => False
  | .getS16Le _ => False
  | .getS24Le _ => False
  | .getS32Le _ => False
  | .getS16Be _ => False
  | .getS24Be _ => False
  | .getS32Be _ => False
  | .setU8 c _ => (getCur s c).pos.toNat ≤ x ∧ x < (getCur s c).fin.toNat
  | .setU16Le c _ => (getCur s c).pos.toNat ≤ x ∧ x < (getCur s c).fin.toNat
  | .setU24Le c _ => (getCur s c).pos.toNat ≤ x ∧ x < (getCur s c).fin.toNat
  | .setU32Le c _ => (getCur s c).pos.toNat ≤ x ∧ x < (getCur s c).fin.toNat
  | .setU16Be c _ => (getCur s c).pos.toNat ≤ x ∧ x < (getCur s c).fin.toNat
  | .setU24Be c _ => (getCur s c).pos.toNat ≤ x ∧ x < (getCur s c).fin.toNat
  | .setU32Be c _ => (getCur s c).pos.toNat ≤ x ∧ x < (getCur s c).fin.toNat
  | .setS8 c _ => (getCur s c).pos.toNat ≤ x ∧ x < (getCur s c).fin.toNat
  | .setS16Le c _ => (getCur s c).pos.toNat ≤ x ∧ x < (getCur s c).fin.toNat
  | .setS24Le c _ => (getCur s c).pos.toNat ≤ x ∧ x < (getCur s c).fin.toNat
  | .setS32Le c _ => (getCur s c).pos.toNat ≤ x ∧ x < (getCur s c).fin.toNat
  | .setS16Be c _ => (getCur s c).pos.toNat ≤ x ∧ x < (getCur s c).fin.toNat
  | .setS24Be c _ => (getCur s c).pos.toNat ≤ x ∧ x < (getCur s c).fin.toNat
  | .setS32Be c _ => (getCur s c).pos.toNat ≤ x ∧ x < (getCur s c).fin.toNat
  | .getString _ => False
  | .getData c a b => a.toNat ≤ x ∧ x < a.toNat + min b.toNat (leftBytes (getCur s c))
  | .setData c _ _ => (getCur s c).pos.toNat ≤ x ∧ x < (getCur s c).fin.toNat
  | .vlcPut c _ => (getCur s c).pos.toNat ≤ x ∧ x < (getCur s c).fin.toNat
  | .vlcGet _ => False
  | .codecOpen _ _ _ => False
  | .codecClose => False
  | .deflateStep => s.cur1.pos.toNat ≤ x ∧ x < s.cur1.fin.toNat
  | .deflateRun => s.cur1.pos.toNat ≤ x ∧ x < s.cur1.fin.toNat
  | .inflateStep => s.cur1.pos.toNat ≤ x ∧ x < s.cur1.fin.toNat
  | .inflateRun => s.cur1.pos.toNat ≤ x ∧ x < s.cur1.fin.toNat
  | .codecState => False
  | .winFind => False
  | .tokenLiteralPair _ _ => s.cur1.pos.toNat ≤ x ∧ x < s.cur1.fin.toNat
  | .tokenMatch _ _ => s.cur1.pos.toNat ≤ x ∧ x < s.cur1.fin.toNat
  | .tokenSingleLiteral _ => s.cur1.pos.toNat ≤ x ∧ x < s.cur1.fin.toNat
  | .vlcFixed _ => False
  | .vlcGolomb _ => False
  | .vlcGamma _ => False

/-- A step command executed again and again, every time with status OK; the word is the sum of the
first results. -/
inductive OkSteps (i : Instr) : State → Word → State → Prop where
  | none (s : State) : OkSteps i s 0 s
  | more {s t u : State} {r0 r1 total : Word} (he : exec i s = .next t)
      (hr : t.response = some { status := .ok, r0 := r0, r1 := r1 }) (rest : OkSteps i t total u) :
      OkSteps i s (r0 + total) u

end Sys2Proof.Machine
end

