-- ==== Sys2Proof/Certificates/Slice0/Obligations.lean ====
section
/-! DEFINITION. The statements for the provers, listed in OBLIGATIONS.json. -/

open Sys2Proof Sys2Proof.Machine

/-- When the host's next act is a command word that decodes to an instruction i, then i is
well-formed and one step of the machine is exec of i in the state with that act taken off the list
of what the host does next. Nothing else is added around exec: there is no program counter (R26).
(The list of host acts is the model's own field, log 5.) (R7, R90, 30_encoding.md) -/
def Obligations.StepRunsTheCommandItDecodes : Prop :=
  ∀ (s : State) (w : CommandWord) (rest : List HostInput) (i : Instr),
    s.inputs = .command w :: rest → decode w = .ok i →
      i.wf = true ∧ step s = exec i { s with inputs := rest }

/-- For every 80-bit word w: w decodes to an instruction if and only if it matches the mask and
pattern of one opcode row (R93, R96), a bit count of format N or NA is at most 32, and for
codec_open the VLC type is 0 to 2 with its parameter in the range of R224. In every state, a step
whose word is not such a word answers status E_ILLEGAL with r0 = r1 = 0 and leaves every other part
of the state as it was, whatever that state is. (R99, R318) -/
def Obligations.IllegalWordsAnswerEIllegal : Prop :=
  (∀ w : CommandWord, legalWord w ↔ ∃ i, decode w = .ok i) ∧
    ∀ (s : State) (w : CommandWord) (rest : List HostInput),
      s.inputs = .command w :: rest → ¬ legalWord w →
        step s = .next (answered { s with inputs := rest } .eIllegal 0 0)

/-- The six encoded examples of R100, written out as 80-bit words, decode to attach c0, 0x1000, 16;
get_ubits c0, 5; set_sbits c1, 4, -3; get_data c0, 0x2000, 8; codec_open enc, fixed, 16;
deflate_run. (A sanity statement on fixed words.) (R91, R96, R100) -/
def Obligations.ExampleWordsDecode : Prop :=
  decode 0x01000000100000000010 = .ok (.attach .c0 0x1000 16) ∧
    decode 0x12050000000000000000 = .ok (.getUbits .c0 5) ∧
    decode 0x1584FFFFFFFD00000000 = .ok (.setSbits .c1 4 0xFFFFFFFD) ∧
    decode 0x41000000200000000008 = .ok (.getData .c0 0x2000 8) ∧
    decode 0x50000000001000000000 = .ok (.codecOpen .enc .fixed 16) ∧
    decode 0x53000000000000000000 = .ok .deflateRun

/-- For every well-formed instruction i that has a command word (the 57 commands, with every operand
at every value their encoding admits), decoding that word gives i: no bit of an encoding is dropped.
The six stream forms have no command word. (R91, R93, R95, R96) -/
def Obligations.DecodeOfEncodeIsTheCommand : Prop :=
  ∀ (i : Instr) (w : CommandWord), i.wf = true → encode i = some w → decode w = .ok i

/-- For every 80-bit word w that decodes to an instruction i, i is well-formed and the encoding of i
is w. So each command has exactly one word, no field is ignored, and two different words never stand
for one command. (R93, R96, R99) -/
def Obligations.EveryDecodedWordIsTheEncodingOfItsCommand : Prop :=
  ∀ (w : CommandWord) (i : Instr), decode w = .ok i → i.wf = true ∧ encode i = some w

/-- The state after reset has both cursors detached at address 0 with BITOFF 0, CSTATE = CLOSED,
VLC_TYPE, VLC_PARAM, W_ORG, W_END, W_LEN, POS_BITS, BASE and S_END 0. When reset is asserted between
commands, the step gives a state with the same values, with every byte of memory as it was, no
response pending, and the rest of the host's acts still to come. When reset is asserted while
command word w executes, the step gives a state with the same register values and no response, in
which every address reads as before that the finished command would have left as it was; the other
addresses may read anything (log 8). The register values are the spec's; that no response is
pending, that the acts still to come and the two parameters are kept, and that reset during a
command is an act of the host, are the model's choices (logs 6, 5, 3, 8). HT, NODE and the free list
are unspecified in the spec (log 4). (R38, R350, R351, notes/assumptions/3.md,
notes/assumptions/4.md, notes/assumptions/5.md, notes/assumptions/6.md, notes/assumptions/8.md) -/
def Obligations.ResetPutsEveryRegisterAtItsResetValue : Prop :=
  let Cleared (t : State) : Prop :=
      t.cur0 = ⟨0, 0, 0, 0⟩ ∧ t.cur1 = ⟨0, 0, 0, 0⟩ ∧ t.cstate = .closed ∧ t.vlcType = .fixed ∧
        t.vlcParam = 0 ∧ t.wOrg = 0 ∧ t.wEnd = 0 ∧ t.wLen = 0 ∧ t.posBits = 0 ∧ t.base = 0 ∧ t.sEnd = 0 ∧
        t.response = none
  Cleared State.reset ∧
      (∀ (s : State) (rest : List HostInput), s.inputs = .reset :: rest →
        ∃ t, step s = .next t ∧ Cleared t ∧ t.mem = s.mem ∧ t.inputs = rest ∧
          t.maxWindow = s.maxWindow ∧ t.tableSize = s.tableSize) ∧
      ∀ (s : State) (w : CommandWord) (rest : List HostInput), s.inputs = .resetDuring w :: rest →
        ∃ t finished, step s = .next t ∧ Cleared t ∧ t.inputs = rest ∧
          t.maxWindow = s.maxWindow ∧ t.tableSize = s.tableSize ∧
          runCommand w { s with inputs := rest } = .next finished ∧
          ∀ x, memRead finished.mem x = memRead s.mem x → memRead t.mem x = memRead s.mem x

/-- In a state whose registers are as reset leaves them: tell, left_bytes, left_bits, sync,
skip_bytes 0, skip_bits 0, goto 0, the zero-width bit commands, get_data, set_data and codec_state
answer (OK, 0, 0) and change nothing; get_string answers (NOT_FOUND, 0, 0); every getter, setter,
peek and skip of at least one bit or byte and goto a > 0 answer E_BOUNDS; vlc_put, vlc_get,
codec_close, the step and run commands and win_find answer E_SEQUENCE; a well-formed codec_open
answers OK, and the first deflate_step or inflate_step after it answers DONE. (R352) -/
def Obligations.AnswersRightAfterReset : Prop :=
  ∀ (s : State) (c : CurSel) (a b : Word) (n : BitVec 6),
    s.cur0 = ⟨0, 0, 0, 0⟩ → s.cur1 = ⟨0, 0, 0, 0⟩ → s.cstate = .closed → s.vlcType = .fixed →
    s.vlcParam = 0 → s.wLen = 0 → s.posBits = 0 →
    (∀ i ∈ [Instr.tell c, .leftBytes c, .leftBits c, .sync c, .skipBytes c 0, .skipBits c 0, .goto c 0,
        .getUbits c 0, .setUbits c 0 a, .peekUbits c 0, .getSbits c 0, .setSbits c 0 a, .peekSbits c 0,
        .getData c a b, .setData c a b, .codecState],
      exec i s = .next (answered s .ok 0 0)) ∧
    exec (.getString c) s = .next (answered s .notFound 0 0) ∧
    (∀ i ∈ [Instr.getU1 c, .setU1 c a, .getU8 c, .getU16Le c, .getU24Le c, .getU32Le c, .getU16Be c,
        .getU24Be c, .getU32Be c, .getS8 c, .getS16Le c, .getS24Le c, .getS32Le c, .getS16Be c,
        .getS24Be c, .getS32Be c, .setU8 c a, .setU16Le c a, .setU24Le c a, .setU32Le c a, .setU16Be c a,
        .setU24Be c a, .setU32Be c a, .setS8 c a, .setS16Le c a, .setS24Le c a, .setS32Le c a,
        .setS16Be c a, .setS24Be c a, .setS32Be c a],
      exec i s = .next (answered s .eBounds 0 0)) ∧
    (1 ≤ n.toNat → n.toNat ≤ 32 → ∀ i ∈ [Instr.getUbits c n, .getSbits c n, .setUbits c n a,
        .setSbits c n a, .peekUbits c n, .peekSbits c n],
      exec i s = .next (answered s .eBounds 0 0)) ∧
    (a ≠ 0 → ∀ i ∈ [Instr.goto c a, .skipBytes c a, .skipBits c a],
      exec i s = .next (answered s .eBounds 0 0)) ∧
    (∀ i ∈ [Instr.vlcPut c a, .vlcGet c, .codecClose, .deflateStep, .deflateRun, .inflateStep,
        .inflateRun, .winFind],
      exec i s = .next (answered s .eSequence 0 0)) ∧
    ∀ (mode : CodecMode) (ty : VlcType), vlcParamOk ty a = true →
      ∃ t u, exec (.codecOpen mode ty a) s = .next t ∧ t.response = some ⟨.ok, 0, 0⟩ ∧
        exec (match mode with | .enc => .deflateStep | .dec => .inflateStep) t = .next u ∧
        u.response = some ⟨.done, 0, 0⟩

/-- With nothing for the host to do, a step gives the same state back (R336: between commands all
state persists). When the host's next act is to write byte b at address a, the step gives a state in
which that address reads b, every other address reads as before, and every register, the index and
the last response are as they were. (The list of host acts is the model's own field, logs 5 and 7.)
(R37, R71, R336) -/
def Obligations.IdleStepsAndHostWritesTouchNothingElse : Prop :=
  (∀ s : State, s.inputs = [] → step s = .next s) ∧
    ∀ (s : State) (a : Word) (b : Byte) (rest : List HostInput), s.inputs = .write a b :: rest →
      ∃ m, step s = .next { s with inputs := rest, mem := m } ∧
        ∀ x, memRead m x = if x = a.toNat then b else memRead s.mem x

/-- In every state the machine's step answers a next state: it never faults and never refuses, and
nothing is stuck. That no access faults is the model's choice of total memory (log 1; R62 and U9
leave an unbacked address a fault); what a step is, and that one with no act to take keeps the
state, are its choices too (logs 5, 7). When the host's next act is a command word, legal or not,
the next state carries a response to it, and the rest of the host's acts stand ready, so the next
command is accepted at once, also after an error (R320). (R320, R62, R336, notes/assumptions/1.md,
notes/assumptions/5.md, notes/assumptions/7.md) -/
def Obligations.EveryCommandIsAnswered : Prop :=
  (∀ s : State, ∃ t, step s = .next t) ∧
    ∀ (s : State) (w : CommandWord) (rest : List HostInput), s.inputs = .command w :: rest →
      ∃ t r, step s = .next t ∧ t.response = some r ∧ t.inputs = rest

/-- For every instruction: if exec answers a next state whose response has an error status (0x10 and
above), then r0 = r1 = 0. If moreover the instruction is not inflate_run, then the state is the old
one with that response when the status is below 0x20 or the instruction is neither inflate_step nor
a token form (which is met by inflate_step, log 10), and the old one with CSTATE = FAILED and that
response when inflate_step or a token form ends with a CodecError (0x20 and above). inflate_run that
answers E_SEQUENCE has changed nothing either, and after a CodecError it leaves CSTATE = FAILED (the
tokens before the offending one are kept, another statement says which). (R94, R312, R313, R297) -/
def Obligations.ErrorsHaveNoSideEffect : Prop :=
  ∀ (i : Instr) (s t : State) (st : Status) (r0 r1 : Word),
    exec i s = .next t → t.response = some ⟨st, r0, r1⟩ → 0x10 ≤ (statusCode st).toNat →
      r0 = 0 ∧ r1 = 0 ∧
      (i ≠ .inflateRun ∨ st = .eSequence →
        let Fails : Prop := (i = .inflateStep ∨ ∃ tk : Token, i = tk.instr) ∧ 0x20 ≤ (statusCode st).toNat
        (Fails → t = answered { s with cstate := .failed } st 0 0) ∧ (¬ Fails → t = answered s st 0 0)) ∧
      (i = .inflateRun → 0x20 ≤ (statusCode st).toNat → t.cstate = .failed)

/-- attach c, a, b answers E_BOUNDS and changes nothing when b = 0 or a + b > 2^32 - 1; otherwise it
answers (OK, 0, 0) and cursor c has ORIGIN = POS = a, END = a + b, BITOFF = 0. goto c, a answers
E_BOUNDS and changes nothing when a exceeds the size END - ORIGIN of the region; otherwise it
answers (OK, 0, 0) with POS = ORIGIN + a, BITOFF = 0 and ORIGIN and END as they were. Nothing else
of the state changes, memory and the other cursor included. (R130, R131) -/
def Obligations.AttachAndGotoPlaceTheCursor : Prop :=
  (∀ (c : CurSel) (a b : Word) (s : State),
      (b = 0 ∨ 2 ^ 32 - 1 < a.toNat + b.toNat →
        exec (.attach c a b) s = .next (answered s .eBounds 0 0)) ∧
      (b ≠ 0 → a.toNat + b.toNat ≤ 2 ^ 32 - 1 →
        exec (.attach c a b) s = .next (answered (setCur s c ⟨a, a, a + b, 0⟩) .ok 0 0) ∧
          (a + b).toNat = a.toNat + b.toNat)) ∧
    ∀ (c : CurSel) (a : Word) (s : State), (getCur s c).origin.toNat ≤ (getCur s c).fin.toNat →
      ((getCur s c).fin.toNat - (getCur s c).origin.toNat < a.toNat →
        exec (.goto c a) s = .next (answered s .eBounds 0 0)) ∧
      (a.toNat ≤ (getCur s c).fin.toNat - (getCur s c).origin.toNat →
        ∃ k, exec (.goto c a) s = .next (answered (setCur s c k) .ok 0 0) ∧
          k.origin = (getCur s c).origin ∧ k.fin = (getCur s c).fin ∧ k.bitoff = 0 ∧
          k.pos.toNat = (getCur s c).origin.toNat + a.toNat)

/-- On a cursor that meets R22, sync, tell and left_bytes answer OK and leave cursor c at the least
byte boundary at or after its bit address, BITOFF = 0, region as before, and nothing else of the
state changed. sync answers results 0; tell answers r0 = POS - ORIGIN after the sync; left_bytes
answers r0 = END - POS after the sync; r1 = 0. (R132, R133, R135) -/
def Obligations.SyncRoundsUpAndTheQueriesSyncFirst : Prop :=
  ∀ (c : CurSel) (s : State), CursorOk (getCur s c) →
    ∃ k : Cursor, k.bitoff = 0 ∧ k.pos.toNat = (bitAddr (getCur s c) + 7) / 8 ∧
      k.origin = (getCur s c).origin ∧ k.fin = (getCur s c).fin ∧ CursorOk k ∧
      exec (.sync c) s = .next (answered (setCur s c k) .ok 0 0) ∧
      exec (.tell c) s = .next (answered (setCur s c k) .ok (k.pos - k.origin) 0) ∧
      (k.pos - k.origin).toNat = k.pos.toNat - k.origin.toNat ∧
      exec (.leftBytes c) s = .next (answered (setCur s c k) .ok (k.fin - k.pos) 0) ∧
      (k.fin - k.pos).toNat = k.fin.toNat - k.pos.toNat

/-- On a cursor that meets R22, left_bits answers OK with r0 + 2^32 * r1 = L and r1 below 16, where
L + (8*POS + BITOFF) = 8*END, that is L = 8*(END - POS) - BITOFF; the state is as before in
everything but the response. (R136) -/
def Obligations.LeftBitsReportsTheExactCount : Prop :=
  ∀ (c : CurSel) (s : State), CursorOk (getCur s c) →
    ∃ r0 r1 : Word, exec (.leftBits c) s = .next (answered s .ok r0 r1) ∧ r1.toNat < 16 ∧
      r0.toNat + 2 ^ 32 * r1.toNat + bitAddr (getCur s c) = 8 * (getCur s c).fin.toNat

/-- skip_bytes c, a: with BITOFF != 0 it answers E_UNALIGNED; synced with fewer than a bytes left,
E_BOUNDS; synced with at least a bytes left, (OK, 0, 0) and the bit address 8*POS + BITOFF grows by
8*a. skip_bits c, a: with fewer than a bits left E_BOUNDS, otherwise (OK, 0, 0) and the bit address
grows by a. An error changes nothing; success changes nothing but POS and BITOFF of cursor c. (R138,
R139) -/
def Obligations.SkipsAdvanceByTheirCount : Prop :=
  ∀ (c : CurSel) (a : Word) (s : State),
    ((getCur s c).bitoff ≠ 0 → exec (.skipBytes c a) s = .next (answered s .eUnaligned 0 0)) ∧
    ((getCur s c).bitoff = 0 → leftBytes (getCur s c) < a.toNat →
      exec (.skipBytes c a) s = .next (answered s .eBounds 0 0)) ∧
    ((getCur s c).bitoff = 0 → a.toNat ≤ leftBytes (getCur s c) →
      ∃ k, exec (.skipBytes c a) s = .next (answered (setCur s c k) .ok 0 0) ∧
        movedBits (getCur s c) k (8 * a.toNat)) ∧
    (leftBits (getCur s c) < a.toNat → exec (.skipBits c a) s = .next (answered s .eBounds 0 0)) ∧
    (a.toNat ≤ leftBits (getCur s c) →
      ∃ k, exec (.skipBits c a) s = .next (answered (setCur s c k) .ok 0 0) ∧
        movedBits (getCur s c) k a.toNat)

/-- For n at most 32: with fewer than n bits left get_ubits c, n answers E_BOUNDS and changes
nothing; otherwise, with k = ceil((BITOFF + n)/8) and W the k bytes from POS as one big-endian
number, it answers OK with r0 = (W >> (8k - BITOFF - n)) mod 2^n, the bit address of cursor c grows
by n and nothing else changes. get_u1 is the same with one bit: (M[POS] >> (7 - BITOFF)) & 1. (R150,
R152) -/
def Obligations.GetUbitsReadsTheBigEndianField : Prop :=
  (∀ (c : CurSel) (n : BitVec 6) (s : State), n.toNat ≤ 32 →
      (leftBits (getCur s c) < n.toNat → exec (.getUbits c n) s = .next (answered s .eBounds 0 0)) ∧
      (n.toNat ≤ leftBits (getCur s c) →
        ∃ r k, exec (.getUbits c n) s = .next (answered (setCur s c k) .ok r 0) ∧
          movedBits (getCur s c) k n.toNat ∧
          r.toNat = byteSum s.mem (getCur s c).pos.toNat (((getCur s c).bitoff.toNat + n.toNat + 7) / 8) .big /
            2 ^ (8 * (((getCur s c).bitoff.toNat + n.toNat + 7) / 8) - (getCur s c).bitoff.toNat - n.toNat) %
              2 ^ n.toNat)) ∧
    ∀ (c : CurSel) (s : State),
      (leftBits (getCur s c) < 1 → exec (.getU1 c) s = .next (answered s .eBounds 0 0)) ∧
      (1 ≤ leftBits (getCur s c) →
        ∃ r k, exec (.getU1 c) s = .next (answered (setCur s c k) .ok r 0) ∧
          movedBits (getCur s c) k 1 ∧
          r.toNat = (memRead s.mem (getCur s c).pos.toNat).toNat / 2 ^ (7 - (getCur s c).bitoff.toNat) % 2)

/-- For n at most 32: with fewer than n bits left get_sbits c, n answers E_BOUNDS and changes
nothing; otherwise it leaves the state that get_ubits c, n leaves but for the result: when get_ubits
answers v, get_sbits answers the 32-bit two's complement of the n-bit number v (v when v < 2^(n-1),
v - 2^n when not; 0 for n = 0). (R154) -/
def Obligations.GetSbitsIsTheSignExtensionOfGetUbits : Prop :=
  ∀ (c : CurSel) (n : BitVec 6) (s : State), n.toNat ≤ 32 →
    (leftBits (getCur s c) < n.toNat → exec (.getSbits c n) s = .next (answered s .eBounds 0 0)) ∧
    (n.toNat ≤ leftBits (getCur s c) →
      ∃ v k, exec (.getUbits c n) s = .next (answered (setCur s c k) .ok v 0) ∧
        exec (.getSbits c n) s = .next (answered (setCur s c k) .ok (signedWord n.toNat v.toNat) 0) ∧
        v.toNat < 2 ^ n.toNat ∧ movedBits (getCur s c) k n.toNat)

/-- For n at most 32: with fewer than n bits left peek_ubits and peek_sbits answer E_BOUNDS;
otherwise they answer OK with the result that get_ubits or get_sbits of the same n would answer from
the same state. In either case the state is as before in everything but the response, the cursor
included. (R156, R157) -/
def Obligations.PeeksAnswerTheGetAndMoveNothing : Prop :=
  ∀ (c : CurSel) (n : BitVec 6) (s : State), n.toNat ≤ 32 →
    (leftBits (getCur s c) < n.toNat →
      exec (.peekUbits c n) s = .next (answered s .eBounds 0 0) ∧
        exec (.peekSbits c n) s = .next (answered s .eBounds 0 0)) ∧
    (n.toNat ≤ leftBits (getCur s c) →
      (∃ v t, exec (.getUbits c n) s = .next t ∧ t.response = some ⟨.ok, v, 0⟩ ∧
        exec (.peekUbits c n) s = .next (answered s .ok v 0)) ∧
      ∃ v t, exec (.getSbits c n) s = .next t ∧ t.response = some ⟨.ok, v, 0⟩ ∧
        exec (.peekSbits c n) s = .next (answered s .ok v 0))

/-- For n at most 32: with fewer than n bits left set_ubits c, n, a and set_sbits c, n, a answer
E_BOUNDS and change nothing; otherwise they answer (OK, 0, 0), the bit at bit address 8*POS + BITOFF
+ j is a[n-1-j] for every j < n, every other bit of memory is as before, the bit address of cursor c
grows by n, and nothing else changes. set_u1 c, a is the same with the one bit a[0]. (R151, R153,
R155) -/
def Obligations.BitSettersWriteTheirFieldAndNoOtherBit : Prop :=
  ∀ (c : CurSel) (a : Word) (s : State) (i : Instr) (n : Nat), n ≤ 32 →
    (i = .setU1 c a ∧ n = 1) ∨ (i = .setUbits c (BitVec.ofNat 6 n) a) ∨
      (i = .setSbits c (BitVec.ofNat 6 n) a) →
    (leftBits (getCur s c) < n → exec i s = .next (answered s .eBounds 0 0)) ∧
    (n ≤ leftBits (getCur s c) →
      ∃ m k, exec i s = .next (answered (setCur { s with mem := m } c k) .ok 0 0) ∧
        movedBits (getCur s c) k n ∧
        (∀ j < n, readBit m (bitAddr (getCur s c) + j) = a.getLsbD (n - 1 - j)) ∧
        (∀ p, p < bitAddr (getCur s c) ∨ bitAddr (getCur s c) + n ≤ p → readBit m p = readBit s.mem p) ∧
        ∀ x, x < bitAddr (getCur s c) / 8 ∨ (bitAddr (getCur s c) + n + 7) / 8 ≤ x →
          memRead m x = memRead s.mem x)

/-- For n in 1..32 with n bits left on a cursor that meets R22: after set_ubits c, n, v with v <
2^n, moving the cursor back by goto to its byte and skip_bits to its bit and get_ubits c, n answers
(OK, v, 0); after set_sbits c, n, v with -2^(n-1) <= v < 2^(n-1) as a signed number, the same way
back and get_sbits c, n answers (OK, v, 0). It holds at every BITOFF and every memory content.
(R158) -/
def Obligations.FieldsRoundTripThroughMemory : Prop :=
  ∀ (c : CurSel) (n : BitVec 6) (v : Word) (s : State),
    1 ≤ n.toNat → n.toNat ≤ 32 → CursorOk (getCur s c) → n.toNat ≤ leftBits (getCur s c) →
    let back := word ((getCur s c).pos.toNat - (getCur s c).origin.toNat)
    let off := word (getCur s c).bitoff.toNat
    (v.toNat < 2 ^ n.toNat →
      ∃ t u w x, exec (.setUbits c n v) s = .next t ∧ exec (.goto c back) t = .next u ∧
        exec (.skipBits c off) u = .next w ∧ exec (.getUbits c n) w = .next x ∧
        x.response = some ⟨.ok, v, 0⟩) ∧
    (-(2 ^ (n.toNat - 1) : Int) ≤ v.toInt → v.toInt < 2 ^ (n.toNat - 1) →
      ∃ t u w x, exec (.setSbits c n v) s = .next t ∧ exec (.goto c back) t = .next u ∧
        exec (.skipBits c off) u = .next w ∧ exec (.getSbits c n) w = .next x ∧
        x.response = some ⟨.ok, v, 0⟩)

/-- For n1 + n2 at most 32 with that many bits left: get_ubits n1 answering v1 and then get_ubits n2
answering v2 leave the cursor where get_ubits n1 + n2 leaves it, and that answers v1 * 2^n2 + v2.
set_ubits n1 with a[n1+n2-1 : n2] and then set_ubits n2 with a[n2-1 : 0] leave exactly the state
that one set_ubits n1 + n2 with a leaves. (R159) -/
def Obligations.FieldsSplitAndJoin : Prop :=
  ∀ (c : CurSel) (n1 n2 : BitVec 6) (a : Word) (s : State),
    n1.toNat + n2.toNat ≤ 32 → n1.toNat + n2.toNat ≤ leftBits (getCur s c) →
    (∃ t u w v1 v2 v, exec (.getUbits c n1) s = .next t ∧ t.response = some ⟨.ok, v1, 0⟩ ∧
      exec (.getUbits c n2) t = .next u ∧ u.response = some ⟨.ok, v2, 0⟩ ∧
      exec (.getUbits c (n1 + n2)) s = .next w ∧ w.response = some ⟨.ok, v, 0⟩ ∧
      v.toNat = v1.toNat * 2 ^ n2.toNat + v2.toNat ∧ getCur u c = getCur w c) ∧
    ∃ t u, exec (.setUbits c n1 (a >>> n2.toNat)) s = .next t ∧ exec (.setUbits c n2 a) t = .next u ∧
      exec (.setUbits c (n1 + n2) a) s = .next u

/-- In a state where cursor c stands at BITOFF = 0: get_ubits c, 8n does exactly what the unsigned
big-endian getter of n bytes does, get_sbits c, 8n what the signed one does, and set_ubits c, 8n, a
what the big-endian setter does, for n = 1, 2, 3, 4: the same response, the same memory, the same
next state, errors included. (R64, R180, R181, R182, R187, R188, R194, R195, R196) -/
def Obligations.WholeByteFieldsAreBigEndian : Prop :=
  ∀ (c : CurSel) (a : Word) (s : State), (getCur s c).bitoff = 0 →
    exec (.getUbits c 8) s = exec (.getU8 c) s ∧ exec (.getUbits c 16) s = exec (.getU16Be c) s ∧
    exec (.getUbits c 24) s = exec (.getU24Be c) s ∧ exec (.getUbits c 32) s = exec (.getU32Be c) s ∧
    exec (.getSbits c 8) s = exec (.getS8 c) s ∧ exec (.getSbits c 16) s = exec (.getS16Be c) s ∧
    exec (.getSbits c 24) s = exec (.getS24Be c) s ∧ exec (.getSbits c 32) s = exec (.getS32Be c) s ∧
    exec (.setUbits c 8 a) s = exec (.setU8 c a) s ∧ exec (.setUbits c 16 a) s = exec (.setU16Be c a) s ∧
    exec (.setUbits c 24 a) s = exec (.setU24Be c a) s ∧
    exec (.setUbits c 32 a) s = exec (.setU32Be c a) s

/-- For get_u8, get_u16/24/32_le and get_u16/24/32_be, each with its width w in bytes and its byte
order: with BITOFF != 0 the command answers E_UNALIGNED, synced with fewer than w bytes left
E_BOUNDS, both changing nothing; otherwise it answers OK with r0 the number of the w bytes from POS
(little-endian: sum of M[P+i]*256^i; big-endian: sum of M[P+i]*256^(w-1-i)), r1 = 0, POS grows by w,
and nothing else of the state changes. (R171, R176, R177, R178, R179, R180, R181, R182) -/
def Obligations.UnsignedGettersComposeTheirBytes : Prop :=
  ∀ (c : CurSel) (s : State) (i : Instr) (w : Nat) (order : ByteOrder),
    (i, w, order) ∈ ([(.getU8 c, 1, .little), (.getU16Le c, 2, .little), (.getU24Le c, 3, .little),
      (.getU32Le c, 4, .little), (.getU16Be c, 2, .big), (.getU24Be c, 3, .big), (.getU32Be c, 4, .big)] : List (Instr × Nat × ByteOrder)) →
    ((getCur s c).bitoff ≠ 0 → exec i s = .next (answered s .eUnaligned 0 0)) ∧
    ((getCur s c).bitoff = 0 → leftBytes (getCur s c) < w → exec i s = .next (answered s .eBounds 0 0)) ∧
    ((getCur s c).bitoff = 0 → w ≤ leftBytes (getCur s c) →
      ∃ r k, exec i s = .next (answered (setCur s c k) .ok r 0) ∧ movedBits (getCur s c) k (8 * w) ∧
        r.toNat = byteSum s.mem (getCur s c).pos.toNat w order)

/-- For get_s8, get_s16/24/32_le and get_s16/24/32_be, each with its width w in bytes and its byte
order: with BITOFF != 0 the command answers E_UNALIGNED, synced with fewer than w bytes left
E_BOUNDS, both changing nothing; otherwise it answers OK with r0 the 32-bit sign extension of the
number of the w bytes from POS (little-endian: sum of M[P+i]*256^i; big-endian: sum of
M[P+i]*256^(w-1-i)), r1 = 0, POS grows by w, and nothing else of the state changes. (R173, R183,
R184, R185, R186, R187, R188, R189) -/
def Obligations.SignedGettersExtendTheirSign : Prop :=
  ∀ (c : CurSel) (s : State) (i : Instr) (w : Nat) (order : ByteOrder),
    (i, w, order) ∈ ([(.getS8 c, 1, .little), (.getS16Le c, 2, .little), (.getS24Le c, 3, .little),
      (.getS32Le c, 4, .little), (.getS16Be c, 2, .big), (.getS24Be c, 3, .big), (.getS32Be c, 4, .big)] : List (Instr × Nat × ByteOrder)) →
    ((getCur s c).bitoff ≠ 0 → exec i s = .next (answered s .eUnaligned 0 0)) ∧
    ((getCur s c).bitoff = 0 → leftBytes (getCur s c) < w → exec i s = .next (answered s .eBounds 0 0)) ∧
    ((getCur s c).bitoff = 0 → w ≤ leftBytes (getCur s c) →
      ∃ r k, exec i s = .next (answered (setCur s c k) .ok r 0) ∧ movedBits (getCur s c) k (8 * w) ∧
        r = signedWord (8 * w) (byteSum s.mem (getCur s c).pos.toNat w order))

/-- For set_u8, set_u16/24/32_le and set_u16/24/32_be, each with its width w in bytes and its byte
order: with BITOFF != 0 the command answers E_UNALIGNED, synced with fewer than w bytes left
E_BOUNDS, both changing nothing; otherwise it answers (OK, 0, 0), the byte at P + j is byte j of a
counted from the least significant (little-endian) or byte w-1-j (big-endian) for every j < w, every
other byte of memory is as before, POS grows by w, and nothing else of the state changes. (R174,
R175, R190, R191, R192, R193, R194, R195, R196) -/
def Obligations.UnsignedSettersStoreTheirBytes : Prop :=
  ∀ (c : CurSel) (a : Word) (s : State) (i : Instr) (w : Nat) (order : ByteOrder),
    (i, w, order) ∈ ([(.setU8 c a, 1, .little), (.setU16Le c a, 2, .little), (.setU24Le c a, 3, .little),
      (.setU32Le c a, 4, .little), (.setU16Be c a, 2, .big), (.setU24Be c a, 3, .big),
      (.setU32Be c a, 4, .big)] : List (Instr × Nat × ByteOrder)) →
    ((getCur s c).bitoff ≠ 0 → exec i s = .next (answered s .eUnaligned 0 0)) ∧
    ((getCur s c).bitoff = 0 → leftBytes (getCur s c) < w → exec i s = .next (answered s .eBounds 0 0)) ∧
    ((getCur s c).bitoff = 0 → w ≤ leftBytes (getCur s c) →
      ∃ m k, exec i s = .next (answered (setCur { s with mem := m } c k) .ok 0 0) ∧
        movedBits (getCur s c) k (8 * w) ∧ storesBytes s.mem m (getCur s c).pos.toNat w a.toNat order)

/-- For set_s8, set_s16/24/32_le and set_s16/24/32_be, each with its width w in bytes and its byte
order: with BITOFF != 0 the command answers E_UNALIGNED, synced with fewer than w bytes left
E_BOUNDS, both changing nothing; otherwise it answers (OK, 0, 0), the byte at P + j is byte j of a
counted from the least significant (little-endian) or byte w-1-j (big-endian) for every j < w, every
other byte of memory is as before, POS grows by w, and nothing else of the state changes. (R197,
R198, R199, R200, R201, R202, R203) -/
def Obligations.SignedSettersStoreTheirBytes : Prop :=
  ∀ (c : CurSel) (a : Word) (s : State) (i : Instr) (w : Nat) (order : ByteOrder),
    (i, w, order) ∈ ([(.setS8 c a, 1, .little), (.setS16Le c a, 2, .little), (.setS24Le c a, 3, .little),
      (.setS32Le c a, 4, .little), (.setS16Be c a, 2, .big), (.setS24Be c a, 3, .big),
      (.setS32Be c a, 4, .big)] : List (Instr × Nat × ByteOrder)) →
    ((getCur s c).bitoff ≠ 0 → exec i s = .next (answered s .eUnaligned 0 0)) ∧
    ((getCur s c).bitoff = 0 → leftBytes (getCur s c) < w → exec i s = .next (answered s .eBounds 0 0)) ∧
    ((getCur s c).bitoff = 0 → w ≤ leftBytes (getCur s c) →
      ∃ m k, exec i s = .next (answered (setCur { s with mem := m } c k) .ok 0 0) ∧
        movedBits (getCur s c) k (8 * w) ∧ storesBytes s.mem m (getCur s c).pos.toNat w a.toNat order)

/-- For each of the 14 pairs of a setter and the getter of the same width w, byte order and
signedness, on a synced cursor that meets R22 with at least w bytes left: the setter with a
representable value a (a < 2^(8w) unsigned; -2^(8w-1) <= a < 2^(8w-1) signed), then goto back to the
byte where it began, then the getter, answers (OK, a, 0). (R204) -/
def Obligations.ByteAccessesRoundTrip : Prop :=
  ∀ (c : CurSel) (a : Word) (s : State) (i g : Instr) (w : Nat) (signed : Bool),
    (i, g, w, signed) ∈ ([(.setU8 c a, .getU8 c, 1, false), (.setU16Le c a, .getU16Le c, 2, false),
      (.setU24Le c a, .getU24Le c, 3, false), (.setU32Le c a, .getU32Le c, 4, false),
      (.setU16Be c a, .getU16Be c, 2, false), (.setU24Be c a, .getU24Be c, 3, false),
      (.setU32Be c a, .getU32Be c, 4, false), (.setS8 c a, .getS8 c, 1, true),
      (.setS16Le c a, .getS16Le c, 2, true), (.setS24Le c a, .getS24Le c, 3, true),
      (.setS32Le c a, .getS32Le c, 4, true), (.setS16Be c a, .getS16Be c, 2, true),
      (.setS24Be c a, .getS24Be c, 3, true), (.setS32Be c a, .getS32Be c, 4, true)] :
        List (Instr × Instr × Nat × Bool)) →
    CursorOk (getCur s c) → (getCur s c).bitoff = 0 → w ≤ leftBytes (getCur s c) →
    (signed = false → a.toNat < 2 ^ (8 * w)) →
    (signed = true → -(2 ^ (8 * w - 1) : Int) ≤ a.toInt ∧ a.toInt < 2 ^ (8 * w - 1)) →
    ∃ t u x, exec i s = .next t ∧
      exec (.goto c (word ((getCur s c).pos.toNat - (getCur s c).origin.toNat))) t = .next u ∧
      exec g u = .next x ∧ x.response = some ⟨.ok, a, 0⟩

/-- With BITOFF != 0 get_string answers E_UNALIGNED and changes nothing. Synced, with P = POS and E
= END: if q is the first address in P .. E-1 whose byte is 0, it answers (OK, P, q - P), POS becomes
q + 1 and nothing else changes; if no byte of P .. E-1 is 0 (or nothing is left), it answers
(NOT_FOUND, 0, 0) and changes nothing. (R210) -/
def Obligations.GetStringFindsTheFirstZeroByte : Prop :=
  ∀ (c : CurSel) (s : State),
    ((getCur s c).bitoff ≠ 0 → exec (.getString c) s = .next (answered s .eUnaligned 0 0)) ∧
    (∀ q, (getCur s c).bitoff = 0 → (getCur s c).pos.toNat ≤ q → q < (getCur s c).fin.toNat →
      memRead s.mem q = 0 → (∀ x, (getCur s c).pos.toNat ≤ x → x < q → memRead s.mem x ≠ 0) →
      ∃ r k, exec (.getString c) s = .next (answered (setCur s c k) .ok (getCur s c).pos r) ∧
        r.toNat = q - (getCur s c).pos.toNat ∧
        movedBits (getCur s c) k (8 * (q + 1 - (getCur s c).pos.toNat))) ∧
    ((getCur s c).bitoff = 0 →
      (∀ x, (getCur s c).pos.toNat ≤ x → x < (getCur s c).fin.toNat → memRead s.mem x ≠ 0) →
      exec (.getString c) s = .next (answered s .notFound 0 0))

/-- With BITOFF != 0 get_data c, a, b answers E_UNALIGNED and changes nothing. Synced, let k =
min(b, left_bytes): if k > 0 and a + k > 2^32 it answers E_BOUNDS and changes nothing; otherwise it
answers (OK, k, 0), POS grows by k, and k bytes are copied from the cursor to address a in ascending
order one at a time: each destination byte holds the source byte as it stood when it was read (a
source byte that the copy itself stored earlier is read with its new value), every other byte of
memory is as before, and nothing else of the state changes. (R212, R213) -/
def Obligations.GetDataCopiesAscending : Prop :=
  ∀ (c : CurSel) (a b : Word) (s : State),
    let k := min b.toNat (leftBytes (getCur s c))
    ((getCur s c).bitoff ≠ 0 → exec (.getData c a b) s = .next (answered s .eUnaligned 0 0)) ∧
    ((getCur s c).bitoff = 0 → 0 < k → 2 ^ 32 < a.toNat + k →
      exec (.getData c a b) s = .next (answered s .eBounds 0 0)) ∧
    ((getCur s c).bitoff = 0 → (k = 0 ∨ a.toNat + k ≤ 2 ^ 32) →
      ∃ m r q, exec (.getData c a b) s = .next (answered (setCur { s with mem := m } c q) .ok r 0) ∧
        r.toNat = k ∧ movedBits (getCur s c) q (8 * k) ∧
        copiesBytes s.mem m (getCur s c).pos.toNat a.toNat k)

/-- With BITOFF != 0 set_data c, a, b answers E_UNALIGNED and changes nothing. Synced, let k =
min(b, left_bytes): if k > 0 and a + k > 2^32 it answers E_BOUNDS and changes nothing; otherwise it
answers (OK, k, 0), POS grows by k, and k bytes are copied from address a to the cursor in ascending
order one at a time: each destination byte holds the source byte as it stood when it was read (a
source byte that the copy itself stored earlier is read with its new value), every other byte of
memory is as before, and nothing else of the state changes. (R214, R213) -/
def Obligations.SetDataCopiesAscending : Prop :=
  ∀ (c : CurSel) (a b : Word) (s : State),
    let k := min b.toNat (leftBytes (getCur s c))
    ((getCur s c).bitoff ≠ 0 → exec (.setData c a b) s = .next (answered s .eUnaligned 0 0)) ∧
    ((getCur s c).bitoff = 0 → 0 < k → 2 ^ 32 < a.toNat + k →
      exec (.setData c a b) s = .next (answered s .eBounds 0 0)) ∧
    ((getCur s c).bitoff = 0 → (k = 0 ∨ a.toNat + k ≤ 2 ^ 32) →
      ∃ m r q, exec (.setData c a b) s = .next (answered (setCur { s with mem := m } c q) .ok r 0) ∧
        r.toNat = k ∧ movedBits (getCur s c) q (8 * k) ∧
        copiesBytes s.mem m a.toNat (getCur s c).pos.toNat k)

/-- After get_data or set_data answers (OK, k, 0) with disjoint source and destination ranges of k
bytes: k = min(b, left_bytes), every destination byte equals its source byte as it was before the
command, every other byte of memory is unchanged and the bit address of the cursor grew by 8*k.
(R215) -/
def Obligations.DisjointBlockCopiesAreExact : Prop :=
  ∀ (c : CurSel) (a b : Word) (s t : State) (i : Instr) (src dst k : Nat),
    (i = .getData c a b ∧ src = (getCur s c).pos.toNat ∧ dst = a.toNat) ∨
      (i = .setData c a b ∧ src = a.toNat ∧ dst = (getCur s c).pos.toNat) →
    exec i s = .next t → t.response = some ⟨.ok, word k, 0⟩ → k < 2 ^ 32 →
    src + k ≤ dst ∨ dst + k ≤ src →
    k = min b.toNat (leftBytes (getCur s c)) ∧
      (∀ j < k, memRead t.mem (dst + j) = memRead s.mem (src + j)) ∧
      (∀ x, x < dst ∨ dst + k ≤ x → memRead t.mem x = memRead s.mem x) ∧
      movedBits (getCur s c) (getCur t c) (8 * k)

/-- vlc_put c, a: with CSTATE = CLOSED it answers E_SEQUENCE; else, when a is not representable (a >
2^w - 1 under fixed-width(w), a = 0 under Elias-gamma), E_CODEC_VLC; else, when the code is longer
than the bits left, E_BOUNDS; each changes nothing. Otherwise the bits of memory from the cursor on
are the code (fixed-width: a in w bits; Golomb(k): a >> k one-bits, a zero-bit, the low k bits of a;
Elias-gamma: floor(log2 a) zero-bits, then a in one bit more), every other bit is as before, it
answers OK with r0 = the code's length mod 2^32, r1 = 0, the bit address of cursor c grows by that
length, and nothing else changes. (R230, R225, R226, R227) -/
def Obligations.VlcPutWritesTheCode : Prop :=
  ∀ (c : CurSel) (a : Word) (s : State),
    let v := a.toNat
    let p := s.vlcParam.toNat
    let Bad : Prop := match s.vlcType with
      | .fixed => 2 ^ p ≤ v
      | .golomb => False
      | .gamma => v = 0
    let code : List Bool := match s.vlcType with
      | .fixed => fieldBits p v
      | .golomb => List.replicate (v / 2 ^ p) true ++ [false] ++ fieldBits p (v % 2 ^ p)
      | .gamma => List.replicate (Nat.log2 v) false ++ fieldBits (Nat.log2 v + 1) v
    (s.cstate = .closed → exec (.vlcPut c a) s = .next (answered s .eSequence 0 0)) ∧
    (s.cstate ≠ .closed → Bad → exec (.vlcPut c a) s = .next (answered s .eCodecVlc 0 0)) ∧
    (s.cstate ≠ .closed → ¬ Bad → leftBits (getCur s c) < code.length →
      exec (.vlcPut c a) s = .next (answered s .eBounds 0 0)) ∧
    (s.cstate ≠ .closed → ¬ Bad → code.length ≤ leftBits (getCur s c) →
      ∃ m k, exec (.vlcPut c a) s =
          .next (answered (setCur { s with mem := m } c k) .ok (word code.length) 0) ∧
        movedBits (getCur s c) k code.length ∧ storesBits s.mem m (bitAddr (getCur s c)) code)

/-- While a strategy is open with a legal parameter: when the bits at cursor c begin with the code
of a representable value v and the region holds that code whole, vlc_get c answers (OK, v, length
mod 2^32), the bit address of the cursor grows by the length and nothing else changes, memory
included. With CSTATE = CLOSED it answers E_SEQUENCE. When the code read fails under R229 with a
status, vlc_get answers that status and changes nothing. (R231) -/
def Obligations.VlcGetReadsTheCodeThatStands : Prop :=
  ∀ (c : CurSel) (s : State), StrategyOk s →
    (s.cstate = .closed → exec (.vlcGet c) s = .next (answered s .eSequence 0 0)) ∧
    (∀ v : Word, s.cstate ≠ .closed → representable s v.toNat = true →
      bitsStand s.mem (getCur s c) (vlcCode s.vlcType s.vlcParam.toNat v.toNat) →
      ∃ k, exec (.vlcGet c) s = .next (answered (setCur s c k) .ok v
            (word (vlcLen s.vlcType s.vlcParam.toNat v.toNat))) ∧
        movedBits (getCur s c) k (vlcLen s.vlcType s.vlcParam.toNat v.toNat)) ∧
    ∀ e, s.cstate ≠ .closed →
      vlcDecode s.vlcType s.vlcParam.toNat (bitsAt s.mem (getCur s c)) 0 (leftBits (getCur s c)) = .error e →
      exec (.vlcGet c) s = .next (answered s e 0 0)

/-- With L bits left at cursor c and a strategy open: fixed-width(w) with L < w answers
E_CODEC_TRUNC. Golomb(k), with qmax = (2^32 - 1) >> k: qmax + 1 one-bits answer E_CODEC_VLC; at most
qmax one-bits that fill the region answer E_CODEC_TRUNC; q <= qmax one-bits, a zero-bit and fewer
than k bits after it answer E_CODEC_TRUNC. Elias-gamma: 32 zero-bits answer E_CODEC_VLC, even at the
end of the region; at most 31 zero-bits that fill it answer E_CODEC_TRUNC; N <= 31 zero-bits, a
one-bit and fewer than N bits after it answer E_CODEC_TRUNC. Nothing changes. (R229) -/
def Obligations.VlcGetFailsAsTheCodesAreWritten : Prop :=
  ∀ (c : CurSel) (s : State) (q : Nat), s.cstate ≠ .closed →
    let p := s.vlcParam.toNat
    let L := leftBits (getCur s c)
    let bit := bitsAt s.mem (getCur s c)
    let limit := if s.vlcType = .golomb then (2 ^ 32 - 1) / 2 ^ p else 31
    let Trunc : Prop := exec (.vlcGet c) s = .next (answered s .eCodecTrunc 0 0)
    let Run (n : Nat) : Prop := ∀ j < n, bit j = decide (s.vlcType = .golomb)
    (s.vlcType = .fixed → L < p → Trunc) ∧
    (s.vlcType ≠ .fixed → Run (limit + 1) → limit + 1 ≤ L →
      exec (.vlcGet c) s = .next (answered s .eCodecVlc 0 0)) ∧
    (s.vlcType ≠ .fixed → Run L → L ≤ limit → Trunc) ∧
    (s.vlcType ≠ .fixed → q ≤ limit → q < L → Run q → bit q = !decide (s.vlcType = .golomb) →
      L - (q + 1) < (if s.vlcType = .golomb then p else q) → Trunc)

/-- While a strategy is open with a legal parameter, on a cursor that meets R22: when vlc_put c, v
answers OK (v representable, room for the code), then goto to the byte where the code began and
skip_bits to its bit, then vlc_get c answers (OK, v, vlc_len(v) mod 2^32) and leaves the cursor
where vlc_put left it. (R232) -/
def Obligations.VlcCodesRoundTripThroughMemory : Prop :=
  ∀ (c : CurSel) (v : Word) (s : State),
    s.cstate ≠ .closed → StrategyOk s → CursorOk (getCur s c) → representable s v.toNat = true →
    vlcLen s.vlcType s.vlcParam.toNat v.toNat ≤ leftBits (getCur s c) →
    ∃ t u w x, exec (.vlcPut c v) s = .next t ∧ t.response = some
        ⟨.ok, word (vlcLen s.vlcType s.vlcParam.toNat v.toNat), 0⟩ ∧
      exec (.goto c (word ((getCur s c).pos.toNat - (getCur s c).origin.toNat))) t = .next u ∧
      exec (.skipBits c (word (getCur s c).bitoff.toNat)) u = .next w ∧ exec (.vlcGet c) w = .next x ∧
      x.response = some ⟨.ok, v, word (vlcLen s.vlcType s.vlcParam.toNat v.toNat)⟩ ∧
      getCur x c = getCur t c

/-- For each strategy with a legal parameter and two different representable values v and w, the
code of v is not a prefix of the code of w, so a decoder that knows the strategy finds the end of a
code from its bits alone. (R233) -/
def Obligations.NoCodeIsAPrefixOfAnother : Prop :=
  ∀ (ty : VlcType) (a : Word) (v w : Nat), vlcParamOk ty a = true →
    vlcMin ty ≤ v → v ≤ vlcMax ty a.toNat → vlcMin ty ≤ w → w ≤ vlcMax ty a.toNat → v ≠ w →
    ¬ vlcCode ty a.toNat v <+: vlcCode ty a.toNat w

/-- The codes of 0, 1, 2, 3, 4, 5, 15, 16, 17, 31 and 32 under fixed(5), Golomb(0), Golomb(2),
Golomb(4) and Elias-gamma are the bit strings of the table of R236 (each entry written as value,
number of bits, the bits as a binary number); 32 is not representable under fixed(5) and 0 has no
Elias-gamma code. (A sanity statement on fixed values.) (R236) -/
def Obligations.CodeTableForSmallValues : Prop :=
  (∀ e ∈ ([(0, 5, 0b00000), (1, 5, 0b00001), (2, 5, 0b00010), (3, 5, 0b00011), (4, 5, 0b00100),
      (5, 5, 0b00101), (15, 5, 0b01111), (16, 5, 0b10000), (17, 5, 0b10001), (31, 5, 0b11111)] : List (Nat × Nat × Nat)),
      vlcCode .fixed 5 e.1 = fieldBits e.2.1 e.2.2) ∧
    (∀ e ∈ ([(0, 1, 0b0), (1, 2, 0b10), (2, 3, 0b110), (3, 4, 0b1110), (4, 5, 0b11110),
      (5, 6, 0b111110), (15, 16, 0b1111111111111110), (16, 17, 0b11111111111111110), (17, 18, 0b111111111111111110), (31, 32, 0b11111111111111111111111111111110),
      (32, 33, 0b111111111111111111111111111111110)] : List (Nat × Nat × Nat)),
      vlcCode .golomb 0 e.1 = fieldBits e.2.1 e.2.2) ∧
    (∀ e ∈ ([(0, 3, 0b000), (1, 3, 0b001), (2, 3, 0b010), (3, 3, 0b011), (4, 4, 0b1000),
      (5, 4, 0b1001), (15, 6, 0b111011), (16, 7, 0b1111000), (17, 7, 0b1111001), (31, 10, 0b1111111011),
      (32, 11, 0b11111111000)] : List (Nat × Nat × Nat)),
      vlcCode .golomb 2 e.1 = fieldBits e.2.1 e.2.2) ∧
    (∀ e ∈ ([(0, 5, 0b00000), (1, 5, 0b00001), (2, 5, 0b00010), (3, 5, 0b00011), (4, 5, 0b00100),
      (5, 5, 0b00101), (15, 5, 0b01111), (16, 6, 0b100000), (17, 6, 0b100001), (31, 6, 0b101111),
      (32, 7, 0b1100000)] : List (Nat × Nat × Nat)),
      vlcCode .golomb 4 e.1 = fieldBits e.2.1 e.2.2) ∧
    (∀ e ∈ ([(1, 1, 0b1), (2, 3, 0b010), (3, 3, 0b011), (4, 5, 0b00100), (5, 5, 0b00101),
      (15, 7, 0b0001111), (16, 9, 0b000010000), (17, 9, 0b000010001), (31, 9, 0b000011111), (32, 11, 0b00000100000)] : List (Nat × Nat × Nat)),
      vlcCode .gamma 0 e.1 = fieldBits e.2.1 e.2.2) ∧
    vlcMax .fixed 5 < 32 ∧ 0 < vlcMin .gamma

/-- codec_open with a type and a parameter in its range, in any CSTATE: with BITOFF != 0 on the
cursor it latches (CUR[0] for encode, CUR[1] for decode) it answers E_UNALIGNED and changes nothing;
otherwise it answers (OK, 0, 0) with CSTATE = ENC or DEC, the type and parameter stored, W_ORG =
W_END = POS of that cursor, W_LEN = POS_BITS = BASE = 0, S_END = CUR[0].END for encode and 0 for
decode, every HT slot EMPTY, every node free and the free list 0, 1, 2, ...; cursors and memory are
as before. With a parameter outside the range of R224, or as a word with type 3, it is illegal
(R99). (R270) -/
def Obligations.CodecOpenStartsAFreshInstance : Prop :=
  ∀ (mode : CodecMode) (ty : VlcType) (a : Word) (s : State), vlcParamOk ty a = true →
    let k := match mode with | .enc => s.cur0 | .dec => s.cur1
    (k.bitoff ≠ 0 → exec (.codecOpen mode ty a) s = .next (answered s .eUnaligned 0 0)) ∧
    (k.bitoff = 0 → ∃ p : BitVec 6, p.toNat = a.toNat ∧
      exec (.codecOpen mode ty a) s = .next (answered
        { s with
          cstate := match mode with | .enc => .enc | .dec => .dec
          vlcType := ty, vlcParam := p, wOrg := k.pos, wEnd := k.pos, wLen := 0, posBits := 0, base := 0
          sEnd := match mode with | .enc => s.cur0.fin | .dec => 0
          index := { ht := [], nodes := [], freed := [], fresh := 0 } } .ok 0 0))

/-- codec_close with CSTATE = CLOSED answers E_SEQUENCE and changes nothing; in any other state it
answers (OK, 0, 0) and sets CSTATE to CLOSED, everything else as before. codec_state answers, in
every state, OK with r0 = POS_BITS * 2^24 + VLC_PARAM * 2^16 + VLC_TYPE * 2^8 + CSTATE and r1 =
W_LEN, and changes nothing. (R271, R277) -/
def Obligations.CodecCloseAndCodecState : Prop :=
  ∀ s : State,
    (s.cstate = .closed → exec .codecClose s = .next (answered s .eSequence 0 0)) ∧
    (s.cstate ≠ .closed → exec .codecClose s = .next (answered { s with cstate := .closed } .ok 0 0)) ∧
    ∃ r0, exec .codecState s = .next (answered s .ok r0 s.wLen) ∧
      r0.toNat = 2 ^ 24 * s.posBits.toNat + 2 ^ 16 * s.vlcParam.toNat +
        2 ^ 8 * (match s.vlcType with | .fixed => 0 | .golomb => 1 | .gamma => 2) +
        (match s.cstate with
          | .closed => 0 | .enc => 1 | .dec => 2 | .encDone => 3 | .decDone => 4 | .failed => 5)

/-- When one of the six conditions of enc_ready (R272) fails, deflate_step, deflate_run and win_find
answer E_SEQUENCE and change nothing; when one of the five conditions of dec_ready (R291) fails,
inflate_step and inflate_run do. When enc_ready holds, win_find answers OK with the pair that find
gives at the source cursor and changes nothing (what that pair is, another statement says). (R272,
R291, R257) -/
def Obligations.CodecCommandsRefuseWhenNotReady : Prop :=
  ∀ s : State,
    let EncReady : Prop := s.cstate = .enc ∧ s.cur0.bitoff = 0 ∧ s.cur0.pos = s.wEnd ∧
      s.cur0.origin.toNat ≤ s.wOrg.toNat ∧ s.cur0.fin = s.sEnd ∧
      (s.cur0.fin.toNat ≤ s.cur1.origin.toNat ∨ s.cur1.fin.toNat ≤ s.cur0.origin.toNat)
    let DecReady : Prop := s.cstate = .dec ∧ s.cur1.bitoff = 0 ∧ s.cur1.pos = s.wEnd ∧
      s.cur1.origin.toNat ≤ s.wOrg.toNat ∧
      (s.cur0.fin.toNat ≤ s.cur1.origin.toNat ∨ s.cur1.fin.toNat ≤ s.cur0.origin.toNat)
    (¬ EncReady → ∀ i ∈ [Instr.deflateStep, .deflateRun, .winFind],
      exec i s = .next (answered s .eSequence 0 0)) ∧
    (¬ DecReady → ∀ i ∈ [Instr.inflateStep, .inflateRun],
      exec i s = .next (answered s .eSequence 0 0)) ∧
    (EncReady → exec .winFind s =
      .next (answered s .ok (word (findAtCursor s).1) (word (findAtCursor s).2)))

/-- From a state whose cursors meet R22 with disjoint regions: after a codec_open for encode that
answers OK, enc_ready holds; after one for decode, dec_ready. From a state whose cursors meet R22: a
deflate_step that answers OK or OUT_FULL leaves enc_ready true, an inflate_step that answers OK or
OUT_FULL leaves dec_ready true. (R272, R291, R31) -/
def Obligations.ReadinessIsEstablishedAndKept : Prop :=
  ∀ (s t : State) (r0 r1 : Word), CursorsOk s →
    (∀ ty a, regionsDisjoint s.cur0 s.cur1 = true → exec (.codecOpen .enc ty a) s = .next t →
      t.response = some ⟨.ok, r0, r1⟩ → encReady t = true) ∧
    (∀ ty a, regionsDisjoint s.cur0 s.cur1 = true → exec (.codecOpen .dec ty a) s = .next t →
      t.response = some ⟨.ok, r0, r1⟩ → decReady t = true) ∧
    (exec .deflateStep s = .next t →
      (t.response = some ⟨.ok, r0, r1⟩ ∨ t.response = some ⟨.outFull, r0, r1⟩) → encReady t = true) ∧
    (exec .inflateStep s = .next t →
      (t.response = some ⟨.ok, r0, r1⟩ ∨ t.response = some ⟨.outFull, r0, r1⟩) → decReady t = true)

/-- In a state where enc_ready holds, with the parameters in range, the window registers as R31 says
and the index as R35 says: win_find answers OK and changes nothing. With fewer than 3 source bytes
left, or no position p of the window whose three bytes are the three bytes at the source cursor, the
results are (0, 0). Otherwise they are (p - window_start, L) for the position p of such a candidate
whose agreement with the source, to the source end at most, has the greatest length L of all
candidates, and no lower candidate reaches L. So the hash table, the rings and the pool compute the
function of R258. (R258) -/
def Obligations.WinFindAnswersTheLongestEarliestMatch : Prop :=
  ∀ s : State, encReady s = true → CursorsOk s → ParamsOk s → WindowOk s → IndexOk s →
    ∃ off len, exec .winFind s = .next (answered s .ok off len) ∧
      (leftBytes s.cur0 < 3 → off = 0 ∧ len = 0) ∧
      (3 ≤ leftBytes s.cur0 → (∀ p, ¬ Candidate s p) → off = 0 ∧ len = 0) ∧
      (3 ≤ leftBytes s.cur0 → ∀ q, Candidate s q →
        ∃ p, Candidate s p ∧ off.toNat = p - windowStart s ∧
          len.toNat = agreement s.mem p s.cur0.pos.toNat (leftBytes s.cur0) ∧
          (∀ p', Candidate s p' → agreement s.mem p' s.cur0.pos.toNat (leftBytes s.cur0) ≤ len.toNat) ∧
          ∀ p', Candidate s p' → p' < p →
            agreement s.mem p' s.cur0.pos.toNat (leftBytes s.cur0) < len.toNat)

/-- In a state where enc_ready holds, with a legal strategy and cursors as R22 says. At the end of
the source: (DONE, 0, 0), CUR[1] rounded up to a byte boundary, CSTATE = ENC_DONE, nothing else
changed, no memory written. Otherwise let (off, len) be what find gives: with len > 2 the token is
flag 1, off in POS_BITS bits and the code of n - 2 with n = min(len, VLC_MAX + 2); else with two
bytes left, flag 0 and the two source bytes, n = 2; else flag 0 and the one byte, n = 1. If the
token is longer than the bits left in CUR[1]: (OUT_FULL, 0, 0) and nothing changes. Else (OK, n,
length of the token): the token's bits stand at the output cursor, every other bit of memory is as
before, both cursors moved past it, and the window registers are those of slide (R278) at the new
source position. (The index afterwards is the subject of another statement.) (R273, R274, R275,
R278, R279, R280) -/
def Obligations.DeflateStepEmitsOneToken : Prop :=
  ∀ s : State, encReady s = true → CursorsOk s → StrategyOk s →
    (s.cur0.pos = s.cur0.fin →
      ∃ k : Cursor, k.bitoff = 0 ∧ k.pos.toNat = (bitAddr s.cur1 + 7) / 8 ∧ k.origin = s.cur1.origin ∧
        k.fin = s.cur1.fin ∧
        exec .deflateStep s = .next (answered { s with cur1 := k, cstate := .encDone } .done 0 0)) ∧
    ∀ (bits : List Bool) (n : Nat), s.cur0.pos ≠ s.cur0.fin →
      (2 < (findAtCursor s).2 ∧ n = min (findAtCursor s).2 (vlcMax s.vlcType s.vlcParam.toNat + 2) ∧
          bits = [true] ++ fieldBits s.posBits.toNat (findAtCursor s).1 ++
            vlcCode s.vlcType s.vlcParam.toNat (n - 2)) ∨
        ((findAtCursor s).2 ≤ 2 ∧ 2 ≤ leftBytes s.cur0 ∧ n = 2 ∧
          bits = [false] ++ fieldBits 8 (memRead s.mem s.cur0.pos.toNat).toNat ++
            fieldBits 8 (memRead s.mem (s.cur0.pos.toNat + 1)).toNat) ∨
        ((findAtCursor s).2 ≤ 2 ∧ leftBytes s.cur0 = 1 ∧ n = 1 ∧
          bits = [false] ++ fieldBits 8 (memRead s.mem s.cur0.pos.toNat).toNat) →
      (leftBits s.cur1 < bits.length → exec .deflateStep s = .next (answered s .outFull 0 0)) ∧
      (bits.length ≤ leftBits s.cur1 →
        ∃ t, exec .deflateStep s = .next t ∧ t.response = some ⟨.ok, word n, word bits.length⟩ ∧
          Encoded s t bits n)

/-- In a state where enc_ready holds and the cursors meet R22: there is a state u reached by
deflate_steps that each answer OK, and the next deflate_step from u answers DONE or OUT_FULL with a
state v; deflate_run answers from the first state exactly v with the response (that status, the sum
of the source bytes that the steps consumed, the whole bytes by which CUR[1].POS moved). So its
status is never OK, every command of the run is there, and the run always ends. (R276) -/
def Obligations.DeflateRunIsDeflateStepRepeated : Prop :=
  ∀ s : State, encReady s = true → CursorsOk s →
    ∃ (u v : State) (total : Word) (st : Status), OkSteps .deflateStep s total u ∧
      exec .deflateStep u = .next v ∧ v.response = some ⟨st, 0, 0⟩ ∧ (st = .done ∨ st = .outFull) ∧
      exec .deflateRun s =
        .next (answered v st total (word (v.cur1.pos.toNat - s.cur1.pos.toNat)))

/-- In a state where enc_ready holds, with cursors, parameters, strategy and window registers as
R22, R6, R224 and R31 say: if the output region has at least 24 bits left for every byte left in the
source, deflate_run answers DONE with r0 = the number of source bytes that were left, CUR[0] stands
at its END, CSTATE is ENC_DONE and CUR[1] is synced. (R282) -/
def Obligations.ThreeBytesPerByteAlwaysHoldTheEncoding : Prop :=
  ∀ s : State, encReady s = true → CursorsOk s → ParamsOk s → StrategyOk s → WindowOk s →
    24 * leftBytes s.cur0 ≤ leftBits s.cur1 →
    ∃ t r, exec .deflateRun s = .next t ∧ t.response = some ⟨.done, word (leftBytes s.cur0), r⟩ ∧
      t.cur0.pos = s.cur0.fin ∧ t.cstate = .encDone ∧ t.cur1.bitoff = 0

/-- After a codec_open for encode that answers OK, the index meets R35: every ring closes and,
walked from its head, holds exactly the window positions with a full signature of its slot from the
newest to the oldest, each with the three bytes memory holds and its circular offset; prev is the
inverse of next; there is one live node for each such position. From a state that meets R35, with
enc_ready, cursors, parameters, window registers and pool as R22, R6, R31 and R34 say, deflate_step
and deflate_run end in a state that meets R35, eviction by a sliding window included. (R35, R245,
R246, R247, R248, R278, R34) -/
def Obligations.EncodeKeepsTheIndexConsistent : Prop :=
  (∀ (s t : State) (ty : VlcType) (a : Word), vlcParamOk ty a = true → s.cur0.bitoff = 0 →
      exec (.codecOpen .enc ty a) s = .next t → IndexOk t) ∧
    ∀ (s t : State) (i : Instr), i = .deflateStep ∨ i = .deflateRun →
      encReady s = true → CursorsOk s → ParamsOk s → WindowOk s → PoolOk s → IndexOk s →
      exec i s = .next t → IndexOk t

/-- In a state where dec_ready holds, with a legal strategy and cursors as R22 says. With fewer than
9 bits left in CUR[0]: (DONE, 0, 0), CSTATE = DEC_DONE, nothing else. Else with no byte left in
CUR[1]: (OUT_FULL, 0, 0), nothing changes. Else, when the bits at CUR[0] begin with a literal pair
(flag 0, 16 bits or more after it), its bytes are put out; with a single literal (flag 0, 8 to 15
bits after it), its byte; with a match token of a representable value v and an offset off < W_LEN
that fits POS_BITS, v + 2 < 2^32: the W_LEN - off bytes before the output position repeated to v + 2
bytes. Where the bytes do not fit CUR[1]: (OUT_FULL, 0, 0) and nothing changes. Else (OK, bytes,
token bits), both cursors moved, W_END, W_LEN and POS_BITS from the new output position, every other
byte and register as before. (R292, R293, R294, R295, R296, R298, R300) -/
def Obligations.InflateStepDecodesTheTokenThatStands : Prop :=
  ∀ s : State, decReady s = true → CursorsOk s → StrategyOk s → WindowOk s →
    (leftBits s.cur0 < 9 →
      exec .inflateStep s = .next (answered { s with cstate := .decDone } .done 0 0)) ∧
    (9 ≤ leftBits s.cur0 → leftBytes s.cur1 = 0 →
      exec .inflateStep s = .next (answered s .outFull 0 0)) ∧
    ∀ (n len : Nat) (Store : Memory → Prop), 9 ≤ leftBits s.cur0 → leftBytes s.cur1 ≠ 0 →
      ((∃ b0 b1 : Byte, n = 2 ∧ len = 17 ∧
          bitsStand s.mem s.cur0 ([false] ++ fieldBits 8 b0.toNat ++ fieldBits 8 b1.toNat) ∧
          Store = fun m => ∀ x, memRead m x = if x = s.cur1.pos.toNat then b0
            else if x = s.cur1.pos.toNat + 1 then b1 else memRead s.mem x) ∨
        (∃ b0 : Byte, n = 1 ∧ len = 9 ∧ leftBits s.cur0 < 17 ∧
          bitsStand s.mem s.cur0 ([false] ++ fieldBits 8 b0.toNat) ∧
          Store = fun m => ∀ x, memRead m x = if x = s.cur1.pos.toNat then b0 else memRead s.mem x) ∨
        (∃ off v : Nat, n = v + 2 ∧ n < 2 ^ 32 ∧ off < s.wLen.toNat ∧ off < 2 ^ s.posBits.toNat ∧
          representable s v = true ∧ len = 1 + s.posBits.toNat + vlcLen s.vlcType s.vlcParam.toNat v ∧
          bitsStand s.mem s.cur0 ([true] ++ fieldBits s.posBits.toNat off ++
            vlcCode s.vlcType s.vlcParam.toNat v) ∧
          Store = fun m => repeatsBytes s.mem m s.cur1.pos.toNat (s.wLen.toNat - off) n)) →
      (leftBytes s.cur1 < n → exec .inflateStep s = .next (answered s .outFull 0 0)) ∧
      (n ≤ leftBytes s.cur1 →
        ∃ t, exec .inflateStep s = .next t ∧ t.response = some ⟨.ok, word n, word len⟩ ∧
          Decoded s t n len ∧ Store t.mem)

/-- In a state where dec_ready holds, with at least 9 input bits and one output byte left and the
next input bit 1: with fewer bits after it than POS_BITS, E_CODEC_TRUNC; else, when reading the
length code after the offset fails with a status, that status; else, with value v and offset off,
E_CODEC_VLC when v + 2 > 2^32 - 1, and otherwise E_CODEC_OFFSET when off >= W_LEN. In each case the
response carries results 0, CSTATE becomes FAILED and nothing else changes: no byte of memory, no
cursor, no window register. (R297, R111) -/
def Obligations.InflateStepRefusesMalformedTokens : Prop :=
  ∀ (s : State) (e : Status), decReady s = true → 9 ≤ leftBits s.cur0 → leftBytes s.cur1 ≠ 0 →
    bitsAt s.mem s.cur0 0 = true →
    (leftBits s.cur0 - 1 < s.posBits.toNat ∧ e = .eCodecTrunc) ∨
      (s.posBits.toNat ≤ leftBits s.cur0 - 1 ∧
        vlcDecode s.vlcType s.vlcParam.toNat (bitsAt s.mem s.cur0) (1 + s.posBits.toNat)
          (leftBits s.cur0 - 1 - s.posBits.toNat) = .error e) ∨
      (s.posBits.toNat ≤ leftBits s.cur0 - 1 ∧ s.posBits.toNat ≤ 32 ∧ ∃ v len, v < 2 ^ 32 ∧
        vlcDecode s.vlcType s.vlcParam.toNat (bitsAt s.mem s.cur0) (1 + s.posBits.toNat)
          (leftBits s.cur0 - 1 - s.posBits.toNat) = .ok (v, len) ∧
        ((2 ^ 32 - 1 < v + 2 ∧ e = .eCodecVlc) ∨
          (v + 2 ≤ 2 ^ 32 - 1 ∧ s.wLen.toNat ≤ readField (bitsAt s.mem s.cur0) 1 s.posBits.toNat ∧
            e = .eCodecOffset))) →
    exec .inflateStep s = .next (answered { s with cstate := .failed } e 0 0)

/-- In a state where dec_ready holds and the cursors meet R22: there is a state u reached by
inflate_steps that each answer OK, and the next inflate_step from u answers a status other than OK
with a state v; inflate_run answers exactly v, with the response (that status, 0, 0) when it is an
error status and otherwise (that status, the sum of the bytes that the steps produced, the whole
bytes by which CUR[0].POS moved). The effects of the tokens before a malformed one stay. (R299) -/
def Obligations.InflateRunIsInflateStepRepeated : Prop :=
  ∀ s : State, decReady s = true → CursorsOk s →
    ∃ (u v : State) (total : Word) (st : Status), OkSteps .inflateStep s total u ∧
      exec .inflateStep u = .next v ∧ v.response = some ⟨st, 0, 0⟩ ∧ st ≠ .ok ∧
      exec .inflateRun s = .next (
        if 0x10 ≤ (statusCode st).toNat then answered v st 0 0
        else answered v st total (word (v.cur0.pos.toNat - s.cur0.pos.toNat)))

/-- For every strategy with a legal parameter and every POS_BITS up to 32: when a stream of L bits
begins with the bits of a token, the decoder reads that token and its length from it. The token is a
literal pair, a single literal with at most 15 bits after its flag (R106), or a match token whose
offset fits POS_BITS bits and whose stored length is representable. What follows the token in the
stream does not matter. (R103, R104, R105, R106, R109) -/
def Obligations.TokensDecodeToThemselves : Prop :=
  ∀ (posBits : Nat) (ty : VlcType) (a : Word) (tk : Token) (bits : BitStream) (left : Nat),
    posBits ≤ 32 → vlcParamOk ty a = true →
    (match tk with
      | .literalPair _ _ => True
      | .singleLiteral _ => left < 17
      | .matchRef off v => off.toNat < 2 ^ posBits ∧ vlcMin ty ≤ v.toNat ∧ v.toNat ≤ vlcMax ty a.toNat) →
    (tokenBits posBits ty a.toNat tk).length ≤ left →
    (∀ j < (tokenBits posBits ty a.toNat tk).length,
      bits j = (tokenBits posBits ty a.toNat tk).getD j false) →
    decodeToken posBits ty a.toNat bits left = .ok (tk, tokenLen posBits ty a.toNat tk) ∧
      tokenLen posBits ty a.toNat tk = (tokenBits posBits ty a.toNat tk).length

/-- Let s be a state with a freshly opened encode instance (W_LEN = 0, empty index), fixed-width(w)
with w >= 7 or Golomb(k) with k >= 6, in which deflate_run answers DONE with the state t; S is the n
bytes from CUR[0].POS to END in s. Let d be a state with the memory of t, the same MAX_WINDOW and
strategy and a freshly opened decode instance (W_LEN = 0), whose input cursor stands where the
output cursor of s stood and whose input region ends where the output cursor of t stands, and whose
output region has at least n bytes left, with dec_ready. Then inflate_run from d answers DONE with
r0 = n, and the n bytes at d's output position are exactly S. (The source and output regions of the
decoder need not lie apart from the encoder's source.) (R301, R290, R292, R273) -/
def Obligations.LongTokenStrategiesRoundTripTheSource : Prop :=
  ∀ (s t d : State) (r0 r1 : Word),
    encReady s = true → CursorsOk s → ParamsOk s → StrategyOk s → WindowOk s → s.wLen = 0 →
    s.index = WindowIndex.empty → s.wOrg = s.wEnd →
    ((s.vlcType = .fixed ∧ 7 ≤ s.vlcParam.toNat) ∨ (s.vlcType = .golomb ∧ 6 ≤ s.vlcParam.toNat)) →
    exec .deflateRun s = .next t → t.response = some ⟨.done, r0, r1⟩ →
    decReady d = true → CursorsOk d → WindowOk d → d.wLen = 0 → d.wOrg = d.wEnd → d.mem = t.mem →
    d.maxWindow = s.maxWindow → d.vlcType = s.vlcType → d.vlcParam = s.vlcParam →
    d.cur0.pos = s.cur1.pos → d.cur0.bitoff = s.cur1.bitoff → d.cur0.fin = t.cur1.pos →
    leftBytes s.cur0 ≤ leftBytes d.cur1 →
    ∃ v r, exec .inflateRun d = .next v ∧ v.response = some ⟨.done, word (leftBytes s.cur0), r⟩ ∧
      ∀ j < leftBytes s.cur0,
        memRead v.mem (d.cur1.pos.toNat + j) = memRead s.mem (s.cur0.pos.toNat + j)

/-- The meaning of the three token rows of the opcode table is the model's choice (log 10): when the
token read at the input cursor is tk, inflate_step and the form tk have the same outcome in that
state. And directly: with dec_ready, at least 9 bits and the token's length left in CUR[0] and room
in CUR[1], token.literal_pair b0 b1 puts out b0 and b1, token.single_literal b0 puts out b0, and
token.match off v, with v representable, v + 2 < 2^32 and off < W_LEN, repeats the W_LEN - off bytes
before the output position to v + 2 bytes; each answers (OK, bytes, token bits) with both cursors
and the window registers moved as R292 says. (R103, R104, R105, R292, 30_encoding.md) -/
def Obligations.TokenFormsAreWhatInflateStepMeets : Prop :=
  (∀ (s : State) (tk : Token) (len : Nat), StrategyOk s → tokenAtCursor s = .ok (tk, len) →
      exec .inflateStep s = exec tk.instr s) ∧
    ∀ (s : State) (b0 b1 : Byte) (off v : Word), decReady s = true → CursorsOk s → WindowOk s →
      (17 ≤ leftBits s.cur0 → 2 ≤ leftBytes s.cur1 →
        ∃ t, exec (.tokenLiteralPair b0 b1) s = .next t ∧ t.response = some ⟨.ok, 2, 17⟩ ∧
          Decoded s t 2 17 ∧ ∀ x, memRead t.mem x = if x = s.cur1.pos.toNat then b0
            else if x = s.cur1.pos.toNat + 1 then b1 else memRead s.mem x) ∧
      (9 ≤ leftBits s.cur0 → 1 ≤ leftBytes s.cur1 →
        ∃ t, exec (.tokenSingleLiteral b0) s = .next t ∧ t.response = some ⟨.ok, 1, 9⟩ ∧
          Decoded s t 1 9 ∧ ∀ x, memRead t.mem x = if x = s.cur1.pos.toNat then b0 else memRead s.mem x) ∧
      (9 ≤ leftBits s.cur0 → 1 + s.posBits.toNat + vlcLen s.vlcType s.vlcParam.toNat v.toNat ≤ leftBits s.cur0 →
        representable s v.toNat = true → v.toNat + 2 < 2 ^ 32 → off.toNat < s.wLen.toNat →
        v.toNat + 2 ≤ leftBytes s.cur1 →
        ∃ t, exec (.tokenMatch off v) s = .next t ∧
          t.response = some ⟨.ok, word (v.toNat + 2),
            word (1 + s.posBits.toNat + vlcLen s.vlcType s.vlcParam.toNat v.toNat)⟩ ∧
          Decoded s t (v.toNat + 2) (1 + s.posBits.toNat + vlcLen s.vlcType s.vlcParam.toNat v.toNat) ∧
          repeatsBytes s.mem t.mem s.cur1.pos.toNat (s.wLen.toNat - off.toNat) (v.toNat + 2))

/-- The meaning of the three code rows of the opcode table is the model's choice (log 10): when
reading a code at CUR[0] under the open strategy gives the value v, vlc_get c0 and the form of that
strategy with v have the same outcome in that state. And directly: in any CSTATE but CLOSED, with
the strategy of the form open, v representable and the bits left in CUR[0] at least its code's
length (w for vlc.fixed; (v >> k) + 1 + k for vlc.golomb; 2*floor(log2 v) + 1 for vlc.gamma), the
form answers (OK, v, length mod 2^32), moves CUR[0] by the length and changes nothing else. (R225,
R226, R227, R229, R231, 44_vlc.md) -/
def Obligations.CodeFormsAreWhatVlcGetMeets : Prop :=
  (∀ (s : State) (v len : Nat), StrategyOk s → s.cstate ≠ .closed →
      vlcDecode s.vlcType s.vlcParam.toNat (bitsAt s.mem s.cur0) 0 (leftBits s.cur0) = .ok (v, len) →
      exec (.vlcGet .c0) s = exec (s.vlcType.instr (word v)) s) ∧
    ∀ (s : State) (v : Word) (i : Instr) (len : Nat), s.cstate ≠ .closed →
      (i = .vlcFixed v ∧ s.vlcType = .fixed ∧ v.toNat < 2 ^ s.vlcParam.toNat ∧ len = s.vlcParam.toNat) ∨
        (i = .vlcGolomb v ∧ s.vlcType = .golomb ∧
          len = v.toNat / 2 ^ s.vlcParam.toNat + 1 + s.vlcParam.toNat) ∨
        (i = .vlcGamma v ∧ s.vlcType = .gamma ∧ v ≠ 0 ∧ len = 2 * Nat.log2 v.toNat + 1) →
      len ≤ leftBits s.cur0 →
      ∃ k, exec i s = .next (answered { s with cur0 := k } .ok v (word len)) ∧ movedBits s.cur0 k len

/-- In the state after reset, and in the next state of every step from a state where they hold, both
cursors have ORIGIN <= POS <= END, and BITOFF != 0 only when POS < END (0 <= BITOFF <= 7 and END <=
2^32 - 1 hold by the widths of the fields). The step may be any act of the host: a command, legal or
not, successful or not, a memory write, a reset. (R22) -/
def Obligations.EveryStepKeepsTheCursorsInTheirRegions : Prop :=
  CursorsOk State.reset ∧ ∀ s t : State, CursorsOk s → step s = .next t → CursorsOk t

/-- From a state with cursors as R22 says, a legal strategy while an instance is open, and the
window invariants of R31 (W_LEN = min(W_END - W_ORG, MAX_WINDOW), POS_BITS = clog2(W_LEN), in encode
BASE = (W_END - W_LEN - W_ORG) mod MAX_WINDOW, with W_ORG <= W_END), every step leads to a state
with a legal strategy and those invariants. And after a codec_open, deflate or inflate command that
answers no error and leaves the instance in ENC: CUR[0].ORIGIN <= W_ORG <= W_END <= CUR[0].END =
S_END; in DEC: CUR[1].ORIGIN <= W_ORG <= W_END <= CUR[1].END. (R31) -/
def Obligations.EveryStepKeepsTheWindowInvariants : Prop :=
  (∀ s t : State, CursorsOk s → StrategyOk s → WindowOk s → step s = .next t → StrategyOk t ∧ WindowOk t) ∧
    ∀ (s t : State) (i : Instr) (r : Response), CursorsOk s → WindowOk s → exec i s = .next t →
      ((∃ mode ty a, i = .codecOpen mode ty a) ∨ i = .deflateStep ∨ i = .deflateRun ∨ i = .inflateStep ∨
        i = .inflateRun) →
      t.response = some r → (statusCode r.status).toNat < 0x10 →
      (t.cstate = .enc → t.cur0.origin.toNat ≤ t.wOrg.toNat ∧ t.wOrg.toNat ≤ t.wEnd.toNat ∧
        t.wEnd.toNat ≤ t.cur0.fin.toNat ∧ t.cur0.fin = t.sEnd) ∧
      (t.cstate = .dec → t.cur1.origin.toNat ≤ t.wOrg.toNat ∧ t.wOrg.toNat ≤ t.wEnd.toNat ∧
        t.wEnd.toNat ≤ t.cur1.fin.toNat)

/-- From a state in which the indices of the free list taken down so far and of the live nodes are
together without repetition, all below the count of nodes ever taken, as many as that count, and
that count is at most MAX_WINDOW, every step leads to such a state: no node is lost, doubled or both
free and live (the pool of R33 and R34). And from a state whose memory lists rising addresses below
2^32 with no entry that reads as an unlisted address does, every step leads to such a memory (the
model's own form of memory, logs 2 and 18). (R33, R34, R35, 20_memory.md) -/
def Obligations.EveryStepConservesThePoolAndTheMemoryForm : Prop :=
  ∀ s t : State, step s = .next t →
    (PoolOk s → PoolOk t) ∧ (Memory.wf s.mem = true → Memory.wf t.mem = true)

/-- The state after reset meets the cursor invariants (R22), has parameters in the ranges of R6,
meets the strategy and window invariants (R31, no instance is open), has the pool conserved (the
model's reset value of the index, log 4), and has its memory in canonical form (log 2). (R22, R31,
R34, R6) -/
def Obligations.ResetMeetsEveryInvariant : Prop :=
  Good State.reset

/-- For every command that names a cursor c with its c field (the cursor control, bit-level,
byte-level and block commands, vlc_put and vlc_get): when exec answers a next state, the other
cursor, every codec and window register and the index are as they were, and ORIGIN and END of the
named cursor too unless the command is attach. (R21, R39, R221) -/
def Obligations.CursorCommandsKeepTheOtherCursorAndTheCodec : Prop :=
  ∀ (i : Instr) (c : CurSel) (s t : State), namedCursor i = some c → exec i s = .next t →
    getCur t (otherCursor c) = getCur s (otherCursor c) ∧ sameCodec s t ∧
      ((∀ a b, i ≠ .attach c a b) →
        (getCur t c).origin = (getCur s c).origin ∧ (getCur t c).fin = (getCur s c).fin)

/-- For every instruction for which exec answers a next state: VLC_TYPE, VLC_PARAM, W_ORG and S_END
are as they were unless it is codec_open; CSTATE is as it was unless it is codec_open, codec_close,
a step or run command or a token form (log 10); the index and BASE are as they were unless it is
codec_open, deflate_step or deflate_run; the parameters MAX_WINDOW and TABLE_SIZE, the host's
further acts and the counter of free values are never changed by a command. (R28, R29, R39, R290) -/
def Obligations.OnlyTheCodecCommandsWriteTheCodecRegisters : Prop :=
  ∀ (i : Instr) (s t : State), exec i s = .next t →
    sameHost s t ∧
    ((∀ mode ty a, i ≠ .codecOpen mode ty a) →
      t.vlcType = s.vlcType ∧ t.vlcParam = s.vlcParam ∧ t.wOrg = s.wOrg ∧ t.sEnd = s.sEnd ∧
      (i ≠ .deflateStep → i ≠ .deflateRun → t.index = s.index ∧ t.base = s.base ∧
        (i ≠ .codecClose → i ≠ .inflateStep → i ≠ .inflateRun → (∀ tk : Token, i ≠ tk.instr) →
          t.cstate = s.cstate)))

/-- For every instruction and every address x: if exec answers a next state in which x reads
differently from before, then the instruction is a setter, set_data or vlc_put and x lies in POS ..
END-1 of the cursor it names; or it is get_data and x lies in the first min(b, left_bytes) bytes at
its address operand; or it is a deflate or inflate command (or a token form, log 10) and x lies in
CUR[1].POS .. CUR[1].END-1. Every other instruction leaves every byte of memory as it was. (R39,
R66, R285, R304) -/
def Obligations.MemoryIsWrittenOnlyWhereTheCommandMay : Prop :=
  ∀ (i : Instr) (s t : State) (x : Nat), exec i s = .next t →
    memRead t.mem x ≠ memRead s.mem x → mayStore i s x

/-- Let s, t and d be as in the statement on long tokens, but with any legal strategy: s freshly
opened for encode, deflate_run from s answers DONE with t, d freshly opened for decode on that
stream with the same strategy and MAX_WINDOW. (1) If the source is empty, or the last token (the OK
deflate_step from u to w that reaches the end of the source) has T bits and is followed by pad bits
with T + pad >= 9 (the bits from u's output position to the end of the stream), then inflate_run
from d answers DONE with r0 = n and puts out exactly S (R301 item 1). (2) Let u be s, or the state
after an OK deflate_step whose token starts with at least 9 bits to the end of the stream, and let
fewer than 9 bits lie from u's output position to that end. Then inflate_run answers DONE and puts
out exactly the source bytes that were encoded before u: every token that starts with fewer than 9
bits left is lost, be it one or several. That several can be lost follows R292 and R293 against the
wording of R301 item 2 and R108 (log 19). (R301, R108, R292, R293, R273, R276,
notes/assumptions/19.md) -/
def Obligations.RoundTripEndsWhereATokenStartsWithFewerThanNineBits : Prop :=
  ∀ (s t d : State) (r0 r1 : Word),
    encReady s = true → CursorsOk s → ParamsOk s → StrategyOk s → WindowOk s → s.wLen = 0 →
    s.index = WindowIndex.empty → s.wOrg = s.wEnd →
    exec .deflateRun s = .next t → t.response = some ⟨.done, r0, r1⟩ →
    decReady d = true → CursorsOk d → WindowOk d → d.wLen = 0 → d.wOrg = d.wEnd → d.mem = t.mem →
    d.maxWindow = s.maxWindow → d.vlcType = s.vlcType → d.vlcParam = s.vlcParam →
    d.cur0.pos = s.cur1.pos → d.cur0.bitoff = s.cur1.bitoff → d.cur0.fin = t.cur1.pos →
    leftBytes s.cur0 ≤ leftBytes d.cur1 →
    let bitsToEnd (u : State) : Nat := 8 * t.cur1.pos.toNat - bitAddr u.cur1
    let EncodesTo (u w : State) : Prop := ∃ total q0 q1, OkSteps .deflateStep s total u ∧
      exec .deflateStep u = .next w ∧ w.response = some ⟨.ok, q0, q1⟩
    let PutsOut (n : Nat) : Prop :=
      ∃ v r, exec .inflateRun d = .next v ∧ v.response = some ⟨.done, word n, r⟩ ∧
        ∀ j < n, memRead v.mem (d.cur1.pos.toNat + j) = memRead s.mem (s.cur0.pos.toNat + j)
    ((s.cur0.pos = s.cur0.fin ∨ ∃ u w, EncodesTo u w ∧ w.cur0.pos = w.cur0.fin ∧ 9 ≤ bitsToEnd u) →
      PutsOut (leftBytes s.cur0)) ∧
    ∀ u, bitsToEnd u < 9 → (u = s ∨ ∃ p, EncodesTo p u ∧ 9 ≤ bitsToEnd p) →
      PutsOut (u.cur0.pos.toNat - s.cur0.pos.toNat)
end

