-- ==== Sys2Proof/Laws/Memory.lean ====
section
/-! SUPPORT. What the memory operations do, said once: reading after a write, the canonical form, and
what a store of bytes, a copy and a store of bits leave. -/

namespace Sys2Proof.Machine

/-! ## One byte -/

theorem memRead_memErase (m : Memory) (a x : Nat) :
    memRead (memErase m a) x = if x = a then 0 else memRead m x := by
  induction m with
  | nil => simp [memErase, memRead]
  | cons e rest ih =>
    obtain ⟨k, b⟩ := e
    simp only [memErase, memRead]
    split
    · subst k; rw [ih]; split <;> simp_all [eq_comm]
    · simp only [memRead, ih]; split <;> simp_all

theorem memRead_memInsert (m : Memory) (a x : Nat) (v : Byte) (h : ∀ e ∈ m, e.1 ≠ a) :
    memRead (memInsert m a v) x = if x = a then v else memRead m x := by
  induction m with
  | nil => simp [memInsert, memRead, eq_comm]
  | cons e rest ih =>
    obtain ⟨k, b⟩ := e
    have hk : k ≠ a := h (k, b) (by simp)
    simp only [memInsert]
    split
    · simp [memRead, eq_comm]
    · simp only [memRead, ih fun e he => h e (by simp [he])]
      split <;> simp_all

theorem memErase_no_entry (m : Memory) (a : Nat) : ∀ e ∈ memErase m a, e.1 ≠ a := by
  induction m with
  | nil => simp [memErase]
  | cons e rest ih =>
    obtain ⟨k, b⟩ := e
    simp only [memErase]
    split
    · exact ih
    · simp only [List.mem_cons, forall_eq_or_imp]
      exact ⟨by assumption, ih⟩

/-- Reading after a write: the address written reads the value, every other address as before. -/
@[simp] theorem memRead_memWrite (m : Memory) (a x : Nat) (v : Byte) :
    memRead (memWrite m a v) x = if x = a then v else memRead m x := by
  simp only [memWrite]
  split
  · simp_all [memRead_memErase]
  · rw [memRead_memInsert _ _ _ _ (memErase_no_entry m a), memRead_memErase]
    split <;> rfl

theorem memErase_of_no_entry (m : Memory) (a : Nat) (h : ∀ e ∈ m, e.1 ≠ a) : memErase m a = m := by
  induction m with
  | nil => rfl
  | cons e rest ih =>
    obtain ⟨k, b⟩ := e
    have hk : k ≠ a := h (k, b) (by simp)
    simp only [memErase, if_neg hk, ih fun e he => h e (by simp [he])]

theorem memErase_memInsert (m : Memory) (a : Nat) (v : Byte) (h : ∀ e ∈ m, e.1 ≠ a) :
    memErase (memInsert m a v) a = m := by
  induction m with
  | nil => simp [memInsert, memErase]
  | cons e rest ih =>
    obtain ⟨k, b⟩ := e
    have hk : k ≠ a := h (k, b) (by simp)
    have hr := memErase_of_no_entry rest a fun e he => h e (by simp [he])
    simp only [memInsert]
    split
    · simp [memErase, hk, hr]
    · simp [memErase, hk, ih fun e he => h e (by simp [he])]

/-- A second write of the same address makes the first one forgotten, as data. -/
theorem memWrite_memWrite (m : Memory) (a : Nat) (v w : Byte) :
    memWrite (memWrite m a v) a w = memWrite m a w := by
  have h0 := memErase_no_entry m a
  have h : memErase (memWrite m a v) a = memErase m a := by
    unfold memWrite
    split
    · exact memErase_of_no_entry _ _ h0
    · exact memErase_memInsert _ _ _ h0
  simp only [memWrite] at h ⊢
  rw [h]

/-! ## The canonical form -/

theorem wf_cons (k : Nat) (b : Byte) (rest : Memory) :
    Memory.wf ((k, b) :: rest) = true ↔
      k < 2 ^ 32 ∧ b ≠ 0 ∧ (∀ e ∈ rest, k < e.1) ∧ Memory.wf rest = true := by
  simp [Memory.wf, and_assoc]

theorem mem_memErase (m : Memory) (a : Nat) (e : Host.Cell) (h : e ∈ memErase m a) : e ∈ m := by
  induction m with
  | nil => exact h
  | cons d rest ih =>
    obtain ⟨k, b⟩ := d
    simp only [memErase] at h
    split at h
    · exact List.mem_cons_of_mem _ (ih h)
    · rcases List.mem_cons.mp h with rfl | h
      · simp
      · exact List.mem_cons_of_mem _ (ih h)

theorem wf_memErase (m : Memory) (a : Nat) (h : Memory.wf m = true) : Memory.wf (memErase m a) = true := by
  induction m with
  | nil => rfl
  | cons d rest ih =>
    obtain ⟨k, b⟩ := d
    obtain ⟨h1, h2, h3, h4⟩ := (wf_cons k b rest).mp h
    simp only [memErase]
    split
    · exact ih h4
    · exact (wf_cons _ _ _).mpr ⟨h1, h2, fun e he => h3 e (mem_memErase _ _ _ he), ih h4⟩

theorem mem_memInsert (m : Memory) (a : Nat) (v : Byte) (e : Host.Cell) (h : e ∈ memInsert m a v) :
    e = (a, v) ∨ e ∈ m := by
  induction m with
  | nil => simpa [memInsert] using h
  | cons d rest ih =>
    obtain ⟨k, b⟩ := d
    simp only [memInsert] at h
    split at h
    · exact List.mem_cons.mp h
    · rcases List.mem_cons.mp h with rfl | h
      · simp
      · exact (ih h).imp_right (List.mem_cons_of_mem _)

theorem wf_memInsert (m : Memory) (a : Nat) (v : Byte) (ha : a < 2 ^ 32) (hv : v ≠ 0)
    (h : Memory.wf m = true) (hn : ∀ e ∈ m, e.1 ≠ a) : Memory.wf (memInsert m a v) = true := by
  induction m with
  | nil => exact (wf_cons _ _ _).mpr ⟨ha, hv, by simp, rfl⟩
  | cons d rest ih =>
    obtain ⟨k, b⟩ := d
    obtain ⟨h1, h2, h3, h4⟩ := (wf_cons k b rest).mp h
    have hk : k ≠ a := hn (k, b) (by simp)
    simp only [memInsert]
    split
    · rename_i hlt
      refine (wf_cons _ _ _).mpr ⟨ha, hv, ?_, h⟩
      intro e he
      rcases List.mem_cons.mp he with rfl | he
      · exact hlt
      · exact hlt.trans (h3 e he)
    · refine (wf_cons _ _ _).mpr ⟨h1, h2, ?_, ih h4 fun e he => hn e (by simp [he])⟩
      intro e he
      rcases mem_memInsert _ _ _ _ he with rfl | he
      · show k < a; omega
      · exact h3 e he

/-- A write below the top of the address space keeps the canonical form. -/
theorem wf_memWrite (m : Memory) (a : Nat) (v : Byte) (ha : a < 2 ^ 32) (h : Memory.wf m = true) :
    Memory.wf (memWrite m a v) = true := by
  simp only [memWrite]
  split
  · exact wf_memErase m a h
  · exact wf_memInsert _ _ _ ha (by assumption) (wf_memErase m a h) (memErase_no_entry m a)

theorem wf_reset : Memory.wf State.reset.mem = true := rfl

/-- Memory in canonical form is determined by what its addresses read. -/
theorem memory_ext (m m' : Memory) (h : Memory.wf m = true) (h' : Memory.wf m' = true)
    (heq : ∀ x, memRead m x = memRead m' x) : m = m' := by
  induction m generalizing m' with
  | nil =>
    cases m' with
    | nil => rfl
    | cons d rest =>
      obtain ⟨k, b⟩ := d
      obtain ⟨_, h2, _, _⟩ := (wf_cons k b rest).mp h'
      have := heq k
      simp [memRead] at this
      exact absurd this.symm h2
  | cons d rest ih =>
    obtain ⟨k, b⟩ := d
    obtain ⟨_, h2, h3, h4⟩ := (wf_cons k b rest).mp h
    have low : ∀ (r : Memory) (x : Nat), (∀ e ∈ r, x < e.1) → memRead r x = 0 := by
      intro r x hr
      induction r with
      | nil => rfl
      | cons e r ihr =>
        obtain ⟨j, w⟩ := e
        have : x < j := hr (j, w) (by simp)
        rw [memRead, if_neg (by omega)]
        exact ihr fun e he => hr e (by simp [he])
    cases m' with
    | nil =>
      have := heq k
      simp [memRead] at this
      exact absurd this h2
    | cons d' rest' =>
      obtain ⟨k', b'⟩ := d'
      obtain ⟨_, h2', h3', h4'⟩ := (wf_cons k' b' rest').mp h'
      have hkk : k = k' := by
        rcases lt_trichotomy k k' with hlt | he | hlt
        · have := heq k
          simp only [memRead, if_pos trivial, if_neg (show k' ≠ k by omega)] at this
          rw [low rest' k fun e he => by have := h3' e he; omega] at this
          exact absurd this h2
        · exact he
        · have := heq k'
          simp only [memRead, if_pos trivial, if_neg (show k ≠ k' by omega)] at this
          rw [low rest k' fun e he => by have := h3 e he; omega] at this
          exact absurd this.symm h2'
      subst hkk
      have hb : b = b' := by simpa [memRead] using heq k
      subst hb
      congr 1
      apply ih rest' h4 h4'
      intro x
      have := heq x
      simp only [memRead] at this
      split at this
      · subst x; rw [low rest k h3, low rest' k h3']
      · exact this

/-! ## Lists of bytes -/

@[simp] theorem memReadBytes_length (m : Memory) (a n : Nat) : (memReadBytes m a n).length = n := by
  induction n generalizing a with
  | zero => rfl
  | succ n ih => simp [memReadBytes, ih]

/-- What a store of bytes leaves at an address. -/
theorem memRead_memWriteBytes (bs : List Byte) (m : Memory) (a x : Nat) :
    memRead (memWriteBytes m a bs) x =
      if a ≤ x ∧ x < a + bs.length then bs.getD (x - a) 0 else memRead m x := by
  induction bs generalizing m a with
  | nil => simp only [memWriteBytes, List.length_nil]; rw [if_neg (by omega)]
  | cons b rest ih =>
    simp only [memWriteBytes, ih, memRead_memWrite, List.length_cons]
    by_cases h1 : x = a
    · subst h1
      rw [if_neg (by omega), if_pos rfl, if_pos (by omega)]; simp
    · by_cases h2 : a + 1 ≤ x ∧ x < a + 1 + rest.length
      · rw [if_pos h2, if_pos (by omega)]
        rw [show x - a = (x - (a + 1)) + 1 by omega]; simp
      · rw [if_neg h2, if_neg h1, if_neg (by omega)]

theorem wf_memWriteBytes (bs : List Byte) (m : Memory) (a : Nat) (ha : a + bs.length ≤ 2 ^ 32)
    (h : Memory.wf m = true) : Memory.wf (memWriteBytes m a bs) = true := by
  induction bs generalizing m a with
  | nil => exact h
  | cons b rest ih =>
    simp only [List.length_cons] at ha
    exact ih _ _ (by omega) (wf_memWrite _ _ _ (by omega) h)

/-! ## Copies -/

/-- A copy changes nothing outside its destination. -/
theorem memRead_memCopy_outside (n : Nat) (m : Memory) (src dst x : Nat) (h : x < dst ∨ dst + n ≤ x) :
    memRead (memCopy m src dst n) x = memRead m x := by
  induction n generalizing m src dst with
  | zero => rfl
  | succ n ih =>
    rw [memCopy, ih _ _ _ (by omega), memRead_memWrite, if_neg (by omega)]

/-- What a copy leaves in its destination: the source byte, new where the copy itself stored it. -/
theorem copiesBytes_memCopy (n : Nat) (m : Memory) (src dst : Nat) :
    copiesBytes m (memCopy m src dst n) src dst n := by
  refine ⟨?_, fun x hx => memRead_memCopy_outside n m src dst x hx⟩
  induction n generalizing m src dst with
  | zero => intro j hj; omega
  | succ n ih =>
    intro j hj
    rw [memCopy]
    cases j with
    | zero =>
      rw [memRead_memCopy_outside _ _ _ _ _ (by omega), memRead_memWrite, if_pos (by omega),
        if_neg (by omega)]
      rfl
    | succ j =>
      have h := ih (memWrite m dst (memRead m src)) (src + 1) (dst + 1) j (by omega)
      rw [show dst + (j + 1) = dst + 1 + j by omega, show src + (j + 1) = src + 1 + j by omega, h]
      by_cases h1 : dst + 1 ≤ src + 1 + j ∧ src + 1 + j < dst + 1 + j
      · rw [if_pos h1, if_pos (by omega)]
      · rw [if_neg h1, memRead_memWrite]
        by_cases h2 : src + 1 + j = dst
        · rw [if_pos h2, if_pos (by omega), h2, memRead_memCopy_outside _ _ _ _ _ (by omega),
            memRead_memWrite, if_pos rfl]
        · rw [if_neg h2, if_neg (by omega)]

theorem wf_memCopy (n : Nat) (m : Memory) (src dst : Nat) (hd : dst + n ≤ 2 ^ 32)
    (h : Memory.wf m = true) : Memory.wf (memCopy m src dst n) = true := by
  induction n generalizing m src dst with
  | zero => exact h
  | succ n ih => exact ih _ _ _ (by omega) (wf_memWrite _ _ _ (by omega) h)

/-! ## Bits -/

theorem getLsbD_putBit (old : Byte) (o : Nat) (v : Bool) (i : Nat) (ho : o < 8) (hi : i < 8) :
    (putBit old o v).getLsbD i = if i = 7 - o then v else old.getLsbD i := by
  have hi' : i < 8 := hi
  interval_cases o <;> interval_cases i <;> cases v <;> simp [putBit]

/-- Reading a bit after a bit write: the bit written, every other bit as before. -/
theorem readBit_writeBit (m : Memory) (p x : Nat) (v : Bool) :
    readBit (writeBit m p v) x = if x = p then v else readBit m x := by
  simp only [readBit, writeBit, memRead_memWrite]
  by_cases h : x / 8 = p / 8
  · rw [if_pos h, getLsbD_putBit _ _ _ _ (by omega) (by omega)]
    by_cases h2 : x = p
    · subst h2; simp
    · rw [if_neg (by omega), if_neg h2, h]
  · rw [if_neg h, if_neg (by rintro rfl; exact h rfl)]

/-- What a store of bits leaves: the bits, every other bit as before. -/
theorem storesBits_writeBits (bs : List Bool) (m : Memory) (p : Nat) :
    storesBits m (writeBits m p bs) p bs := by
  intro x
  induction bs generalizing m p with
  | nil => simp only [writeBits, List.length_nil]; rw [if_neg (by omega)]
  | cons b rest ih =>
    rw [writeBits, ih, readBit_writeBit, List.length_cons]
    by_cases h1 : x = p
    · subst h1; rw [if_neg (by omega), if_pos rfl, if_pos (by omega)]; simp
    · by_cases h2 : p + 1 ≤ x ∧ x < p + 1 + rest.length
      · rw [if_pos h2, if_pos (by omega), show x - p = (x - (p + 1)) + 1 by omega]; simp
      · rw [if_neg h2, if_neg h1, if_neg (by omega)]

/-- A store of bits changes no byte that none of its bits lies in. -/
theorem memRead_writeBits_outside (bs : List Bool) (m : Memory) (p x : Nat)
    (h : x < p / 8 ∨ (p + bs.length + 7) / 8 ≤ x) : memRead (writeBits m p bs) x = memRead m x := by
  induction bs generalizing m p with
  | nil => rfl
  | cons b rest ih =>
    simp only [List.length_cons] at h
    rw [writeBits, ih _ _ (by omega), writeBit, memRead_memWrite, if_neg (by omega)]

theorem wf_writeBits (bs : List Bool) (m : Memory) (p : Nat) (hp : p + bs.length ≤ 8 * 2 ^ 32)
    (h : Memory.wf m = true) : Memory.wf (writeBits m p bs) = true := by
  induction bs generalizing m p with
  | nil => exact h
  | cons b rest ih =>
    simp only [List.length_cons] at hp
    exact ih _ _ (by omega) (wf_memWrite _ _ _ (by omega) h)

theorem writeBits_append (xs ys : List Bool) (m : Memory) (p : Nat) :
    writeBits m p (xs ++ ys) = writeBits (writeBits m p xs) (p + xs.length) ys := by
  induction xs generalizing m p with
  | nil => rfl
  | cons b rest ih =>
    simp only [List.cons_append, writeBits, List.length_cons, ih]
    rw [show p + 1 + rest.length = p + (rest.length + 1) by omega]

/-- A byte is the number of its eight bits. -/
theorem memRead_eq_of_readBit (m m' : Memory) (x y : Nat)
    (h : ∀ j < 8, readBit m (8 * x + j) = readBit m' (8 * y + j)) : memRead m x = memRead m' y := by
  apply BitVec.eq_of_getLsbD_eq
  intro i hi
  have := h (7 - i) (by omega)
  simp only [readBit] at this
  rwa [show (8 * x + (7 - i)) / 8 = x by omega, show (8 * y + (7 - i)) / 8 = y by omega,
    show 7 - (8 * x + (7 - i)) % 8 = i by omega, show 7 - (8 * y + (7 - i)) % 8 = i by omega] at this

/-! ## A command cut off by reset (70_reset_and_hazards.md R350) -/

/-- The memory after a cut-off command reads as before wherever the finished command changes nothing. -/
theorem memRead_tearMemory (old new : Memory) (addresses : List Nat) (m : Memory) (k x : Nat)
    (h : memRead old x = memRead new x) : memRead (tearMemory old new addresses m k).1 x = memRead m x := by
  induction addresses generalizing m k with
  | nil => rfl
  | cons a rest ih =>
    simp only [tearMemory]
    split
    · exact ih m k
    · rename_i changed
      have apart : x ≠ a := fun e => changed (e ▸ h)
      rw [ih, memRead_memWrite, if_neg apart]

/-- A memory in canonical form lists addresses of the address space only. -/
theorem wf_addresses (m : Memory) (h : Memory.wf m = true) : ∀ a ∈ m.map Prod.fst, a < 2 ^ 32 := by
  induction m with
  | nil => simp
  | cons cell rest ih =>
    obtain ⟨hk, -, -, hr⟩ := (wf_cons cell.1 cell.2 rest).mp h
    intro a ha
    rcases List.mem_cons.mp ha with rfl | ha
    · exact hk
    · exact ih hr a ha

theorem wf_tearMemory (old new : Memory) (addresses : List Nat) (m : Memory) (k : Nat)
    (ha : ∀ a ∈ addresses, a < 2 ^ 32) (h : Memory.wf m = true) :
    Memory.wf (tearMemory old new addresses m k).1 = true := by
  induction addresses generalizing m k with
  | nil => exact h
  | cons a rest ih =>
    have hrest : ∀ b ∈ rest, b < 2 ^ 32 := fun b hb => ha b (List.mem_cons_of_mem a hb)
    simp only [tearMemory]
    split
    · exact ih m k hrest h
    · exact ih _ _ hrest (wf_memWrite m a _ (ha a List.mem_cons_self) h)

end Sys2Proof.Machine
end

