-- ==== Sys2Proof/Laws/Fields.lean ====
section
/-! SUPPORT. Fields of a bit stream and numbers made of bytes: the number that n bits stand for, the
bits of a number, and the byte sums of 20_memory.md R63. -/

namespace Sys2Proof

@[simp] theorem fieldBits_length (n v : Nat) : (fieldBits n v).length = n := by
  induction n with
  | zero => rfl
  | succ n ih => simp [fieldBits, ih]

theorem fieldBits_getD (n v j : Nat) (h : j < n) : (fieldBits n v).getD j false = v.testBit (n - 1 - j) := by
  induction n generalizing j with
  | zero => omega
  | succ n ih =>
    cases j with
    | zero => simp [fieldBits]
    | succ j =>
      simp only [fieldBits, List.getD_cons_succ, ih j (by omega)]
      congr 1; omega

theorem fieldBits_append (n1 n2 v : Nat) :
    fieldBits (n1 + n2) v = fieldBits n1 (v / 2 ^ n2) ++ fieldBits n2 v := by
  induction n1 with
  | zero => simp [fieldBits]
  | succ n ih =>
    rw [show n + 1 + n2 = n + n2 + 1 by omega, fieldBits, ih]
    simp [fieldBits, Nat.testBit_div_two_pow, Nat.add_comm]

theorem fieldBits_mod (n v : Nat) : fieldBits n (v % 2 ^ n) = fieldBits n v := by
  have key : ∀ k ≤ n, fieldBits k (v % 2 ^ n) = fieldBits k v := by
    intro k
    induction k with
    | zero => intro _; rfl
    | succ k ih =>
      intro hk
      simp [fieldBits, ih (by omega), Nat.testBit_mod_two_pow, show k < n by omega]
  exact key n le_rfl

theorem readField_lt (bits : BitStream) (i n : Nat) : readField bits i n < 2 ^ n := by
  induction n with
  | zero => simp [readField]
  | succ n ih =>
    have : (bits (i + n)).toNat ≤ 1 := by cases bits (i + n) <;> simp
    simp only [readField, Nat.pow_succ]; omega

theorem readField_congr (f g : BitStream) (i k n : Nat) (h : ∀ j < n, f (i + j) = g (k + j)) :
    readField f i n = readField g k n := by
  induction n with
  | zero => rfl
  | succ n ih => simp only [readField, ih fun j hj => h j (by omega), h n (by omega)]

theorem readField_add (bits : BitStream) (i a b : Nat) :
    readField bits i (a + b) = readField bits i a * 2 ^ b + readField bits (i + a) b := by
  induction b with
  | zero => simp [readField]
  | succ b ih =>
    rw [← Nat.add_assoc, readField, ih, readField, Nat.pow_succ, ← Nat.add_assoc]; ring

theorem testBit_readField (bits : BitStream) (i n j : Nat) (h : j < n) :
    (readField bits i n).testBit j = bits (i + (n - 1 - j)) := by
  induction n generalizing j with
  | zero => omega
  | succ n ih =>
    simp only [readField]
    cases j with
    | zero =>
      cases hb : bits (i + n) <;> simp [hb, Nat.testBit_zero]
    | succ j =>
      rw [Nat.testBit_succ]
      have : (2 * readField bits i n + (bits (i + n)).toNat) / 2 = readField bits i n := by
        cases bits (i + n) <;> (simp; try omega)
      rw [this, ih j (by omega)]
      congr 2; omega

/-- Reading n bits where the low n bits of v stand, most significant first, gives v mod 2^n. -/
theorem readField_fieldBits (bits : BitStream) (i n v : Nat)
    (h : ∀ j < n, bits (i + j) = (fieldBits n v).getD j false) : readField bits i n = v % 2 ^ n := by
  apply Nat.eq_of_testBit_eq
  intro j
  rw [Nat.testBit_mod_two_pow]
  by_cases hj : j < n
  · rw [testBit_readField _ _ _ _ hj, h _ (by omega), fieldBits_getD _ _ _ (by omega)]
    simp [hj, show n - 1 - (n - 1 - j) = j by omega]
  · simp only [hj, decide_false, Bool.false_and]
    exact Nat.testBit_lt_two_pow ((readField_lt bits i n).trans_le (Nat.pow_le_pow_right (by omega) (by omega)))

namespace Machine

/-! ## Bytes -/

/-- The eight bits at a byte address, most significant first, are the byte. -/
theorem readField_byte (m : Memory) (x : Nat) : readField (readBit m) (8 * x) 8 = (memRead m x).toNat := by
  apply Nat.eq_of_testBit_eq
  intro j
  by_cases hj : j < 8
  · rw [testBit_readField _ _ _ _ hj]
    simp only [readBit, show (8 * x + (8 - 1 - j)) / 8 = x by omega,
      show 7 - (8 * x + (8 - 1 - j)) % 8 = j by omega, BitVec.getLsbD]
  · rw [Nat.testBit_lt_two_pow ((readField_lt _ _ _).trans_le (Nat.pow_le_pow_right (by omega) (by omega))),
      Nat.testBit_lt_two_pow ((memRead m x).isLt.trans_le (Nat.pow_le_pow_right (by omega) (by omega)))]

theorem byteSum_big_succ (m : Memory) (p w : Nat) :
    byteSum m p (w + 1) .big = 256 * byteSum m p w .big + (memRead m (p + w)).toNat := by
  simp only [byteSum, List.range_succ, List.map_append, List.sum_append, List.map_cons, List.map_nil,
    List.sum_cons, List.sum_nil]
  rw [show w + 1 - 1 - w = 0 by omega, Nat.pow_zero, ← List.sum_map_mul_left]
  simp only [Nat.mul_one, Nat.add_zero]
  congr 2
  apply List.map_congr_left
  intro i hi
  have := List.mem_range.mp hi
  rw [show w + 1 - 1 - i = (w - 1 - i) + 1 by omega, Nat.pow_succ]; ring

theorem byteSum_little_succ (m : Memory) (p w : Nat) :
    byteSum m p (w + 1) .little = (memRead m p).toNat + 256 * byteSum m (p + 1) w .little := by
  simp only [byteSum, List.range_succ_eq_map, List.map_cons, List.sum_cons, List.map_map,
    ← List.sum_map_mul_left]
  simp only [Nat.pow_zero, Nat.mul_one, Nat.add_zero]
  congr 2
  apply List.map_congr_left
  intro i _
  simp only [Function.comp, Nat.pow_succ, show p + (i + 1) = p + 1 + i by omega, Nat.succ_eq_add_one]; ring

/-- Whole bytes as one field: the big-endian number (R64). -/
theorem readField_bytes (m : Memory) (p w : Nat) :
    readField (readBit m) (8 * p) (8 * w) = byteSum m p w .big := by
  induction w with
  | zero => rfl
  | succ w ih =>
    rw [show 8 * (w + 1) = 8 * w + 8 by omega, readField_add, ih, byteSum_big_succ,
      show 8 * p + 8 * w = 8 * (p + w) by omega, readField_byte]; ring

theorem littleValue_memReadBytes (m : Memory) (p w : Nat) :
    littleValue (memReadBytes m p w) = byteSum m p w .little := by
  induction w generalizing p with
  | zero => rfl
  | succ w ih => rw [memReadBytes, littleValue, ih, byteSum_little_succ]

theorem littleValue_append (xs ys : List Byte) :
    littleValue (xs ++ ys) = littleValue xs + 256 ^ xs.length * littleValue ys := by
  induction xs with
  | nil => simp [littleValue]
  | cons b rest ih => simp [littleValue, ih, Nat.pow_succ]; ring

theorem memReadBytes_succ (m : Memory) (p w : Nat) :
    memReadBytes m p (w + 1) = memReadBytes m p w ++ [memRead m (p + w)] := by
  induction w generalizing p with
  | zero => simp [memReadBytes]
  | succ w ih =>
    rw [memReadBytes, ih, memReadBytes, List.cons_append, show p + 1 + w = p + (w + 1) by omega]

/-- The value a byte-level getter composes (R63). -/
theorem composeBytes_memReadBytes (order : ByteOrder) (m : Memory) (p w : Nat) :
    composeBytes order (memReadBytes m p w) = byteSum m p w order := by
  cases order with
  | little => exact littleValue_memReadBytes m p w
  | big =>
    simp only [composeBytes]
    induction w with
    | zero => rfl
    | succ w ih =>
      rw [memReadBytes_succ, List.reverse_append, byteSum_big_succ, ← ih]
      simp [littleValue]; ring

theorem byteSum_lt (m : Memory) (p w : Nat) (order : ByteOrder) : byteSum m p w order < 256 ^ w := by
  cases order with
  | little =>
    induction w generalizing p with
    | zero => simp [byteSum]
    | succ w ih =>
      rw [byteSum_little_succ, Nat.pow_succ]
      have := (memRead m p).isLt
      have := ih (p + 1)
      omega
  | big =>
    induction w with
    | zero => simp [byteSum]
    | succ w ih =>
      rw [byteSum_big_succ, Nat.pow_succ]
      have := (memRead m (p + w)).isLt
      omega

@[simp] theorem littleBytes_length (n v : Nat) : (littleBytes n v).length = n := by
  induction n generalizing v with
  | zero => rfl
  | succ n ih => simp [littleBytes, ih]

@[simp] theorem decomposeBytes_length (order : ByteOrder) (n v : Nat) :
    (decomposeBytes order n v).length = n := by cases order <;> simp [decomposeBytes]

theorem littleBytes_getD (n v j : Nat) (h : j < n) :
    ((littleBytes n v).getD j 0).toNat = v / 256 ^ j % 256 := by
  induction n generalizing v j with
  | zero => omega
  | succ n ih =>
    cases j with
    | zero => simp [littleBytes]
    | succ j =>
      simp only [littleBytes, List.getD_cons_succ, ih _ j (by omega)]
      rw [Nat.div_div_eq_div_mul, Nat.pow_succ, Nat.mul_comm]

/-- The bytes a byte-level setter stores (R63). -/
theorem decomposeBytes_getD (order : ByteOrder) (n v j : Nat) (h : j < n) :
    ((decomposeBytes order n v).getD j 0).toNat =
      match order with
      | .little => v / 256 ^ j % 256
      | .big => v / 256 ^ (n - 1 - j) % 256 := by
  cases order with
  | little => exact littleBytes_getD n v j h
  | big =>
    simp only [decomposeBytes]
    rw [List.getD_eq_getElem?_getD, List.getElem?_reverse (by simpa using h), littleBytes_length,
      ← List.getD_eq_getElem?_getD, littleBytes_getD _ _ _ (by omega)]

theorem storesBytes_memWriteBytes (m : Memory) (p w v : Nat) (order : ByteOrder) :
    storesBytes m (memWriteBytes m p (decomposeBytes order w v)) p w v order := by
  intro x
  rw [memRead_memWriteBytes, decomposeBytes_length]
  split
  · have e := decomposeBytes_getD order w v (x - p) (by omega)
    cases order <;> exact e
  · rfl

/-- Reading back what a byte-level setter stored, in the same order. -/
theorem byteSum_of_storesBytes (m m' : Memory) (p w v : Nat) (order : ByteOrder)
    (h : storesBytes m m' p w v order) : byteSum m' p w order = v % 256 ^ w := by
  cases order with
  | little =>
    have key : ∀ k ≤ w, byteSum m' (p + (w - k)) k .little = v / 256 ^ (w - k) % 256 ^ k := by
      intro k
      induction k with
      | zero => intro _; simp [byteSum, Nat.mod_one]
      | succ k ih =>
        intro hk
        have := h (p + (w - (k + 1)))
        rw [if_pos (by omega)] at this
        simp only [show p + (w - (k + 1)) - p = w - (k + 1) by omega] at this
        rw [byteSum_little_succ, this, show p + (w - (k + 1)) + 1 = p + (w - k) by omega, ih (by omega),
          show w - k = w - (k + 1) + 1 by omega, Nat.pow_succ, ← Nat.div_div_eq_div_mul, Nat.pow_succ,
          Nat.mul_comm (256 ^ k) 256, Nat.mod_mul]
    simpa using key w le_rfl
  | big =>
    have key : ∀ k ≤ w, byteSum m' p k .big = v / 256 ^ (w - k) % 256 ^ k := by
      intro k
      induction k with
      | zero => intro _; simp [byteSum, Nat.mod_one]
      | succ k ih =>
        intro hk
        have := h (p + k)
        rw [if_pos (by omega)] at this
        simp only [show w - 1 - (p + k - p) = w - (k + 1) by omega] at this
        rw [byteSum_big_succ, this, ih (by omega), show w - k = w - (k + 1) + 1 by omega, Nat.pow_succ,
          ← Nat.div_div_eq_div_mul, Nat.pow_succ, Nat.mul_comm (256 ^ k) 256, Nat.mod_mul]
        ring
    simpa using key w le_rfl

end Machine

end Sys2Proof
end

