-- ==== Sys2Proof/Laws/State.lean ====
section
/-! SUPPORT. One lemma per field and update of the state: setting a cursor, setting the memory,
answering a command. -/

namespace Sys2Proof.Machine

@[simp] theorem getCur_setCur (s : State) (c : CurSel) (k : Cursor) : getCur (setCur s c k) c = k := by
  cases c <;> rfl

@[simp] theorem getCur_setCur_other (s : State) (c : CurSel) (k : Cursor) :
    getCur (setCur s c k) (otherCursor c) = getCur s (otherCursor c) := by cases c <;> rfl

@[simp] theorem setCur_setCur (s : State) (c : CurSel) (k l : Cursor) :
    setCur (setCur s c k) c l = setCur s c l := by cases c <;> rfl

@[simp] theorem setCur_getCur (s : State) (c : CurSel) : setCur s c (getCur s c) = s := by cases c <;> rfl

@[simp] theorem getCur_withMem (s : State) (m : Memory) (c : CurSel) :
    getCur { s with mem := m } c = getCur s c := by cases c <;> rfl

@[simp] theorem getCur_answered (s : State) (st : Status) (r0 r1 : Word) (c : CurSel) :
    getCur (answered s st r0 r1) c = getCur s c := by cases c <;> rfl

@[simp] theorem answered_answered (s : State) (st st' : Status) (r0 r1 r0' r1' : Word) :
    answered (answered s st r0 r1) st' r0' r1' = answered s st' r0' r1' := rfl

theorem setCur_answered (s : State) (st : Status) (r0 r1 : Word) (c : CurSel) (k : Cursor) :
    setCur (answered s st r0 r1) c k = answered (setCur s c k) st r0 r1 := by cases c <;> rfl

@[simp] theorem respond_eq (st : Status) (r0 r1 : Word) (s : State) :
    respond st r0 r1 s = .next (answered s st r0 r1) := rfl

@[simp] theorem raise_eq (st : Status) (s : State) : raise st s = .next (answered s st 0 0) := rfl

@[simp] theorem answered_response (s : State) (st : Status) (r0 r1 : Word) :
    (answered s st r0 r1).response = some ⟨st, r0, r1⟩ := rfl

theorem withMem_setCur (s : State) (m : Memory) (c : CurSel) (k : Cursor) :
    { setCur s c k with mem := m } = setCur { s with mem := m } c k := by cases c <;> rfl

@[simp] theorem setCur_cstate (s : State) (c : CurSel) (k : Cursor) : (setCur s c k).cstate = s.cstate := by
  cases c <;> rfl

@[simp] theorem setCur_vlcType (s : State) (c : CurSel) (k : Cursor) : (setCur s c k).vlcType = s.vlcType := by
  cases c <;> rfl

@[simp] theorem setCur_vlcParam (s : State) (c : CurSel) (k : Cursor) : (setCur s c k).vlcParam = s.vlcParam := by
  cases c <;> rfl

@[simp] theorem setCur_wOrg (s : State) (c : CurSel) (k : Cursor) : (setCur s c k).wOrg = s.wOrg := by
  cases c <;> rfl

@[simp] theorem setCur_wEnd (s : State) (c : CurSel) (k : Cursor) : (setCur s c k).wEnd = s.wEnd := by
  cases c <;> rfl

@[simp] theorem setCur_wLen (s : State) (c : CurSel) (k : Cursor) : (setCur s c k).wLen = s.wLen := by
  cases c <;> rfl

@[simp] theorem setCur_posBits (s : State) (c : CurSel) (k : Cursor) : (setCur s c k).posBits = s.posBits := by
  cases c <;> rfl

@[simp] theorem setCur_base (s : State) (c : CurSel) (k : Cursor) : (setCur s c k).base = s.base := by
  cases c <;> rfl

@[simp] theorem setCur_sEnd (s : State) (c : CurSel) (k : Cursor) : (setCur s c k).sEnd = s.sEnd := by
  cases c <;> rfl

@[simp] theorem setCur_index (s : State) (c : CurSel) (k : Cursor) : (setCur s c k).index = s.index := by
  cases c <;> rfl

@[simp] theorem setCur_mem (s : State) (c : CurSel) (k : Cursor) : (setCur s c k).mem = s.mem := by
  cases c <;> rfl

@[simp] theorem setCur_maxWindow (s : State) (c : CurSel) (k : Cursor) : (setCur s c k).maxWindow = s.maxWindow := by
  cases c <;> rfl

@[simp] theorem setCur_tableSize (s : State) (c : CurSel) (k : Cursor) : (setCur s c k).tableSize = s.tableSize := by
  cases c <;> rfl

@[simp] theorem setCur_inputs (s : State) (c : CurSel) (k : Cursor) : (setCur s c k).inputs = s.inputs := by
  cases c <;> rfl

@[simp] theorem setCur_freeCount (s : State) (c : CurSel) (k : Cursor) : (setCur s c k).freeCount = s.freeCount := by
  cases c <;> rfl

@[simp] theorem setCur_response (s : State) (c : CurSel) (k : Cursor) : (setCur s c k).response = s.response := by
  cases c <;> rfl

@[simp] theorem answered_cur0 (s : State) (st : Status) (r0 r1 : Word) :
    (answered s st r0 r1).cur0 = s.cur0 := rfl

@[simp] theorem answered_cur1 (s : State) (st : Status) (r0 r1 : Word) :
    (answered s st r0 r1).cur1 = s.cur1 := rfl

@[simp] theorem answered_cstate (s : State) (st : Status) (r0 r1 : Word) :
    (answered s st r0 r1).cstate = s.cstate := rfl

@[simp] theorem answered_vlcType (s : State) (st : Status) (r0 r1 : Word) :
    (answered s st r0 r1).vlcType = s.vlcType := rfl

@[simp] theorem answered_vlcParam (s : State) (st : Status) (r0 r1 : Word) :
    (answered s st r0 r1).vlcParam = s.vlcParam := rfl

@[simp] theorem answered_wOrg (s : State) (st : Status) (r0 r1 : Word) :
    (answered s st r0 r1).wOrg = s.wOrg := rfl

@[simp] theorem answered_wEnd (s : State) (st : Status) (r0 r1 : Word) :
    (answered s st r0 r1).wEnd = s.wEnd := rfl

@[simp] theorem answered_wLen (s : State) (st : Status) (r0 r1 : Word) :
    (answered s st r0 r1).wLen = s.wLen := rfl

@[simp] theorem answered_posBits (s : State) (st : Status) (r0 r1 : Word) :
    (answered s st r0 r1).posBits = s.posBits := rfl

@[simp] theorem answered_base (s : State) (st : Status) (r0 r1 : Word) :
    (answered s st r0 r1).base = s.base := rfl

@[simp] theorem answered_sEnd (s : State) (st : Status) (r0 r1 : Word) :
    (answered s st r0 r1).sEnd = s.sEnd := rfl

@[simp] theorem answered_index (s : State) (st : Status) (r0 r1 : Word) :
    (answered s st r0 r1).index = s.index := rfl

@[simp] theorem answered_mem (s : State) (st : Status) (r0 r1 : Word) :
    (answered s st r0 r1).mem = s.mem := rfl

@[simp] theorem answered_maxWindow (s : State) (st : Status) (r0 r1 : Word) :
    (answered s st r0 r1).maxWindow = s.maxWindow := rfl

@[simp] theorem answered_tableSize (s : State) (st : Status) (r0 r1 : Word) :
    (answered s st r0 r1).tableSize = s.tableSize := rfl

@[simp] theorem answered_inputs (s : State) (st : Status) (r0 r1 : Word) :
    (answered s st r0 r1).inputs = s.inputs := rfl

@[simp] theorem answered_freeCount (s : State) (st : Status) (r0 r1 : Word) :
    (answered s st r0 r1).freeCount = s.freeCount := rfl

end Sys2Proof.Machine
end

