-- ==== Sys2Proof/Laws/Cursors.lean ====
section
/-! SUPPORT. How cursors move: advancing by bits and bytes, rounding up, and what is left. -/

namespace Sys2Proof.Machine

@[simp] theorem word_toNat (v : Nat) : (word v).toNat = v % 2 ^ 32 := BitVec.toNat_ofNat v 32

theorem word_toNat_of_lt (v : Nat) (h : v < 2 ^ 32) : (word v).toNat = v := by
  rw [word_toNat, Nat.mod_eq_of_lt h]

@[simp] theorem word_of_toNat (w : Word) : word w.toNat = w := by simp [word]

theorem cursor_ext {k l : Cursor} (h1 : k.origin = l.origin) (h2 : k.fin = l.fin)
    (h3 : bitAddr k = bitAddr l) : k = l := by
  obtain ⟨o, p, f, b⟩ := k
  obtain ⟨o', p', f', b'⟩ := l
  simp only [bitAddr] at h1 h2 h3
  have hb := b.isLt
  have hb' := b'.isLt
  have : p = p' := BitVec.eq_of_toNat_eq (by omega)
  have : b = b' := BitVec.eq_of_toNat_eq (by omega)
  subst_vars; rfl

@[simp] theorem advance_origin (k : Cursor) (n : Nat) : (advance k n).origin = k.origin := rfl
@[simp] theorem advance_fin (k : Cursor) (n : Nat) : (advance k n).fin = k.fin := rfl
@[simp] theorem advanceBytes_origin (k : Cursor) (n : Nat) : (advanceBytes k n).origin = k.origin := rfl
@[simp] theorem advanceBytes_fin (k : Cursor) (n : Nat) : (advanceBytes k n).fin = k.fin := rfl
@[simp] theorem advanceBytes_bitoff (k : Cursor) (n : Nat) : (advanceBytes k n).bitoff = k.bitoff := rfl

@[simp] theorem advance_zero (k : Cursor) : advance k 0 = k := by
  have := k.bitoff.isLt
  obtain ⟨o, p, f, b⟩ := k
  simp only [advance, Cursor.mk.injEq, true_and]
  refine ⟨?_, ?_⟩
  · rw [show (b.toNat + 0) / 8 = 0 by simp at this ⊢; omega]; simp
  · apply BitVec.eq_of_toNat_eq
    simp at this ⊢; omega

/-- The position after an advance within the region. -/
theorem advance_pos (k : Cursor) (n : Nat) (h : n ≤ leftBits k) :
    (advance k n).pos.toNat = k.pos.toNat + (k.bitoff.toNat + n) / 8 := by
  have h1 := k.fin.isLt
  have h2 := k.bitoff.isLt
  have h3 := k.pos.isLt
  simp only [advance, leftBits] at *
  apply word_toNat_of_lt; omega

theorem advance_bitoff (k : Cursor) (n : Nat) :
    (advance k n).bitoff.toNat = (k.bitoff.toNat + n) % 8 := by
  simp only [advance, BitVec.toNat_ofNat]; omega

/-- An advance within the region moves the bit address by the count (40_cursor_control.md R140). -/
theorem movedBits_advance (k : Cursor) (n : Nat) (h : n ≤ leftBits k) : movedBits k (advance k n) n := by
  refine ⟨?_, rfl, rfl⟩
  simp only [bitAddr, advance_pos k n h, advance_bitoff]; omega

theorem advanceBytes_pos (k : Cursor) (n : Nat) (h : n ≤ leftBytes k) :
    (advanceBytes k n).pos.toNat = k.pos.toNat + n := by
  have h1 := k.fin.isLt
  have h3 := k.pos.isLt
  simp only [advanceBytes, leftBytes] at *
  apply word_toNat_of_lt; omega

theorem movedBits_advanceBytes (k : Cursor) (n : Nat) (h : n ≤ leftBytes k) :
    movedBits k (advanceBytes k n) (8 * n) := by
  refine ⟨?_, rfl, rfl⟩
  simp only [bitAddr, advanceBytes_pos k n h, advanceBytes_bitoff]; omega

/-- At a byte boundary an advance of whole bytes is the byte advance. -/
theorem advance_eq_advanceBytes (k : Cursor) (n : Nat) (h : k.bitoff = 0) :
    advance k (8 * n) = advanceBytes k n := by
  obtain ⟨o, p, f, b⟩ := k
  simp only at h
  subst h
  simp [advance, advanceBytes]

theorem advance_advance (k : Cursor) (a b : Nat) : advance (advance k a) b = advance k (a + b) := by
  obtain ⟨o, p, f, t⟩ := k
  simp only [advance, Cursor.mk.injEq, true_and, BitVec.toNat_ofNat, word_toNat]
  have := t.isLt
  refine ⟨?_, ?_⟩
  · apply BitVec.eq_of_toNat_eq
    simp only [word_toNat]; omega
  · apply BitVec.eq_of_toNat_eq
    simp only [BitVec.toNat_ofNat]; omega

theorem leftBits_advance (k : Cursor) (n : Nat) (h : n ≤ leftBits k) :
    leftBits (advance k n) = leftBits k - n := by
  have := k.bitoff.isLt
  simp only [leftBits, advance_pos k n h, advance_bitoff, advance_fin] at *
  omega

theorem leftBytes_advanceBytes (k : Cursor) (n : Nat) (h : n ≤ leftBytes k) :
    leftBytes (advanceBytes k n) = leftBytes k - n := by
  simp only [leftBytes, advanceBytes_pos k n h, advanceBytes_fin] at *
  omega

/-- With as many bits left, the field lies below the end of the region. -/
theorem bitAddr_add_le (k : Cursor) (n : Nat) (h0 : 0 < n) (h : n ≤ leftBits k) :
    bitAddr k + n ≤ 8 * k.fin.toNat := by
  simp only [leftBits, bitAddr] at *; omega

theorem cursorOk_of_moved (k l : Cursor) (n : Nat) (h : CursorOk k) (hm : movedBits k l n)
    (hn : n ≤ leftBits k) : CursorOk l := by
  obtain ⟨h1, h2, h3⟩ := h
  obtain ⟨m1, m2, m3⟩ := hm
  have b := k.bitoff.isLt
  have b' := l.bitoff.isLt
  simp only [bitAddr, leftBits] at *
  have hk : 8 * k.pos.toNat + k.bitoff.toNat ≤ 8 * k.fin.toNat := by
    by_cases hz : k.bitoff = 0
    · simp [hz]; omega
    · have := h3 hz; omega
  refine ⟨by rw [m2]; omega, by rw [m3]; omega, fun hz => ?_⟩
  have : l.bitoff.toNat ≠ 0 := fun h => hz (BitVec.eq_of_toNat_eq (by simpa using h))
  rw [m3]; omega

theorem cursorOk_advance (k : Cursor) (n : Nat) (h : CursorOk k) (hn : n ≤ leftBits k) :
    CursorOk (advance k n) := cursorOk_of_moved k _ n h (movedBits_advance k n hn) hn

theorem cursorOk_advanceBytes (k : Cursor) (n : Nat) (h : CursorOk k) (hb : k.bitoff = 0)
    (hn : n ≤ leftBytes k) : CursorOk (advanceBytes k n) :=
  cursorOk_of_moved k _ (8 * n) h (movedBits_advanceBytes k n hn)
    (by simp only [leftBits, leftBytes, hb] at *; simp; omega)

/-- `sync` on a cursor that meets R22: the least byte boundary at or after it. -/
theorem syncCursor_spec (k : Cursor) (h : CursorOk k) :
    (syncCursor k).bitoff = 0 ∧ (syncCursor k).pos.toNat = (bitAddr k + 7) / 8 ∧
      (syncCursor k).origin = k.origin ∧ (syncCursor k).fin = k.fin ∧ CursorOk (syncCursor k) := by
  obtain ⟨h1, h2, h3⟩ := h
  have hf := k.fin.isLt
  have hb := k.bitoff.isLt
  simp only [syncCursor, bitAddr]
  split
  · rename_i hz
    refine ⟨hz, by simp [hz]; omega, rfl, rfl, h1, h2, h3⟩
  · rename_i hz
    have hlt := h3 hz
    have hne : k.bitoff.toNat ≠ 0 := fun h => hz (BitVec.eq_of_toNat_eq (by simpa using h))
    have hw : (word (k.pos.toNat + 1)).toNat = k.pos.toNat + 1 := word_toNat_of_lt _ (by omega)
    refine ⟨rfl, by rw [hw]; omega, rfl, rfl, ?_, ?_, by simp⟩ <;> simp only [hw] <;> omega

theorem syncCursor_of_zero (k : Cursor) (h : k.bitoff = 0) : syncCursor k = k := by
  simp [syncCursor, h]

end Sys2Proof.Machine
end

