-- ==== Sys2Proof/Laws/Access.lean ====
section
/-! SUPPORT. What each shared access can do, said once: a bit-level get, peek and set, a byte-level get
and set, the scan of a string. -/

namespace Sys2Proof.Machine

theorem getField_spec (n : Nat) (ext : Nat → Word) (c : CurSel) (s : State) :
    (leftBits (getCur s c) < n ∧ getField n ext c s = .next (answered s .eBounds 0 0)) ∨
    (n ≤ leftBits (getCur s c) ∧ getField n ext c s =
      .next (answered (setCur s c (advance (getCur s c) n)) .ok
        (ext (readField (bitsAt s.mem (getCur s c)) 0 n)) 0)) := by
  simp only [getField, raise_eq, respond_eq]
  split
  · exact .inl ⟨by assumption, rfl⟩
  · exact .inr ⟨by omega, rfl⟩

theorem peekField_spec (n : Nat) (ext : Nat → Word) (c : CurSel) (s : State) :
    (leftBits (getCur s c) < n ∧ peekField n ext c s = .next (answered s .eBounds 0 0)) ∨
    (n ≤ leftBits (getCur s c) ∧ peekField n ext c s =
      .next (answered s .ok (ext (readField (bitsAt s.mem (getCur s c)) 0 n)) 0)) := by
  simp only [peekField, raise_eq, respond_eq]
  split
  · exact .inl ⟨by assumption, rfl⟩
  · exact .inr ⟨by omega, rfl⟩

theorem setField_spec (n v : Nat) (c : CurSel) (s : State) :
    (leftBits (getCur s c) < n ∧ setField n v c s = .next (answered s .eBounds 0 0)) ∨
    (n ≤ leftBits (getCur s c) ∧ setField n v c s =
      .next (answered (setCur { s with mem := writeBits s.mem (bitAddr (getCur s c)) (fieldBits n v) } c
        (advance (getCur s c) n)) .ok 0 0)) := by
  simp only [setField, raise_eq, respond_eq]
  split
  · exact .inl ⟨by assumption, rfl⟩
  · exact .inr ⟨by omega, rfl⟩

theorem getBytes_spec (n : Nat) (order : ByteOrder) (ext : Nat → Word) (c : CurSel) (s : State) :
    ((getCur s c).bitoff ≠ 0 ∧ getBytes n order ext c s = .next (answered s .eUnaligned 0 0)) ∨
    ((getCur s c).bitoff = 0 ∧ leftBytes (getCur s c) < n ∧
      getBytes n order ext c s = .next (answered s .eBounds 0 0)) ∨
    ((getCur s c).bitoff = 0 ∧ n ≤ leftBytes (getCur s c) ∧ getBytes n order ext c s =
      .next (answered (setCur s c (advanceBytes (getCur s c) n)) .ok
        (ext (byteSum s.mem (getCur s c).pos.toNat n order)) 0)) := by
  simp only [getBytes, raise_eq, respond_eq, composeBytes_memReadBytes]
  split
  · exact .inl ⟨by assumption, rfl⟩
  · rename_i h
    rw [ne_eq, not_not] at h
    split
    · exact .inr (.inl ⟨h, by assumption, rfl⟩)
    · exact .inr (.inr ⟨h, by omega, rfl⟩)

theorem setBytes_spec (n : Nat) (order : ByteOrder) (v : Nat) (c : CurSel) (s : State) :
    ((getCur s c).bitoff ≠ 0 ∧ setBytes n order v c s = .next (answered s .eUnaligned 0 0)) ∨
    ((getCur s c).bitoff = 0 ∧ leftBytes (getCur s c) < n ∧
      setBytes n order v c s = .next (answered s .eBounds 0 0)) ∨
    ((getCur s c).bitoff = 0 ∧ n ≤ leftBytes (getCur s c) ∧ setBytes n order v c s =
      .next (answered (setCur
        { s with mem := memWriteBytes s.mem (getCur s c).pos.toNat (decomposeBytes order n v) } c
        (advanceBytes (getCur s c) n)) .ok 0 0)) := by
  simp only [setBytes, raise_eq, respond_eq]
  split
  · exact .inl ⟨by assumption, rfl⟩
  · rename_i h
    rw [ne_eq, not_not] at h
    split
    · exact .inr (.inl ⟨h, by assumption, rfl⟩)
    · exact .inr (.inr ⟨h, by omega, rfl⟩)

/-- The scan of `get_string`: how many bytes stand before the first zero byte of the `n` from `a` on. -/
theorem scanString_spec (m : Memory) (a n : Nat) :
    match scanString m a n with
    | none => ∀ j < n, memRead m (a + j) ≠ 0
    | some len => len < n ∧ memRead m (a + len) = 0 ∧ ∀ j < len, memRead m (a + j) ≠ 0 := by
  induction n generalizing a with
  | zero => simp [scanString]
  | succ n ih =>
    by_cases hz : memRead m a = 0
    · simp [scanString, hz]
    · simp only [scanString, if_neg hz]
      have h := ih (a + 1)
      cases hs : scanString m (a + 1) n with
      | none =>
        rw [hs] at h
        intro j hj
        cases j with
        | zero => simpa using hz
        | succ j => have := h j (by omega); rwa [show a + 1 + j = a + (j + 1) by omega] at this
      | some len =>
        rw [hs] at h
        obtain ⟨h1, h2, h3⟩ := h
        show len + 1 < n + 1 ∧ memRead m (a + (len + 1)) = 0 ∧ ∀ j < len + 1, memRead m (a + j) ≠ 0
        refine ⟨by omega, by rw [← h2]; congr 1; omega, ?_⟩
        intro j hj
        cases j with
        | zero => simpa using hz
        | succ j => have := h3 j (by omega); rwa [show a + 1 + j = a + (j + 1) by omega] at this

/-! ## Extension to 32 bits -/

theorem zext32_toNat (w v : Nat) (hw : w ≤ 32) (hv : v < 2 ^ w) : (zext32 w v).toNat = v := by
  have := Nat.pow_le_pow_right (show 0 < 2 by omega) hw
  rw [zext32, word_toNat, Nat.mod_eq_of_lt hv, Nat.mod_eq_of_lt (by omega)]

/-- The sign extension of a `w`-bit number is its two's complement reading. -/
theorem sext32_eq_signedWord (w v : Nat) (hw : w ≤ 32) (hv : v < 2 ^ w) : sext32 w v = signedWord w v := by
  have hp : 2 ^ w ≤ 2 ^ 32 := Nat.pow_le_pow_right (by omega) hw
  by_cases h0 : w = 0
  · subst h0
    have hv0 : v = 0 := by simpa using hv
    subst hv0
    simp [sext32, signedWord, word]
  have hpw : 2 ^ w = 2 * 2 ^ (w - 1) := by
    conv_lhs => rw [show w = (w - 1) + 1 by omega, Nat.pow_succ]
    omega
  apply BitVec.eq_of_toInt_eq
  rw [sext32, BitVec.toInt_signExtend_of_le hw]
  simp only [signedWord]
  rw [BitVec.toInt_eq_toNat_cond, BitVec.toInt_eq_toNat_cond, BitVec.toNat_ofNat, Nat.mod_eq_of_lt hv]
  simp only [word_toNat]
  by_cases hs : v < 2 ^ (w - 1)
  · rw [if_pos hs, if_pos (by omega), Nat.mod_eq_of_lt (by omega), if_pos (by omega)]
  · have hlt : v + (2 ^ 32 - 2 ^ w) < 2 ^ 32 := by omega
    rw [if_neg hs, if_neg (by omega), Nat.mod_eq_of_lt hlt]
    rw [if_neg (by omega)]
    rw [Nat.cast_add, Nat.cast_sub hp, Nat.cast_pow, Nat.cast_pow, Nat.cast_ofNat]
    ring

end Sys2Proof.Machine
end

