-- ==== Sys2Proof/Laws/Codes.lean ====
section
/-! SUPPORT. The variable-length codes and the tokens: the unary part in every outcome, the length of a
code, and what a successful or failing decode says. -/

namespace Sys2Proof

/-! ## The unary part -/

theorem vlcUnary_run (bits : BitStream) (one : Bool) (limit left i q k : Nat)
    (hr : ∀ j < k, bits (i + j) = one) (he : bits (i + k) ≠ one) (hl : k < left) (hq : q + k ≤ limit) :
    vlcUnary bits one limit left i q = .ok (q + k) := by
  induction k generalizing left i q with
  | zero =>
    cases left with
    | zero => omega
    | succ left => simp only [vlcUnary]; rw [if_neg (by simpa using he)]; rfl
  | succ k ih =>
    cases left with
    | zero => omega
    | succ left =>
      simp only [vlcUnary]
      rw [if_pos (by simpa using hr 0 (by omega)), if_neg (by omega),
        ih left (i + 1) (q + 1)
          (fun j hj => by have := hr (j + 1) (by omega); rwa [show i + (j + 1) = i + 1 + j by omega] at this)
          (by rwa [show i + 1 + k = i + (k + 1) by omega]) (by omega) (by omega)]
      congr 1; omega

theorem vlcUnary_trunc (bits : BitStream) (one : Bool) (limit left i q : Nat)
    (hr : ∀ j < left, bits (i + j) = one) (hq : q + left ≤ limit) :
    vlcUnary bits one limit left i q = .error .eCodecTrunc := by
  induction left generalizing i q with
  | zero => rfl
  | succ left ih =>
    simp only [vlcUnary]
    rw [if_pos (by simpa using hr 0 (by omega)), if_neg (by omega)]
    exact ih (i + 1) (q + 1)
      (fun j hj => by have := hr (j + 1) (by omega); rwa [show i + (j + 1) = i + 1 + j by omega] at this)
      (by omega)

theorem vlcUnary_over (bits : BitStream) (one : Bool) (limit left i q : Nat) (hq : q ≤ limit)
    (hr : ∀ j < limit + 1 - q, bits (i + j) = one) (hl : limit + 1 - q ≤ left) :
    vlcUnary bits one limit left i q = .error .eCodecVlc := by
  induction left generalizing i q with
  | zero => omega
  | succ left ih =>
    simp only [vlcUnary]
    rw [if_pos (by simpa using hr 0 (by omega))]
    by_cases h : q + 1 > limit
    · rw [if_pos h]
    · rw [if_neg h]
      exact ih (i + 1) (q + 1) (by omega)
        (fun j hj => by have := hr (j + 1) (by omega); rwa [show i + (j + 1) = i + 1 + j by omega] at this)
        (by omega)

theorem vlcUnary_ok (bits : BitStream) (one : Bool) (limit left i q r : Nat) (hq : q ≤ limit)
    (h : vlcUnary bits one limit left i q = .ok r) :
    ∃ k, r = q + k ∧ k < left ∧ r ≤ limit ∧ (∀ j < k, bits (i + j) = one) ∧ bits (i + k) ≠ one := by
  induction left generalizing i q with
  | zero => simp [vlcUnary] at h
  | succ left ih =>
    simp only [vlcUnary] at h
    split at h
    · rename_i h1
      split at h
      · simp at h
      · obtain ⟨k, k1, k2, k3, k4, k5⟩ := ih (i + 1) (q + 1) (by omega) h
        refine ⟨k + 1, by omega, by omega, k3, ?_, by rwa [show i + (k + 1) = i + 1 + k by omega]⟩
        intro j hj
        cases j with
        | zero => simpa using h1
        | succ j => have := k4 j (by omega); rwa [show i + 1 + j = i + (j + 1) by omega] at this
    · rename_i h1
      cases h
      exact ⟨0, rfl, by omega, hq, fun j hj => by omega, by simpa using h1⟩

theorem vlcUnary_error (bits : BitStream) (one : Bool) (limit left i q : Nat) (e : Status)
    (h : vlcUnary bits one limit left i q = .error e) : e = .eCodecTrunc ∨ e = .eCodecVlc := by
  induction left generalizing i q with
  | zero => simp only [vlcUnary] at h; cases h; simp
  | succ left ih =>
    simp only [vlcUnary] at h
    split at h
    · split at h
      · cases h; simp
      · exact ih _ _ h
    · cases h

/-! ## Codes -/

theorem vlcParamOk_fixed (a : Word) : vlcParamOk .fixed a = true ↔ 1 ≤ a.toNat ∧ a.toNat ≤ 32 := by
  simp [vlcParamOk]

theorem vlcParamOk_golomb (a : Word) : vlcParamOk .golomb a = true ↔ a.toNat ≤ 31 := by
  simp [vlcParamOk]

theorem pow_log2_le (v : Nat) (h : 1 ≤ v) : 2 ^ Nat.log2 v ≤ v := Nat.log2_self_le (by omega)

theorem lt_pow_log2 (v : Nat) : v < 2 ^ (Nat.log2 v + 1) := Nat.lt_log2_self

theorem log2_add (n t : Nat) (h : t < 2 ^ n) : Nat.log2 (2 ^ n + t) = n := by
  apply Nat.le_antisymm
  · have : Nat.log2 (2 ^ n + t) < n + 1 := (Nat.log2_lt (by have := Nat.two_pow_pos n; omega)).mpr
      (by rw [Nat.pow_succ]; omega)
    omega
  · exact (Nat.le_log2 (by have := Nat.two_pow_pos n; omega)).mpr (by omega)

/-- The length of a code is `vlc_len` (44_vlc.md R223). -/
@[simp] theorem vlcCode_length (ty : VlcType) (p v : Nat) :
    (vlcCode ty p v).length = vlcLen ty p v := by
  cases ty <;> simp [vlcCode, vlcLen] <;> omega

/-- The status of a failing decode. -/
theorem vlcDecode_error (ty : VlcType) (p : Nat) (bits : BitStream) (i left : Nat) (e : Status)
    (h : vlcDecode ty p bits i left = .error e) : e = .eCodecTrunc ∨ e = .eCodecVlc := by
  cases ty <;> simp only [vlcDecode] at h
  · split at h
    · cases h; simp
    · cases h
  · split at h
    · cases h; exact vlcUnary_error _ _ _ _ _ _ _ (by assumption)
    · split at h
      · cases h; simp
      · cases h
  · split at h
    · cases h; exact vlcUnary_error _ _ _ _ _ _ _ (by assumption)
    · split at h
      · cases h; simp
      · cases h

theorem golomb_limit (p q r : Nat) (hp : p ≤ 32) (hq : q ≤ (2 ^ 32 - 1) / 2 ^ p) (hr : r < 2 ^ p) :
    q * 2 ^ p + r ≤ 2 ^ 32 - 1 := by
  have h1 : q * 2 ^ p ≤ 2 ^ (32 - p) * 2 ^ p - 2 ^ p := by
    have hlt : q < 2 ^ (32 - p) := by
      have : (2 ^ 32 - 1) / 2 ^ p < 2 ^ (32 - p) := by
        apply Nat.div_lt_of_lt_mul
        rw [← Nat.pow_add, show p + (32 - p) = 32 by omega]; omega
      omega
    have : (q + 1) * 2 ^ p ≤ 2 ^ (32 - p) * 2 ^ p := Nat.mul_le_mul_right _ hlt
    rw [Nat.add_mul] at this; omega
  have h2 : 2 ^ (32 - p) * 2 ^ p = 2 ^ 32 := by rw [← Nat.pow_add]; congr 1; omega
  have : 2 ^ p ≤ 2 ^ 32 := Nat.pow_le_pow_right (by omega) hp
  omega

/-- A successful decode stays inside the bits left. -/
theorem vlcDecode_len_le (ty : VlcType) (p : Nat) (bits : BitStream) (i left v len : Nat)
    (h : vlcDecode ty p bits i left = .ok (v, len)) : len ≤ left := by
  cases ty <;> simp only [vlcDecode] at h
  · split at h
    · cases h
    · cases h; omega
  · split at h
    · cases h
    · rename_i q hq
      obtain ⟨k, k1, k2, k3, k4, k5⟩ := vlcUnary_ok _ _ _ _ _ _ _ (Nat.zero_le _) hq
      split at h
      · cases h
      · cases h; omega
  · split at h
    · cases h
    · rename_i q hq
      obtain ⟨k, k1, k2, k3, k4, k5⟩ := vlcUnary_ok _ _ _ _ _ _ _ (Nat.zero_le _) hq
      split at h
      · cases h
      · cases h; omega

/-- A successful decode under a legal parameter gives a representable value, and the length is that of
its code (44_vlc.md R229). -/
theorem vlcDecode_ok (ty : VlcType) (p : Nat) (bits : BitStream) (i left v len : Nat)
    (hp : ty = .gamma ∨ p ≤ 32) (h : vlcDecode ty p bits i left = .ok (v, len)) :
    vlcMin ty ≤ v ∧ v ≤ vlcMax ty p ∧ v < 2 ^ 32 ∧ len = vlcLen ty p v := by
  cases ty <;> simp only [vlcDecode] at h
  · split at h
    · cases h
    · cases h
      have := readField_lt bits i p
      have : 2 ^ p ≤ 2 ^ 32 := Nat.pow_le_pow_right (by omega) (by simpa using hp)
      exact ⟨Nat.zero_le _, by simp only [vlcMax]; omega, by omega, rfl⟩
  · split at h
    · cases h
    · rename_i q hq
      obtain ⟨k, k1, k2, k3, k4, k5⟩ := vlcUnary_ok _ _ _ _ _ _ _ (Nat.zero_le _) hq
      split at h
      · cases h
      · cases h
        have hr := readField_lt bits (i + q + 1) p
        have hl := golomb_limit p q _ (by simpa using hp) k3 hr
        refine ⟨by simp [vlcMin], by simpa [vlcMax] using hl, by omega, ?_⟩
        simp only [vlcLen]
        rw [Nat.add_comm (q * _), Nat.add_mul_div_right _ _ (by positivity), Nat.div_eq_of_lt hr]; omega
  · split at h
    · cases h
    · rename_i n hn
      obtain ⟨k, k1, k2, k3, k4, k5⟩ := vlcUnary_ok _ _ _ _ _ _ _ (Nat.zero_le _) hn
      split at h
      · cases h
      · cases h
        have hr := readField_lt bits (i + n + 1) n
        have h1 : 2 ^ (n + 1) ≤ 2 ^ 32 := Nat.pow_le_pow_right (by omega) (by omega)
        have h2 := Nat.two_pow_pos n
        rw [Nat.pow_succ] at h1
        refine ⟨by simp only [vlcMin]; omega, by simp only [vlcMax]; omega, by omega, ?_⟩
        simp only [vlcLen, log2_add n _ hr]

/-! ## Tokens -/

/-- The length of a token is the count of its bits (30_encoding.md R109). -/
@[simp] theorem tokenBits_length (posBits : Nat) (ty : VlcType) (p : Nat) (t : Token) :
    (tokenBits posBits ty p t).length = tokenLen posBits ty p t := by
  cases t <;> (simp [tokenBits, tokenLen]; try omega)

theorem tokenLen_pos (posBits : Nat) (ty : VlcType) (p : Nat) (t : Token) :
    1 ≤ tokenLen posBits ty p t := by cases t <;> simp [tokenLen]; omega

/-- A decoded token stays inside the bits left and is at least one bit long. -/
theorem decodeToken_len (posBits : Nat) (ty : VlcType) (p : Nat) (bits : BitStream) (left : Nat)
    (t : Token) (len : Nat) (h9 : 9 ≤ left) (h : decodeToken posBits ty p bits left = .ok (t, len)) :
    1 ≤ len ∧ len ≤ left := by
  simp only [decodeToken] at h
  split at h
  · split at h
    · cases h
    · split at h
      · cases h
      · rename_i v l hv
        have := vlcDecode_len_le _ _ _ _ _ _ _ hv
        cases h; omega
  · split at h
    · cases h; omega
    · cases h; omega

theorem decodeToken_error (posBits : Nat) (ty : VlcType) (p : Nat) (bits : BitStream) (left : Nat)
    (e : Status) (h : decodeToken posBits ty p bits left = .error e) :
    e = .eCodecTrunc ∨ e = .eCodecVlc := by
  simp only [decodeToken] at h
  split at h
  · split at h
    · cases h; simp
    · split at h
      · rename_i e' he
        cases h; exact vlcDecode_error _ _ _ _ _ _ he
      · cases h
  · split at h <;> cases h

end Sys2Proof
end

