-- ==== Sys2Proof/Laws/Window.lean ====
section
/-! SUPPORT. The tables of the index, the conservation of the node pool, and the bounds of what `find`
answers. -/

namespace Sys2Proof.Machine

/-! ## Tables -/

theorem tableGet_tableErase {α : Type} (t : List (Nat × α)) (i j : Nat) :
    tableGet (tableErase t i) j = if j = i then none else tableGet t j := by
  induction t with
  | nil => simp [tableErase, tableGet]
  | cons e rest ih =>
    obtain ⟨k, x⟩ := e
    simp only [tableErase, tableGet]
    split
    · subst k; rw [ih]; split <;> simp_all [eq_comm]
    · simp only [tableGet, ih]; split <;> simp_all

theorem tableErase_keys {α : Type} (t : List (Nat × α)) (i : Nat) :
    (tableErase t i).map Prod.fst = (t.map Prod.fst).filter (· ≠ i) := by
  induction t with
  | nil => rfl
  | cons e rest ih =>
    obtain ⟨k, x⟩ := e
    simp only [tableErase]
    split <;> simp_all

theorem tableInsert_keys_perm {α : Type} (t : List (Nat × α)) (i : Nat) (y : α) :
    ((tableInsert t i y).map Prod.fst).Perm (i :: t.map Prod.fst) := by
  induction t with
  | nil => simp [tableInsert]
  | cons e rest ih =>
    obtain ⟨k, x⟩ := e
    simp only [tableInsert]
    split
    · simp
    · simp only [List.map_cons]
      exact ((List.Perm.cons k ih).trans (List.Perm.swap _ _ _))

theorem tableGet_tableInsert {α : Type} (t : List (Nat × α)) (i j : Nat) (y : α)
    (h : ∀ e ∈ t, e.1 ≠ i) : tableGet (tableInsert t i y) j = if j = i then some y else tableGet t j := by
  induction t with
  | nil => simp [tableInsert, tableGet, eq_comm]
  | cons e rest ih =>
    obtain ⟨k, x⟩ := e
    have hk : k ≠ i := h (k, x) (by simp)
    simp only [tableInsert]
    split
    · simp [tableGet, eq_comm]
    · simp only [tableGet, ih fun e he => h e (by simp [he])]
      split <;> simp_all

theorem tableErase_no_key {α : Type} (t : List (Nat × α)) (i : Nat) : ∀ e ∈ tableErase t i, e.1 ≠ i := by
  intro e he heq
  have : e.1 ∈ (tableErase t i).map Prod.fst := List.mem_map_of_mem he
  rw [tableErase_keys] at this
  simp [heq] at this

/-- Looking up after a binding: the key bound gives the entry, every other key as before. -/
@[simp] theorem tableGet_tableSet {α : Type} (t : List (Nat × α)) (i j : Nat) (y : α) :
    tableGet (tableSet t i y) j = if j = i then some y else tableGet t j := by
  rw [tableSet, tableGet_tableInsert _ _ _ _ (tableErase_no_key t i), tableGet_tableErase]
  split <;> rfl

theorem tableSet_keys_perm {α : Type} (t : List (Nat × α)) (i : Nat) (y : α) :
    ((tableSet t i y).map Prod.fst).Perm (i :: (t.map Prod.fst).filter (· ≠ i)) := by
  have := tableInsert_keys_perm (tableErase t i) i y
  rwa [tableErase_keys] at this

theorem tableGet_mem_keys {α : Type} (t : List (Nat × α)) (i : Nat) (y : α) (h : tableGet t i = some y) :
    i ∈ t.map Prod.fst := by
  induction t with
  | nil => simp [tableGet] at h
  | cons e rest ih =>
    obtain ⟨k, x⟩ := e
    simp only [tableGet] at h
    split at h
    · simp_all
    · simp [ih h]

/-! ## The pool -/

/-- The pool is conserved, of an index alone: `PoolOk` of a state says it of its index. -/
def IndexPoolOk (maxWindow : Nat) (ix : WindowIndex) : Prop :=
  (ix.freed ++ liveIndices ix).Nodup ∧ (∀ i ∈ ix.freed ++ liveIndices ix, i < ix.fresh) ∧
    ix.freed.length + ix.nodes.length = ix.fresh ∧ ix.fresh ≤ maxWindow

theorem poolOk_iff (s : State) : PoolOk s ↔ IndexPoolOk s.maxWindow s.index := Iff.rfl

/-- Two indices with the same free list and the same live nodes, in whatever order, are conserved
alike. -/
theorem indexPoolOk_of_perm (maxWindow : Nat) (ix jx : WindowIndex) (h : IndexPoolOk maxWindow ix)
    (hf : jx.freed.length + jx.nodes.length = ix.freed.length + ix.nodes.length) (hr : jx.fresh = ix.fresh)
    (hp : (jx.freed ++ liveIndices jx).Perm (ix.freed ++ liveIndices ix)) : IndexPoolOk maxWindow jx := by
  obtain ⟨h1, h2, h3, h4⟩ := h
  exact ⟨hp.nodup_iff.mpr h1, fun i hi => hr ▸ h2 i (hp.mem_iff.mp hi), by rw [hf, hr, h3], by rw [hr]; exact h4⟩

theorem tableSet_live_perm {α : Type} (t : List (Nat × α)) (i : Nat) (x y : α) (hn : (t.map Prod.fst).Nodup)
    (h : tableGet t i = some x) : ((tableSet t i y).map Prod.fst).Perm (t.map Prod.fst) := by
  refine (tableSet_keys_perm t i y).trans ?_
  have hmem := tableGet_mem_keys t i x h
  have : (t.map Prod.fst).filter (· ≠ i) = (t.map Prod.fst).erase i := by
    rw [hn.erase_eq_filter]; congr 1; funext x; by_cases hx : x = i <;> simp [hx]
  rw [this]
  exact (List.perm_cons_erase hmem).symm

theorem changeNode_keys (maxWindow : Nat) (ix : WindowIndex) (i : Nat) (f : Node → Node)
    (h : IndexPoolOk maxWindow ix) : IndexPoolOk maxWindow (changeNode ix i f) := by
  simp only [changeNode]
  split
  · exact h
  · rename_i n hn
    have hnd : (ix.nodes.map Prod.fst).Nodup := (List.nodup_append.mp h.1).2.1
    have hp := tableSet_live_perm ix.nodes i n (f n) hnd hn
    refine indexPoolOk_of_perm _ ix _ h ?_ rfl (List.Perm.append_left _ hp)
    have := hp.length_eq
    simp only [List.length_map] at this
    simp only [this]

theorem setHead_pool (maxWindow : Nat) (ix : WindowIndex) (k i : Nat) (h : IndexPoolOk maxWindow ix) :
    IndexPoolOk maxWindow (setHead ix k i) := h

theorem clearHead_pool (maxWindow : Nat) (ix : WindowIndex) (k : Nat) (h : IndexPoolOk maxWindow ix) :
    IndexPoolOk maxWindow (clearHead ix k) := h

/-- Freeing a live node moves it from the live nodes to the top of the free list. -/
theorem freeNode_pool (maxWindow : Nat) (ix : WindowIndex) (i : Nat) (h : IndexPoolOk maxWindow ix)
    (hl : i ∈ liveIndices ix) : IndexPoolOk maxWindow (freeNode ix i) := by
  have hnd : (liveIndices ix).Nodup := (List.nodup_append.mp h.1).2.1
  have hk : (tableErase ix.nodes i).map Prod.fst = (liveIndices ix).erase i := by
    rw [tableErase_keys, hnd.erase_eq_filter, liveIndices]
    congr 1; funext x; by_cases hx : x = i <;> simp [hx]
  have hperm := List.perm_cons_erase hl
  refine indexPoolOk_of_perm _ ix _ h ?_ rfl ?_
  · have h1 := congrArg List.length hk
    have h2 := hperm.length_eq
    simp only [List.length_map, List.length_cons, liveIndices] at h1 h2
    simp only [freeNode, List.length_cons]; omega
  · simp only [freeNode, liveIndices]
    rw [hk]
    exact List.perm_middle.symm.trans (List.Perm.append_left _ hperm.symm)

/-- Allocating a node and making it live. -/
theorem allocNode_pool (maxWindow : Nat) (ix jx : WindowIndex) (i : Nat) (n : Node)
    (h : IndexPoolOk maxWindow ix) (ha : allocNode maxWindow ix = some (i, jx)) :
    IndexPoolOk maxWindow { jx with nodes := tableSet jx.nodes i n } := by
  obtain ⟨h1, h2, h3, h4⟩ := h
  have live : ∀ (t : List (Nat × Node)), i ∉ t.map Prod.fst →
      ((tableSet t i n).map Prod.fst).Perm (i :: t.map Prod.fst) := by
    intro t hi
    have := tableSet_keys_perm t i n
    rwa [List.filter_eq_self.mpr (by intro a hm; simp only [ne_eq, decide_eq_true_eq]; rintro rfl; exact hi hm)] at this
  simp only [allocNode] at ha
  split at ha
  · rename_i top rest heq
    cases ha
    rw [heq] at h1 h2 h3
    have hni : i ∉ liveIndices ix := fun hm => by
      simp only [List.cons_append, List.nodup_cons, List.mem_append, not_or] at h1
      exact h1.1.2 hm
    have hp := live ix.nodes hni
    have hpp : (rest ++ (tableSet ix.nodes i n).map Prod.fst).Perm (i :: rest ++ liveIndices ix) :=
      (List.Perm.append_left _ hp).trans List.perm_middle
    refine ⟨hpp.nodup_iff.mpr h1, fun j hj => h2 j (hpp.mem_iff.mp hj), ?_, h4⟩
    have := hp.length_eq
    simp only [List.length_map, List.length_cons] at this h3 ⊢
    omega
  · rename_i heq
    split at ha
    · cases ha
      rw [heq] at h1 h2 h3
      have hni : ix.fresh ∉ liveIndices ix := fun hm => by
        have := h2 ix.fresh (by simpa using hm); omega
      have hp := live ix.nodes hni
      have hpp : (ix.freed ++ (tableSet ix.nodes ix.fresh n).map Prod.fst).Perm
          (ix.fresh :: ([] ++ liveIndices ix)) := by rw [heq]; exact hp
      refine ⟨hpp.nodup_iff.mpr (List.nodup_cons.mpr ⟨by simpa using hni, h1⟩), ?_, ?_, by assumption⟩
      · intro j hj
        rcases List.mem_cons.mp (hpp.mem_iff.mp hj) with rfl | hj
        · show _ < ix.fresh + 1; omega
        · have := h2 j hj; show j < ix.fresh + 1; omega
      · have := hp.length_eq
        simp only [List.length_map, List.length_cons, heq, List.length_nil] at this h3 ⊢
        omega
    · cases ha

/-! ## What `find` answers -/

theorem extendMatch_bounds (m : Memory) (p sp room len : Nat) :
    len ≤ extendMatch m p sp room len ∧ extendMatch m p sp room len ≤ len + room := by
  induction room generalizing len with
  | zero => simp [extendMatch]
  | succ room ih =>
    simp only [extendMatch]
    split
    · have := ih (len + 1); omega
    · omega

/-- A property of the best match that every candidate keeps holds of what the ring walk answers. -/
theorem walkRing_keeps (P : Nat × Nat → Prop) (ix : WindowIndex) (m : Memory) (ws sp se : Nat)
    (g : Byte × Byte × Byte) (hd fuel i : Nat) (best : Nat × Nat) (h0 : P best)
    (hP : ∀ n b, P b → P (tryCandidate m ws sp se g n b)) :
    P (walkRing ix m ws sp se g hd fuel i best) := by
  induction fuel generalizing i best with
  | zero => exact h0
  | succ fuel ih =>
    simp only [walkRing]
    split
    · exact h0
    · split
      · exact hP _ _ h0
      · exact ih _ _ (hP _ _ h0)

/-- No match is longer than the source bytes left, and none is of length 1 or 2 (R251, R254). -/
theorem findMatch_bounds (tableSize : Nat) (ix : WindowIndex) (m : Memory) (ws sp se : Nat) :
    (findMatch tableSize ix m ws sp se).2 = 0 ∨
      (3 ≤ (findMatch tableSize ix m ws sp se).2 ∧ (findMatch tableSize ix m ws sp se).2 ≤ se - sp) := by
  simp only [findMatch]
  split
  · exact .inl rfl
  · split
    · exact .inl rfl
    · refine walkRing_keeps (fun b => b.2 = 0 ∨ (3 ≤ b.2 ∧ b.2 ≤ se - sp)) _ _ _ _ _ _ _ _ _ _ (.inl rfl) ?_
      intro n b hb
      simp only [tryCandidate]
      split
      · split
        · have := extendMatch_bounds m n.addr.toNat sp (se - sp - 3) 3
          right; simp only; omega
        · exact hb
      · exact hb

end Sys2Proof.Machine
end

