-- ==== Sys2Proof/Laws/Codec.lean ====
section
/-! SUPPORT. What one token of encode and one token of decode can do, said once; the pool through a
sliding window. -/

namespace Sys2Proof.Machine

theorem clog2_le (n : Nat) (h : n < 2 ^ 32) : clog2 n ≤ 32 := by
  simp only [clog2]
  split
  · omega
  · have : Nat.log2 (n - 1) < 32 := (Nat.log2_lt (by omega)).mpr (by omega)
    omega

/-! ## The pool through a sliding window -/

theorem spliceHead_pool (maxWindow : Nat) (ix jx : WindowIndex) (h i : Nat) (n : Node)
    (hp : IndexPoolOk maxWindow ix) (ha : allocNode maxWindow ix = some (i, jx)) :
    IndexPoolOk maxWindow (spliceHead jx h i n) := by
  simp only [spliceHead]
  split
  · exact setHead_pool _ _ _ _ (allocNode_pool _ _ _ _ _ hp ha)
  · exact setHead_pool _ _ _ _ (changeNode_keys _ _ _ _ (changeNode_keys _ _ _ _
      (allocNode_pool _ _ _ _ _ hp ha)))

theorem insertPosition_pool (maxWindow tableSize : Nat) (m : Memory) (wOrg se p : Nat) (ix : WindowIndex)
    (h : IndexPoolOk maxWindow ix) :
    IndexPoolOk maxWindow (insertPosition maxWindow tableSize m wOrg se p ix) := by
  simp only [insertPosition]
  split
  · exact h
  · split
    · exact h
    · exact spliceHead_pool _ _ _ _ _ _ h (by assumption)

theorem insertRange_pool (maxWindow tableSize : Nat) (m : Memory) (wOrg se n lo : Nat) (ix : WindowIndex)
    (h : IndexPoolOk maxWindow ix) :
    IndexPoolOk maxWindow (insertRange maxWindow tableSize m wOrg se n lo ix) := by
  induction n generalizing lo ix with
  | zero => exact h
  | succ n ih => exact ih _ _ (insertPosition_pool _ _ _ _ _ _ _ h)

theorem liveIndices_changeNode_mem (maxWindow : Nat) (ix : WindowIndex) (i j : Nat) (f : Node → Node)
    (h : IndexPoolOk maxWindow ix) (hj : j ∈ liveIndices ix) : j ∈ liveIndices (changeNode ix i f) := by
  simp only [changeNode]
  split
  · exact hj
  · rename_i n hn
    exact (tableSet_live_perm ix.nodes i n (f n) (List.nodup_append.mp h.1).2.1 hn).mem_iff.mpr hj

theorem unlinkNode_pool (maxWindow : Nat) (ix : WindowIndex) (h i : Nat) (hp : IndexPoolOk maxWindow ix) :
    IndexPoolOk maxWindow (unlinkNode ix h i) := by
  simp only [unlinkNode]
  split
  · exact hp
  · rename_i n hn
    have hl : i ∈ liveIndices ix := tableGet_mem_keys _ _ _ hn
    split
    · exact freeNode_pool _ _ _ (clearHead_pool _ _ _ hp) hl
    · have h1 := changeNode_keys maxWindow ix n.prev (fun x => { x with next := n.next }) hp
      have h2 := changeNode_keys maxWindow _ n.next (fun x => { x with prev := n.prev }) h1
      have l1 := liveIndices_changeNode_mem maxWindow ix n.prev i (fun x => { x with next := n.next }) hp hl
      have l2 := liveIndices_changeNode_mem maxWindow _ n.next i (fun x => { x with prev := n.prev }) h1 l1
      refine freeNode_pool _ _ _ ?_ ?_
      · split
        · exact setHead_pool _ _ _ _ h2
        · exact h2
      · split
        · exact l2
        · exact l2

theorem removePosition_pool (maxWindow tableSize : Nat) (m : Memory) (se p : Nat) (ix : WindowIndex)
    (h : IndexPoolOk maxWindow ix) : IndexPoolOk maxWindow (removePosition tableSize m se p ix) := by
  simp only [removePosition]
  split
  · exact h
  · split
    · exact h
    · split
      · exact h
      · exact unlinkNode_pool _ _ _ _ h

theorem removeRange_pool (maxWindow tableSize : Nat) (m : Memory) (se n lo : Nat) (ix : WindowIndex)
    (h : IndexPoolOk maxWindow ix) : IndexPoolOk maxWindow (removeRange tableSize m se n lo ix) := by
  induction n generalizing lo ix with
  | zero => exact h
  | succ n ih => exact ih _ _ (removePosition_pool _ _ _ _ _ _ h)

theorem empty_pool (maxWindow : Nat) : IndexPoolOk maxWindow WindowIndex.empty := by
  refine ⟨?_, ?_, ?_, ?_⟩ <;> simp [WindowIndex.empty, liveIndices]

theorem slideWindow_pool (s : State) (e : Nat) (h : PoolOk s) : PoolOk (slideWindow s e) :=
  insertRange_pool _ _ _ _ _ _ _ _ (removeRange_pool _ _ _ _ _ _ _ h)

/-! ## The window registers after a slide (46_lzsw_encode.md R278) -/

theorem slideWindow_wEnd (s : State) (e : Nat) (he : e < 2 ^ 32) : (slideWindow s e).wEnd.toNat = e :=
  word_toNat_of_lt e he

theorem slideWindow_wLen (s : State) (e : Nat) (he : e < 2 ^ 32) :
    (slideWindow s e).wLen.toNat = min (e - s.wOrg.toNat) s.maxWindow :=
  word_toNat_of_lt _ (by omega)

theorem posBits_toNat (n : Nat) (h : n < 2 ^ 32) : (BitVec.ofNat 6 (clog2 n)).toNat = clog2 n := by
  have := clog2_le n h
  rw [BitVec.toNat_ofNat]; omega

theorem slideWindow_posBits (s : State) (e : Nat) (he : e < 2 ^ 32) :
    (slideWindow s e).posBits.toNat = clog2 (slideWindow s e).wLen.toNat := by
  rw [slideWindow_wLen s e he]
  exact posBits_toNat _ (by omega)

theorem slideWindow_base (s : State) (e : Nat) (he : e < 2 ^ 32) :
    (slideWindow s e).base.toNat =
      ((slideWindow s e).wEnd.toNat - (slideWindow s e).wLen.toNat - s.wOrg.toNat) % s.maxWindow := by
  rw [slideWindow_wLen s e he, slideWindow_wEnd s e he]
  have h1 := Nat.mod_le (e - min (e - s.wOrg.toNat) s.maxWindow - s.wOrg.toNat) s.maxWindow
  exact word_toNat_of_lt _ (by omega)

/-! ## One token of encode -/

/-- The bits of the token that a step chooses. -/
def chosenBits (s : State) : List Bool :=
  tokenBits s.posBits.toNat s.vlcType s.vlcParam.toNat (chooseToken s).1

/-- The state after the chosen token has been written and the window slid. -/
def afterToken (s : State) : State :=
  { slideWindow
      { s with
        mem := writeBits s.mem (bitAddr s.cur1) (chosenBits s)
        cur1 := advance s.cur1 (chosenBits s).length }
      (s.cur0.pos.toNat + (chooseToken s).2) with
    cur0 := { s.cur0 with pos := word (s.cur0.pos.toNat + (chooseToken s).2) } }

/-- What one token of encode can do. -/
theorem deflateToken_spec (s : State) :
    (s.cur0.pos = s.cur0.fin ∧
      deflateToken s = ({ s with cur1 := syncCursor s.cur1, cstate := .encDone }, .done, 0, 0)) ∨
    (s.cur0.pos ≠ s.cur0.fin ∧ leftBits s.cur1 < (chosenBits s).length ∧
      deflateToken s = (s, .outFull, 0, 0)) ∨
    (s.cur0.pos ≠ s.cur0.fin ∧ (chosenBits s).length ≤ leftBits s.cur1 ∧
      deflateToken s = (afterToken s, .ok, (chooseToken s).2, (chosenBits s).length)) := by
  simp only [deflateToken, chosenBits, tokenBits_length, afterToken]
  split
  · exact .inl ⟨by assumption, rfl⟩
  · rename_i h
    split
    · exact .inr (.inl ⟨h, by assumption, rfl⟩)
    · exact .inr (.inr ⟨h, by omega, rfl⟩)

/-- A step consumes at least one and at most all of the source bytes left (R371). -/
theorem chooseToken_bounds (s : State) (h : CursorOk s.cur0) (hne : s.cur0.pos ≠ s.cur0.fin) :
    1 ≤ (chooseToken s).2 ∧ (chooseToken s).2 ≤ leftBytes s.cur0 := by
  have hlt : s.cur0.pos.toNat < s.cur0.fin.toNat := by
    have : s.cur0.pos.toNat ≠ s.cur0.fin.toNat := fun he => hne (BitVec.eq_of_toNat_eq he)
    omega
  have hb := findMatch_bounds s.tableSize s.index s.mem (s.wEnd.toNat - s.wLen.toNat)
    s.cur0.pos.toNat s.cur0.fin.toNat
  simp only [chooseToken, leftBytes]
  split
  · rename_i h2
    simp only [findAtCursor] at h2 ⊢
    omega
  · split
    · simp only; omega
    · simp only; omega

/-! ## One token of decode -/

/-- What the effect of a decoded token can be: refused as malformed, no room, or `n` bytes put out. -/
theorem applyToken_spec (t : Token) (len : Nat) (s : State) :
    (applyToken t len s = failToken .eCodecVlc s) ∨ (applyToken t len s = failToken .eCodecOffset s) ∨
    (applyToken t len s = (s, .outFull, 0, 0)) ∨
    (∃ m n, applyToken t len s = commitToken s m n len ∧ 1 ≤ n ∧ n ≤ leftBytes s.cur1 ∧
      (∀ x, x < s.cur1.pos.toNat ∨ s.cur1.pos.toNat + n ≤ x → memRead m x = memRead s.mem x) ∧
      (Memory.wf s.mem = true → Memory.wf m = true)) := by
  have hf := s.cur1.fin.isLt
  have hp := s.cur1.pos.isLt
  cases t with
  | literalPair b0 b1 =>
    simp only [applyToken]
    split
    · simp
    · rename_i h
      refine .inr (.inr (.inr ⟨_, 2, rfl, by omega, by omega, fun x hx => ?_, fun hw => ?_⟩))
      · rw [memRead_memWriteBytes, if_neg (by simp; omega)]
      · simp only [leftBytes] at h
        exact wf_memWriteBytes _ _ _ (by simp; omega) hw
  | singleLiteral b0 =>
    simp only [applyToken]
    split
    · simp
    · rename_i h
      refine .inr (.inr (.inr ⟨_, 1, rfl, by omega, by omega, fun x hx => ?_, fun hw => ?_⟩))
      · rw [memRead_memWriteBytes, if_neg (by simp; omega)]
      · simp only [leftBytes] at h
        exact wf_memWriteBytes _ _ _ (by simp; omega) hw
  | matchRef off v =>
    simp only [applyToken]
    split
    · simp
    · split
      · simp
      · split
        · simp
        · rename_i h
          refine .inr (.inr (.inr ⟨_, _, rfl, by omega, by omega, fun x hx => ?_, fun hw => ?_⟩))
          · exact memRead_memCopy_outside _ _ _ _ _ hx
          · simp only [leftBytes] at h
            exact wf_memCopy _ _ _ _ (by omega) hw

/-- What one token of decode can do. -/
theorem inflateToken_spec (s : State) :
    (leftBits s.cur0 < 9 ∧ inflateToken s = ({ s with cstate := .decDone }, .done, 0, 0)) ∨
    (9 ≤ leftBits s.cur0 ∧ inflateToken s = (s, .outFull, 0, 0)) ∨
    (9 ≤ leftBits s.cur0 ∧ ∃ e, (e = .eCodecVlc ∨ e = .eCodecOffset ∨ e = .eCodecTrunc) ∧
      inflateToken s = failToken e s) ∨
    (9 ≤ leftBits s.cur0 ∧ ∃ m n len, inflateToken s = commitToken s m n len ∧ 1 ≤ n ∧
      n ≤ leftBytes s.cur1 ∧ 1 ≤ len ∧ len ≤ leftBits s.cur0 ∧
      (∀ x, x < s.cur1.pos.toNat ∨ s.cur1.pos.toNat + n ≤ x → memRead m x = memRead s.mem x) ∧
      (Memory.wf s.mem = true → Memory.wf m = true)) := by
  simp only [inflateToken]
  split
  · exact .inl ⟨by assumption, rfl⟩
  · rename_i h9
    have h9 : 9 ≤ leftBits s.cur0 := by omega
    split
    · exact .inr (.inl ⟨h9, rfl⟩)
    · split
      · rename_i e he
        refine .inr (.inr (.inl ⟨h9, e, ?_, rfl⟩))
        rcases decodeToken_error _ _ _ _ _ _ he with rfl | rfl <;> simp
      · rename_i t len ht
        obtain ⟨l1, l2⟩ := decodeToken_len _ _ _ _ _ _ _ h9 ht
        rcases applyToken_spec t len s with h | h | h | ⟨m, n, h, h1, h2, h3, h4⟩
        · exact .inr (.inr (.inl ⟨h9, _, .inl rfl, h⟩))
        · exact .inr (.inr (.inl ⟨h9, _, .inr (.inl rfl), h⟩))
        · exact .inr (.inl ⟨h9, h⟩)
        · exact .inr (.inr (.inr ⟨h9, m, n, len, h, h1, h2, l1, l2, h3, h4⟩))

/-- The match copy is the bytes before the output position repeated (47_lzsw_decode.md R296). -/
theorem repeatsBytes_memCopy (m : Memory) (dst d n : Nat) (h0 : 0 < d) (hd : d ≤ dst) :
    repeatsBytes m (memCopy m (dst - d) dst n) dst d n := by
  obtain ⟨h1, h2⟩ := copiesBytes_memCopy n m (dst - d) dst
  refine ⟨?_, h2⟩
  intro j
  induction j using Nat.strong_induction_on with
  | _ j ih =>
    intro hj
    rw [h1 j hj]
    by_cases hlt : d ≤ j
    · rw [if_pos (by omega), show dst - d + j = dst + (j - d) by omega, ih (j - d) (by omega) (by omega)]
      congr 2
      rw [Nat.mod_eq_sub_mod hlt]
    · rw [if_neg (by omega), Nat.mod_eq_of_lt (by omega)]

end Sys2Proof.Machine
end

