-- ==== Sys2Proof/Laws/Commands.lean ====
section
/-! SUPPORT. What a command that names a cursor can do, said once. -/

namespace Sys2Proof.Machine

/-! ## Commands that name a cursor -/

/-- What a command that names cursor `c` can do: answer and change nothing else; move that cursor; or move
it and store bytes. -/
def CursorEffect (i : Instr) (c : CurSel) (s t : State) : Prop :=
  (∃ st r0 r1, t = answered s st r0 r1 ∧ (0x10 ≤ (statusCode st).toNat → r0 = 0 ∧ r1 = 0)) ∨
  ∃ m k r0 r1, t = answered (setCur { s with mem := m } c k) .ok r0 r1 ∧
    ((∀ a b, i ≠ .attach c a b) → k.origin = (getCur s c).origin ∧ k.fin = (getCur s c).fin) ∧
    (CursorOk (getCur s c) → CursorOk k) ∧
    (Memory.wf s.mem = true → Memory.wf m = true) ∧
    ∀ x, memRead m x ≠ memRead s.mem x → mayStore i s x

theorem CursorEffect.error {i : Instr} {c : CurSel} {s t : State} {st : Status}
    (h : raise st s = .next t) : CursorEffect i c s t := by
  rw [raise_eq] at h
  cases h
  exact .inl ⟨_, _, _, rfl, fun _ => ⟨rfl, rfl⟩⟩

theorem CursorEffect.answer {i : Instr} {c : CurSel} {s t : State} {r0 r1 : Word} {st : Status}
    (hs : (statusCode st).toNat < 0x10) (h : respond st r0 r1 s = .next t) : CursorEffect i c s t := by
  rw [respond_eq] at h
  cases h
  exact .inl ⟨_, _, _, rfl, fun he => by omega⟩

theorem CursorEffect.move {i : Instr} {c : CurSel} {s t : State} {k : Cursor} {r0 r1 : Word}
    (h : respond .ok r0 r1 (setCur s c k) = .next t) (ho : k.origin = (getCur s c).origin)
    (hf : k.fin = (getCur s c).fin) (hk : CursorOk (getCur s c) → CursorOk k) : CursorEffect i c s t := by
  rw [respond_eq] at h
  cases h
  exact .inr ⟨s.mem, k, r0, r1, rfl, fun _ => ⟨ho, hf⟩, hk, id, fun x hx => absurd rfl hx⟩

theorem CursorEffect.store {i : Instr} {c : CurSel} {s t : State} {m : Memory} {k : Cursor} {r0 r1 : Word}
    (h : respond .ok r0 r1 (setCur { s with mem := m } c k) = .next t) (ho : k.origin = (getCur s c).origin)
    (hf : k.fin = (getCur s c).fin) (hk : CursorOk (getCur s c) → CursorOk k)
    (hw : Memory.wf s.mem = true → Memory.wf m = true)
    (hm : ∀ x, memRead m x ≠ memRead s.mem x → mayStore i s x) : CursorEffect i c s t := by
  rw [respond_eq] at h
  cases h
  exact .inr ⟨m, k, r0, r1, rfl, fun _ => ⟨ho, hf⟩, hk, hw, hm⟩

theorem CursorEffect.getField {i : Instr} {c : CurSel} {s t : State} (n : Nat) (ext : Nat → Word)
    (h : getField n ext c s = .next t) : CursorEffect i c s t := by
  simp only [Machine.getField] at h
  split at h
  · exact .error h
  · exact .move h rfl rfl fun hk => cursorOk_advance _ _ hk (by omega)

theorem CursorEffect.peekField {i : Instr} {c : CurSel} {s t : State} (n : Nat) (ext : Nat → Word)
    (h : peekField n ext c s = .next t) : CursorEffect i c s t := by
  simp only [Machine.peekField] at h
  split at h
  · exact .error h
  · exact .answer (by decide) h

theorem CursorEffect.getBytes {i : Instr} {c : CurSel} {s t : State} (n : Nat) (order : ByteOrder)
    (ext : Nat → Word) (h : getBytes n order ext c s = .next t) : CursorEffect i c s t := by
  simp only [Machine.getBytes] at h
  split at h
  · exact .error h
  · rename_i hb
    split at h
    · exact .error h
    · exact .move h rfl rfl fun hk => cursorOk_advanceBytes _ _ hk (by simpa using hb) (by omega)

/-- The stored bits of a field lie in the cursor's region, from its position on. -/
theorem writeBits_region (m : Memory) (k : Cursor) (bs : List Bool) (h : bs.length ≤ leftBits k) (x : Nat)
    (hx : memRead (writeBits m (bitAddr k) bs) x ≠ memRead m x) : k.pos.toNat ≤ x ∧ x < k.fin.toNat := by
  by_contra hn
  apply hx
  by_cases h0 : bs.length = 0
  · rw [List.length_eq_zero_iff.mp h0]; rfl
  · have hb := k.bitoff.isLt
    have hend := bitAddr_add_le k bs.length (by omega) h
    refine memRead_writeBits_outside bs m _ x ?_
    simp only [bitAddr] at hend ⊢
    omega

theorem wf_writeBits_region (m : Memory) (k : Cursor) (bs : List Bool) (h : bs.length ≤ leftBits k)
    (hw : Memory.wf m = true) : Memory.wf (writeBits m (bitAddr k) bs) = true := by
  by_cases h0 : bs.length = 0
  · rw [List.length_eq_zero_iff.mp h0]; exact hw
  · have hf := k.fin.isLt
    have hend := bitAddr_add_le k bs.length (by omega) h
    exact wf_writeBits bs m _ (by omega) hw

theorem CursorEffect.setField {i : Instr} {c : CurSel} {s t : State} (n v : Nat)
    (hi : ∀ x, (getCur s c).pos.toNat ≤ x ∧ x < (getCur s c).fin.toNat → mayStore i s x)
    (h : setField n v c s = .next t) : CursorEffect i c s t := by
  simp only [Machine.setField] at h
  split at h
  · exact .error h
  · rename_i hl
    have hl : (fieldBits n v).length ≤ leftBits (getCur s c) := by rw [fieldBits_length]; omega
    exact .store h rfl rfl (fun hk => cursorOk_advance _ _ hk (by omega)) (wf_writeBits_region _ _ _ hl)
      fun x hx => hi x (writeBits_region _ _ _ hl x hx)

theorem CursorEffect.setBytes {i : Instr} {c : CurSel} {s t : State} (n : Nat) (order : ByteOrder) (v : Nat)
    (hi : ∀ x, (getCur s c).pos.toNat ≤ x ∧ x < (getCur s c).fin.toNat → mayStore i s x)
    (h : setBytes n order v c s = .next t) : CursorEffect i c s t := by
  simp only [Machine.setBytes] at h
  split at h
  · exact .error h
  · rename_i hb
    split at h
    · exact .error h
    · rename_i hl
      simp only [leftBytes] at hl
      have hf := (getCur s c).fin.isLt
      refine .store h rfl rfl
        (fun hk => cursorOk_advanceBytes _ _ hk (by simpa using hb) (by simp only [leftBytes]; omega)) ?_ ?_
      · by_cases h0 : n = 0
        · subst h0; exact fun hw => by cases order <;> simpa [decomposeBytes, littleBytes, memWriteBytes] using hw
        · exact wf_memWriteBytes _ _ _ (by rw [decomposeBytes_length]; omega)
      · intro x hx
        rw [memRead_memWriteBytes, decomposeBytes_length] at hx
        split at hx
        · exact hi x (by omega)
        · exact absurd rfl hx

theorem CursorEffect.copy {i : Instr} {c : CurSel} {s t : State} {src dst n : Nat} {r0 : Word}
    (hb : (getCur s c).bitoff = 0) (hl : n ≤ leftBytes (getCur s c)) (hd : n = 0 ∨ dst + n ≤ 2 ^ 32)
    (hi : ∀ x, dst ≤ x ∧ x < dst + n → mayStore i s x)
    (h : respond .ok r0 0 (setCur { s with mem := memCopy s.mem src dst n } c (advanceBytes (getCur s c) n)) =
      .next t) : CursorEffect i c s t := by
  refine .store h rfl rfl (fun hk => cursorOk_advanceBytes _ _ hk hb hl) ?_ ?_
  · rcases hd with rfl | hd
    · exact id
    · exact wf_memCopy _ _ _ _ hd
  · intro x hx
    refine hi x ?_
    by_contra hn
    exact hx (memRead_memCopy_outside _ _ _ _ _ (by omega))

/-- What a command that names a cursor can do (10_state.md R39, 30_encoding.md R92). -/
theorem cursorCommand_effect (i : Instr) (c : CurSel) (s t : State) (hn : namedCursor i = some c)
    (he : exec i s = .next t) : CursorEffect i c s t := by
  cases i <;> simp only [namedCursor, Option.some.injEq, reduceCtorEq] at hn <;> subst hn
  case attach c a b =>
    simp only [exec, execAttach] at he
    split at he
    · exact .error he
    · rename_i hb
      rw [respond_eq] at he
      cases he
      have ha := a.isLt
      refine .inr ⟨s.mem, _, 0, 0, rfl, fun h => absurd rfl (h a b), fun _ => ⟨Nat.le_refl _, ?_, by simp⟩, id,
        fun x hx => absurd rfl hx⟩
      simp only [word_toNat_of_lt _ (show a.toNat + b.toNat < 2 ^ 32 by omega)]
      omega
  case goto c a =>
    simp only [exec, execGoto] at he
    split at he
    · exact .error he
    · rename_i hb
      simp only [regionSize] at hb
      have hf := (getCur s c).fin.isLt
      refine .move he rfl rfl fun hk => ⟨?_, ?_, by simp⟩ <;>
        (simp only [word_toNat_of_lt _ (show (getCur s c).origin.toNat + a.toNat < 2 ^ 32 by omega)]; omega)
  case sync c =>
    exact .move he (by simp only [syncCursor]; split <;> rfl) (by simp only [syncCursor]; split <;> rfl)
      fun hk => (syncCursor_spec _ hk).2.2.2.2
  case tell c =>
    exact .move he (by simp only [syncCursor]; split <;> rfl) (by simp only [syncCursor]; split <;> rfl)
      fun hk => (syncCursor_spec _ hk).2.2.2.2
  case leftBytes c =>
    exact .move he (by simp only [syncCursor]; split <;> rfl) (by simp only [syncCursor]; split <;> rfl)
      fun hk => (syncCursor_spec _ hk).2.2.2.2
  case leftBits c => exact .answer (by decide) he
  case skipBytes c a =>
    simp only [exec, execSkipBytes] at he
    split at he
    · exact .error he
    · rename_i hb
      split at he
      · exact .error he
      · exact .move he rfl rfl fun hk => cursorOk_advanceBytes _ _ hk (by simpa using hb) (by omega)
  case skipBits c a =>
    simp only [exec, execSkipBits] at he
    split at he
    · exact .error he
    · exact .move he rfl rfl fun hk => cursorOk_advance _ _ hk (by omega)
  case getU1 c => exact .getField _ _ he
  case setU1 c a => exact .setField _ _ (fun _ h => h) he
  case getUbits c n =>
    simp only [exec, execGetUbits] at he
    split at he
    · exact .getField _ _ he
    · exact .error he
  case getSbits c n =>
    simp only [exec, execGetSbits] at he
    split at he
    · exact .getField _ _ he
    · exact .error he
  case setUbits c n a =>
    simp only [exec, execSetUbits] at he
    split at he
    · exact .setField _ _ (fun _ h => h) he
    · exact .error he
  case setSbits c n a =>
    simp only [exec, execSetSbits] at he
    split at he
    · exact .setField _ _ (fun _ h => h) he
    · exact .error he
  case peekUbits c n =>
    simp only [exec, execPeekUbits] at he
    split at he
    · exact .peekField _ _ he
    · exact .error he
  case peekSbits c n =>
    simp only [exec, execPeekSbits] at he
    split at he
    · exact .peekField _ _ he
    · exact .error he
  case getString c =>
    simp only [exec, execGetString] at he
    split at he
    · exact .error he
    · rename_i hb
      have sp := scanString_spec s.mem (getCur s c).pos.toNat (Machine.leftBytes (getCur s c))
      split at he
      · exact .answer (by decide) he
      · rename_i len hs
        rw [hs] at sp
        exact .move he rfl rfl fun hk => cursorOk_advanceBytes _ _ hk (by simpa using hb) sp.1
  case getData c a b =>
    simp only [exec, execGetData] at he
    split at he
    · exact .error he
    · rename_i hb
      split at he
      · rename_i hr
        exact .copy (by simpa using hb) (Nat.min_le_right _ _) (of_decide_eq_true hr) (fun _ h => h) he
      · exact .error he
  case setData c a b =>
    simp only [exec, execSetData] at he
    split at he
    · exact .error he
    · rename_i hb
      have hl : clippedCount (getCur s c) b ≤ Machine.leftBytes (getCur s c) := Nat.min_le_right _ _
      have hf := (getCur s c).fin.isLt
      split at he
      · exact .copy (by simpa using hb) hl (by simp only [Machine.leftBytes] at hl; omega)
          (fun x h => show (getCur s c).pos.toNat ≤ x ∧ x < (getCur s c).fin.toNat by
            simp only [Machine.leftBytes] at hl; omega) he
      · exact .error he
  case vlcPut c a =>
    simp only [exec, execVlcPut] at he
    split at he
    · exact .error he
    · split at he
      · exact .error he
      · split at he
        · exact .error he
        · have hl : (vlcCode s.vlcType s.vlcParam.toNat a.toNat).length ≤ Machine.leftBits (getCur s c) := by
            rw [vlcCode_length]; omega
          exact .store he rfl rfl (fun hk => cursorOk_advance _ _ hk (by omega)) (wf_writeBits_region _ _ _ hl)
            fun x hx => writeBits_region _ _ _ hl x hx
  case vlcGet c =>
    simp only [exec, execVlcGet] at he
    split at he
    · exact .error he
    · split at he
      · exact .error he
      · rename_i hd
        exact .move he rfl rfl fun hk => cursorOk_advance _ _ hk (vlcDecode_len_le _ _ _ _ _ _ _ hd)
  all_goals first
    | exact .getBytes _ _ _ he
    | exact .setBytes _ _ _ (fun _ h => h) he

end Sys2Proof.Machine
end

