-- ==== Sys2Proof/Laws/PerInstr.lean ====
section
/-! SUPPORT. The word of every command against its row of the opcode table: pattern and mask. -/

namespace Sys2Proof

/-- The meet of two concatenations is the concatenation of the meets. -/
theorem append_and_append {m n : Nat} (a c : BitVec m) (b d : BitVec n) :
    (a ++ b) &&& (c ++ d) = (a &&& c) ++ (b &&& d) := by
  ext i hi
  simp only [BitVec.getElem_and, BitVec.getElem_append]
  split <;> rfl

/-- Two command words are met field by field. -/
theorem packCommand_and (f g : CommandFields) :
    packCommand f &&& packCommand g =
      packCommand ⟨f.op &&& g.op, f.c &&& g.c, f.z &&& g.z, f.n &&& g.n, f.a &&& g.a, f.b &&& g.b⟩ := by
  refine (append_and_append _ _ _ _).trans (congrArg (· ++ (f.b &&& g.b)) ?_)
  refine (append_and_append _ _ _ _).trans (congrArg (· ++ (f.a &&& g.a)) ?_)
  refine (append_and_append _ _ _ _).trans (congrArg (· ++ (f.n &&& g.n)) ?_)
  refine (append_and_append _ _ _ _).trans (congrArg (· ++ (f.z &&& g.z)) ?_)
  exact append_and_append _ _ _ _

theorem and_ff (op : BitVec 8) : op &&& 255#8 = op := BitVec.and_allOnes

theorem and_modeBits (t : BitVec 2) (m : BitVec 1) : 0#3 ++ t ++ m &&& 56#6 = 0#6 := by
  revert t m; decide

/-- Pattern and mask of the table row of a command (30_encoding.md R93, R96); none for the stream forms. -/
def tableRow : Instr → Option (CommandWord × CommandWord)
  | .attach _ _ _ => some (0x01000000000000000000, 0xFF7F0000000000000000)
  | .goto _ _ => some (0x02000000000000000000, 0xFF7F00000000FFFFFFFF)
  | .sync _ => some (0x03000000000000000000, 0xFF7FFFFFFFFFFFFFFFFF)
  | .tell _ => some (0x04000000000000000000, 0xFF7FFFFFFFFFFFFFFFFF)
  | .leftBytes _ => some (0x05000000000000000000, 0xFF7FFFFFFFFFFFFFFFFF)
  | .leftBits _ => some (0x06000000000000000000, 0xFF7FFFFFFFFFFFFFFFFF)
  | .skipBytes _ _ => some (0x08000000000000000000, 0xFF7F00000000FFFFFFFF)
  | .skipBits _ _ => some (0x09000000000000000000, 0xFF7F00000000FFFFFFFF)
  | .getU1 _ => some (0x10000000000000000000, 0xFF7FFFFFFFFFFFFFFFFF)
  | .setU1 _ _ => some (0x11000000000000000000, 0xFF7F00000000FFFFFFFF)
  | .getUbits _ _ => some (0x12000000000000000000, 0xFF40FFFFFFFFFFFFFFFF)
  | .getSbits _ _ => some (0x13000000000000000000, 0xFF40FFFFFFFFFFFFFFFF)
  | .setUbits _ _ _ => some (0x14000000000000000000, 0xFF4000000000FFFFFFFF)
  | .setSbits _ _ _ => some (0x15000000000000000000, 0xFF4000000000FFFFFFFF)
  | .peekUbits _ _ => some (0x16000000000000000000, 0xFF40FFFFFFFFFFFFFFFF)
  | .peekSbits _ _ => some (0x17000000000000000000, 0xFF40FFFFFFFFFFFFFFFF)
  | .getU8 _ => some (0x20000000000000000000, 0xFF7FFFFFFFFFFFFFFFFF)
  | .getU16Le _ => some (0x21000000000000000000, 0xFF7FFFFFFFFFFFFFFFFF)
  | .getU24Le _ => some (0x22000000000000000000, 0xFF7FFFFFFFFFFFFFFFFF)
  | .getU32Le _ => some (0x23000000000000000000, 0xFF7FFFFFFFFFFFFFFFFF)
  | .getU16Be _ => some (0x25000000000000000000, 0xFF7FFFFFFFFFFFFFFFFF)
  | .getU24Be _ => some (0x26000000000000000000, 0xFF7FFFFFFFFFFFFFFFFF)
  | .getU32Be _ => some (0x27000000000000000000, 0xFF7FFFFFFFFFFFFFFFFF)
  | .getS8 _ => some (0x28000000000000000000, 0xFF7FFFFFFFFFFFFFFFFF)
  | .getS16Le _ => some (0x29000000000000000000, 0xFF7FFFFFFFFFFFFFFFFF)
  | .getS24Le _ => some (0x2A000000000000000000, 0xFF7FFFFFFFFFFFFFFFFF)
  | .getS32Le _ => some (0x2B000000000000000000, 0xFF7FFFFFFFFFFFFFFFFF)
  | .getS16Be _ => some (0x2D000000000000000000, 0xFF7FFFFFFFFFFFFFFFFF)
  | .getS24Be _ => some (0x2E000000000000000000, 0xFF7FFFFFFFFFFFFFFFFF)
  | .getS32Be _ => some (0x2F000000000000000000, 0xFF7FFFFFFFFFFFFFFFFF)
  | .setU8 _ _ => some (0x30000000000000000000, 0xFF7F00000000FFFFFFFF)
  | .setU16Le _ _ => some (0x31000000000000000000, 0xFF7F00000000FFFFFFFF)
  | .setU24Le _ _ => some (0x32000000000000000000, 0xFF7F00000000FFFFFFFF)
  | .setU32Le _ _ => some (0x33000000000000000000, 0xFF7F00000000FFFFFFFF)
  | .setU16Be _ _ => some (0x35000000000000000000, 0xFF7F00000000FFFFFFFF)
  | .setU24Be _ _ => some (0x36000000000000000000, 0xFF7F00000000FFFFFFFF)
  | .setU32Be _ _ => some (0x37000000000000000000, 0xFF7F00000000FFFFFFFF)
  | .setS8 _ _ => some (0x38000000000000000000, 0xFF7F00000000FFFFFFFF)
  | .setS16Le _ _ => some (0x39000000000000000000, 0xFF7F00000000FFFFFFFF)
  | .setS24Le _ _ => some (0x3A000000000000000000, 0xFF7F00000000FFFFFFFF)
  | .setS32Le _ _ => some (0x3B000000000000000000, 0xFF7F00000000FFFFFFFF)
  | .setS16Be _ _ => some (0x3D000000000000000000, 0xFF7F00000000FFFFFFFF)
  | .setS24Be _ _ => some (0x3E000000000000000000, 0xFF7F00000000FFFFFFFF)
  | .setS32Be _ _ => some (0x3F000000000000000000, 0xFF7F00000000FFFFFFFF)
  | .getString _ => some (0x40000000000000000000, 0xFF7FFFFFFFFFFFFFFFFF)
  | .getData _ _ _ => some (0x41000000000000000000, 0xFF7F0000000000000000)
  | .setData _ _ _ => some (0x42000000000000000000, 0xFF7F0000000000000000)
  | .vlcPut _ _ => some (0x48000000000000000000, 0xFF7F00000000FFFFFFFF)
  | .vlcGet _ => some (0x49000000000000000000, 0xFF7FFFFFFFFFFFFFFFFF)
  | .codecOpen _ _ _ => some (0x50000000000000000000, 0xFFF800000000FFFFFFFF)
  | .codecClose => some (0x51000000000000000000, 0xFFFFFFFFFFFFFFFFFFFF)
  | .deflateStep => some (0x52000000000000000000, 0xFFFFFFFFFFFFFFFFFFFF)
  | .deflateRun => some (0x53000000000000000000, 0xFFFFFFFFFFFFFFFFFFFF)
  | .inflateStep => some (0x54000000000000000000, 0xFFFFFFFFFFFFFFFFFFFF)
  | .inflateRun => some (0x55000000000000000000, 0xFFFFFFFFFFFFFFFFFFFF)
  | .codecState => some (0x56000000000000000000, 0xFFFFFFFFFFFFFFFFFFFF)
  | .winFind => some (0x57000000000000000000, 0xFFFFFFFFFFFFFFFFFFFF)
  | .tokenLiteralPair _ _ => none
  | .tokenMatch _ _ => none
  | .tokenSingleLiteral _ => none
  | .vlcFixed _ => none
  | .vlcGolomb _ => none
  | .vlcGamma _ => none

namespace Laws.TableRow

/-- A command has a word, and the word matches the pattern of its table row under the mask; a stream
form has no command word. -/
def Statement (i : Instr) : Prop :=
  match tableRow i with
  | some (pattern, mask) => ∃ w, encode i = some w ∧ w &&& mask = pattern
  | none => encode i = none

theorem row_Z (op : BitVec 8) (c : BitVec 1) :
    packCommand ⟨op, c, 0, 0, 0, 0⟩ &&& (0xFF7FFFFFFFFFFFFFFFFF : CommandWord) = packCommand ⟨op, 0, 0, 0, 0, 0⟩ := by
  rw [show (0xFF7FFFFFFFFFFFFFFFFF : CommandWord) = packCommand ⟨0xFF, 0, 1, 0x3F, 0xFFFFFFFF, 0xFFFFFFFF⟩ from by decide, packCommand_and]
  simp [packCommand, and_ff]

theorem row_N (op : BitVec 8) (c : BitVec 1) (n : BitVec 6) :
    packCommand ⟨op, c, 0, n, 0, 0⟩ &&& (0xFF40FFFFFFFFFFFFFFFF : CommandWord) = packCommand ⟨op, 0, 0, 0, 0, 0⟩ := by
  rw [show (0xFF40FFFFFFFFFFFFFFFF : CommandWord) = packCommand ⟨0xFF, 0, 1, 0, 0xFFFFFFFF, 0xFFFFFFFF⟩ from by decide, packCommand_and]
  simp [packCommand, and_ff]

theorem row_A (op : BitVec 8) (c : BitVec 1) (a : Word) :
    packCommand ⟨op, c, 0, 0, a, 0⟩ &&& (0xFF7F00000000FFFFFFFF : CommandWord) = packCommand ⟨op, 0, 0, 0, 0, 0⟩ := by
  rw [show (0xFF7F00000000FFFFFFFF : CommandWord) = packCommand ⟨0xFF, 0, 1, 0x3F, 0, 0xFFFFFFFF⟩ from by decide, packCommand_and]
  simp [packCommand, and_ff]

theorem row_NA (op : BitVec 8) (c : BitVec 1) (n : BitVec 6) (a : Word) :
    packCommand ⟨op, c, 0, n, a, 0⟩ &&& (0xFF4000000000FFFFFFFF : CommandWord) = packCommand ⟨op, 0, 0, 0, 0, 0⟩ := by
  rw [show (0xFF4000000000FFFFFFFF : CommandWord) = packCommand ⟨0xFF, 0, 1, 0, 0, 0xFFFFFFFF⟩ from by decide, packCommand_and]
  simp [packCommand, and_ff]

theorem row_AB (op : BitVec 8) (c : BitVec 1) (a b : Word) :
    packCommand ⟨op, c, 0, 0, a, b⟩ &&& (0xFF7F0000000000000000 : CommandWord) = packCommand ⟨op, 0, 0, 0, 0, 0⟩ := by
  rw [show (0xFF7F0000000000000000 : CommandWord) = packCommand ⟨0xFF, 0, 1, 0x3F, 0, 0⟩ from by decide, packCommand_and]
  simp [packCommand, and_ff]

theorem row_O (op : BitVec 8) :
    packCommand ⟨op, 0, 0, 0, 0, 0⟩ &&& (0xFFFFFFFFFFFFFFFFFFFF : CommandWord) = packCommand ⟨op, 0, 0, 0, 0, 0⟩ := by
  rw [show (0xFFFFFFFFFFFFFFFFFFFF : CommandWord) = packCommand ⟨0xFF, 1, 1, 0x3F, 0xFFFFFFFF, 0xFFFFFFFF⟩ from by decide, packCommand_and]
  simp [packCommand, and_ff]

theorem row_P (op : BitVec 8) (t : BitVec 2) (m : BitVec 1) (a : Word) :
    packCommand ⟨op, 0, 0, (0 : BitVec 3) ++ t ++ m, a, 0⟩ &&& (0xFFF800000000FFFFFFFF : CommandWord) = packCommand ⟨op, 0, 0, 0, 0, 0⟩ := by
  rw [show (0xFFF800000000FFFFFFFF : CommandWord) = packCommand ⟨0xFF, 1, 1, 0x38, 0, 0xFFFFFFFF⟩ from by decide, packCommand_and]
  simp [packCommand, and_ff, and_modeBits]

theorem attach (c : CurSel) (a : Word) (b : Word) : Statement (.attach c a b) :=
  ⟨_, rfl, (row_AB 0x01 c.code a b).trans (by decide)⟩

theorem goto (c : CurSel) (a : Word) : Statement (.goto c a) :=
  ⟨_, rfl, (row_A 0x02 c.code a).trans (by decide)⟩

theorem sync (c : CurSel) : Statement (.sync c) :=
  ⟨_, rfl, (row_Z 0x03 c.code).trans (by decide)⟩

theorem tell (c : CurSel) : Statement (.tell c) :=
  ⟨_, rfl, (row_Z 0x04 c.code).trans (by decide)⟩

theorem leftBytes (c : CurSel) : Statement (.leftBytes c) :=
  ⟨_, rfl, (row_Z 0x05 c.code).trans (by decide)⟩

theorem leftBits (c : CurSel) : Statement (.leftBits c) :=
  ⟨_, rfl, (row_Z 0x06 c.code).trans (by decide)⟩

theorem skipBytes (c : CurSel) (a : Word) : Statement (.skipBytes c a) :=
  ⟨_, rfl, (row_A 0x08 c.code a).trans (by decide)⟩

theorem skipBits (c : CurSel) (a : Word) : Statement (.skipBits c a) :=
  ⟨_, rfl, (row_A 0x09 c.code a).trans (by decide)⟩

theorem getU1 (c : CurSel) : Statement (.getU1 c) :=
  ⟨_, rfl, (row_Z 0x10 c.code).trans (by decide)⟩

theorem setU1 (c : CurSel) (a : Word) : Statement (.setU1 c a) :=
  ⟨_, rfl, (row_A 0x11 c.code a).trans (by decide)⟩

theorem getUbits (c : CurSel) (n : BitVec 6) : Statement (.getUbits c n) :=
  ⟨_, rfl, (row_N 0x12 c.code n).trans (by decide)⟩

theorem getSbits (c : CurSel) (n : BitVec 6) : Statement (.getSbits c n) :=
  ⟨_, rfl, (row_N 0x13 c.code n).trans (by decide)⟩

theorem setUbits (c : CurSel) (n : BitVec 6) (a : Word) : Statement (.setUbits c n a) :=
  ⟨_, rfl, (row_NA 0x14 c.code n a).trans (by decide)⟩

theorem setSbits (c : CurSel) (n : BitVec 6) (a : Word) : Statement (.setSbits c n a) :=
  ⟨_, rfl, (row_NA 0x15 c.code n a).trans (by decide)⟩

theorem peekUbits (c : CurSel) (n : BitVec 6) : Statement (.peekUbits c n) :=
  ⟨_, rfl, (row_N 0x16 c.code n).trans (by decide)⟩

theorem peekSbits (c : CurSel) (n : BitVec 6) : Statement (.peekSbits c n) :=
  ⟨_, rfl, (row_N 0x17 c.code n).trans (by decide)⟩

theorem getU8 (c : CurSel) : Statement (.getU8 c) :=
  ⟨_, rfl, (row_Z 0x20 c.code).trans (by decide)⟩

theorem getU16Le (c : CurSel) : Statement (.getU16Le c) :=
  ⟨_, rfl, (row_Z 0x21 c.code).trans (by decide)⟩

theorem getU24Le (c : CurSel) : Statement (.getU24Le c) :=
  ⟨_, rfl, (row_Z 0x22 c.code).trans (by decide)⟩

theorem getU32Le (c : CurSel) : Statement (.getU32Le c) :=
  ⟨_, rfl, (row_Z 0x23 c.code).trans (by decide)⟩

theorem getU16Be (c : CurSel) : Statement (.getU16Be c) :=
  ⟨_, rfl, (row_Z 0x25 c.code).trans (by decide)⟩

theorem getU24Be (c : CurSel) : Statement (.getU24Be c) :=
  ⟨_, rfl, (row_Z 0x26 c.code).trans (by decide)⟩

theorem getU32Be (c : CurSel) : Statement (.getU32Be c) :=
  ⟨_, rfl, (row_Z 0x27 c.code).trans (by decide)⟩

theorem getS8 (c : CurSel) : Statement (.getS8 c) :=
  ⟨_, rfl, (row_Z 0x28 c.code).trans (by decide)⟩

theorem getS16Le (c : CurSel) : Statement (.getS16Le c) :=
  ⟨_, rfl, (row_Z 0x29 c.code).trans (by decide)⟩

theorem getS24Le (c : CurSel) : Statement (.getS24Le c) :=
  ⟨_, rfl, (row_Z 0x2A c.code).trans (by decide)⟩

theorem getS32Le (c : CurSel) : Statement (.getS32Le c) :=
  ⟨_, rfl, (row_Z 0x2B c.code).trans (by decide)⟩

theorem getS16Be (c : CurSel) : Statement (.getS16Be c) :=
  ⟨_, rfl, (row_Z 0x2D c.code).trans (by decide)⟩

theorem getS24Be (c : CurSel) : Statement (.getS24Be c) :=
  ⟨_, rfl, (row_Z 0x2E c.code).trans (by decide)⟩

theorem getS32Be (c : CurSel) : Statement (.getS32Be c) :=
  ⟨_, rfl, (row_Z 0x2F c.code).trans (by decide)⟩

theorem setU8 (c : CurSel) (a : Word) : Statement (.setU8 c a) :=
  ⟨_, rfl, (row_A 0x30 c.code a).trans (by decide)⟩

theorem setU16Le (c : CurSel) (a : Word) : Statement (.setU16Le c a) :=
  ⟨_, rfl, (row_A 0x31 c.code a).trans (by decide)⟩

theorem setU24Le (c : CurSel) (a : Word) : Statement (.setU24Le c a) :=
  ⟨_, rfl, (row_A 0x32 c.code a).trans (by decide)⟩

theorem setU32Le (c : CurSel) (a : Word) : Statement (.setU32Le c a) :=
  ⟨_, rfl, (row_A 0x33 c.code a).trans (by decide)⟩

theorem setU16Be (c : CurSel) (a : Word) : Statement (.setU16Be c a) :=
  ⟨_, rfl, (row_A 0x35 c.code a).trans (by decide)⟩

theorem setU24Be (c : CurSel) (a : Word) : Statement (.setU24Be c a) :=
  ⟨_, rfl, (row_A 0x36 c.code a).trans (by decide)⟩

theorem setU32Be (c : CurSel) (a : Word) : Statement (.setU32Be c a) :=
  ⟨_, rfl, (row_A 0x37 c.code a).trans (by decide)⟩

theorem setS8 (c : CurSel) (a : Word) : Statement (.setS8 c a) :=
  ⟨_, rfl, (row_A 0x38 c.code a).trans (by decide)⟩

theorem setS16Le (c : CurSel) (a : Word) : Statement (.setS16Le c a) :=
  ⟨_, rfl, (row_A 0x39 c.code a).trans (by decide)⟩

theorem setS24Le (c : CurSel) (a : Word) : Statement (.setS24Le c a) :=
  ⟨_, rfl, (row_A 0x3A c.code a).trans (by decide)⟩

theorem setS32Le (c : CurSel) (a : Word) : Statement (.setS32Le c a) :=
  ⟨_, rfl, (row_A 0x3B c.code a).trans (by decide)⟩

theorem setS16Be (c : CurSel) (a : Word) : Statement (.setS16Be c a) :=
  ⟨_, rfl, (row_A 0x3D c.code a).trans (by decide)⟩

theorem setS24Be (c : CurSel) (a : Word) : Statement (.setS24Be c a) :=
  ⟨_, rfl, (row_A 0x3E c.code a).trans (by decide)⟩

theorem setS32Be (c : CurSel) (a : Word) : Statement (.setS32Be c a) :=
  ⟨_, rfl, (row_A 0x3F c.code a).trans (by decide)⟩

theorem getString (c : CurSel) : Statement (.getString c) :=
  ⟨_, rfl, (row_Z 0x40 c.code).trans (by decide)⟩

theorem getData (c : CurSel) (a : Word) (b : Word) : Statement (.getData c a b) :=
  ⟨_, rfl, (row_AB 0x41 c.code a b).trans (by decide)⟩

theorem setData (c : CurSel) (a : Word) (b : Word) : Statement (.setData c a b) :=
  ⟨_, rfl, (row_AB 0x42 c.code a b).trans (by decide)⟩

theorem vlcPut (c : CurSel) (a : Word) : Statement (.vlcPut c a) :=
  ⟨_, rfl, (row_A 0x48 c.code a).trans (by decide)⟩

theorem vlcGet (c : CurSel) : Statement (.vlcGet c) :=
  ⟨_, rfl, (row_Z 0x49 c.code).trans (by decide)⟩

theorem codecOpen (mode : CodecMode) (ty : VlcType) (a : Word) : Statement (.codecOpen mode ty a) :=
  ⟨_, rfl, (row_P 0x50 ty.code mode.code a).trans (by decide)⟩

theorem codecClose : Statement .codecClose :=
  ⟨_, rfl, (row_O 0x51).trans (by decide)⟩

theorem deflateStep : Statement .deflateStep :=
  ⟨_, rfl, (row_O 0x52).trans (by decide)⟩

theorem deflateRun : Statement .deflateRun :=
  ⟨_, rfl, (row_O 0x53).trans (by decide)⟩

theorem inflateStep : Statement .inflateStep :=
  ⟨_, rfl, (row_O 0x54).trans (by decide)⟩

theorem inflateRun : Statement .inflateRun :=
  ⟨_, rfl, (row_O 0x55).trans (by decide)⟩

theorem codecState : Statement .codecState :=
  ⟨_, rfl, (row_O 0x56).trans (by decide)⟩

theorem winFind : Statement .winFind :=
  ⟨_, rfl, (row_O 0x57).trans (by decide)⟩

theorem tokenLiteralPair (b0 b1 : Byte) : Statement (.tokenLiteralPair b0 b1) := rfl

theorem tokenMatch (offset value : Word) : Statement (.tokenMatch offset value) := rfl

theorem tokenSingleLiteral (b0 : Byte) : Statement (.tokenSingleLiteral b0) := rfl

theorem vlcFixed (v : Word) : Statement (.vlcFixed v) := rfl

theorem vlcGolomb (v : Word) : Statement (.vlcGolomb v) := rfl

theorem vlcGamma (v : Word) : Statement (.vlcGamma v) := rfl

end Laws.TableRow

end Sys2Proof
end

