-- ==== Sys2Proof/Tests/Slice0.lean ====
section
/-! SUPPORT. Small tests: words written out from the encoding tables, one-step tests with the results of
95_test_vectors.md, and a state for the hypotheses of every statement. -/

namespace Sys2Proof.Tests

set_option Elab.async false

open Sys2Proof Sys2Proof.Machine

/-! ## Well-formedness refuses (30_encoding.md R99, 44_vlc.md R222, R224) -/

theorem test_wf_getUbits :
    (Instr.getUbits .c0 33).wf = false ∧ (Instr.getUbits .c0 32).wf = true := by decide

theorem test_wf_getSbits :
    (Instr.getSbits .c0 33).wf = false ∧ (Instr.getSbits .c0 32).wf = true := by decide

theorem test_wf_peekUbits :
    (Instr.peekUbits .c0 33).wf = false ∧ (Instr.peekUbits .c0 32).wf = true := by decide

theorem test_wf_peekSbits :
    (Instr.peekSbits .c0 33).wf = false ∧ (Instr.peekSbits .c0 32).wf = true := by decide

theorem test_wf_setUbits :
    (Instr.setUbits .c1 63 0).wf = false ∧ (Instr.setUbits .c1 0 0).wf = true := by decide

theorem test_wf_setSbits :
    (Instr.setSbits .c1 63 0).wf = false ∧ (Instr.setSbits .c1 0 0).wf = true := by decide

theorem test_wf_codecOpen_fixed :
    (Instr.codecOpen .enc .fixed 0).wf = false ∧ (Instr.codecOpen .enc .fixed 33).wf = false ∧
      (Instr.codecOpen .enc .fixed 32).wf = true := by decide

theorem test_wf_codecOpen_golomb :
    (Instr.codecOpen .dec .golomb 32).wf = false ∧ (Instr.codecOpen .dec .golomb 31).wf = true := by decide

theorem test_wf_codecOpen_gamma :
    (Instr.codecOpen .dec .gamma 1).wf = false ∧ (Instr.codecOpen .dec .gamma 0).wf = true := by decide

theorem test_wf_vlcGamma : (Instr.vlcGamma 0).wf = false ∧ (Instr.vlcGamma 1).wf = true := by decide

/-! ## Decoding: one word of every command, written out field by field (op, then c z n, then a, then b) from
30_encoding.md R91 and R96 -/

theorem test_decode_attach :
    decode 0x0100000123450000BEEF = .ok (.attach .c0 0x00012345 0x0000BEEF) := rfl

theorem test_decode_goto : decode 0x028089ABCDEF00000000 = .ok (.goto .c1 0x89ABCDEF) := rfl

theorem test_decode_sync : decode 0x03000000000000000000 = .ok (.sync .c0) := rfl

theorem test_decode_tell : decode 0x04800000000000000000 = .ok (.tell .c1) := rfl

theorem test_decode_leftBytes : decode 0x05000000000000000000 = .ok (.leftBytes .c0) := rfl

theorem test_decode_leftBits : decode 0x06800000000000000000 = .ok (.leftBits .c1) := rfl

theorem test_decode_skipBytes : decode 0x080089ABCDEF00000000 = .ok (.skipBytes .c0 0x89ABCDEF) := rfl

theorem test_decode_skipBits : decode 0x098089ABCDEF00000000 = .ok (.skipBits .c1 0x89ABCDEF) := rfl

theorem test_decode_getU1 : decode 0x10000000000000000000 = .ok (.getU1 .c0) := rfl

theorem test_decode_setU1 : decode 0x118089ABCDEF00000000 = .ok (.setU1 .c1 0x89ABCDEF) := rfl

theorem test_decode_getUbits : decode 0x12150000000000000000 = .ok (.getUbits .c0 0x15) := rfl

theorem test_decode_getSbits : decode 0x13950000000000000000 = .ok (.getSbits .c1 0x15) := rfl

theorem test_decode_setUbits :
    decode 0x14201234567800000000 = .ok (.setUbits .c0 0x20 0x12345678) := rfl

theorem test_decode_setSbits :
    decode 0x15A01234567800000000 = .ok (.setSbits .c1 0x20 0x12345678) := rfl

theorem test_decode_peekUbits : decode 0x16150000000000000000 = .ok (.peekUbits .c0 0x15) := rfl

theorem test_decode_peekSbits : decode 0x17950000000000000000 = .ok (.peekSbits .c1 0x15) := rfl

theorem test_decode_getU8 : decode 0x20000000000000000000 = .ok (.getU8 .c0) := rfl

theorem test_decode_getU16Le : decode 0x21800000000000000000 = .ok (.getU16Le .c1) := rfl

theorem test_decode_getU24Le : decode 0x22000000000000000000 = .ok (.getU24Le .c0) := rfl

theorem test_decode_getU32Le : decode 0x23800000000000000000 = .ok (.getU32Le .c1) := rfl

theorem test_decode_getU16Be : decode 0x25000000000000000000 = .ok (.getU16Be .c0) := rfl

theorem test_decode_getU24Be : decode 0x26800000000000000000 = .ok (.getU24Be .c1) := rfl

theorem test_decode_getU32Be : decode 0x27000000000000000000 = .ok (.getU32Be .c0) := rfl

theorem test_decode_getS8 : decode 0x28800000000000000000 = .ok (.getS8 .c1) := rfl

theorem test_decode_getS16Le : decode 0x29000000000000000000 = .ok (.getS16Le .c0) := rfl

theorem test_decode_getS24Le : decode 0x2A800000000000000000 = .ok (.getS24Le .c1) := rfl

theorem test_decode_getS32Le : decode 0x2B000000000000000000 = .ok (.getS32Le .c0) := rfl

theorem test_decode_getS16Be : decode 0x2D800000000000000000 = .ok (.getS16Be .c1) := rfl

theorem test_decode_getS24Be : decode 0x2E000000000000000000 = .ok (.getS24Be .c0) := rfl

theorem test_decode_getS32Be : decode 0x2F800000000000000000 = .ok (.getS32Be .c1) := rfl

theorem test_decode_setU8 : decode 0x300089ABCDEF00000000 = .ok (.setU8 .c0 0x89ABCDEF) := rfl

theorem test_decode_setU16Le : decode 0x318089ABCDEF00000000 = .ok (.setU16Le .c1 0x89ABCDEF) := rfl

theorem test_decode_setU24Le : decode 0x320089ABCDEF00000000 = .ok (.setU24Le .c0 0x89ABCDEF) := rfl

theorem test_decode_setU32Le : decode 0x338089ABCDEF00000000 = .ok (.setU32Le .c1 0x89ABCDEF) := rfl

theorem test_decode_setU16Be : decode 0x350089ABCDEF00000000 = .ok (.setU16Be .c0 0x89ABCDEF) := rfl

theorem test_decode_setU24Be : decode 0x368089ABCDEF00000000 = .ok (.setU24Be .c1 0x89ABCDEF) := rfl

theorem test_decode_setU32Be : decode 0x370089ABCDEF00000000 = .ok (.setU32Be .c0 0x89ABCDEF) := rfl

theorem test_decode_setS8 : decode 0x388089ABCDEF00000000 = .ok (.setS8 .c1 0x89ABCDEF) := rfl

theorem test_decode_setS16Le : decode 0x390089ABCDEF00000000 = .ok (.setS16Le .c0 0x89ABCDEF) := rfl

theorem test_decode_setS24Le : decode 0x3A8089ABCDEF00000000 = .ok (.setS24Le .c1 0x89ABCDEF) := rfl

theorem test_decode_setS32Le : decode 0x3B0089ABCDEF00000000 = .ok (.setS32Le .c0 0x89ABCDEF) := rfl

theorem test_decode_setS16Be : decode 0x3D8089ABCDEF00000000 = .ok (.setS16Be .c1 0x89ABCDEF) := rfl

theorem test_decode_setS24Be : decode 0x3E0089ABCDEF00000000 = .ok (.setS24Be .c0 0x89ABCDEF) := rfl

theorem test_decode_setS32Be : decode 0x3F8089ABCDEF00000000 = .ok (.setS32Be .c1 0x89ABCDEF) := rfl

theorem test_decode_getString : decode 0x40000000000000000000 = .ok (.getString .c0) := rfl

theorem test_decode_getData :
    decode 0x4180000123450000BEEF = .ok (.getData .c1 0x00012345 0x0000BEEF) := rfl

theorem test_decode_setData :
    decode 0x4200000123450000BEEF = .ok (.setData .c0 0x00012345 0x0000BEEF) := rfl

theorem test_decode_vlcPut : decode 0x488089ABCDEF00000000 = .ok (.vlcPut .c1 0x89ABCDEF) := rfl

theorem test_decode_vlcGet : decode 0x49000000000000000000 = .ok (.vlcGet .c0) := rfl

theorem test_decode_codecOpen :
    decode 0x50030000000400000000 = .ok (.codecOpen .dec .golomb 4) ∧
      decode 0x50000000002000000000 = .ok (.codecOpen .enc .fixed 32) ∧
      decode 0x50050000000000000000 = .ok (.codecOpen .dec .gamma 0) := by and_intros <;> rfl

theorem test_decode_codecClose : decode 0x51000000000000000000 = .ok .codecClose := rfl

theorem test_decode_deflateStep : decode 0x52000000000000000000 = .ok .deflateStep := rfl

theorem test_decode_deflateRun : decode 0x53000000000000000000 = .ok .deflateRun := rfl

theorem test_decode_inflateStep : decode 0x54000000000000000000 = .ok .inflateStep := rfl

theorem test_decode_inflateRun : decode 0x55000000000000000000 = .ok .inflateRun := rfl

theorem test_decode_codecState : decode 0x56000000000000000000 = .ok .codecState := rfl

theorem test_decode_winFind : decode 0x57000000000000000000 = .ok .winFind := rfl

/-! ## Illegal words, by name (95_test_vectors.md V-X1) -/

theorem test_illegal_reserved :
    decode 0x00000000000000000000 = .error (.reservedOpcode 0x00) ∧
      decode 0x07000000000000000000 = .error (.reservedOpcode 0x07) ∧
      decode 0x24000000000000000000 = .error (.reservedOpcode 0x24) ∧
      decode 0x4A000000000000000000 = .error (.reservedOpcode 0x4A) ∧
      decode 0xFF000000000000000000 = .error (.reservedOpcode 0xFF) := by and_intros <;> rfl

theorem test_illegal_bit70 : decode 0x04400000000000000000 = .error .reservedBitSet := rfl

theorem test_illegal_count :
    decode 0x04010000000000000000 = .error .countNotZero ∧
      decode 0x01010000100000000004 = .error .countNotZero := by and_intros <;> rfl

theorem test_illegal_operandA :
    decode 0x04000000000100000000 = .error .operandANotZero ∧
      decode 0x12080000000100000000 = .error .operandANotZero := by and_intros <;> rfl

theorem test_illegal_operandB :
    decode 0x02000000000000000001 = .error .operandBNotZero ∧
      decode 0x14080000000100000001 = .error .operandBNotZero ∧
      decode 0x50000000000800000001 = .error .operandBNotZero := by and_intros <;> rfl

theorem test_illegal_countTooWide :
    decode 0x12210000000000000000 = .error (.countTooWide 33) ∧
      decode 0x15BF0000000000000000 = .error (.countTooWide 63) := by and_intros <;> rfl

theorem test_illegal_cursor :
    decode 0x52800000000000000000 = .error .cursorNotZero ∧
      decode 0x50800000000800000000 = .error .cursorNotZero := by and_intros <;> rfl

theorem test_illegal_modeBits : decode 0x50080000000800000000 = .error .modeBitsNotZero := rfl

theorem test_illegal_vlcType : decode 0x50060000000000000000 = .error .vlcTypeReserved := rfl

theorem test_illegal_vlcParam :
    decode 0x50000000000000000000 = .error .vlcParamOutOfRange ∧
      decode 0x50000000002100000000 = .error .vlcParamOutOfRange ∧
      decode 0x50020000002000000000 = .error .vlcParamOutOfRange ∧
      decode 0x50040000000100000000 = .error .vlcParamOutOfRange := by and_intros <;> rfl

/-! ## The stream forms: bits written out from 30_encoding.md R103 to R105 and the table of 44_vlc.md R236 -/

/-- A stream written as a number of `len` bits, its first bit the most significant. -/
def stream (len v : Nat) : BitStream := fun i => decide (i < len) && v.testBit (len - 1 - i)

theorem test_decode_tokenLiteralPair :
    decodeToken 3 .fixed 8 (stream 24 0b001000001110000100000000) 24 =
      .ok (.literalPair 0x41 0xC2, 17) := rfl

theorem test_decode_tokenSingleLiteral :
    decodeToken 3 .fixed 8 (stream 16 0b0110000110000000) 16 = .ok (.singleLiteral 0xC3, 9) := rfl

/-- The match token of V-E2. -/
theorem test_decode_tokenMatch :
    decodeToken 2 .fixed 8 (stream 16 0b1010000001100000) 16 = .ok (.matchRef 1 3, 11) := rfl

theorem test_decode_vlcFixed : vlcDecode .fixed 5 (stream 8 0b10001000) 0 8 = .ok (17, 5) := rfl

theorem test_decode_vlcGolomb :
    vlcDecode .golomb 4 (stream 16 0b1111110010000000) 0 16 = .ok (100, 11) := rfl

theorem test_decode_vlcGamma : vlcDecode .gamma 0 (stream 8 0b00101000) 0 8 = .ok (5, 5) := rfl

theorem test_tableWord :
    decodeTableWord 80 0x12050000000000000000 = some (.getUbits .c0 5) ∧
      decodeTableWord 17 0b00100000101000010 = some (.tokenLiteralPair 0x41 0x42) ∧
      decodeTableWord 9 0b001011010 = some (.tokenSingleLiteral 0x5A) := by decide

/-! ## One step: results of 95_test_vectors.md -/

/-- A cursor over `n` bytes at `a`, `off` bytes and `bit` bits into its region. -/
def cursor (a n off bit : Nat) : Cursor :=
  { origin := word a, pos := word (a + off), fin := word (a + n), bitoff := BitVec.ofNat 3 bit }

/-- A block after reset with `MAX_WINDOW = 4096`, `TABLE_SIZE = 256`, two cursors and some bytes at 0x1000. -/
def block (bytes : List Byte) (k0 k1 : Cursor) : State :=
  { State.reset with
    cur0 := k0, cur1 := k1, mem := memWriteBytes [] 0x1000 bytes, maxWindow := 4096, tableSize := 256 }

/-- The state after an instruction. -/
def after (i : Instr) (s : State) : State :=
  match exec i s with
  | .next t => t
  | .fault _ => s
  | .refused _ => s

/-- Response, position and bit offset of `CUR[0]` after an instruction. -/
def answer0 (i : Instr) (s : State) : Option Response × Nat × Nat :=
  ((after i s).response, (after i s).cur0.pos.toNat, (after i s).cur0.bitoff.toNat)

/-- Response, position and bit offset of `CUR[1]` after an instruction. -/
def answer1 (i : Instr) (s : State) : Option Response × Nat × Nat :=
  ((after i s).response, (after i s).cur1.pos.toNat, (after i s).cur1.bitoff.toNat)

/-- The bytes of V-Y1 under `CUR[0]`. -/
def bytesY (off : Nat) : State :=
  block [0x12, 0x34, 0x56, 0xF8, 0x80, 0xFF, 0x7F, 0xFE] (cursor 0x1000 8 off 0) Cursor.detached

/-- The bytes of V-B1 under `CUR[0]`. -/
def bitsB (off bit : Nat) : State :=
  block [0xA5, 0x3C, 0xF0, 0x0F, 0x81, 0x7E] (cursor 0x1000 6 off bit) Cursor.detached

/-- The bytes of V-B2 at 0x1000 under `CUR[1]`. -/
def bitsW (off bit : Nat) : State :=
  block [0xFF, 0xFF, 0x00, 0x00] Cursor.detached (cursor 0x1000 4 off bit)

theorem test_attach_top :
    answer0 (.attach .c0 0xFFFFFFF0 15) (bitsB 0 0) = (some ⟨.ok, 0, 0⟩, 0xFFFFFFF0, 0) := by decide

theorem test_attach_past_top :
    answer0 (.attach .c0 0xFFFFFFF0 16) (bitsB 0 0) = (some ⟨.eBounds, 0, 0⟩, 0x1000, 0) := by decide

theorem test_goto_end : answer0 (.goto .c0 6) (bitsB 0 3) = (some ⟨.ok, 0, 0⟩, 0x1006, 0) := by decide

theorem test_goto_past_end :
    answer0 (.goto .c0 7) (bitsB 0 3) = (some ⟨.eBounds, 0, 0⟩, 0x1000, 3) := by decide

theorem test_sync : answer0 (.sync .c0) (bitsB 5 7) = (some ⟨.ok, 0, 0⟩, 0x1006, 0) := by decide

theorem test_tell : answer0 (.tell .c0) (bitsB 0 3) = (some ⟨.ok, 1, 0⟩, 0x1001, 0) := by decide

theorem test_leftBytes : answer0 (.leftBytes .c0) (bitsB 2 3) = (some ⟨.ok, 3, 0⟩, 0x1003, 0) := by decide

theorem test_leftBits :
    answer0 (.leftBits .c0) (block [] (cursor 0x0 0x20000001 0 1) Cursor.detached) = (some ⟨.ok, 7, 1⟩, 0, 1) := by decide

theorem test_skipBytes : answer0 (.skipBytes .c0 6) (bitsB 0 0) = (some ⟨.ok, 0, 0⟩, 0x1006, 0) := by decide

theorem test_skipBytes_unaligned :
    answer0 (.skipBytes .c0 1) (bitsB 0 3) = (some ⟨.eUnaligned, 0, 0⟩, 0x1000, 3) := by decide

theorem test_skipBits : answer0 (.skipBits .c0 13) (bitsB 2 3) = (some ⟨.ok, 0, 0⟩, 0x1004, 0) := by decide

theorem test_skipBits_past_end :
    answer0 (.skipBits .c0 2) (bitsB 5 7) = (some ⟨.eBounds, 0, 0⟩, 0x1005, 7) := by decide

theorem test_getU1 : answer0 (.getU1 .c0) (bitsB 0 2) = (some ⟨.ok, 1, 0⟩, 0x1000, 3) := by decide

theorem test_getUbits :
    answer0 (.getUbits .c0 32) (bitsB 0 5) = (some ⟨.ok, 0xA79E01F0, 0⟩, 0x1004, 5) := by decide

theorem test_getUbits_past_end :
    answer0 (.getUbits .c0 12) (bitsB 4 5) = (some ⟨.eBounds, 0, 0⟩, 0x1004, 5) := by decide

theorem test_getSbits :
    answer0 (.getSbits .c0 4) (bitsB 1 5) = (some ⟨.ok, 0xFFFFFFF9, 0⟩, 0x1002, 1) := by decide

theorem test_getSbits_one :
    answer0 (.getSbits .c0 1) (bitsB 2 1) = (some ⟨.ok, 0xFFFFFFFF, 0⟩, 0x1002, 2) := by decide

theorem test_peekUbits :
    answer0 (.peekUbits .c0 10) (bitsB 0 3) = (some ⟨.ok, 167, 0⟩, 0x1000, 3) := by decide

theorem test_peekSbits :
    answer0 (.peekSbits .c0 4) (bitsB 1 5) = (some ⟨.ok, 0xFFFFFFF9, 0⟩, 0x1001, 5) := by decide

theorem test_setU1 :
    answer1 (.setU1 .c1 0xFFFFFFFE) (bitsW 0 3) = (some ⟨.ok, 0, 0⟩, 0x1000, 4) ∧
      memReadBytes (after (.setU1 .c1 0xFFFFFFFE) (bitsW 0 3)).mem 0x1000 4 = [0xEF, 0xFF, 0, 0] := by decide +kernel

theorem test_setUbits :
    answer1 (.setUbits .c1 5 0) (bitsW 0 6) = (some ⟨.ok, 0, 0⟩, 0x1001, 3) ∧
      memReadBytes (after (.setUbits .c1 5 0) (bitsW 0 6)).mem 0x1000 4 = [0xFC, 0x1F, 0, 0] := by decide +kernel

theorem test_setSbits :
    answer1 (.setSbits .c1 4 0xFFFFFFFD) (bitsW 2 0) = (some ⟨.ok, 0, 0⟩, 0x1002, 4) ∧
      memReadBytes (after (.setSbits .c1 4 0xFFFFFFFD) (bitsW 2 0)).mem 0x1000 4 = [0xFF, 0xFF, 0xD0, 0] := by decide +kernel

theorem test_setSbits_31 :
    answer1 (.setSbits .c1 31 0x80000001) (bitsW 0 1) = (some ⟨.ok, 0, 0⟩, 0x1004, 0) ∧
      memReadBytes (after (.setSbits .c1 31 0x80000001) (bitsW 0 1)).mem 0x1000 4 = [0x80, 0, 0, 0x01] := by decide +kernel

theorem test_getU8 : answer0 (.getU8 .c0) (bytesY 4) = (some ⟨.ok, 128, 0⟩, 0x1005, 0) := by decide

theorem test_getU16Le : answer0 (.getU16Le .c0) (bytesY 0) = (some ⟨.ok, 0x3412, 0⟩, 0x1002, 0) := by decide

theorem test_getU24Le :
    answer0 (.getU24Le .c0) (bytesY 0) = (some ⟨.ok, 0x563412, 0⟩, 0x1003, 0) := by decide

theorem test_getU32Le :
    answer0 (.getU32Le .c0) (bytesY 0) = (some ⟨.ok, 0xF8563412, 0⟩, 0x1004, 0) := by decide

theorem test_getU16Be : answer0 (.getU16Be .c0) (bytesY 0) = (some ⟨.ok, 0x1234, 0⟩, 0x1002, 0) := by decide

theorem test_getU24Be :
    answer0 (.getU24Be .c0) (bytesY 5) = (some ⟨.ok, 0xFF7FFE, 0⟩, 0x1008, 0) := by decide

theorem test_getU32Be :
    answer0 (.getU32Be .c0) (bytesY 4) = (some ⟨.ok, 0x80FF7FFE, 0⟩, 0x1008, 0) := by decide

theorem test_getS8 : answer0 (.getS8 .c0) (bytesY 4) = (some ⟨.ok, 0xFFFFFF80, 0⟩, 0x1005, 0) := by decide

theorem test_getS16Le :
    answer0 (.getS16Le .c0) (bytesY 4) = (some ⟨.ok, 0xFFFFFF80, 0⟩, 0x1006, 0) := by decide

theorem test_getS24Le :
    answer0 (.getS24Le .c0) (bytesY 5) = (some ⟨.ok, 0xFFFE7FFF, 0⟩, 0x1008, 0) := by decide

theorem test_getS32Le :
    answer0 (.getS32Le .c0) (bytesY 4) = (some ⟨.ok, 0xFE7FFF80, 0⟩, 0x1008, 0) := by decide

theorem test_getS16Be :
    answer0 (.getS16Be .c0) (bytesY 3) = (some ⟨.ok, 0xFFFFF880, 0⟩, 0x1005, 0) := by decide

theorem test_getS24Be :
    answer0 (.getS24Be .c0) (bytesY 4) = (some ⟨.ok, 0xFF80FF7F, 0⟩, 0x1007, 0) := by decide

theorem test_getS32Be :
    answer0 (.getS32Be .c0) (bytesY 4) = (some ⟨.ok, 0x80FF7FFE, 0⟩, 0x1008, 0) := by decide

theorem test_getU24Le_past_end :
    answer0 (.getU24Le .c0) (bytesY 6) = (some ⟨.eBounds, 0, 0⟩, 0x1006, 0) := by decide

/-- Zeroed memory under `CUR[1]`. -/
def zeros (bit : Nat) : State := block [] Cursor.detached (cursor 0x1000 8 0 bit)

theorem test_setU8 :
    answer1 (.setU8 .c1 0x1FF) (zeros 0) = (some ⟨.ok, 0, 0⟩, 0x1001, 0) ∧
      memReadBytes (after (.setU8 .c1 0x1FF) (zeros 0)).mem 0x1000 4 = [0xFF, 0, 0, 0] := by decide

theorem test_setU16Le :
    answer1 (.setU16Le .c1 0x12345678) (zeros 0) = (some ⟨.ok, 0, 0⟩, 0x1002, 0) ∧
      memReadBytes (after (.setU16Le .c1 0x12345678) (zeros 0)).mem 0x1000 4 = [0x78, 0x56, 0, 0] := by decide

theorem test_setU24Le :
    answer1 (.setU24Le .c1 0x123456) (zeros 0) = (some ⟨.ok, 0, 0⟩, 0x1003, 0) ∧
      memReadBytes (after (.setU24Le .c1 0x123456) (zeros 0)).mem 0x1000 4 = [0x56, 0x34, 0x12, 0] := by decide

theorem test_setU32Le :
    answer1 (.setU32Le .c1 0x89ABCDEF) (zeros 0) = (some ⟨.ok, 0, 0⟩, 0x1004, 0) ∧
      memReadBytes (after (.setU32Le .c1 0x89ABCDEF) (zeros 0)).mem 0x1000 4 = [0xEF, 0xCD, 0xAB, 0x89] := by decide

theorem test_setU16Be :
    answer1 (.setU16Be .c1 0xABCD) (zeros 0) = (some ⟨.ok, 0, 0⟩, 0x1002, 0) ∧
      memReadBytes (after (.setU16Be .c1 0xABCD) (zeros 0)).mem 0x1000 4 = [0xAB, 0xCD, 0, 0] := by decide

theorem test_setU24Be :
    answer1 (.setU24Be .c1 0xFF123456) (zeros 0) = (some ⟨.ok, 0, 0⟩, 0x1003, 0) ∧
      memReadBytes (after (.setU24Be .c1 0xFF123456) (zeros 0)).mem 0x1000 4 = [0x12, 0x34, 0x56, 0] := by decide

theorem test_setU32Be :
    answer1 (.setU32Be .c1 0x89ABCDEF) (zeros 0) = (some ⟨.ok, 0, 0⟩, 0x1004, 0) ∧
      memReadBytes (after (.setU32Be .c1 0x89ABCDEF) (zeros 0)).mem 0x1000 4 = [0x89, 0xAB, 0xCD, 0xEF] := by decide

theorem test_setS8 :
    answer1 (.setS8 .c1 0x180) (zeros 0) = (some ⟨.ok, 0, 0⟩, 0x1001, 0) ∧
      memReadBytes (after (.setS8 .c1 0x180) (zeros 0)).mem 0x1000 4 = [0x80, 0, 0, 0] := by decide

theorem test_setS16Le :
    answer1 (.setS16Le .c1 0xFFFFFFFE) (zeros 0) = (some ⟨.ok, 0, 0⟩, 0x1002, 0) ∧
      memReadBytes (after (.setS16Le .c1 0xFFFFFFFE) (zeros 0)).mem 0x1000 4 = [0xFE, 0xFF, 0, 0] := by decide

theorem test_setS24Le :
    answer1 (.setS24Le .c1 0x7FFFFF) (zeros 0) = (some ⟨.ok, 0, 0⟩, 0x1003, 0) ∧
      memReadBytes (after (.setS24Le .c1 0x7FFFFF) (zeros 0)).mem 0x1000 4 = [0xFF, 0xFF, 0x7F, 0] := by decide

theorem test_setS32Le :
    answer1 (.setS32Le .c1 0xFFFFFFFE) (zeros 0) = (some ⟨.ok, 0, 0⟩, 0x1004, 0) ∧
      memReadBytes (after (.setS32Le .c1 0xFFFFFFFE) (zeros 0)).mem 0x1000 4 = [0xFE, 0xFF, 0xFF, 0xFF] := by decide

theorem test_setS16Be :
    answer1 (.setS16Be .c1 0xFFFF8000) (zeros 0) = (some ⟨.ok, 0, 0⟩, 0x1002, 0) ∧
      memReadBytes (after (.setS16Be .c1 0xFFFF8000) (zeros 0)).mem 0x1000 4 = [0x80, 0x00, 0, 0] := by decide

theorem test_setS24Be :
    answer1 (.setS24Be .c1 0xFFFFFFFE) (zeros 0) = (some ⟨.ok, 0, 0⟩, 0x1003, 0) ∧
      memReadBytes (after (.setS24Be .c1 0xFFFFFFFE) (zeros 0)).mem 0x1000 4 = [0xFF, 0xFF, 0xFE, 0] := by decide

theorem test_setS32Be :
    answer1 (.setS32Be .c1 0xFFFFFFFE) (zeros 0) = (some ⟨.ok, 0, 0⟩, 0x1004, 0) ∧
      memReadBytes (after (.setS32Be .c1 0xFFFFFFFE) (zeros 0)).mem 0x1000 4 = [0xFF, 0xFF, 0xFF, 0xFE] := by decide

theorem test_setU16Le_unaligned :
    answer1 (.setU16Le .c1 0) (zeros 1) = (some ⟨.eUnaligned, 0, 0⟩, 0x1000, 1) := by decide

/-- The bytes of V-K1 under `CUR[0]`. -/
def text (off bit : Nat) : State :=
  block [0x68, 0x69, 0x00, 0x00, 0x41, 0x42, 0x43] (cursor 0x1000 7 off bit) Cursor.detached

/-- The bytes of V-K2 under `CUR[0]`, and `01 02 03` after them. -/
def dead (off : Nat) : State :=
  block [0xDE, 0xAD, 0xBE, 0xEF, 0x01, 0x02, 0x03] (cursor 0x1000 4 off 0) Cursor.detached

theorem test_getString :
    answer0 (.getString .c0) (text 0 0) = (some ⟨.ok, 0x1000, 2⟩, 0x1003, 0) := by decide

theorem test_getString_none :
    answer0 (.getString .c0) (text 4 0) = (some ⟨.notFound, 0, 0⟩, 0x1004, 0) := by decide

theorem test_getData_overlap :
    answer0 (.getData .c0 0x1001 3) (dead 0) = (some ⟨.ok, 3, 0⟩, 0x1003, 0) ∧
      memReadBytes (after (.getData .c0 0x1001 3) (dead 0)).mem 0x1000 4 = [0xDE, 0xDE, 0xDE, 0xDE] := by decide

theorem test_getData_top :
    answer0 (.getData .c0 0xFFFFFFFE 3) (dead 0) = (some ⟨.eBounds, 0, 0⟩, 0x1000, 0) := by decide

theorem test_setData_clipped :
    answer0 (.setData .c0 0x1004 3) (dead 2) = (some ⟨.ok, 2, 0⟩, 0x1004, 0) ∧
      memReadBytes (after (.setData .c0 0x1004 3) (dead 2)).mem 0x1000 4 = [0xDE, 0xAD, 0x01, 0x02] := by decide

/-- A block with a strategy open, both cursors over the same eight bytes at 0x1000. -/
def coded (bytes : List Byte) (ty : VlcType) (p : Nat) (off bit : Nat) : State :=
  { block bytes (cursor 0x1000 8 off bit) (cursor 0x1000 8 off bit) with
    cstate := .enc, vlcType := ty, vlcParam := BitVec.ofNat 6 p }

theorem test_vlcPut :
    answer1 (.vlcPut .c1 100) (coded [0x8F, 0xC0] .golomb 4 1 2) = (some ⟨.ok, 11, 0⟩, 0x1002, 5) ∧
      memReadBytes (after (.vlcPut .c1 100) (coded [0x8F, 0xC0] .golomb 4 1 2)).mem 0x1000 4 = [0x8F, 0xFF, 0x20, 0] := by decide

theorem test_vlcPut_out_of_range :
    answer1 (.vlcPut .c1 32) (coded [] .fixed 5 1 2) = (some ⟨.eCodecVlc, 0, 0⟩, 0x1001, 2) := by decide

theorem test_vlcGet :
    answer0 (.vlcGet .c0) (coded [0, 0, 0, 0, 0x80, 0, 0, 0] .gamma 0 0 1) = (some ⟨.ok, 0x80000000, 63⟩, 0x1008, 0) := by decide

theorem test_vlcGet_long_zeros :
    answer0 (.vlcGet .c0) (coded [0, 0, 0, 0, 0x80, 0, 0, 0] .gamma 0 0 0) = (some ⟨.eCodecVlc, 0, 0⟩, 0x1000, 0) := by decide

/-- The source of T1: eight bytes 0x41, opened for encode with fixed-width(16), output at 0x2000. -/
def opened (ty : VlcType) (p : Nat) : State :=
  after (.codecOpen .enc ty (word p))
    (block (List.replicate 8 0x41) (cursor 0x1000 8 0 0) (cursor 0x2000 16 0 0))

/-- A stream at 0x1000 opened for decode, output region at 0x3000. -/
def decoding (bytes : List Byte) (room : Nat) (ty : VlcType) (p : Nat) : State :=
  after (.codecOpen .dec ty (word p))
    (block bytes (cursor 0x1000 bytes.length 0 0) (cursor 0x3000 room 0 0))

theorem test_codecOpen :
    (opened .fixed 16).cstate = .enc ∧ (opened .fixed 16).wEnd = 0x1000 ∧
      (opened .fixed 16).sEnd = 0x1008 ∧ (opened .fixed 16).response = some ⟨.ok, 0, 0⟩ := by decide

theorem test_codecClose :
    (after .codecClose (opened .fixed 16)).cstate = .closed ∧
      (after .codecClose (opened .fixed 16)).response = some ⟨.ok, 0, 0⟩ := by decide

theorem test_codecState :
    (after .codecState (opened .fixed 16)).response = some ⟨.ok, 0x00100001, 0⟩ := by decide

theorem test_deflateStep_literal :
    answer1 .deflateStep (opened .fixed 16) = (some ⟨.ok, 2, 17⟩, 0x2002, 1) ∧
      memReadBytes (after .deflateStep (opened .fixed 16)).mem 0x2000 3 = [0x20, 0xA0, 0x80] := by decide +kernel

theorem test_deflateStep_match :
    answer1 .deflateStep (after .deflateStep (opened .golomb 4)) = (some ⟨.ok, 6, 7⟩, 0x2003, 0) := by decide +kernel

theorem test_deflateRun :
    answer1 .deflateRun (opened .fixed 16) = (some ⟨.done, 8, 5⟩, 0x2005, 0) ∧
      memReadBytes (after .deflateRun (opened .fixed 16)).mem 0x2000 5 = [0x20, 0xA0, 0xC0, 0x00, 0x80] := by decide +kernel

theorem test_winFind :
    (after .winFind (after .deflateStep (opened .fixed 16))).response = some ⟨.ok, 0, 6⟩ := by decide +kernel

theorem test_inflateStep :
    answer0 .inflateStep (decoding [0x20, 0xA0, 0xC0, 0x00, 0x80] 8 .fixed 16) =
      (some ⟨.ok, 2, 17⟩, 0x1002, 1) := by decide +kernel

theorem test_inflateStep_offset :
    answer0 .inflateStep (decoding [0x80, 0x80] 16 .fixed 8) = (some ⟨.eCodecOffset, 0, 0⟩, 0x1000, 0) ∧
      (after .inflateStep (decoding [0x80, 0x80] 16 .fixed 8)).cstate = .failed := by decide +kernel

theorem test_inflateRun :
    answer1 .inflateRun (decoding [0x20, 0xA0, 0xC0, 0x00, 0x80] 8 .fixed 16) =
        (some ⟨.done, 8, 4⟩, 0x3008, 0) ∧
      memReadBytes (after .inflateRun (decoding [0x20, 0xA0, 0xC0, 0x00, 0x80] 8 .fixed 16)).mem 0x3000 8 =
        List.replicate 8 0x41 := by decide +kernel

theorem test_inflateRun_keeps_tokens :
    answer1 .inflateRun (decoding [0x20, 0xA0, 0xD8, 0, 0, 0, 0] 8 .golomb 31) =
        (some ⟨.eCodecVlc, 0, 0⟩, 0x3002, 0) ∧
      (after .inflateRun (decoding [0x20, 0xA0, 0xD8, 0, 0, 0, 0] 8 .golomb 31)).cur0.bitoff = 1 := by decide +kernel

theorem test_tokenLiteralPair :
    answer1 (.tokenLiteralPair 0x41 0x42) (decoding [0, 0, 0] 8 .fixed 16) =
        (some ⟨.ok, 2, 17⟩, 0x3002, 0) ∧
      memReadBytes (after (.tokenLiteralPair 0x41 0x42) (decoding [0, 0, 0] 8 .fixed 16)).mem 0x3000 2 =
        [0x41, 0x42] := by decide +kernel

theorem test_tokenSingleLiteral :
    answer1 (.tokenSingleLiteral 0x5A) (decoding [0, 0] 8 .fixed 16) = (some ⟨.ok, 1, 9⟩, 0x3001, 0) ∧
      memRead (after (.tokenSingleLiteral 0x5A) (decoding [0, 0] 8 .fixed 16)).mem 0x3000 = 0x5A := by decide +kernel

theorem test_tokenMatch :
    answer1 (.tokenMatch 0 4)
        (after .inflateStep (decoding [0x20, 0xA0, 0xC0, 0x00, 0x80] 8 .fixed 16)) =
      (some ⟨.ok, 6, 18⟩, 0x3008, 0) := by decide +kernel

theorem test_vlcFixed :
    answer0 (.vlcFixed 17) (coded [] .fixed 5 0 0) = (some ⟨.ok, 17, 5⟩, 0x1000, 5) := by decide

theorem test_vlcGolomb :
    answer0 (.vlcGolomb 100) (coded [] .golomb 4 0 0) = (some ⟨.ok, 100, 11⟩, 0x1001, 3) := by decide

theorem test_vlcGamma :
    answer0 (.vlcGamma 5) (coded [] .gamma 0 0 0) = (some ⟨.ok, 5, 5⟩, 0x1000, 5) := by decide

/-! ## The step -/

theorem test_step_illegal :
    (match step { bitsB 0 0 with inputs := [.command 0x12210000000000000000] } with
      | .next t => t.response
      | _ => none) = some ⟨.eIllegal, 0, 0⟩ := by decide

theorem test_withFetchWord :
    (match step (State.reset.withFetchWord 80 0x01000000100000000010) with
      | .next t => some (t.cur0, t.response)
      | _ => none) = some (cursor 0x1000 16 0 0, some ⟨.ok, 0, 0⟩) := by decide

theorem test_withFetchWord_token :
    (match step (({ State.reset with maxWindow := 4096 } : State).withFetchWord 17 0b00100000101000010) with
      | .next t => some (memReadBytes t.mem 16 2, t.response)
      | _ => none) = some ([0x41, 0x42], some ⟨.ok, 2, 17⟩) := by decide +kernel

/-! ## A state and operands for the hypotheses of every statement of Certificates/Slice0/Obligations.lean -/

/-- Does an outcome answer this next state? -/
def isNext (r : Host.Outcome State Fault Refusal) (t : State) : Bool :=
  match r with
  | .next u => decide (u = t)
  | .fault _ => false
  | .refused _ => false

theorem next_of {r : Host.Outcome State Fault Refusal} {t : State} (h : isNext r t = true) : r = .next t := by
  cases r <;> simp_all [isNext]

/-- A state in which the host's next act is `x`. -/
def facing (x : HostInput) : State := { bitsB 0 0 with inputs := [x] }

/-- The state after reset, with the parameters of the vectors. -/
def fresh : State := block [] Cursor.detached Cursor.detached

/-- T1 with its first token encoded. -/
def encoding : State := after .deflateStep (opened .fixed 16)

/-- The stream of T1 opened for decode. -/
def t1 : State := decoding [0x20, 0xA0, 0xC0, 0x00, 0x80] 8 .fixed 16

theorem test_hyp_StepRunsTheCommandItDecodes :
    (facing (.command 0x12050000000000000000)).inputs = .command 0x12050000000000000000 :: [] ∧
      decode 0x12050000000000000000 = .ok (.getUbits .c0 5) := ⟨rfl, rfl⟩

theorem test_hyp_IllegalWordsAnswerEIllegal :
    (facing (.command 0x12210000000000000000)).inputs = .command 0x12210000000000000000 :: [] ∧
      ¬ legalWord 0x12210000000000000000 ∧ legalWord 0x12200000000000000000 := by
  unfold legalWord; decide +kernel

theorem test_hyp_DecodeOfEncodeIsTheCommand :
    (Instr.getSbits .c1 32).wf = true ∧ encode (.getSbits .c1 32) = some 0x13A00000000000000000 ∧
      (Instr.codecOpen .dec .gamma 0).wf = true ∧ encode (.codecOpen .dec .gamma 0) = some 0x50050000000000000000 := by decide +kernel

theorem test_hyp_EveryDecodedWordIsTheEncodingOfItsCommand :
    decode 0x1584FFFFFFFD00000000 = .ok (.setSbits .c1 4 0xFFFFFFFD) := rfl

theorem test_hyp_ResetPutsEveryRegisterAtItsResetValue : (facing .reset).inputs = .reset :: [] := by decide +kernel

theorem test_hyp_AnswersRightAfterReset :
    fresh.cur0 = ⟨0, 0, 0, 0⟩ ∧ fresh.cur1 = ⟨0, 0, 0, 0⟩ ∧ fresh.cstate = .closed ∧ fresh.vlcType = .fixed ∧
      fresh.vlcParam = 0 ∧ fresh.wLen = 0 ∧ fresh.posBits = 0 ∧ 1 ≤ (32 : BitVec 6).toNat ∧
      (32 : BitVec 6).toNat ≤ 32 ∧ (0xFFFFFFFF : Word) ≠ 0 ∧ vlcParamOk .fixed 32 = true ∧
      vlcParamOk .golomb 31 = true ∧ vlcParamOk .gamma 0 = true := by decide +kernel

theorem test_hyp_IdleStepsAndHostWritesTouchNothingElse :
    fresh.inputs = [] ∧ (facing (.write 0xFFFFFFFF 7)).inputs = .write 0xFFFFFFFF 7 :: [] := by decide +kernel

theorem test_hyp_EveryCommandIsAnswered : (facing (.command 0)).inputs = .command 0 :: [] := by decide +kernel

theorem test_hyp_ErrorsHaveNoSideEffect :
    exec .inflateStep (decoding [0x80, 0x80] 16 .fixed 8) =
        .next (after .inflateStep (decoding [0x80, 0x80] 16 .fixed 8)) ∧
      (after .inflateStep (decoding [0x80, 0x80] 16 .fixed 8)).response = some ⟨.eCodecOffset, 0, 0⟩ ∧
      0x10 ≤ (statusCode .eCodecOffset).toNat := ⟨next_of (by decide +kernel), by decide +kernel⟩

theorem test_hyp_ErrorsHaveNoSideEffect_run :
    exec .inflateRun fresh = .next (after .inflateRun fresh) ∧
      (after .inflateRun fresh).response = some ⟨.eSequence, 0, 0⟩ ∧ 0x10 ≤ (statusCode .eSequence).toNat := ⟨next_of (by decide +kernel), by decide +kernel⟩

theorem test_hyp_AttachAndGotoPlaceTheCursor :
    2 ^ 32 - 1 < (0xFFFFFFFF : Word).toNat + (1 : Word).toNat ∧
      (0xFFFFFFFE : Word).toNat + (1 : Word).toNat ≤ 2 ^ 32 - 1 ∧
      (bitsB 1 2).cur0.origin.toNat ≤ (bitsB 1 2).cur0.fin.toNat ∧
      (bitsB 1 2).cur0.fin.toNat - (bitsB 1 2).cur0.origin.toNat < (7 : Word).toNat ∧
      (6 : Word).toNat ≤ (bitsB 1 2).cur0.fin.toNat - (bitsB 1 2).cur0.origin.toNat := by decide +kernel

theorem test_hyp_SyncRoundsUpAndTheQueriesSyncFirst :
    CursorOk (bitsB 5 7).cur0 ∧ CursorOk (bitsB 6 0).cur0 := by decide +kernel

theorem test_hyp_LeftBitsReportsTheExactCount :
    CursorOk (cursor 0 0xFFFFFFFF 0 1) ∧ CursorOk Cursor.detached := by decide +kernel

theorem test_hyp_SkipsAdvanceByTheirCount :
    (bitsB 5 7).cur0.bitoff ≠ 0 ∧ (bitsB 5 0).cur0.bitoff = 0 ∧ leftBytes (bitsB 5 0).cur0 < (2 : Word).toNat ∧
      (1 : Word).toNat ≤ leftBytes (bitsB 5 0).cur0 ∧ leftBits (bitsB 5 7).cur0 < (2 : Word).toNat ∧
      (1 : Word).toNat ≤ leftBits (bitsB 5 7).cur0 := by decide +kernel

theorem test_hyp_GetUbitsReadsTheBigEndianField :
    (32 : BitVec 6).toNat ≤ 32 ∧ leftBits (bitsB 2 1).cur0 < (32 : BitVec 6).toNat ∧
      (32 : BitVec 6).toNat ≤ leftBits (bitsB 2 0).cur0 ∧ leftBits (bitsB 6 0).cur0 < 1 ∧ 1 ≤ leftBits (bitsB 5 7).cur0 := by decide +kernel

theorem test_hyp_GetSbitsIsTheSignExtensionOfGetUbits :
    (32 : BitVec 6).toNat ≤ 32 ∧ leftBits (bitsB 2 1).cur0 < (32 : BitVec 6).toNat ∧
      (32 : BitVec 6).toNat ≤ leftBits (bitsB 2 0).cur0 := by decide +kernel

theorem test_hyp_PeeksAnswerTheGetAndMoveNothing :
    (32 : BitVec 6).toNat ≤ 32 ∧ leftBits (bitsB 2 1).cur0 < (32 : BitVec 6).toNat ∧
      (32 : BitVec 6).toNat ≤ leftBits (bitsB 2 0).cur0 := by decide +kernel

theorem test_hyp_BitSettersWriteTheirFieldAndNoOtherBit :
    leftBits (bitsW 0 1).cur1 < 32 ∧ 32 ≤ leftBits (bitsW 0 0).cur1 ∧ 1 ≤ leftBits (bitsW 3 7).cur1 := by decide +kernel

theorem test_hyp_FieldsRoundTripThroughMemory :
    1 ≤ (5 : BitVec 6).toNat ∧ (5 : BitVec 6).toNat ≤ 32 ∧ CursorOk (getCur (bitsW 0 6) .c1) ∧
      (5 : BitVec 6).toNat ≤ leftBits (getCur (bitsW 0 6) .c1) ∧ (31 : Word).toNat < 2 ^ (5 : BitVec 6).toNat ∧
      -(2 ^ ((5 : BitVec 6).toNat - 1) : Int) ≤ (0xFFFFFFF0 : Word).toInt ∧
      (0xFFFFFFF0 : Word).toInt < 2 ^ ((5 : BitVec 6).toNat - 1) := by decide +kernel

theorem test_hyp_FieldsSplitAndJoin :
    (13 : BitVec 6).toNat + (19 : BitVec 6).toNat ≤ 32 ∧
      (13 : BitVec 6).toNat + (19 : BitVec 6).toNat ≤ leftBits (getCur (bitsW 0 0) .c1) := by decide +kernel

theorem test_hyp_WholeByteFieldsAreBigEndian : (getCur (bytesY 4) .c0).bitoff = 0 := by decide +kernel

theorem test_hyp_UnsignedGettersComposeTheirBytes :
    (getCur (bitsB 2 3) .c0).bitoff ≠ 0 ∧ (getCur (bitsB 3 0) .c0).bitoff = 0 ∧ leftBytes (getCur (bitsB 3 0) .c0) < 4 ∧
      4 ≤ leftBytes (getCur (bitsB 2 0) .c0) ∧ (getCur (bitsB 2 0) .c0).bitoff = 0 := by decide +kernel

theorem test_hyp_SignedGettersExtendTheirSign :
    (getCur (bitsB 2 3) .c0).bitoff ≠ 0 ∧ (getCur (bitsB 3 0) .c0).bitoff = 0 ∧ leftBytes (getCur (bitsB 3 0) .c0) < 4 ∧
      4 ≤ leftBytes (getCur (bitsB 2 0) .c0) ∧ (getCur (bitsB 2 0) .c0).bitoff = 0 := by decide +kernel

theorem test_hyp_UnsignedSettersStoreTheirBytes :
    (getCur (bitsB 2 3) .c0).bitoff ≠ 0 ∧ (getCur (bitsB 3 0) .c0).bitoff = 0 ∧ leftBytes (getCur (bitsB 3 0) .c0) < 4 ∧
      4 ≤ leftBytes (getCur (bitsB 2 0) .c0) ∧ (getCur (bitsB 2 0) .c0).bitoff = 0 := by decide +kernel

theorem test_hyp_SignedSettersStoreTheirBytes :
    (getCur (bitsB 2 3) .c0).bitoff ≠ 0 ∧ (getCur (bitsB 3 0) .c0).bitoff = 0 ∧ leftBytes (getCur (bitsB 3 0) .c0) < 4 ∧
      4 ≤ leftBytes (getCur (bitsB 2 0) .c0) ∧ (getCur (bitsB 2 0) .c0).bitoff = 0 := by decide +kernel

theorem test_hyp_ByteAccessesRoundTrip :
    CursorOk (getCur (zeros 0) .c1) ∧ (getCur (zeros 0) .c1).bitoff = 0 ∧ 3 ≤ leftBytes (getCur (zeros 0) .c1) ∧
      (0xFFFFFF : Word).toNat < 2 ^ (8 * 3) ∧ -(2 ^ (8 * 3 - 1) : Int) ≤ (0xFF800000 : Word).toInt ∧
      (0xFF800000 : Word).toInt < 2 ^ (8 * 3 - 1) := by decide +kernel

theorem test_hyp_GetStringFindsTheFirstZeroByte :
    (text 0 1).cur0.bitoff ≠ 0 ∧ (text 0 0).cur0.bitoff = 0 ∧ (text 0 0).cur0.pos.toNat ≤ 0x1002 ∧
      0x1002 < (text 0 0).cur0.fin.toNat ∧ memRead (text 0 0).mem 0x1002 = 0 ∧
      ∀ x, (text 0 0).cur0.pos.toNat ≤ x → x < 0x1002 → memRead (text 0 0).mem x ≠ 0 := by
  refine ⟨by decide, by decide, by decide, by decide, by decide, fun x h1 h2 => ?_⟩
  have h1 : 0x1000 ≤ x := h1
  obtain rfl | rfl : x = 0x1000 ∨ x = 0x1001 := by omega
  all_goals decide

theorem test_hyp_GetStringFindsTheFirstZeroByte_none :
    (text 4 0).cur0.bitoff = 0 ∧
      ∀ x, (text 4 0).cur0.pos.toNat ≤ x → x < (text 4 0).cur0.fin.toNat → memRead (text 4 0).mem x ≠ 0 := by
  refine ⟨by decide, fun x h1 h2 => ?_⟩
  have h1 : 0x1004 ≤ x := h1
  have h2 : x < 0x1007 := h2
  obtain rfl | rfl | rfl : x = 0x1004 ∨ x = 0x1005 ∨ x = 0x1006 := by omega
  all_goals decide

theorem test_hyp_GetDataCopiesAscending :
    (bitsB 2 3).cur0.bitoff ≠ 0 ∧ (dead 1).cur0.bitoff = 0 ∧ 0 < min (8 : Word).toNat (leftBytes (dead 1).cur0) ∧
      2 ^ 32 < (0xFFFFFFFE : Word).toNat + min (8 : Word).toNat (leftBytes (dead 1).cur0) ∧
      (0xFFFFFFFD : Word).toNat + min (8 : Word).toNat (leftBytes (dead 1).cur0) ≤ 2 ^ 32 := by decide +kernel

theorem test_hyp_SetDataCopiesAscending :
    (bitsB 2 3).cur0.bitoff ≠ 0 ∧ (dead 1).cur0.bitoff = 0 ∧ 0 < min (8 : Word).toNat (leftBytes (dead 1).cur0) ∧
      2 ^ 32 < (0xFFFFFFFE : Word).toNat + min (8 : Word).toNat (leftBytes (dead 1).cur0) ∧
      (0xFFFFFFFD : Word).toNat + min (8 : Word).toNat (leftBytes (dead 1).cur0) ≤ 2 ^ 32 := by decide +kernel

theorem test_hyp_DisjointBlockCopiesAreExact :
    exec (.getData .c0 0x1004 8) (dead 0) = .next (after (.getData .c0 0x1004 8) (dead 0)) ∧
      (after (.getData .c0 0x1004 8) (dead 0)).response = some ⟨.ok, word 4, 0⟩ ∧
      (dead 0).cur0.pos.toNat + 4 ≤ (0x1004 : Word).toNat := ⟨next_of (by decide +kernel), by decide +kernel⟩

theorem test_hyp_DisjointBlockCopiesAreExact_set :
    exec (.setData .c0 0x1004 3) (dead 1) = .next (after (.setData .c0 0x1004 3) (dead 1)) ∧
      (after (.setData .c0 0x1004 3) (dead 1)).response = some ⟨.ok, word 3, 0⟩ ∧
      (dead 1).cur0.pos.toNat + 3 ≤ (0x1004 : Word).toNat := ⟨next_of (by decide +kernel), by decide +kernel⟩

theorem test_hyp_VlcPutWritesTheCode :
    fresh.cstate = .closed ∧ (coded [] .fixed 5 0 0).cstate ≠ .closed ∧ 2 ^ 5 ≤ (32 : Word).toNat ∧
      ¬ 2 ^ 5 ≤ (31 : Word).toNat ∧ leftBits (coded [] .fixed 5 7 4).cur1 < (fieldBits 5 31).length ∧
      (fieldBits 5 31).length ≤ leftBits (coded [] .fixed 5 7 3).cur1 := by decide +kernel

theorem test_hyp_VlcGetReadsTheCodeThatStands :
    StrategyOk (coded [0x88] .fixed 5 0 0) ∧ (coded [0x88] .fixed 5 0 0).cstate ≠ .closed ∧
      representable (coded [0x88] .fixed 5 0 0) (17 : Word).toNat = true ∧
      (vlcCode .fixed 5 17).length ≤ leftBits (coded [0x88] .fixed 5 0 0).cur0 ∧
      (∀ i < (vlcCode .fixed 5 17).length,
        bitsAt (coded [0x88] .fixed 5 0 0).mem (coded [0x88] .fixed 5 0 0).cur0 i = (vlcCode .fixed 5 17).getD i false) ∧
      StrategyOk fresh ∧ fresh.cstate = .closed := by decide +kernel

theorem test_hyp_VlcGetReadsTheCodeThatStands_error :
    StrategyOk (coded [] .gamma 0 0 0) ∧ (coded [] .gamma 0 0 0).cstate ≠ .closed ∧
      vlcDecode .gamma 0 (bitsAt (coded [] .gamma 0 0 0).mem (coded [] .gamma 0 0 0).cur0) 0 64 = .error .eCodecVlc := ⟨by decide +kernel, by decide +kernel, rfl⟩

theorem test_hyp_VlcGetFailsAsTheCodesAreWritten_fixed :
    (coded [] .fixed 32 4 1).cstate ≠ .closed ∧ leftBits (coded [] .fixed 32 4 1).cur0 < 32 := by decide +kernel

theorem test_hyp_VlcGetFailsAsTheCodesAreWritten_golomb :
    (2 ^ 32 - 1) / 2 ^ 31 + 1 ≤ leftBits (coded [0xC0] .golomb 31 0 0).cur0 ∧
      (∀ j < (2 ^ 32 - 1) / 2 ^ 31 + 1,
        bitsAt (coded [0xC0] .golomb 31 0 0).mem (coded [0xC0] .golomb 31 0 0).cur0 j = true) ∧
      leftBits (coded [0, 0, 0, 0, 0, 0, 0, 1] .golomb 31 7 7).cur0 ≤ (2 ^ 32 - 1) / 2 ^ 31 ∧
      (∀ j < leftBits (coded [0, 0, 0, 0, 0, 0, 0, 1] .golomb 31 7 7).cur0,
        bitsAt (coded [0, 0, 0, 0, 0, 0, 0, 1] .golomb 31 7 7).mem
          (coded [0, 0, 0, 0, 0, 0, 0, 1] .golomb 31 7 7).cur0 j = true) ∧
      bitsAt (coded [0x80] .golomb 31 4 0).mem (coded [0x80] .golomb 31 4 0).cur0 0 = false ∧
      leftBits (coded [0x80] .golomb 31 4 1).cur0 - (0 + 1) < 31 := by decide +kernel

theorem test_hyp_VlcGetFailsAsTheCodesAreWritten_gamma :
    31 + 1 ≤ leftBits (coded [] .gamma 0 4 0).cur0 ∧
      (∀ j < 31 + 1, bitsAt (coded [] .gamma 0 4 0).mem (coded [] .gamma 0 4 0).cur0 j = false) ∧
      leftBits (coded [] .gamma 0 4 1).cur0 ≤ 31 ∧
      (∀ j < 31, bitsAt (coded [] .gamma 0 4 1).mem (coded [] .gamma 0 4 1).cur0 j = false) ∧
      (∀ j < 31, bitsAt (coded [0, 0, 0, 1] .gamma 0 0 0).mem (coded [0, 0, 0, 1] .gamma 0 0 0).cur0 j = false) ∧
      bitsAt (coded [0, 0, 0, 1] .gamma 0 0 0).mem (coded [0, 0, 0, 1] .gamma 0 0 0).cur0 31 = true ∧
      bitsAt (coded [0, 0, 0, 0, 0, 0, 0, 0x20] .gamma 0 7 0).mem (coded [0, 0, 0, 0, 0, 0, 0, 0x20] .gamma 0 7 0).cur0 2 = true ∧
      leftBits (coded [0, 0, 0, 0, 0, 0, 0, 0x08] .gamma 0 7 2).cur0 - (2 + 1) < 4 := by decide +kernel

theorem test_hyp_VlcCodesRoundTripThroughMemory :
    (coded [] .gamma 0 0 1).cstate ≠ .closed ∧ StrategyOk (coded [] .gamma 0 0 1) ∧
      CursorOk (getCur (coded [] .gamma 0 0 1) .c0) ∧
      representable (coded [] .gamma 0 0 1) (0xFFFFFFFF : Word).toNat = true ∧
      vlcLen .gamma 0 (0xFFFFFFFF : Word).toNat ≤ leftBits (getCur (coded [] .gamma 0 0 1) .c0) := by decide +kernel

theorem test_hyp_NoCodeIsAPrefixOfAnother :
    vlcParamOk .golomb 31 = true ∧ vlcMin .golomb ≤ 0 ∧ 2 ^ 32 - 1 ≤ vlcMax .golomb 31 ∧
      vlcMin .gamma ≤ 1 ∧ 2 ≤ vlcMax .gamma 0 := by decide +kernel

theorem test_hyp_CodecOpenStartsAFreshInstance :
    vlcParamOk .fixed 32 = true ∧ (bitsB 2 3).cur0.bitoff ≠ 0 ∧ (bitsB 2 0).cur0.bitoff = 0 ∧
      (bitsW 2 3).cur1.bitoff ≠ 0 ∧ (bitsW 2 0).cur1.bitoff = 0 := by decide +kernel

theorem test_hyp_CodecCloseAndCodecState :
    fresh.cstate = .closed ∧ (opened .fixed 16).cstate ≠ .closed := by decide +kernel

theorem test_hyp_CodecCommandsRefuseWhenNotReady :
    ¬ fresh.cstate = .enc ∧ ¬ fresh.cstate = .dec ∧ encReady encoding = true ∧ decReady t1 = true := by decide +kernel

theorem test_hyp_ReadinessIsEstablishedAndKept :
    exec (.codecOpen .enc .gamma 0) (opened .fixed 16) = .next (after (.codecOpen .enc .gamma 0) (opened .fixed 16)) ∧
      exec .deflateStep (opened .fixed 16) = .next encoding ∧ CursorsOk (opened .fixed 16) ∧
      regionsDisjoint (opened .fixed 16).cur0 (opened .fixed 16).cur1 = true ∧
      (after (.codecOpen .enc .gamma 0) (opened .fixed 16)).response = some ⟨.ok, 0, 0⟩ ∧
      encoding.response = some ⟨.ok, 2, 17⟩ := ⟨next_of (by decide +kernel), next_of (by decide +kernel), by decide +kernel⟩

theorem test_hyp_ReadinessIsEstablishedAndKept_decode :
    CursorsOk t1 ∧ exec .inflateStep t1 = .next (after .inflateStep t1) ∧
      (after .inflateStep t1).response = some ⟨.ok, 2, 17⟩ := ⟨by decide +kernel, next_of (by decide +kernel), by decide +kernel⟩

theorem test_hyp_WinFindAnswersTheLongestEarliestMatch :
    encReady encoding = true ∧ CursorsOk encoding ∧ ParamsOk encoding ∧ WindowOk encoding ∧ IndexOk encoding ∧
      3 ≤ leftBytes encoding.cur0 ∧ Candidate encoding 0x1000 ∧ Candidate encoding 0x1001 := by decide +kernel

theorem test_hyp_WinFindAnswersTheLongestEarliestMatch_none :
    encReady (opened .fixed 16) = true ∧ CursorsOk (opened .fixed 16) ∧ ParamsOk (opened .fixed 16) ∧
      WindowOk (opened .fixed 16) ∧ IndexOk (opened .fixed 16) ∧ 3 ≤ leftBytes (opened .fixed 16).cur0 ∧
      windowStart (opened .fixed 16) = (opened .fixed 16).wEnd.toNat := by decide +kernel

theorem test_hyp_DeflateStepEmitsOneToken :
    encReady encoding = true ∧ CursorsOk encoding ∧ StrategyOk encoding ∧ encoding.cur0.pos ≠ encoding.cur0.fin ∧
      (findAtCursor encoding).2 = 6 ∧
      ([true] ++ fieldBits encoding.posBits.toNat (findAtCursor encoding).1 ++ vlcCode .fixed 16 (6 - 2)).length ≤
        leftBits encoding.cur1 ∧
      (findAtCursor (opened .fixed 16)).2 ≤ 2 ∧ 2 ≤ leftBytes (opened .fixed 16).cur0 ∧
      encReady (after .deflateStep encoding) = true ∧
      (after .deflateStep encoding).cur0.pos = (after .deflateStep encoding).cur0.fin := by decide +kernel

theorem test_hyp_DeflateRunIsDeflateStepRepeated :
    encReady (opened .fixed 16) = true ∧ CursorsOk (opened .fixed 16) := by decide +kernel

theorem test_hyp_ThreeBytesPerByteAlwaysHoldTheEncoding :
    let s := after (.codecOpen .enc .fixed 8)
        (block [0x61, 0x62, 0x63] (cursor 0x1000 3 0 0) (cursor 0x2000 9 0 0))
    encReady s = true ∧ CursorsOk s ∧ ParamsOk s ∧ StrategyOk s ∧ WindowOk s ∧
      24 * leftBytes s.cur0 ≤ leftBits s.cur1 := by decide +kernel

theorem test_hyp_EncodeKeepsTheIndexConsistent :
    exec .deflateStep encoding = .next (after .deflateStep encoding) ∧ encReady encoding = true ∧ CursorsOk encoding ∧
      ParamsOk encoding ∧ WindowOk encoding ∧ PoolOk encoding ∧ IndexOk encoding ∧ encoding.index.nodes.length = 2 := ⟨next_of (by decide +kernel), by decide +kernel⟩

theorem test_hyp_InflateStepDecodesTheTokenThatStands :
    decReady t1 = true ∧ CursorsOk t1 ∧ StrategyOk t1 ∧ WindowOk t1 ∧ 9 ≤ leftBits t1.cur0 ∧ leftBytes t1.cur1 ≠ 0 ∧
      (∀ i < 17, bitsAt t1.mem t1.cur0 i =
        ([false] ++ fieldBits 8 (0x41 : Byte).toNat ++ fieldBits 8 (0x41 : Byte).toNat).getD i false) ∧
      2 ≤ leftBytes t1.cur1 := by decide +kernel

theorem test_hyp_InflateStepDecodesTheTokenThatStands_match :
    let s := after .inflateStep t1
    decReady s = true ∧ CursorsOk s ∧ StrategyOk s ∧ WindowOk s ∧ 9 ≤ leftBits s.cur0 ∧ leftBytes s.cur1 ≠ 0 ∧
      0 < s.wLen.toNat ∧ 0 < 2 ^ s.posBits.toNat ∧ representable s 4 = true ∧ 18 ≤ leftBits s.cur0 ∧
      (∀ i < 18, bitsAt s.mem s.cur0 i = ([true] ++ fieldBits 1 0 ++ vlcCode .fixed 16 4).getD i false) ∧
      4 + 2 ≤ leftBytes s.cur1 := by decide +kernel

theorem test_hyp_InflateStepDecodesTheTokenThatStands_single :
    let s := decoding [0x2D, 0x00] 4 .fixed 8
    decReady s = true ∧ CursorsOk s ∧ StrategyOk s ∧ WindowOk s ∧ 9 ≤ leftBits s.cur0 ∧ leftBits s.cur0 < 17 ∧
      ∀ i < 9, bitsAt s.mem s.cur0 i = ([false] ++ fieldBits 8 (0x5A : Byte).toNat).getD i false := by decide +kernel

theorem test_hyp_InflateStepDecodesTheTokenThatStands_end :
    let s := decoding [0x2D] 4 .fixed 8
    decReady s = true ∧ CursorsOk s ∧ StrategyOk s ∧ WindowOk s ∧ leftBits s.cur0 < 9 := by decide +kernel

theorem test_hyp_InflateStepRefusesMalformedTokens_offset :
    let s := decoding [0x80, 0x80] 16 .fixed 8
    decReady s = true ∧ 9 ≤ leftBits s.cur0 ∧ leftBytes s.cur1 ≠ 0 ∧ bitsAt s.mem s.cur0 0 = true ∧
      s.posBits.toNat ≤ leftBits s.cur0 - 1 ∧ s.posBits.toNat ≤ 32 ∧
      vlcDecode s.vlcType s.vlcParam.toNat (bitsAt s.mem s.cur0) (1 + s.posBits.toNat)
        (leftBits s.cur0 - 1 - s.posBits.toNat) = .ok (1, 8) ∧
      1 + 2 ≤ 2 ^ 32 - 1 ∧ s.wLen.toNat ≤ readField (bitsAt s.mem s.cur0) 1 s.posBits.toNat := by
  refine ⟨?_, ?_, ?_, ?_, ?_, ?_, rfl, ?_, ?_⟩ <;> decide +kernel

theorem test_hyp_InflateStepRefusesMalformedTokens_length :
    let s := decoding [0xFF, 0xFF, 0xFF, 0xFF, 0xFF] 16 .fixed 32
    decReady s = true ∧ 9 ≤ leftBits s.cur0 ∧ leftBytes s.cur1 ≠ 0 ∧ bitsAt s.mem s.cur0 0 = true ∧
      s.posBits.toNat ≤ leftBits s.cur0 - 1 ∧ s.posBits.toNat ≤ 32 ∧
      vlcDecode s.vlcType s.vlcParam.toNat (bitsAt s.mem s.cur0) (1 + s.posBits.toNat)
        (leftBits s.cur0 - 1 - s.posBits.toNat) = .ok (2 ^ 32 - 1, 32) ∧ 2 ^ 32 - 1 < 2 ^ 32 - 1 + 2 := by
  refine ⟨?_, ?_, ?_, ?_, ?_, ?_, rfl, ?_⟩ <;> decide +kernel

theorem test_hyp_InflateStepRefusesMalformedTokens_cut :
    let s := decoding [0x80, 0x80] 16 .fixed 16
    decReady s = true ∧ 9 ≤ leftBits s.cur0 ∧ leftBytes s.cur1 ≠ 0 ∧ bitsAt s.mem s.cur0 0 = true ∧
      s.posBits.toNat ≤ leftBits s.cur0 - 1 ∧
      vlcDecode s.vlcType s.vlcParam.toNat (bitsAt s.mem s.cur0) (1 + s.posBits.toNat)
        (leftBits s.cur0 - 1 - s.posBits.toNat) = .error .eCodecTrunc := by
  refine ⟨?_, ?_, ?_, ?_, ?_, rfl⟩ <;> decide +kernel

theorem test_hyp_InflateStepRefusesMalformedTokens_offset_cut :
    let s : State := { decoding [0xFF, 0xFF] 16 .fixed 8 with posBits := 31 }
    decReady s = true ∧ 9 ≤ leftBits s.cur0 ∧ leftBytes s.cur1 ≠ 0 ∧ bitsAt s.mem s.cur0 0 = true ∧
      leftBits s.cur0 - 1 < s.posBits.toNat := by decide +kernel

theorem test_hyp_InflateRunIsInflateStepRepeated : decReady t1 = true ∧ CursorsOk t1 := by decide +kernel

theorem test_hyp_TokensDecodeToThemselves :
    let tk := Token.matchRef 3 0xFFFFFFFF
    vlcParamOk .golomb 31 = true ∧ (3 : Word).toNat < 2 ^ 2 ∧ vlcMin .golomb ≤ (0xFFFFFFFF : Word).toNat ∧
      (0xFFFFFFFF : Word).toNat ≤ vlcMax .golomb 31 ∧ (tokenBits 2 .golomb 31 tk).length ≤ 36 ∧
      (∀ j < (tokenBits 2 .golomb 31 tk).length,
        (fun i => (tokenBits 2 .golomb 31 tk).getD i false) j = (tokenBits 2 .golomb 31 tk).getD j false) ∧
      (tokenBits 0 .fixed 8 (.singleLiteral 0x5A)).length ≤ 16 := by decide +kernel

/-- The stream that a `deflate_run` left in `t`, opened for decode with the same strategy. -/
def decodeOf (t : State) : State :=
  after (.codecOpen .dec t.vlcType (t.vlcParam.setWidth 32))
    { t with cur0 := { origin := 0x2000, pos := 0x2000, fin := t.cur1.pos, bitoff := 0 }, cur1 := cursor 0x3000 8 0 0 }

/-- What the statements on the round trip suppose of the source state. -/
abbrev FreshSource (s : State) : Prop :=
  encReady s = true ∧ CursorsOk s ∧ ParamsOk s ∧ StrategyOk s ∧ WindowOk s ∧ s.wLen = 0 ∧
    s.index = WindowIndex.empty ∧ s.wOrg = s.wEnd

/-- What they suppose of the decoder `d` for the stream that `deflate_run` from `s` left in `t`. -/
abbrev DecoderOf (s t d : State) : Prop :=
  decReady d = true ∧ CursorsOk d ∧ WindowOk d ∧ d.wLen = 0 ∧ d.wOrg = d.wEnd ∧ d.mem = t.mem ∧
    d.maxWindow = s.maxWindow ∧ d.vlcType = s.vlcType ∧ d.vlcParam = s.vlcParam ∧
    d.cur0.pos = s.cur1.pos ∧ d.cur0.bitoff = s.cur1.bitoff ∧ d.cur0.fin = t.cur1.pos ∧
    leftBytes s.cur0 ≤ leftBytes d.cur1

/-- All that they suppose, but for what a strategy and a last token must be. -/
def roundTrip (s : State) : Prop :=
  let t := after .deflateRun s
  exec .deflateRun s = .next t ∧ FreshSource s ∧ DecoderOf s t (decodeOf t) ∧
    t.response.map Response.status = some .done

theorem roundTrip_of {s : State} (h : isNext (exec .deflateRun s) (after .deflateRun s) = true)
    (hs : FreshSource s) (hd : DecoderOf s (after .deflateRun s) (decodeOf (after .deflateRun s)))
    (hr : (after .deflateRun s).response.map Response.status = some .done) : roundTrip s :=
  ⟨next_of h, hs, hd, hr⟩

/-- One `deflate_step` that answers OK. -/
theorem okSteps_one {s u : State} {q0 q1 : Word} (h : exec .deflateStep s = .next u)
    (hr : u.response = some ⟨.ok, q0, q1⟩) : OkSteps .deflateStep s (q0 + 0) u :=
  .more h hr (.none u)

theorem test_hyp_LongTokenStrategiesRoundTripTheSource :
    roundTrip (opened .fixed 16) ∧
      (opened .fixed 16).vlcType = .fixed ∧ 7 ≤ (opened .fixed 16).vlcParam.toNat := ⟨roundTrip_of (by decide +kernel) (by decide +kernel) (by decide +kernel) (by decide +kernel),
    by decide +kernel⟩

theorem test_hyp_TokenFormsAreWhatInflateStepMeets :
    StrategyOk t1 ∧ tokenAtCursor t1 = .ok (.literalPair 0x41 0x41, 17) := ⟨by decide +kernel, rfl⟩

theorem test_hyp_TokenFormsAreWhatInflateStepMeets_direct :
    let s := after .inflateStep t1
    decReady s = true ∧ CursorsOk s ∧ WindowOk s ∧ 17 ≤ leftBits s.cur0 ∧ 2 ≤ leftBytes s.cur1 ∧
      1 + s.posBits.toNat + vlcLen s.vlcType s.vlcParam.toNat (4 : Word).toNat ≤ leftBits s.cur0 ∧
      representable s (4 : Word).toNat = true ∧ (4 : Word).toNat + 2 < 2 ^ 32 ∧ (1 : Word).toNat < s.wLen.toNat ∧
      (4 : Word).toNat + 2 ≤ leftBytes s.cur1 := by decide +kernel

theorem test_hyp_CodeFormsAreWhatVlcGetMeets :
    StrategyOk (coded [0x88] .fixed 5 0 0) ∧ (coded [0x88] .fixed 5 0 0).cstate ≠ .closed ∧
      vlcDecode .fixed 5 (bitsAt (coded [0x88] .fixed 5 0 0).mem (coded [0x88] .fixed 5 0 0).cur0) 0 64 = .ok (17, 5) := ⟨by decide +kernel, by decide +kernel, rfl⟩

theorem test_hyp_CodeFormsAreWhatVlcGetMeets_direct :
    (31 : Word).toNat < 2 ^ 5 ∧ 5 ≤ leftBits (coded [] .fixed 5 7 3).cur0 ∧
      (100 : Word).toNat / 2 ^ 4 + 1 + 4 ≤ leftBits (coded [] .golomb 4 6 5).cur0 ∧ (5 : Word) ≠ 0 ∧
      2 * Nat.log2 (5 : Word).toNat + 1 ≤ leftBits (coded [] .gamma 0 7 3).cur0 := by decide +kernel

theorem test_hyp_EveryStepKeepsTheCursorsInTheirRegions :
    CursorsOk (facing (.command 0x09000000000700000000)) ∧
      step (facing (.command 0x09000000000700000000)) =
        .next (after (.skipBits .c0 7) { facing (.command 0) with inputs := [] }) := ⟨by decide +kernel, next_of (by decide +kernel)⟩

theorem test_hyp_EveryStepKeepsTheWindowInvariants :
    step { opened .fixed 16 with inputs := [.command 0x52000000000000000000] } = .next encoding ∧
      exec .deflateStep (opened .fixed 16) = .next encoding ∧ CursorsOk (opened .fixed 16) ∧
      StrategyOk (opened .fixed 16) ∧ WindowOk (opened .fixed 16) ∧ encoding.response = some ⟨.ok, 2, 17⟩ ∧
      (statusCode .ok).toNat < 0x10 ∧ encoding.cstate = .enc ∧ t1.cstate = .dec := ⟨next_of (by decide +kernel), next_of (by decide +kernel), by decide +kernel⟩

theorem test_hyp_EveryStepConservesThePoolAndTheMemoryForm :
    step { opened .fixed 16 with inputs := [.command 0x52000000000000000000] } = .next encoding ∧
      PoolOk (opened .fixed 16) ∧ Memory.wf (opened .fixed 16).mem = true := ⟨next_of (by decide +kernel), by decide +kernel⟩

theorem test_hyp_CursorCommandsKeepTheOtherCursorAndTheCodec :
    namedCursor (.skipBits .c0 7) = some .c0 ∧ exec (.skipBits .c0 7) (bitsB 0 0) = .next (after (.skipBits .c0 7) (bitsB 0 0)) := ⟨rfl, next_of (by decide +kernel)⟩

theorem test_hyp_OnlyTheCodecCommandsWriteTheCodecRegisters :
    exec .codecClose (opened .fixed 16) = .next (after .codecClose (opened .fixed 16)) := next_of (by decide +kernel)

theorem test_hyp_MemoryIsWrittenOnlyWhereTheCommandMay :
    exec (.setU8 .c1 7) (zeros 0) = .next (after (.setU8 .c1 7) (zeros 0)) ∧
      memRead (after (.setU8 .c1 7) (zeros 0)).mem 0x1000 ≠ memRead (zeros 0).mem 0x1000 := ⟨next_of (by decide +kernel), by decide +kernel⟩

theorem test_hyp_ResetPutsEveryRegisterAtItsResetValue_during :
    (facing (.resetDuring 0x30000000000700000000)).inputs = .resetDuring 0x30000000000700000000 :: [] := by decide +kernel

theorem test_hyp_WinFindAnswersTheLongestEarliestMatch_short :
    let s := after (.codecOpen .enc .fixed 8) (block [0x61, 0x62] (cursor 0x1000 2 0 0) (cursor 0x2000 9 0 0))
    encReady s = true ∧ CursorsOk s ∧ ParamsOk s ∧ WindowOk s ∧ IndexOk s ∧ leftBytes s.cur0 < 3 := by decide +kernel

theorem test_hyp_DeflateStepEmitsOneToken_single :
    let s := after (.codecOpen .enc .fixed 8) (block [0x61] (cursor 0x1000 1 0 0) (cursor 0x2000 2 0 0))
    encReady s = true ∧ CursorsOk s ∧ StrategyOk s ∧ s.cur0.pos ≠ s.cur0.fin ∧ (findAtCursor s).2 ≤ 2 ∧
      leftBytes s.cur0 = 1 ∧ ([false] ++ fieldBits 8 (memRead s.mem s.cur0.pos.toNat).toNat).length ≤ leftBits s.cur1 := by decide +kernel

theorem test_hyp_DeflateStepEmitsOneToken_full :
    let s := after (.codecOpen .enc .fixed 8) (block [0x61] (cursor 0x1000 1 0 0) (cursor 0x2000 1 0 0))
    encReady s = true ∧ CursorsOk s ∧ StrategyOk s ∧ s.cur0.pos ≠ s.cur0.fin ∧ (findAtCursor s).2 ≤ 2 ∧
      leftBytes s.cur0 = 1 ∧ leftBits s.cur1 < ([false] ++ fieldBits 8 (memRead s.mem s.cur0.pos.toNat).toNat).length := by decide +kernel

theorem test_hyp_ErrorsHaveNoSideEffect_runFails :
    exec .inflateRun (decoding [0x80, 0x80] 16 .fixed 8) =
        .next (after .inflateRun (decoding [0x80, 0x80] 16 .fixed 8)) ∧
      (after .inflateRun (decoding [0x80, 0x80] 16 .fixed 8)).response = some ⟨.eCodecOffset, 0, 0⟩ ∧
      0x20 ≤ (statusCode .eCodecOffset).toNat := ⟨next_of (by decide +kernel), by decide +kernel⟩

theorem test_hyp_RoundTripEndsWhereATokenStartsWithFewerThanNineBits :
    roundTrip (opened .fixed 6) ∧
      OkSteps .deflateStep (opened .fixed 6) (2 + 0) (after .deflateStep (opened .fixed 6)) ∧
      exec .deflateStep (after .deflateStep (opened .fixed 6)) =
        .next (after .deflateStep (after .deflateStep (opened .fixed 6))) ∧
      (after .deflateStep (after .deflateStep (opened .fixed 6))).response = some ⟨.ok, 6, 8⟩ ∧
      (after .deflateStep (after .deflateStep (opened .fixed 6))).cur0.pos =
        (after .deflateStep (after .deflateStep (opened .fixed 6))).cur0.fin ∧
      9 ≤ 8 * (after .deflateRun (opened .fixed 6)).cur1.pos.toNat - bitAddr (after .deflateStep (opened .fixed 6)).cur1 := ⟨roundTrip_of (by decide +kernel) (by decide +kernel) (by decide +kernel) (by decide +kernel),
    okSteps_one (next_of (by decide +kernel)) (q1 := 17) (by decide +kernel), next_of (by decide +kernel), by decide +kernel⟩

theorem test_hyp_RoundTripEndsWhereATokenStartsWithFewerThanNineBits_lost :
    roundTrip (opened .golomb 4) ∧
      OkSteps .deflateStep (opened .golomb 4) 0 (opened .golomb 4) ∧ exec .deflateStep (opened .golomb 4) = .next (after .deflateStep (opened .golomb 4)) ∧
      (after .deflateStep (opened .golomb 4)).response = some ⟨.ok, 2, 17⟩ ∧
      9 ≤ 8 * (after .deflateRun (opened .golomb 4)).cur1.pos.toNat - bitAddr (opened .golomb 4).cur1 ∧
      8 * (after .deflateRun (opened .golomb 4)).cur1.pos.toNat - bitAddr (after .deflateStep (opened .golomb 4)).cur1 < 9 := ⟨roundTrip_of (by decide +kernel) (by decide +kernel) (by decide +kernel) (by decide +kernel),
    .none _, next_of (by decide +kernel), by decide +kernel⟩

/-! ## Log 19: two short match tokens lost at the end of a stream -/

/-- The source of T1 under fixed-width(1) with a window of two bytes. -/
def twoShort : State :=
  after (.codecOpen .enc .fixed 1)
    { block (List.replicate 8 0x41) (cursor 0x1000 8 0 0) (cursor 0x2000 16 0 0) with maxWindow := 2 }

theorem test_twoShort_encoded :
    (after .deflateRun twoShort).response = some ⟨.done, 8, 3⟩ ∧
      (after .deflateStep (after .deflateStep twoShort)).response = some ⟨.ok, 3, 3⟩ := by decide +kernel

theorem test_twoShort_decoded :
    (after .inflateRun (decodeOf (after .deflateRun twoShort))).response = some ⟨.done, 2, 2⟩ := by decide +kernel

end Sys2Proof.Tests
end

/-! ## What the decoder answers, and a step on a command word (00_scope.md R7; 30_encoding.md R90, R99) -/

namespace Sys2Proof

/-- The format check answers its command or an error, never another command. -/
@[simp] theorem checked_eq_ok_iff (fmt : Format) (f : CommandFields) (i j : Instr) :
    checked fmt f i = .ok j ↔ formatError fmt f = none ∧ i = j := by
  unfold checked
  split <;> simp_all

/-- Fields that keep to a format have a count that the format allows. -/
theorem countError_of_formatError_eq_none (fmt : Format) (f : CommandFields)
    (h : formatError fmt f = none) : countError fmt f.n = none := by
  unfold formatError at h
  split at h
  · cases h
  split at h
  · cases h
  split at h
  · cases h
  · assumption

/-- For a command that passes the format check, well-formedness is only a matter of its count. -/
theorem wf_of_checked {fmt : Format} {f : CommandFields} {i j : Instr} (h : checked fmt f i = .ok j)
    (hcount : countError fmt f.n = none → i.wf = true) : j.wf = true := by
  obtain ⟨hfmt, rfl⟩ := (checked_eq_ok_iff ..).mp h
  exact hcount (countError_of_formatError_eq_none fmt f hfmt)

/-- What `codec_open` decodes to: a type of R95 with a parameter in its range. -/
theorem decodeCodecOpen_eq_ok_iff (f : CommandFields) (i : Instr) :
    decodeCodecOpen f = .ok i ↔
      formatError .P f = none ∧ ∃ ty, vlcTypeOf (f.n.extractLsb' 1 2) = some ty ∧
        vlcParamOk ty f.a = true ∧ .codecOpen (codecModeOf (f.n.extractLsb' 0 1)) ty f.a = i := by
  unfold decodeCodecOpen
  cases formatError .P f with
  | some e => simp
  | none =>
    cases vlcTypeOf (f.n.extractLsb' 1 2) with
    | none => simp
    | some ty => cases hp : vlcParamOk ty f.a <;> simp [hp]

theorem wf_of_decodeCodecOpen {f : CommandFields} {i : Instr} (h : decodeCodecOpen f = .ok i) :
    i.wf = true := by
  obtain ⟨-, ty, -, hparam, rfl⟩ := (decodeCodecOpen_eq_ok_iff f i).mp h
  exact hparam

/-- The decoder answers well-formed commands only (R99): each row of the opcode map keeps to its
format, `codec_open` also to the range of its parameter. -/
theorem wf_of_decodeFields {f : CommandFields} {i : Instr} (h : decodeFields f = .ok i) :
    i.wf = true := by
  unfold decodeFields at h
  split at h
  -- arm 50 is opcode 0x50, arm 58 the reserved opcodes; every other row is `checked`
  case h_50 => exact wf_of_decodeCodecOpen h
  case h_58 => cases h
  all_goals exact wf_of_checked h (by simp [countError, Instr.wf])

theorem wf_of_decode {w : CommandWord} {i : Instr} (h : decode w = .ok i) : i.wf = true :=
  wf_of_decodeFields h

namespace Machine

/-- A step on a command word runs that word with the act taken off the list. -/
theorem step_command {s : State} {w : CommandWord} {rest : List HostInput}
    (h : s.inputs = .command w :: rest) : step s = runCommand w { s with inputs := rest } := by
  simp only [step, takeInput, h, runInput]

theorem runCommand_of_decode_ok {w : CommandWord} {i : Instr} (h : decode w = .ok i) (s : State) :
    runCommand w s = exec i s := by
  simp only [runCommand, h]

/-- Settles O1: the decoder answers well-formed commands only, and a step adds nothing around `exec`. -/
theorem stepRunsTheCommandItDecodes : Obligations.StepRunsTheCommandItDecodes := by
  intro s w rest i hinputs hdecode
  refine ⟨wf_of_decode hdecode, ?_⟩
  calc step s = runCommand w { s with inputs := rest } := step_command hinputs
    _ = exec i { s with inputs := rest } := runCommand_of_decode_ok hdecode _

end Machine

end Sys2Proof

/-! ## What a command can do, over all commands (10_state.md R39) -/

namespace Sys2Proof.Machine

open Relation (ReflTransGen)

/-- What `enc_ready` tests (46_lzsw_encode.md R272). -/
theorem encReady_iff (s : State) : encReady s = true ↔
    s.cstate = .enc ∧ s.cur0.bitoff = 0 ∧ s.cur0.pos = s.wEnd ∧ s.cur0.origin.toNat ≤ s.wOrg.toNat ∧
      s.cur0.fin = s.sEnd ∧ regionsDisjoint s.cur0 s.cur1 = true := by
  simp only [encReady, Bool.and_eq_true, decide_eq_true_eq, and_assoc]

/-- What `dec_ready` tests (47_lzsw_decode.md R291). -/
theorem decReady_iff (s : State) : decReady s = true ↔
    s.cstate = .dec ∧ s.cur1.bitoff = 0 ∧ s.cur1.pos = s.wEnd ∧ s.cur1.origin.toNat ≤ s.wOrg.toNat ∧
      regionsDisjoint s.cur0 s.cur1 = true := by
  simp only [decReady, Bool.and_eq_true, decide_eq_true_eq, and_assoc]

/-! ### One turn of the encoder -/

/-- One turn of an encoder that is ready (46_lzsw_encode.md R273): the end of the source, no room for
the token, or the token written and the window slid. -/
inductive EncodeStep (s : State) : State → Prop where
  | finished (ready : encReady s = true) (atEnd : s.cur0.pos = s.cur0.fin) :
      EncodeStep s { s with cur1 := syncCursor s.cur1, cstate := .encDone }
  | full (ready : encReady s = true) (noRoom : leftBits s.cur1 < (chosenBits s).length) : EncodeStep s s
  | token (ready : encReady s = true) (more : s.cur0.pos ≠ s.cur0.fin)
      (room : (chosenBits s).length ≤ leftBits s.cur1) : EncodeStep s (afterToken s)

theorem encodeStep_deflateToken {s : State} (ready : encReady s = true) :
    EncodeStep s (deflateToken s).1 := by
  rcases deflateToken_spec s with ⟨atEnd, h⟩ | ⟨-, noRoom, h⟩ | ⟨more, room, h⟩ <;> rw [h]
  · exact .finished ready atEnd
  · exact .full ready noRoom
  · exact .token ready more room

/-- The encoder stays ready behind a token it has written. -/
theorem encReady_afterToken {s : State} (ready : encReady s = true) : encReady (afterToken s) = true := by
  obtain ⟨state, aligned, -, origin, source, apart⟩ := (encReady_iff s).mp ready
  exact (encReady_iff _).mpr ⟨state, aligned, rfl, origin, source, apart⟩

theorem encReady_deflateToken {s : State} (ready : encReady s = true) (h : (deflateToken s).2.1 = .ok) :
    encReady (deflateToken s).1 = true := by
  rcases deflateToken_spec s with ⟨-, e⟩ | ⟨-, -, e⟩ | ⟨-, -, e⟩ <;> rw [e] at h ⊢
  · cases h
  · cases h
  · exact encReady_afterToken ready

theorem encodeSteps_deflateLoop (fuel : Nat) {s : State} (consumed : Nat) (ready : encReady s = true) :
    ReflTransGen EncodeStep s (deflateLoop fuel s consumed).1 := by
  induction fuel generalizing s consumed with
  | zero => exact .single (encodeStep_deflateToken ready)
  | succ fuel ih =>
    have first := encodeStep_deflateToken ready
    have next := encReady_deflateToken ready
    simp only [deflateLoop]
    split
    · rename_i h
      rw [h] at first next
      exact .head first (ih _ (next rfl))
    · rename_i h
      rw [h] at first
      exact .single first

/-! ### One turn of the decoder -/

/-- One turn of a decoder that is ready (47_lzsw_decode.md R292): the end of the stream, no room, a
malformed token, or a token whose `n` bytes are put out in memory `m`. -/
inductive DecodeStep (s : State) : State → Prop where
  | finished (ready : decReady s = true) (drained : leftBits s.cur0 < 9) :
      DecodeStep s { s with cstate := .decDone }
  | full (ready : decReady s = true) : DecodeStep s s
  | malformed (ready : decReady s = true) : DecodeStep s { s with cstate := .failed }
  | token {m : Memory} {n len : Nat} (ready : decReady s = true) (room : n ≤ leftBytes s.cur1)
      (there : len ≤ leftBits s.cur0)
      (frame : ∀ x, x < s.cur1.pos.toNat ∨ s.cur1.pos.toNat + n ≤ x → memRead m x = memRead s.mem x)
      (canonical : Memory.wf s.mem = true → Memory.wf m = true) :
      DecodeStep s (commitToken s m n len).1

theorem decodeStep_inflateToken {s : State} (ready : decReady s = true) :
    DecodeStep s (inflateToken s).1 := by
  rcases inflateToken_spec s with ⟨drained, h⟩ | ⟨-, h⟩ | ⟨-, e, -, h⟩ |
    ⟨-, m, n, len, h, -, room, -, there, frame, canonical⟩ <;> rw [h]
  · exact .finished ready drained
  · exact .full ready
  · exact .malformed ready
  · exact .token ready room there frame canonical

/-- A token that stands whole at the input cursor has its effect in one turn. -/
theorem decodeStep_applyToken {s : State} (t : Token) {len : Nat} (ready : decReady s = true)
    (there : len ≤ leftBits s.cur0) : DecodeStep s (applyToken t len s).1 := by
  rcases applyToken_spec t len s with h | h | h | ⟨m, n, h, -, room, frame, canonical⟩ <;> rw [h]
  · exact .malformed ready
  · exact .malformed ready
  · exact .full ready
  · exact .token ready room there frame canonical

/-- The decoder stays ready behind a token it has put out. -/
theorem decReady_commitToken {s : State} (m : Memory) (n len : Nat) (ready : decReady s = true) :
    decReady (commitToken s m n len).1 = true := by
  obtain ⟨state, aligned, -, origin, apart⟩ := (decReady_iff s).mp ready
  exact (decReady_iff _).mpr ⟨state, aligned, rfl, origin, apart⟩

theorem decReady_inflateToken {s : State} (ready : decReady s = true) (h : (inflateToken s).2.1 = .ok) :
    decReady (inflateToken s).1 = true := by
  rcases inflateToken_spec s with ⟨-, e⟩ | ⟨-, e⟩ | ⟨-, st, hst, e⟩ | ⟨-, m, n, len, e, -⟩ <;>
    rw [e] at h ⊢
  · cases h
  · cases h
  · simp only [failToken] at h
    subst h
    simp at hst
  · exact decReady_commitToken m n len ready

theorem decodeSteps_inflateLoop (fuel : Nat) {s : State} (produced : Nat) (ready : decReady s = true) :
    ReflTransGen DecodeStep s (inflateLoop fuel s produced).1 := by
  induction fuel generalizing s produced with
  | zero => exact .single (decodeStep_inflateToken ready)
  | succ fuel ih =>
    have first := decodeStep_inflateToken ready
    have next := decReady_inflateToken ready
    simp only [inflateLoop]
    split
    · rename_i h
      rw [h] at first next
      exact .head first (ih _ (next rfl))
    · rename_i h
      rw [h] at first
      exact .single first

/-! ### The inversion of `exec` -/

/-- The state in which `codec_open` leaves the block (46_lzsw_encode.md R270). -/
def openedState (mode : CodecMode) (ty : VlcType) (a : Word) (s : State) : State :=
  let k := match mode with
    | .enc => s.cur0
    | .dec => s.cur1
  { s with
    cstate := match mode with
      | .enc => .enc
      | .dec => .dec
    vlcType := ty
    vlcParam := a.extractLsb' 0 6
    wOrg := k.pos
    wEnd := k.pos
    wLen := 0
    posBits := 0
    base := 0
    sEnd := match mode with
      | .enc => s.cur0.fin
      | .dec => 0
    index := WindowIndex.empty }

/-- What a command or a stream form can do. -/
inductive CommandEffect (i : Instr) (s : State) : State → Prop where
  | named {c : CurSel} {t : State} (names : namedCursor i = some c) (effect : CursorEffect i c s t) :
      CommandEffect i s t
  | refused {st : Status} (error : 0x10 ≤ (statusCode st).toNat) : CommandEffect i s (answered s st 0 0)
  | reported (r0 r1 : Word) (is : i = .codecState ∨ i = .winFind) : CommandEffect i s (answered s .ok r0 r1)
  | opened {mode : CodecMode} {ty : VlcType} {a : Word} (is : i = .codecOpen mode ty a)
      (legal : vlcParamOk ty a = true) : CommandEffect i s (answered (openedState mode ty a s) .ok 0 0)
  | closed (is : i = .codecClose) : CommandEffect i s (answered { s with cstate := .closed } .ok 0 0)
  | encoded {u : State} (st : Status) (r0 r1 : Word) (is : i = .deflateStep ∨ i = .deflateRun)
      (ready : encReady s = true) (steps : ReflTransGen EncodeStep s u) :
      CommandEffect i s (answered u st r0 r1)
  | decoded {u : State} (st : Status) (r0 r1 : Word)
      (is : i = .inflateStep ∨ i = .inflateRun ∨ ∃ tk : Token, i = tk.instr)
      (ready : decReady s = true) (steps : ReflTransGen DecodeStep s u) :
      CommandEffect i s (answered u st r0 r1)
  | codeRead {ty : VlcType} {v : Word} {len : Nat} (r0 r1 : Word) (is : i = ty.instr v)
      (there : len ≤ leftBits s.cur0) :
      CommandEffect i s (answered { s with cur0 := advance s.cur0 len } .ok r0 r1)

theorem CommandEffect.of_raise {i : Instr} {s t : State} {st : Status} (error : 0x10 ≤ (statusCode st).toNat)
    (h : raise st s = .next t) : CommandEffect i s t := by
  rw [raise_eq] at h
  cases h
  exact .refused error

theorem codecOpen_effect {mode : CodecMode} {ty : VlcType} {a : Word} {s t : State}
    (h : execCodecOpen mode ty a s = .next t) : CommandEffect (.codecOpen mode ty a) s t := by
  unfold execCodecOpen at h
  extract_lets k at h
  split at h
  · exact .of_raise (by decide) h
  · rename_i legal
    split at h
    · exact .of_raise (by decide) h
    · rw [respond_eq] at h
      cases h
      exact .opened rfl (by simpa using legal)

theorem codecClose_effect {s t : State} (h : execCodecClose s = .next t) : CommandEffect .codecClose s t := by
  simp only [execCodecClose] at h
  split at h
  · exact .of_raise (by decide) h
  · rw [respond_eq] at h
    cases h
    exact .closed rfl

theorem deflateStep_effect {s t : State} (h : execDeflateStep s = .next t) :
    CommandEffect .deflateStep s t := by
  simp only [execDeflateStep] at h
  split at h
  · rename_i ready
    rw [respond_eq] at h
    cases h
    exact .encoded _ _ _ (.inl rfl) ready (.single (encodeStep_deflateToken ready))
  · exact .of_raise (by decide) h

theorem deflateRun_effect {s t : State} (h : execDeflateRun s = .next t) :
    CommandEffect .deflateRun s t := by
  simp only [execDeflateRun] at h
  split at h
  · rename_i ready
    rw [respond_eq] at h
    cases h
    exact .encoded _ _ _ (.inr rfl) ready (encodeSteps_deflateLoop _ _ ready)
  · exact .of_raise (by decide) h

theorem inflateStep_effect {s t : State} (h : execInflateStep s = .next t) :
    CommandEffect .inflateStep s t := by
  simp only [execInflateStep] at h
  split at h
  · rename_i ready
    rw [respond_eq] at h
    cases h
    exact .decoded _ _ _ (.inl rfl) ready (.single (decodeStep_inflateToken ready))
  · exact .of_raise (by decide) h

theorem inflateRun_effect {s t : State} (h : execInflateRun s = .next t) :
    CommandEffect .inflateRun s t := by
  simp only [execInflateRun] at h
  split at h
  · rename_i ready
    have steps := decodeSteps_inflateLoop (leftBits s.cur0) 0 ready
    split at h <;> (simp only [raise_eq, respond_eq] at h; cases h; exact .decoded _ _ _ (.inr (.inl rfl)) ready steps)
  · exact .of_raise (by decide) h

theorem meetToken_effect {tk : Token} {s t : State} (h : meetToken tk s = .next t) :
    CommandEffect tk.instr s t := by
  simp only [meetToken] at h
  split at h
  · rename_i ready
    rw [respond_eq] at h
    cases h
    refine .decoded _ _ _ (.inr (.inr ⟨tk, rfl⟩)) ready (.single ?_)
    split
    · exact .finished ready ‹_›
    · split
      · exact .full ready
      · split
        · exact .malformed ready
        · exact decodeStep_applyToken tk ready (by omega)
  · exact .of_raise (by decide) h

theorem tokenMatch_effect {offset value : Word} {s t : State} (h : execTokenMatch offset value s = .next t) :
    CommandEffect (.tokenMatch offset value) s t := by
  simp only [execTokenMatch] at h
  split at h
  · rename_i unrepresentable
    simp only [Bool.and_eq_true] at unrepresentable
    obtain ⟨⟨ready, -⟩, -⟩ := unrepresentable
    rw [respond_eq] at h
    cases h
    exact .decoded _ _ _ (.inr (.inr ⟨.matchRef offset value, rfl⟩)) ready (.single (.malformed ready))
  · exact meetToken_effect h

theorem meetCode_effect {ty : VlcType} {v : Word} {s t : State} (h : meetCode ty v s = .next t) :
    CommandEffect (ty.instr v) s t := by
  simp only [meetCode] at h
  split at h
  · exact .of_raise (by decide) h
  · split at h
    · exact .of_raise (by decide) h
    · split at h
      · exact .of_raise (by decide) h
      · rw [respond_eq] at h
        cases h
        exact .codeRead _ _ rfl (by omega)

theorem winFind_effect {s t : State} (h : execWinFind s = .next t) : CommandEffect .winFind s t := by
  simp only [execWinFind] at h
  split at h
  · rw [respond_eq] at h
    cases h
    exact .reported _ _ (.inr rfl)
  · exact .of_raise (by decide) h

/-- Whatever `exec` answers is one of the effects above. -/
theorem commandEffect_of_exec {i : Instr} {s t : State} (h : exec i s = .next t) : CommandEffect i s t := by
  cases names : namedCursor i with
  | some c => exact .named names (cursorCommand_effect i c s t names h)
  | none =>
    cases i <;> simp only [namedCursor, reduceCtorEq] at names
    case codecOpen => exact codecOpen_effect h
    case codecClose => exact codecClose_effect h
    case deflateStep => exact deflateStep_effect h
    case deflateRun => exact deflateRun_effect h
    case inflateStep => exact inflateStep_effect h
    case inflateRun => exact inflateRun_effect h
    case codecState =>
      cases h
      exact .reported _ _ (.inl rfl)
    case winFind => exact winFind_effect h
    case tokenLiteralPair b0 b1 => exact meetToken_effect (tk := .literalPair b0 b1) h
    case tokenMatch => exact tokenMatch_effect h
    case tokenSingleLiteral b0 => exact meetToken_effect (tk := .singleLiteral b0) h
    case vlcFixed v => exact meetCode_effect (ty := .fixed) h
    case vlcGolomb v => exact meetCode_effect (ty := .golomb) h
    case vlcGamma v => exact meetCode_effect (ty := .gamma) h

end Sys2Proof.Machine

/-! ## What a step of the machine can do (70_reset_and_hazards.md R350, R351; 60_exceptions.md R336) -/

namespace Sys2Proof.Machine

/-- What every command keeps and the answer to an illegal word keeps, a command word keeps. -/
theorem runCommand_keeps {P : State → Prop} (command : ∀ {i s t}, P s → exec i s = .next t → P t)
    (illegal : ∀ {s}, P s → P (answered s .eIllegal 0 0)) {w : CommandWord} {s t : State} (hs : P s)
    (h : runCommand w s = .next t) : P t := by
  simp only [runCommand] at h
  split at h
  · exact command hs h
  · cases h
    exact illegal hs

/-- What every act of the host keeps, a step keeps. -/
theorem step_keeps {P : State → Prop} (inputs : ∀ {s} rest, P s → P { s with inputs := rest })
    (command : ∀ {i s t}, P s → exec i s = .next t → P t)
    (illegal : ∀ {s}, P s → P (answered s .eIllegal 0 0))
    (write : ∀ {s} (a : Word) (b : Byte), P s → P { s with mem := memWrite s.mem a.toNat b })
    (reset : ∀ {s}, P s → P (resetBlock s)) (resetDuring : ∀ {s} w, P s → P (resetDuringCommand w s))
    {s t : State} (hs : P s) (h : step s = .next t) : P t := by
  simp only [step, takeInput] at h
  split at h
  · cases h
    exact hs
  · rename_i x rest _
    have hs := inputs rest hs
    cases x with
    | command w => exact runCommand_keeps command illegal hs h
    | write a b => cases h; exact write a b hs
    | reset => cases h; exact reset hs
    | resetDuring w => cases h; exact resetDuring w hs

/-- A reset during a command differs from a reset between commands in memory and the counter of free
values only. -/
theorem resetDuringCommand_eq (w : CommandWord) (s : State) :
    ∃ m k, resetDuringCommand w s = { resetBlock s with mem := m, freeCount := k } := by
  simp only [resetDuringCommand]
  split
  · exact ⟨_, _, rfl⟩
  · exact ⟨s.mem, s.freeCount, rfl⟩
  · exact ⟨s.mem, s.freeCount, rfl⟩

/-- For a property of the registers one case covers both resets, since a reset clears them all. -/
theorem step_keeps_registers {P : State → Prop} (inputs : ∀ {s} rest, P s → P { s with inputs := rest })
    (command : ∀ {i s t}, P s → exec i s = .next t → P t)
    (illegal : ∀ {s}, P s → P (answered s .eIllegal 0 0))
    (write : ∀ {s} (a : Word) (b : Byte), P s → P { s with mem := memWrite s.mem a.toNat b })
    (reset : ∀ s m k, P { resetBlock s with mem := m, freeCount := k })
    {s t : State} (hs : P s) (h : step s = .next t) : P t := by
  refine step_keeps inputs command illegal write (fun {s} _ => reset s s.mem s.freeCount) ?_ hs h
  intro s w _
  obtain ⟨m, k, e⟩ := resetDuringCommand_eq w s
  exact e ▸ reset s m k

/-! ## Frames: what each kind of command leaves as it was -/

open Relation (ReflTransGen)

/-- What every turn of the encoder or decoder keeps, any number of turns keeps. -/
theorem kept_by_turns {R : State → State → Prop} {P : State → Prop} (turn : ∀ {s t}, P s → R s t → P t)
    {s t : State} (hs : P s) (turns : ReflTransGen R s t) : P t := by
  induction turns with
  | refl => exact hs
  | tail _ last ih => exact turn ih last

/-- The registers that `codec_open` alone writes, and those that no command writes. -/
def sameOpening (s t : State) : Prop :=
  sameHost s t ∧ t.vlcType = s.vlcType ∧ t.vlcParam = s.vlcParam ∧ t.wOrg = s.wOrg ∧ t.sEnd = s.sEnd

theorem sameOpening_refl (s : State) : sameOpening s s := ⟨⟨rfl, rfl, rfl, rfl⟩, rfl, rfl, rfl, rfl⟩

theorem sameOpening_trans {s t u : State} (h : sameOpening s t) (h' : sameOpening t u) :
    sameOpening s u := by
  obtain ⟨⟨a, b, c, d⟩, e, f, g, i⟩ := h
  obtain ⟨⟨a', b', c', d'⟩, e', f', g', i'⟩ := h'
  exact ⟨⟨a'.trans a, b'.trans b, c'.trans c, d'.trans d⟩, e'.trans e, f'.trans f, g'.trans g, i'.trans i⟩

theorem EncodeStep.sameOpening {s t : State} (h : EncodeStep s t) : sameOpening s t := by
  cases h <;> exact ⟨⟨rfl, rfl, rfl, rfl⟩, rfl, rfl, rfl, rfl⟩

theorem DecodeStep.sameOpening {s t : State} (h : DecodeStep s t) : sameOpening s t := by
  cases h <;> exact ⟨⟨rfl, rfl, rfl, rfl⟩, rfl, rfl, rfl, rfl⟩

/-- The decoder has no index and no `BASE` (10_state.md R39). -/
theorem DecodeStep.index_base {s t : State} (h : DecodeStep s t) : t.index = s.index ∧ t.base = s.base := by
  cases h <;> exact ⟨rfl, rfl⟩

theorem encodeSteps_sameOpening {s t : State} (h : ReflTransGen EncodeStep s t) : sameOpening s t :=
  kept_by_turns (P := Machine.sameOpening s) (fun hs turn => sameOpening_trans hs turn.sameOpening)
    (sameOpening_refl s) h

theorem decodeSteps_sameOpening {s t : State} (h : ReflTransGen DecodeStep s t) : sameOpening s t :=
  kept_by_turns (P := Machine.sameOpening s) (fun hs turn => sameOpening_trans hs turn.sameOpening)
    (sameOpening_refl s) h

theorem decodeSteps_index_base {s t : State} (h : ReflTransGen DecodeStep s t) :
    t.index = s.index ∧ t.base = s.base :=
  kept_by_turns (P := fun u => u.index = s.index ∧ u.base = s.base)
    (fun ⟨index, base⟩ turn => ⟨turn.index_base.1.trans index, turn.index_base.2.trans base⟩) ⟨rfl, rfl⟩ h

/-- A command that names a cursor leaves the other cursor, the codec and the host's fields alone. -/
theorem CursorEffect.frame {i : Instr} {c : CurSel} {s t : State} (h : CursorEffect i c s t) :
    getCur t (otherCursor c) = getCur s (otherCursor c) ∧ sameCodec s t ∧ sameHost s t := by
  rcases h with ⟨st, r0, r1, rfl, -⟩ | ⟨m, k, r0, r1, rfl, -⟩ <;> simp [sameCodec, sameHost]

/-- Only `attach` moves a region. -/
theorem CursorEffect.region {i : Instr} {c : CurSel} {s t : State} (h : CursorEffect i c s t)
    (hi : ∀ a b, i ≠ .attach c a b) :
    (getCur t c).origin = (getCur s c).origin ∧ (getCur t c).fin = (getCur s c).fin := by
  rcases h with ⟨st, r0, r1, rfl, -⟩ | ⟨m, k, r0, r1, rfl, region, -⟩
  · simp
  · simpa using region hi

/-- Settles O57: the frame of the inversion lemma of the cursor commands. -/
theorem cursorCommandsKeepTheOtherCursorAndTheCodec :
    Obligations.CursorCommandsKeepTheOtherCursorAndTheCodec := by
  intro i c s t names h
  have effect := cursorCommand_effect i c s t names h
  obtain ⟨other, codec, -⟩ := effect.frame
  exact ⟨other, codec, effect.region⟩

theorem CommandEffect.sameHost {i : Instr} {s t : State} (h : CommandEffect i s t) : sameHost s t := by
  cases h with
  | named _ effect => exact effect.frame.2.2
  | encoded _ _ _ _ _ steps => exact (encodeSteps_sameOpening steps :).1
  | decoded _ _ _ _ _ steps => exact (decodeSteps_sameOpening steps :).1
  | _ => exact ⟨rfl, rfl, rfl, rfl⟩

theorem CommandEffect.sameOpening {i : Instr} {s t : State} (h : CommandEffect i s t)
    (hi : ∀ mode ty a, i ≠ .codecOpen mode ty a) : sameOpening s t := by
  cases h with
  | named _ effect =>
    obtain ⟨-, ⟨-, type, param, org, -, -, -, -, source, -⟩, host⟩ := effect.frame
    exact ⟨host, type, param, org, source⟩
  | opened is => exact absurd is (hi _ _ _)
  | encoded _ _ _ _ _ steps => exact (encodeSteps_sameOpening steps :)
  | decoded _ _ _ _ _ steps => exact (decodeSteps_sameOpening steps :)
  | _ => exact ⟨⟨rfl, rfl, rfl, rfl⟩, rfl, rfl, rfl, rfl⟩

theorem CommandEffect.index_base {i : Instr} {s t : State} (h : CommandEffect i s t)
    (hopen : ∀ mode ty a, i ≠ .codecOpen mode ty a) (hstep : i ≠ .deflateStep) (hrun : i ≠ .deflateRun) :
    t.index = s.index ∧ t.base = s.base := by
  cases h with
  | named _ effect =>
    obtain ⟨-, ⟨-, -, -, -, -, -, -, base, -, index⟩, -⟩ := effect.frame
    exact ⟨index, base⟩
  | opened is => exact absurd is (hopen _ _ _)
  | encoded _ _ _ is => exact (is.elim hstep hrun).elim
  | decoded _ _ _ _ _ steps => exact (decodeSteps_index_base steps :)
  | _ => exact ⟨rfl, rfl⟩

theorem CommandEffect.cstate {i : Instr} {s t : State} (h : CommandEffect i s t)
    (hopen : ∀ mode ty a, i ≠ .codecOpen mode ty a) (hdstep : i ≠ .deflateStep) (hdrun : i ≠ .deflateRun)
    (hclose : i ≠ .codecClose) (histep : i ≠ .inflateStep) (hirun : i ≠ .inflateRun)
    (htoken : ∀ tk : Token, i ≠ tk.instr) : t.cstate = s.cstate := by
  cases h with
  | named _ effect => exact effect.frame.2.1.1
  | opened is => exact absurd is (hopen _ _ _)
  | closed is => exact absurd is hclose
  | encoded _ _ _ is => exact (is.elim hdstep hdrun).elim
  | decoded _ _ _ is => exact (is.elim histep fun is => is.elim hirun fun ⟨tk, is⟩ => htoken tk is).elim
  | _ => rfl

/-- Settles O58: each register's writers, read off the inversion of `exec`. -/
theorem onlyTheCodecCommandsWriteTheCodecRegisters :
    Obligations.OnlyTheCodecCommandsWriteTheCodecRegisters := by
  intro i s t h
  have effect := commandEffect_of_exec h
  refine ⟨effect.sameHost, fun hopen => ?_⟩
  obtain ⟨-, type, param, org, source⟩ := effect.sameOpening hopen
  refine ⟨type, param, org, source, fun hstep hrun => ?_⟩
  obtain ⟨index, base⟩ := effect.index_base hopen hstep hrun
  exact ⟨index, base, effect.cstate hopen hstep hrun⟩

/-! ## Memory is written only where the command may -/

@[simp] theorem syncCursor_fin (k : Cursor) : (syncCursor k).fin = k.fin := by
  simp only [syncCursor]
  split <;> rfl

/-- From `s` to `t` only bytes of the output region from the output position on are written, and
until the encoder ends its output position moves forward only. -/
def WritesOutput (s t : State) : Prop :=
  t.cur1.fin = s.cur1.fin ∧ (t.cstate ≠ .encDone → s.cur1.pos.toNat ≤ t.cur1.pos.toNat) ∧
    ∀ x, memRead t.mem x ≠ memRead s.mem x → s.cur1.pos.toNat ≤ x ∧ x < s.cur1.fin.toNat

theorem writesOutput_refl (s : State) : WritesOutput s s :=
  ⟨rfl, fun _ => Nat.le_refl _, fun _ hx => absurd rfl hx⟩

theorem writesOutput_trans {s t u : State} (h : WritesOutput s t) (running : t.cstate ≠ .encDone)
    (h' : WritesOutput t u) : WritesOutput s u := by
  obtain ⟨fin, pos, mem⟩ := h
  obtain ⟨fin', pos', mem'⟩ := h'
  have forward := pos running
  refine ⟨fin'.trans fin, fun ends => forward.trans (pos' ends), fun x hx => ?_⟩
  by_cases ht : memRead t.mem x = memRead s.mem x
  · obtain ⟨low, high⟩ := mem' x (ht ▸ hx)
    exact ⟨forward.trans low, fin ▸ high⟩
  · exact mem x ht

theorem EncodeStep.writesOutput {s t : State} (h : EncodeStep s t) : WritesOutput s t := by
  cases h with
  | finished => exact ⟨syncCursor_fin _, fun ends => absurd rfl ends, fun _ hx => absurd rfl hx⟩
  | full => exact writesOutput_refl s
  | token _ _ room =>
    have pos : (afterToken s).cur1.pos.toNat = _ := advance_pos s.cur1 _ room
    exact ⟨rfl, fun _ => by omega, fun x hx => writeBits_region _ _ _ room x hx⟩

theorem DecodeStep.writesOutput {s t : State} (h : DecodeStep s t) : WritesOutput s t := by
  cases h with
  | @token m n len _ room _ frame _ =>
    have pos : (commitToken s m n len).1.cur1.pos.toNat = _ := advanceBytes_pos s.cur1 n room
    refine ⟨rfl, fun _ => by omega, fun x hx => ?_⟩
    by_contra outside
    simp only [leftBytes] at room
    exact hx (frame x (by omega))
  | _ => exact ⟨rfl, fun _ => Nat.le_refl _, fun _ hx => absurd rfl hx⟩

theorem EncodeStep.running {s t : State} (h : EncodeStep s t) : s.cstate = .enc := by
  cases h <;> exact ((encReady_iff s).mp ‹_›).1

theorem DecodeStep.running {s t : State} (h : DecodeStep s t) : s.cstate = .dec := by
  cases h <;> exact ((decReady_iff s).mp ‹_›).1

theorem encodeSteps_writesOutput {s t : State} (h : ReflTransGen EncodeStep s t) : WritesOutput s t :=
  kept_by_turns (P := WritesOutput s)
    (fun hs turn => writesOutput_trans hs (by simp [turn.running]) turn.writesOutput) (writesOutput_refl s) h

theorem decodeSteps_writesOutput {s t : State} (h : ReflTransGen DecodeStep s t) : WritesOutput s t :=
  kept_by_turns (P := WritesOutput s)
    (fun hs turn => writesOutput_trans hs (by simp [turn.running]) turn.writesOutput) (writesOutput_refl s) h

/-- Settles O59: only cursor commands and turns of the encoder or decoder write memory at all. -/
theorem memoryIsWrittenOnlyWhereTheCommandMay : Obligations.MemoryIsWrittenOnlyWhereTheCommandMay := by
  intro i s t x h hx
  cases commandEffect_of_exec h with
  | named _ effect =>
    rcases effect with ⟨st, r0, r1, rfl, -⟩ | ⟨m, k, r0, r1, rfl, -, -, -, region⟩
    · exact absurd rfl hx
    · exact region x (by simpa using hx)
  | encoded _ _ _ is _ steps =>
    have region := (encodeSteps_writesOutput steps).2.2 x hx
    rcases is with rfl | rfl <;> exact region
  | decoded _ _ _ is _ steps =>
    have region := (decodeSteps_writesOutput steps).2.2 x hx
    rcases is with rfl | rfl | ⟨tk, rfl⟩
    · exact region
    · exact region
    · cases tk <;> exact region
  | _ => exact absurd rfl hx

/-! ## The invariants of the cursors (10_state.md R22) -/

theorem CursorEffect.cursorsOk {i : Instr} {c : CurSel} {s t : State} (h : CursorEffect i c s t)
    (hs : CursorsOk s) : CursorsOk t := by
  rcases h with ⟨st, r0, r1, rfl, -⟩ | ⟨m, k, r0, r1, rfl, -, region, -⟩
  · exact hs
  · cases c
    · exact ⟨region hs.1, hs.2⟩
    · exact ⟨hs.1, region hs.2⟩

theorem EncodeStep.cursorsOk {s t : State} (h : EncodeStep s t) (hs : CursorsOk s) : CursorsOk t := by
  obtain ⟨source, output⟩ := hs
  cases h with
  | finished => exact ⟨source, (syncCursor_spec _ output).2.2.2.2⟩
  | full => exact ⟨source, output⟩
  | token ready more room =>
    obtain ⟨-, aligned, -⟩ := (encReady_iff s).mp ready
    exact ⟨cursorOk_advanceBytes _ _ source aligned (chooseToken_bounds s source more).2,
      cursorOk_advance _ _ output room⟩

theorem DecodeStep.cursorsOk {s t : State} (h : DecodeStep s t) (hs : CursorsOk s) : CursorsOk t := by
  obtain ⟨input, output⟩ := hs
  cases h with
  | token ready room there =>
    obtain ⟨-, aligned, -⟩ := (decReady_iff s).mp ready
    exact ⟨cursorOk_advance _ _ input there, cursorOk_advanceBytes _ _ output aligned room⟩
  | _ => exact ⟨input, output⟩

theorem CommandEffect.cursorsOk {i : Instr} {s t : State} (h : CommandEffect i s t) (hs : CursorsOk s) :
    CursorsOk t := by
  cases h with
  | named _ effect => exact effect.cursorsOk hs
  | encoded _ _ _ _ _ steps => exact (kept_by_turns (fun hs turn => turn.cursorsOk hs) hs steps :)
  | decoded _ _ _ _ _ steps => exact (kept_by_turns (fun hs turn => turn.cursorsOk hs) hs steps :)
  | codeRead _ _ _ there => exact ⟨cursorOk_advance _ _ hs.1 there, hs.2⟩
  | _ => exact hs

theorem cursorsOk_reset : CursorsOk State.reset := by decide

/-- Settles O53: a reset detaches both cursors, and every effect of a command keeps R22. -/
theorem everyStepKeepsTheCursorsInTheirRegions : Obligations.EveryStepKeepsTheCursorsInTheirRegions :=
  ⟨cursorsOk_reset, fun _ _ hs h => step_keeps_registers (P := CursorsOk) (fun _ hs => hs)
    (fun hs h => (commandEffect_of_exec h).cursorsOk hs) (fun hs => hs) (fun _ _ hs => hs)
    (fun _ _ _ => cursorsOk_reset) hs h⟩

/-! ## The invariants of the window (10_state.md R31) -/

theorem strategyOk_of_sameOpening {s t : State} (h : sameOpening s t) (running : s.cstate ≠ .closed)
    (hs : StrategyOk s) : StrategyOk t := by
  obtain ⟨-, type, param, -⟩ := h
  intro _
  rw [type, param]
  exact hs running

theorem EncodeStep.windowOk {s t : State} (h : EncodeStep s t) (cursors : CursorsOk s) (hs : WindowOk s) :
    WindowOk t := by
  intro _
  obtain ⟨order, len, bits, base⟩ := hs (by simp [h.running])
  cases h with
  | finished ready => exact ⟨order, len, bits, fun _ => base (.inl ((encReady_iff s).mp ready).1)⟩
  | full => exact ⟨order, len, bits, base⟩
  | token ready more room =>
    obtain ⟨-, -, atEnd, -⟩ := (encReady_iff s).mp ready
    have bound := (chooseToken_bounds s cursors.1 more).2
    have fin := s.cur0.fin.isLt
    have below : s.cur0.pos.toNat + (chooseToken s).2 < 2 ^ 32 := by
      simp only [leftBytes] at bound
      have := cursors.1.2.1
      omega
    have wEnd := slideWindow_wEnd { s with
      mem := writeBits s.mem (bitAddr s.cur1) (chosenBits s)
      cur1 := advance s.cur1 (chosenBits s).length } _ below
    refine ⟨?_, ?_, slideWindow_posBits _ _ below, fun _ => slideWindow_base _ _ below⟩
    · refine le_trans ?_ wEnd.ge
      have order : s.wOrg.toNat ≤ s.wEnd.toNat := order
      rw [← atEnd] at order
      exact order.trans (Nat.le_add_right _ _)
    · exact (slideWindow_wLen _ _ below).trans (by rw [← wEnd]; rfl)

theorem DecodeStep.windowOk {s t : State} (h : DecodeStep s t) (hs : WindowOk s) :
    WindowOk t := by
  intro _
  obtain ⟨order, len, bits, base⟩ := hs (by simp [h.running])
  have decoding := h.running
  cases h with
  | finished => exact ⟨order, len, bits, by simp⟩
  | full => exact ⟨order, len, bits, base⟩
  | malformed => exact ⟨order, len, bits, by simp⟩
  | @token m n tokenLen ready room =>
    obtain ⟨-, -, atEnd, -⟩ := (decReady_iff s).mp ready
    have fin := s.cur1.fin.isLt
    have pos := s.cur1.pos.isLt
    simp only [leftBytes] at room
    have wEnd : (word (s.cur1.pos.toNat + n)).toNat = s.cur1.pos.toNat + n := word_toNat_of_lt _ (by omega)
    have wLen : (word (min (s.cur1.pos.toNat + n - s.wOrg.toNat) s.maxWindow)).toNat = _ :=
      word_toNat_of_lt _ (by omega)
    rw [← atEnd] at order
    refine ⟨?_, ?_, ?_, by simp [commitToken, decoding]⟩
    · exact (order.trans (Nat.le_add_right _ _)).trans wEnd.ge
    · exact wLen.trans (by rw [← wEnd]; rfl)
    · exact (posBits_toNat _ (by omega)).trans (congrArg clog2 wLen.symm)

theorem windowOk_of_sameCodec {s t : State} (h : sameCodec s t) (host : sameHost s t) (hs : WindowOk s) :
    WindowOk t := by
  obtain ⟨state, -, -, org, wEnd, len, bits, base, -, -⟩ := h
  obtain ⟨-, maxWindow, -, -⟩ := host
  simpa only [WindowOk, state, org, wEnd, len, bits, base, maxWindow] using hs

/-- A legal parameter is all in the six bits that `VLC_PARAM` holds. -/
theorem setWidth_vlcParam {ty : VlcType} {a : Word} (h : vlcParamOk ty a = true) :
    (a.extractLsb' 0 6).setWidth 32 = a := by
  have small : a.toNat < 64 := by
    cases ty
    case fixed => have := (vlcParamOk_fixed a).mp h; omega
    case golomb => have := (vlcParamOk_golomb a).mp h; omega
    case gamma => simp [of_decide_eq_true h]
  apply BitVec.eq_of_toNat_eq
  simp
  omega

theorem windowOk_openedState (mode : CodecMode) (ty : VlcType) (a : Word) (s : State) :
    WindowOk (openedState mode ty a s) :=
  fun _ => ⟨Nat.le_refl _, by simp [openedState], rfl, fun _ => by simp [openedState]⟩

/-- The strategy and the window that is open are as R29 and R31 say, both cursors as R22 says. -/
def InstanceOk (s : State) : Prop := CursorsOk s ∧ StrategyOk s ∧ WindowOk s

theorem EncodeStep.instanceOk {s t : State} (h : EncodeStep s t) (hs : InstanceOk s) : InstanceOk t := by
  obtain ⟨cursors, strategy, window⟩ := hs
  exact ⟨h.cursorsOk cursors, strategyOk_of_sameOpening h.sameOpening (by simp [h.running]) strategy,
    h.windowOk cursors window⟩

theorem DecodeStep.instanceOk {s t : State} (h : DecodeStep s t) (hs : InstanceOk s) : InstanceOk t := by
  obtain ⟨cursors, strategy, window⟩ := hs
  exact ⟨h.cursorsOk cursors, strategyOk_of_sameOpening h.sameOpening (by simp [h.running]) strategy,
    h.windowOk window⟩

theorem CommandEffect.instanceOk {i : Instr} {s t : State} (h : CommandEffect i s t) (hs : InstanceOk s) :
    InstanceOk t := by
  refine ⟨h.cursorsOk hs.1, ?_⟩
  have ⟨cursors, strategy, window⟩ := hs
  cases h with
  | named _ effect =>
    obtain ⟨-, codec, host⟩ := effect.frame
    refine ⟨?_, windowOk_of_sameCodec codec host window⟩
    obtain ⟨state, type, param, -⟩ := codec
    simpa only [StrategyOk, state, type, param] using strategy
  | @opened mode ty a _ legal =>
    exact ⟨fun _ => (setWidth_vlcParam legal).symm ▸ legal, windowOk_openedState mode ty a s⟩
  | closed => exact ⟨fun running => absurd rfl running, fun running => absurd rfl running⟩
  | encoded _ _ _ _ _ steps => exact (kept_by_turns (fun hs turn => turn.instanceOk hs) hs steps :).2
  | decoded _ _ _ _ _ steps => exact (kept_by_turns (fun hs turn => turn.instanceOk hs) hs steps :).2
  | _ => exact ⟨strategy, window⟩

theorem instanceOk_cleared (s : State) (m : Memory) (k : Nat) :
    InstanceOk { resetBlock s with mem := m, freeCount := k } :=
  ⟨cursorsOk_reset, fun running => absurd rfl running, fun running => absurd rfl running⟩

theorem step_keeps_instanceOk {s t : State} (hs : InstanceOk s) (h : step s = .next t) : InstanceOk t :=
  step_keeps_registers (P := InstanceOk) (fun _ hs => hs)
    (fun hs h => (commandEffect_of_exec h).instanceOk hs) (fun hs => hs) (fun _ _ hs => hs)
    instanceOk_cleared hs h

/-! ### The window in its cursor's region (10_state.md R31 item 4) -/

/-- While the encoder runs its window lies in the source region, the decoder's in the output region. -/
def WindowInRegion (s : State) : Prop :=
  (s.cstate = .enc → s.cur0.origin.toNat ≤ s.wOrg.toNat ∧ s.wOrg.toNat ≤ s.wEnd.toNat ∧
    s.wEnd.toNat ≤ s.cur0.fin.toNat ∧ s.cur0.fin = s.sEnd) ∧
  (s.cstate = .dec → s.cur1.origin.toNat ≤ s.wOrg.toNat ∧ s.wOrg.toNat ≤ s.wEnd.toNat ∧
    s.wEnd.toNat ≤ s.cur1.fin.toNat)

theorem windowInRegion_of_encoding {s : State} (state : s.cstate = .enc ∨ s.cstate = .encDone)
    (ready : s.cstate = .enc → encReady s = true) (cursors : CursorsOk s) (window : WindowOk s) :
    WindowInRegion s := by
  refine ⟨fun encoding => ?_, fun decoding => by simp [decoding] at state⟩
  obtain ⟨-, -, atEnd, origin, source, -⟩ := (encReady_iff s).mp (ready encoding)
  exact ⟨origin, (window (by simp [encoding])).1, atEnd ▸ cursors.1.2.1, source⟩

theorem windowInRegion_of_decoding {s : State} (notEncoding : s.cstate ≠ .enc)
    (ready : s.cstate = .dec → decReady s = true) (cursors : CursorsOk s) (window : WindowOk s) :
    WindowInRegion s := by
  refine ⟨fun encoding => absurd encoding notEncoding, fun decoding => ?_⟩
  obtain ⟨-, -, atEnd, origin, -⟩ := (decReady_iff s).mp (ready decoding)
  exact ⟨origin, (window (by simp [decoding])).1, atEnd ▸ cursors.2.2.1⟩

theorem windowInRegion_openedState (mode : CodecMode) (ty : VlcType) (a : Word) {s : State}
    (cursors : CursorsOk s) : WindowInRegion (openedState mode ty a s) := by
  obtain ⟨⟨origin0, pos0, -⟩, ⟨origin1, pos1, -⟩⟩ := cursors
  cases mode
  · exact ⟨fun _ => ⟨origin0, Nat.le_refl _, pos0, rfl⟩, fun decoding => by simp [openedState] at decoding⟩
  · exact ⟨fun encoding => by simp [openedState] at encoding, fun _ => ⟨origin1, Nat.le_refl _, pos1⟩⟩

/-- An encoder that has not ended is still ready. -/
def Encoding (s : State) : Prop :=
  (s.cstate = .enc ∨ s.cstate = .encDone) ∧ (s.cstate = .enc → encReady s = true) ∧ CursorsOk s ∧ WindowOk s

/-- A decoder that has neither ended nor failed is still ready. -/
def Decoding (s : State) : Prop :=
  s.cstate ≠ .enc ∧ (s.cstate = .dec → decReady s = true) ∧ CursorsOk s ∧ WindowOk s

theorem EncodeStep.encoding {s t : State} (hs : Encoding s) (h : EncodeStep s t) : Encoding t := by
  obtain ⟨state, ready, cursors, window⟩ := hs
  refine ⟨?_, ?_, h.cursorsOk cursors, h.windowOk cursors window⟩ <;> cases h
  case refine_1.finished => exact .inr rfl
  case refine_1.full => exact state
  case refine_1.token => exact state
  case refine_2.finished => exact fun encoding => by simp at encoding
  case refine_2.full => exact ready
  case refine_2.token ready _ _ => exact fun _ => encReady_afterToken ready

theorem DecodeStep.decoding {s t : State} (hs : Decoding s) (h : DecodeStep s t) : Decoding t := by
  obtain ⟨state, ready, cursors, window⟩ := hs
  refine ⟨?_, ?_, h.cursorsOk cursors, h.windowOk window⟩ <;> cases h
  case refine_1.finished => simp
  case refine_1.full => exact state
  case refine_1.malformed => simp
  case refine_1.token => exact state
  case refine_2.finished => exact fun decoding => by simp at decoding
  case refine_2.full => exact ready
  case refine_2.malformed => exact fun decoding => by simp at decoding
  case refine_2.token ready _ _ _ _ => exact fun _ => decReady_commitToken _ _ _ ready

theorem windowInRegion_of_encodeSteps {s t : State} (ready : encReady s = true) (cursors : CursorsOk s)
    (window : WindowOk s) (steps : ReflTransGen EncodeStep s t) : WindowInRegion t := by
  obtain ⟨state, ready, cursors, window⟩ := kept_by_turns (P := Encoding) EncodeStep.encoding
    ⟨.inl ((encReady_iff s).mp ready).1, fun _ => ready, cursors, window⟩ steps
  exact windowInRegion_of_encoding state ready cursors window

theorem windowInRegion_of_decodeSteps {s t : State} (ready : decReady s = true) (cursors : CursorsOk s)
    (window : WindowOk s) (steps : ReflTransGen DecodeStep s t) : WindowInRegion t := by
  obtain ⟨state, ready, cursors, window⟩ := kept_by_turns (P := Decoding) DecodeStep.decoding
    ⟨by simp [((decReady_iff s).mp ready).1], fun _ => ready, cursors, window⟩ steps
  exact windowInRegion_of_decoding state ready cursors window

/-- Settles O54: the window registers turn by turn, and the readiness that places the window. -/
theorem everyStepKeepsTheWindowInvariants : Obligations.EveryStepKeepsTheWindowInvariants := by
  refine ⟨fun s t cursors strategy window h => (step_keeps_instanceOk ⟨cursors, strategy, window⟩ h).2, ?_⟩
  intro s t i r cursors window h hi response noError
  show WindowInRegion t
  cases commandEffect_of_exec h with
  | refused error =>
    cases response
    exact absurd noError (Nat.not_lt.mpr error)
  | @opened mode ty a => exact (windowInRegion_openedState mode ty a cursors :)
  | encoded _ _ _ _ ready steps => exact (windowInRegion_of_encodeSteps ready cursors window steps :)
  | decoded _ _ _ _ ready steps => exact (windowInRegion_of_decodeSteps ready cursors window steps :)
  | named names => rcases hi with ⟨mode, ty, a, rfl⟩ | rfl | rfl | rfl | rfl <;> cases names
  | reported _ _ is => rcases is with rfl | rfl <;> simp at hi
  | closed is => subst is; simp at hi
  | @codeRead ty _ _ _ _ is => cases ty <;> (subst is; simp [VlcType.instr] at hi)

/-! ## The pool and the form of memory (10_state.md R33, R34; log 2) -/

theorem poolOk_of_index_eq {s t : State} (index : t.index = s.index) (host : sameHost s t) (hs : PoolOk s) :
    PoolOk t := by
  obtain ⟨-, maxWindow, -, -⟩ := host
  simpa only [PoolOk, index, maxWindow] using hs

theorem EncodeStep.poolOk {s t : State} (h : EncodeStep s t) (hs : PoolOk s) : PoolOk t := by
  cases h with
  | token => exact (slideWindow_pool { s with
      mem := writeBits s.mem (bitAddr s.cur1) (chosenBits s)
      cur1 := advance s.cur1 (chosenBits s).length } _ hs :)
  | _ => exact hs

theorem CommandEffect.poolOk {i : Instr} {s t : State} (h : CommandEffect i s t) (hs : PoolOk s) :
    PoolOk t := by
  cases h with
  | named _ effect =>
    obtain ⟨-, ⟨-, -, -, -, -, -, -, -, -, index⟩, host⟩ := effect.frame
    exact poolOk_of_index_eq index host hs
  | opened => exact empty_pool _
  | encoded _ _ _ _ _ steps => exact (kept_by_turns (fun hs turn => turn.poolOk hs) hs steps :)
  | decoded _ _ _ _ _ steps =>
    exact (poolOk_of_index_eq (decodeSteps_index_base steps).1 (decodeSteps_sameOpening steps).1 hs :)
  | _ => exact hs

theorem step_keeps_poolOk {s t : State} (hs : PoolOk s) (h : step s = .next t) : PoolOk t :=
  step_keeps_registers (P := PoolOk) (fun _ hs => hs) (fun hs h => (commandEffect_of_exec h).poolOk hs)
    (fun hs => hs) (fun _ _ hs => hs) (fun s _ _ => empty_pool s.maxWindow) hs h

/-- Memory is in its canonical form. -/
def MemoryOk (s : State) : Prop := Memory.wf s.mem = true

theorem EncodeStep.memoryOk {s t : State} (h : EncodeStep s t) (hs : MemoryOk s) : MemoryOk t := by
  cases h with
  | token _ _ room => exact wf_writeBits_region _ _ _ room hs
  | _ => exact hs

theorem DecodeStep.memoryOk {s t : State} (h : DecodeStep s t) (hs : MemoryOk s) : MemoryOk t := by
  cases h with
  | token _ _ _ _ canonical => exact canonical hs
  | _ => exact hs

theorem CommandEffect.memoryOk {i : Instr} {s t : State} (h : CommandEffect i s t) (hs : MemoryOk s) :
    MemoryOk t := by
  cases h with
  | named _ effect =>
    rcases effect with ⟨st, r0, r1, rfl, -⟩ | ⟨m, k, r0, r1, rfl, -, -, canonical, -⟩
    · exact hs
    · simpa [MemoryOk] using canonical hs
  | encoded _ _ _ _ _ steps => exact (kept_by_turns (fun hs turn => turn.memoryOk hs) hs steps :)
  | decoded _ _ _ _ _ steps => exact (kept_by_turns (fun hs turn => turn.memoryOk hs) hs steps :)
  | _ => exact hs

theorem runCommand_keeps_memoryOk {w : CommandWord} {s t : State} (hs : MemoryOk s)
    (h : runCommand w s = .next t) : MemoryOk t :=
  runCommand_keeps (fun hs h => (commandEffect_of_exec h).memoryOk hs) (fun hs => hs) hs h

/-- A cut-off command leaves free bytes at addresses of the address space only. -/
theorem memoryOk_resetDuringCommand {s : State} (w : CommandWord) (hs : MemoryOk s) :
    MemoryOk (resetDuringCommand w s) := by
  simp only [resetDuringCommand]
  split
  · rename_i t h
    refine wf_tearMemory _ _ _ _ _ (fun a ha => ?_) hs
    rcases List.mem_append.mp ha with ha | ha
    · exact wf_addresses _ hs a ha
    · exact wf_addresses _ (runCommand_keeps_memoryOk hs h) a ha
  · exact hs
  · exact hs

theorem step_keeps_memoryOk {s t : State} (hs : MemoryOk s) (h : step s = .next t) : MemoryOk t :=
  step_keeps (P := MemoryOk) (fun _ hs => hs) (fun hs h => (commandEffect_of_exec h).memoryOk hs)
    (fun hs => hs) (fun a _ hs => wf_memWrite _ _ _ a.isLt hs) (fun hs => hs)
    (fun w hs => memoryOk_resetDuringCommand w hs) hs h

/-- Settles O55: pool and memory separately, each through every act of the host. -/
theorem everyStepConservesThePoolAndTheMemoryForm :
    Obligations.EveryStepConservesThePoolAndTheMemoryForm :=
  fun _ _ h => ⟨fun hs => step_keeps_poolOk hs h, fun hs => step_keeps_memoryOk hs h⟩

/-! ## Reset, idle steps and host writes -/

theorem paramsOk_reset : ParamsOk State.reset := by
  have range := Config.maxWindowLessTwo.isLt
  simp only [ParamsOk, State.reset, Config.maxWindow, Config.tableSize]
  omega

/-- Settles O56: the reset state invariant by invariant. -/
theorem resetMeetsEveryInvariant : Obligations.ResetMeetsEveryInvariant :=
  ⟨cursorsOk_reset, paramsOk_reset, fun running => absurd rfl running, fun running => absurd rfl running,
    empty_pool _, wf_reset⟩

/-- Settles O8: by the equations of the step. -/
theorem idleStepsAndHostWritesTouchNothingElse : Obligations.IdleStepsAndHostWritesTouchNothingElse := by
  refine ⟨fun s idle => by simp only [step, takeInput, idle], fun s a b rest h => ?_⟩
  refine ⟨memWrite s.mem a.toNat b, by simp only [step, takeInput, h, runInput], fun x => ?_⟩
  exact memRead_memWrite _ _ _ _

end Sys2Proof.Machine

/-! ## Every command is answered (60_exceptions.md R320) -/

namespace Sys2Proof.Machine

/-- The machine goes on: neither a fault nor a refusal. -/
def Answers (r : Host.Outcome State Fault Refusal) : Prop := ∃ t, r = .next t

theorem answers_respond (st : Status) (r0 r1 : Word) (s : State) : Answers (respond st r0 r1 s) := ⟨_, rfl⟩

theorem answers_raise (st : Status) (s : State) : Answers (raise st s) := ⟨_, rfl⟩

theorem answers_ite {p : Prop} [Decidable p] {x y : Host.Outcome State Fault Refusal} (hx : Answers x)
    (hy : Answers y) : Answers (if p then x else y) := by
  split <;> assumption

theorem answers_getField (n : Nat) (ext : Nat → Word) (c : CurSel) (s : State) :
    Answers (getField n ext c s) := answers_ite (answers_raise _ _) (answers_respond _ _ _ _)

theorem answers_peekField (n : Nat) (ext : Nat → Word) (c : CurSel) (s : State) :
    Answers (peekField n ext c s) := answers_ite (answers_raise _ _) (answers_respond _ _ _ _)

theorem answers_setField (n v : Nat) (c : CurSel) (s : State) : Answers (setField n v c s) :=
  answers_ite (answers_raise _ _) (answers_respond _ _ _ _)

theorem answers_getBytes (n : Nat) (order : ByteOrder) (ext : Nat → Word) (c : CurSel) (s : State) :
    Answers (getBytes n order ext c s) :=
  answers_ite (answers_raise _ _) (answers_ite (answers_raise _ _) (answers_respond _ _ _ _))

theorem answers_setBytes (n : Nat) (order : ByteOrder) (v : Nat) (c : CurSel) (s : State) :
    Answers (setBytes n order v c s) :=
  answers_ite (answers_raise _ _) (answers_ite (answers_raise _ _) (answers_respond _ _ _ _))

theorem answers_meetToken (tk : Token) (s : State) : Answers (meetToken tk s) :=
  answers_ite (answers_respond _ _ _ _) (answers_raise _ _)

theorem answers_meetCode (ty : VlcType) (v : Word) (s : State) : Answers (meetCode ty v s) :=
  answers_ite (answers_raise _ _) (answers_ite (answers_raise _ _)
    (answers_ite (answers_raise _ _) (answers_respond _ _ _ _)))

theorem answers_exec (i : Instr) (s : State) : Answers (exec i s) := by
  cases i
  case attach => exact answers_ite (answers_raise _ _) (answers_respond _ _ _ _)
  case goto => exact answers_ite (answers_raise _ _) (answers_respond _ _ _ _)
  case skipBits => exact answers_ite (answers_raise _ _) (answers_respond _ _ _ _)
  case skipBytes =>
    exact answers_ite (answers_raise _ _) (answers_ite (answers_raise _ _) (answers_respond _ _ _ _))
  case sync | tell | leftBytes | leftBits | codecState => exact answers_respond _ _ _ _
  case getU1 => exact answers_getField _ _ _ _
  case setU1 => exact answers_setField _ _ _ _
  case getUbits | getSbits => exact answers_ite (answers_getField _ _ _ _) (answers_raise _ _)
  case peekUbits | peekSbits => exact answers_ite (answers_peekField _ _ _ _) (answers_raise _ _)
  case setUbits | setSbits => exact answers_ite (answers_setField _ _ _ _) (answers_raise _ _)
  case getU8 | getU16Le | getU24Le | getU32Le | getU16Be | getU24Be | getU32Be | getS8 | getS16Le |
      getS24Le | getS32Le | getS16Be | getS24Be | getS32Be => exact answers_getBytes _ _ _ _ _
  case setU8 | setU16Le | setU24Le | setU32Le | setU16Be | setU24Be | setU32Be | setS8 | setS16Le |
      setS24Le | setS32Le | setS16Be | setS24Be | setS32Be => exact answers_setBytes _ _ _ _ _
  case getString c =>
    refine answers_ite (answers_raise _ _) ?_
    split
    · exact answers_respond _ _ _ _
    · exact answers_respond _ _ _ _
  case getData | setData =>
    exact answers_ite (answers_raise _ _) (answers_ite (answers_respond _ _ _ _) (answers_raise _ _))
  case vlcPut =>
    exact answers_ite (answers_raise _ _) (answers_ite (answers_raise _ _)
      (answers_ite (answers_raise _ _) (answers_respond _ _ _ _)))
  case vlcGet c =>
    refine answers_ite (answers_raise _ _) ?_
    split
    · exact answers_raise _ _
    · exact answers_respond _ _ _ _
  case codecOpen =>
    exact answers_ite (answers_raise _ _) (answers_ite (answers_raise _ _) (answers_respond _ _ _ _))
  case codecClose => exact answers_ite (answers_raise _ _) (answers_respond _ _ _ _)
  case deflateStep | deflateRun | inflateStep | winFind =>
    exact answers_ite (answers_respond _ _ _ _) (answers_raise _ _)
  case inflateRun =>
    exact answers_ite (answers_ite (answers_raise _ _) (answers_respond _ _ _ _)) (answers_raise _ _)
  case tokenLiteralPair => exact answers_meetToken _ _
  case tokenMatch => exact answers_ite (answers_respond _ _ _ _) (answers_meetToken _ _)
  case tokenSingleLiteral => exact answers_meetToken _ _
  case vlcFixed | vlcGolomb | vlcGamma => exact answers_meetCode _ _ _

theorem answers_runCommand (w : CommandWord) (s : State) : Answers (runCommand w s) := by
  simp only [runCommand]
  split
  · exact answers_exec _ _
  · exact answers_raise _ _

/-- A reset during a command keeps what the finished command would have left as it was. -/
theorem memRead_resetDuringCommand {w : CommandWord} {s finished : State}
    (h : runCommand w s = .next finished) {x : Nat} (same : memRead finished.mem x = memRead s.mem x) :
    memRead (resetDuringCommand w s).mem x = memRead s.mem x := by
  simp only [resetDuringCommand, h]
  exact memRead_tearMemory _ _ _ _ _ _ same.symm

/-- A step under a reset between commands. -/
theorem step_reset {s : State} {rest : List HostInput} (h : s.inputs = .reset :: rest) :
    step s = .next (resetBlock { s with inputs := rest }) := by
  simp only [step, takeInput, h, runInput]

/-- A step under a reset during a command. -/
theorem step_resetDuring {s : State} {w : CommandWord} {rest : List HostInput}
    (h : s.inputs = .resetDuring w :: rest) : step s = .next (resetDuringCommand w { s with inputs := rest }) := by
  simp only [step, takeInput, h, runInput]

/-- Settles O6: both resets give `resetBlock` but for memory, and a cut-off command tears only the
bytes it was to change. -/
theorem resetPutsEveryRegisterAtItsResetValue : Obligations.ResetPutsEveryRegisterAtItsResetValue := by
  refine ⟨⟨rfl, rfl, rfl, rfl, rfl, rfl, rfl, rfl, rfl, rfl, rfl, rfl⟩, fun s rest h => ?_,
    fun s w rest h => ?_⟩
  · exact ⟨_, step_reset h, ⟨rfl, rfl, rfl, rfl, rfl, rfl, rfl, rfl, rfl, rfl, rfl, rfl⟩, rfl, rfl, rfl, rfl⟩
  · obtain ⟨finished, completes⟩ := answers_runCommand w { s with inputs := rest }
    refine ⟨_, finished, step_resetDuring h, ?_⟩
    have torn := fun x => @memRead_resetDuringCommand w _ finished completes x
    obtain ⟨m, k, cleared⟩ := resetDuringCommand_eq w { s with inputs := rest }
    rw [cleared] at torn ⊢
    exact ⟨⟨rfl, rfl, rfl, rfl, rfl, rfl, rfl, rfl, rfl, rfl, rfl, rfl⟩, rfl, rfl, rfl, completes, torn⟩

end Sys2Proof.Machine

/-! ## Doubly linked rings (10_state.md R33, R35; 45_window_index.md R245, R247)

A ring is described by the list of its entries, each a node index and the position the node stands for,
in walking order from the head. `nd p` is what the node of position `p` holds beside its links. -/

namespace Sys2Proof.Machine

/-- An entry of a ring: a node index and a position. -/
abbrev RingEntry := Nat × Nat

/-- The index of the first entry; `d` for none. -/
def firstIndex (l : List RingEntry) (d : Nat) : Nat :=
  match l with
  | [] => d
  | e :: _ => e.1

@[simp] theorem firstIndex_nil (d : Nat) : firstIndex [] d = d := rfl

@[simp] theorem firstIndex_cons (e : RingEntry) (l : List RingEntry) (d : Nat) : firstIndex (e :: l) d = e.1 := rfl

/-- The index of the last entry; `d` for none. -/
def lastIndex : Nat → List RingEntry → Nat
  | d, [] => d
  | _, e :: rest => lastIndex e.1 rest

/-- The node of a position between two neighbours. -/
def linkNode (n : Node) (prv nxt : Nat) : Node := { n with prev := prv, next := nxt }

/-- The nodes that entries stand for when they are linked in a chain between `prv` and `nxt`. -/
def chainNodes (nd : Nat → Node) : Nat → List RingEntry → Nat → List (Nat × Node)
  | _, [], _ => []
  | prv, e :: rest, nxt => (e.1, linkNode (nd e.2) prv (firstIndex rest nxt)) :: chainNodes nd e.1 rest nxt

/-- The index has these nodes. -/
def HasNodes (ix : WindowIndex) (ns : List (Nat × Node)) : Prop := ∀ e ∈ ns, nodeAt ix e.1 = some e.2

/-- The nodes of a ring: a chain closed on itself. -/
def cycleNodes (nd : Nat → Node) (l : List RingEntry) : List (Nat × Node) :=
  chainNodes nd (lastIndex 0 l) l (firstIndex l 0)

/-- Ring `h` of the index has these entries, walked from its head. -/
def RingHas (nd : Nat → Node) (ix : WindowIndex) (h : Nat) (l : List RingEntry) : Prop :=
  headOf ix h = l.head?.map Prod.fst ∧ HasNodes ix (cycleNodes nd l)

/-! ### Lists of entries -/

theorem firstIndex_append (l l' : List RingEntry) (d : Nat) :
    firstIndex (l ++ l') d = firstIndex l (firstIndex l' d) := by
  cases l <;> rfl

theorem lastIndex_append (d : Nat) (l l' : List RingEntry) :
    lastIndex d (l ++ l') = lastIndex (lastIndex d l) l' := by
  induction l generalizing d with
  | nil => rfl
  | cons e rest ih => exact ih e.1

theorem lastIndex_mem {l : List RingEntry} (h : l ≠ []) (d : Nat) : lastIndex d l ∈ l.map Prod.fst := by
  induction l generalizing d with
  | nil => exact absurd rfl h
  | cons e rest ih =>
    by_cases hr : rest = []
    · subst hr; simp [lastIndex]
    · exact List.mem_cons_of_mem _ (ih hr e.1)

theorem lastIndex_of_ne_nil {l : List RingEntry} (h : l ≠ []) (c d : Nat) :
    lastIndex c l = lastIndex d l := by
  cases l with
  | nil => exact absurd rfl h
  | cons e rest => rfl

theorem firstIndex_of_ne_nil {l : List RingEntry} (h : l ≠ []) (c d : Nat) :
    firstIndex l c = firstIndex l d := by
  cases l with
  | nil => exact absurd rfl h
  | cons e rest => rfl

theorem firstIndex_mem {l : List RingEntry} (h : l ≠ []) (d : Nat) : firstIndex l d ∈ l.map Prod.fst := by
  cases l with
  | nil => exact absurd rfl h
  | cons e rest => exact List.mem_cons_self

theorem head?_of_ne_nil {l : List RingEntry} (h : l ≠ []) (d : Nat) :
    l.head?.map Prod.fst = some (firstIndex l d) := by
  cases l with
  | nil => exact absurd rfl h
  | cons e rest => rfl

/-! ### The nodes of a chain -/

@[simp] theorem chainNodes_keys (nd : Nat → Node) (prv : Nat) (l : List RingEntry) (nxt : Nat) :
    (chainNodes nd prv l nxt).map Prod.fst = l.map Prod.fst := by
  induction l generalizing prv with
  | nil => rfl
  | cons e rest ih => simp only [chainNodes, List.map_cons, ih]

theorem chainNodes_append (nd : Nat → Node) (prv : Nat) (l l' : List RingEntry) (nxt : Nat) :
    chainNodes nd prv (l ++ l') nxt =
      chainNodes nd prv l (firstIndex l' nxt) ++ chainNodes nd (lastIndex prv l) l' nxt := by
  induction l generalizing prv with
  | nil => rfl
  | cons e rest ih => simp only [List.cons_append, chainNodes, firstIndex_append, ih, lastIndex]

/-- What a map over the nodes of a chain gives, when it does not look at the links. -/
theorem chainNodes_map {α : Type} (nd : Nat → Node) (f : Node → α)
    (hf : ∀ n prv nxt, f (linkNode n prv nxt) = f n) (prv : Nat) (l : List RingEntry) (nxt : Nat) :
    (chainNodes nd prv l nxt).map (fun e => f e.2) = l.map (fun e => f (nd e.2)) := by
  induction l generalizing prv with
  | nil => rfl
  | cons e rest ih => simp only [chainNodes, List.map_cons, ih, hf]

/-- Each node of a chain points back to the one before it. -/
theorem chainNodes_prev (nd : Nat → Node) (prv : Nat) (l : List RingEntry) (nxt : Nat) :
    (chainNodes nd prv l nxt).map (fun e => e.2.prev) = (prv :: l.map Prod.fst).dropLast := by
  induction l generalizing prv with
  | nil => rfl
  | cons e rest ih => simp only [chainNodes, List.map_cons, ih, linkNode, List.dropLast_cons_cons]

/-- An entry of a chain has its node, whatever its neighbours are. -/
theorem exists_linkNode_of_mem {nd : Nat → Node} {l : List RingEntry} {prv nxt : Nat} {e : RingEntry}
    (h : e ∈ l) : ∃ a b, (e.1, linkNode (nd e.2) a b) ∈ chainNodes nd prv l nxt := by
  induction l generalizing prv with
  | nil => cases h
  | cons d rest ih =>
    rcases List.mem_cons.mp h with rfl | h
    · exact ⟨_, _, List.mem_cons_self⟩
    · obtain ⟨a, b, hm⟩ := ih (prv := d.1) h
      exact ⟨a, b, List.mem_cons_of_mem _ hm⟩

/-! ### The state of the index after one change -/

@[simp] theorem nodeAt_setHead (ix : WindowIndex) (h i j : Nat) : nodeAt (setHead ix h i) j = nodeAt ix j := rfl

@[simp] theorem nodeAt_clearHead (ix : WindowIndex) (h j : Nat) : nodeAt (clearHead ix h) j = nodeAt ix j := rfl

@[simp] theorem headOf_setHead (ix : WindowIndex) (h i k : Nat) :
    headOf (setHead ix h i) k = if k = h then some i else headOf ix k := tableGet_tableSet _ _ _ _

@[simp] theorem headOf_clearHead (ix : WindowIndex) (h k : Nat) :
    headOf (clearHead ix h) k = if k = h then none else headOf ix k := tableGet_tableErase _ _ _

@[simp] theorem nodeAt_freeNode (ix : WindowIndex) (i j : Nat) :
    nodeAt (freeNode ix i) j = if j = i then none else nodeAt ix j := tableGet_tableErase _ _ _

@[simp] theorem headOf_freeNode (ix : WindowIndex) (i k : Nat) : headOf (freeNode ix i) k = headOf ix k := rfl

@[simp] theorem nodeAt_changeNode (ix : WindowIndex) (i j : Nat) (f : Node → Node) :
    nodeAt (changeNode ix i f) j = if j = i then (nodeAt ix i).map f else nodeAt ix j := by
  unfold changeNode
  split
  · rename_i free
    split
    · rename_i same
      rw [same, free]
      rfl
    · rfl
  · rename_i n live
    rw [live]
    exact tableGet_tableSet _ _ _ _

@[simp] theorem headOf_changeNode (ix : WindowIndex) (i k : Nat) (f : Node → Node) :
    headOf (changeNode ix i f) k = headOf ix k := by
  unfold changeNode
  split <;> rfl

@[simp] theorem changeNode_freed (ix : WindowIndex) (i : Nat) (f : Node → Node) :
    (changeNode ix i f).freed = ix.freed := by
  unfold changeNode
  split <;> rfl

@[simp] theorem changeNode_fresh (ix : WindowIndex) (i : Nat) (f : Node → Node) :
    (changeNode ix i f).fresh = ix.fresh := by
  unfold changeNode
  split <;> rfl

/-- The index with a node made live. -/
def withNode (ix : WindowIndex) (i : Nat) (n : Node) : WindowIndex := { ix with nodes := tableSet ix.nodes i n }

@[simp] theorem nodeAt_withNode (ix : WindowIndex) (i j : Nat) (n : Node) :
    nodeAt (withNode ix i n) j = if j = i then some n else nodeAt ix j := tableGet_tableSet _ _ _ _

@[simp] theorem headOf_withNode (ix : WindowIndex) (i k : Nat) (n : Node) :
    headOf (withNode ix i n) k = headOf ix k := rfl

/-! ### Chains through a change -/

/-- A chain whose nodes are none of those changed is still there. -/
theorem hasNodes_of_nodeAt_eq {nd : Nat → Node} {ix jx : WindowIndex} {prv nxt : Nat} {l : List RingEntry}
    (h : HasNodes ix (chainNodes nd prv l nxt)) (same : ∀ j ∈ l.map Prod.fst, nodeAt jx j = nodeAt ix j) :
    HasNodes jx (chainNodes nd prv l nxt) := by
  intro e he
  have key : e.1 ∈ l.map Prod.fst := by
    rw [← chainNodes_keys nd prv l nxt]
    exact List.mem_map_of_mem he
  exact (same _ key).trans (h e he)

/-- The last node of a chain bent to a new successor. -/
theorem hasNodes_relinkLast {nd : Nat → Node} {ix : WindowIndex} {prv nxt : Nat} {l : List RingEntry}
    (distinct : (l.map Prod.fst).Nodup) (h : HasNodes ix (chainNodes nd prv l nxt)) (c y : Nat) :
    HasNodes (changeNode ix (lastIndex c l) fun x => { x with next := y }) (chainNodes nd prv l y) := by
  induction l generalizing prv c with
  | nil => exact fun e he => by cases he
  | cons e rest ih =>
    obtain ⟨fresh, distinct⟩ := List.nodup_cons.mp distinct
    obtain ⟨here, there⟩ := List.forall_mem_cons.mp h
    refine List.forall_mem_cons.mpr ⟨?_, ih distinct there e.1⟩
    cases rest with
    | nil => simp only [lastIndex, nodeAt_changeNode, if_pos, here]; rfl
    | cons d rest =>
      have apart : e.1 ≠ lastIndex c (e :: d :: rest) := fun same =>
        fresh (same ▸ lastIndex_mem (List.cons_ne_nil d rest) e.1)
      simp only [nodeAt_changeNode, if_neg apart]
      exact here

/-- The first node of a chain bent to a new predecessor. -/
theorem hasNodes_relinkFirst {nd : Nat → Node} {ix : WindowIndex} {prv nxt : Nat} {l : List RingEntry}
    (distinct : (l.map Prod.fst).Nodup) (h : HasNodes ix (chainNodes nd prv l nxt)) (c y : Nat) :
    HasNodes (changeNode ix (firstIndex l c) fun x => { x with prev := y }) (chainNodes nd y l nxt) := by
  cases l with
  | nil => exact fun e he => by cases he
  | cons e rest =>
    obtain ⟨fresh, -⟩ := List.nodup_cons.mp distinct
    obtain ⟨here, there⟩ := List.forall_mem_cons.mp h
    refine List.forall_mem_cons.mpr ⟨?_, hasNodes_of_nodeAt_eq there fun j hj => ?_⟩
    · simp only [firstIndex, nodeAt_changeNode, if_pos, here]
      rfl
    · have apart : j ≠ e.1 := fun same => fresh (same ▸ hj)
      simp only [firstIndex, nodeAt_changeNode, if_neg apart]

/-! ### A node in at the head (R245) -/

theorem nodeAt_firstIndex {nd : Nat → Node} {ix : WindowIndex} {l : List RingEntry} (hl : l ≠ [])
    (h : HasNodes ix (cycleNodes nd l)) (d : Nat) :
    ∃ p nxt, nodeAt ix (firstIndex l d) = some (linkNode (nd p) (lastIndex 0 l) nxt) := by
  cases l with
  | nil => exact absurd rfl hl
  | cons e rest => exact ⟨e.2, _, h _ List.mem_cons_self⟩

theorem spliceHead_of_empty {ix : WindowIndex} {h : Nat} (empty : headOf ix h = none) (i : Nat) (n : Node) :
    spliceHead ix h i n = setHead (withNode ix i (linkNode n i i)) h i := by
  simp only [spliceHead, empty]
  rfl

/-- With a head there, the new node is put between the tail and the head, and both are bent to it. -/
theorem spliceHead_of_ring {nd : Nat → Node} {ix : WindowIndex} {h : Nat} {l : List RingEntry} (hl : l ≠ [])
    (ring : RingHas nd ix h l) (i : Nat) (n : Node) :
    spliceHead ix h i n =
      setHead (changeNode (changeNode (withNode ix i (linkNode n (lastIndex 0 l) (firstIndex l 0)))
        (lastIndex i l) fun x => { x with next := i }) (firstIndex l i) fun x => { x with prev := i }) h i := by
  obtain ⟨head, nodes⟩ := ring
  obtain ⟨p, nxt, first⟩ := nodeAt_firstIndex hl nodes 0
  rw [head?_of_ne_nil hl 0] at head
  rw [lastIndex_of_ne_nil hl i 0, firstIndex_of_ne_nil hl i 0]
  simp only [spliceHead, head, first]
  rfl

theorem ringHas_spliceHead {nd : Nat → Node} {ix : WindowIndex} {h i p : Nat} {l : List RingEntry} {n : Node}
    (ring : RingHas nd ix h l) (distinct : (l.map Prod.fst).Nodup) (new : i ∉ l.map Prod.fst)
    (hn : ∀ prv nxt, linkNode n prv nxt = linkNode (nd p) prv nxt) :
    RingHas nd (spliceHead ix h i n) h ((i, p) :: l) := by
  by_cases hl : l = []
  · subst hl
    rw [spliceHead_of_empty ring.1]
    refine ⟨by simp, List.forall_mem_cons.mpr ⟨?_, fun e he => by cases he⟩⟩
    simp [hn, lastIndex, firstIndex]
  · rw [spliceHead_of_ring hl ring]
    have last : i ≠ lastIndex i l := fun same => new (same ▸ lastIndex_mem hl i)
    have first : i ≠ firstIndex l i := fun same => new (same ▸ firstIndex_mem hl i)
    refine ⟨by simp, List.forall_mem_cons.mpr ⟨?_, ?_⟩⟩
    · simp only [nodeAt_setHead, nodeAt_changeNode, if_neg first, if_neg last, nodeAt_withNode, if_pos, hn,
        lastIndex, firstIndex_cons]
      rw [lastIndex_of_ne_nil hl 0 i, firstIndex_of_ne_nil hl 0 i]
    · have old : HasNodes (withNode ix i (linkNode n (lastIndex 0 l) (firstIndex l 0))) (cycleNodes nd l) :=
        hasNodes_of_nodeAt_eq ring.2 fun j hj => by
          have apart : j ≠ i := fun same => new (same ▸ hj)
          simp only [nodeAt_withNode, if_neg apart]
      exact hasNodes_relinkFirst distinct (hasNodes_relinkLast distinct old i i) i i

/-- The other rings do not see the new node. -/
theorem spliceHead_frame {nd : Nat → Node} {ix : WindowIndex} {h i : Nat} {l : List RingEntry} (n : Node)
    (ring : RingHas nd ix h l) :
    (∀ k ≠ h, headOf (spliceHead ix h i n) k = headOf ix k) ∧
      ∀ j ≠ i, j ∉ l.map Prod.fst → nodeAt (spliceHead ix h i n) j = nodeAt ix j := by
  by_cases hl : l = []
  · subst hl
    rw [spliceHead_of_empty ring.1]
    exact ⟨fun k hk => by simp [hk], fun j hj _ => by simp [hj]⟩
  · rw [spliceHead_of_ring hl ring]
    refine ⟨fun k hk => by simp [hk], fun j hj out => ?_⟩
    have last : j ≠ lastIndex i l := fun same => out (same ▸ lastIndex_mem hl i)
    have first : j ≠ firstIndex l i := fun same => out (same ▸ firstIndex_mem hl i)
    simp [hj, last, first]

@[simp] theorem spliceHead_freed (ix : WindowIndex) (h i : Nat) (n : Node) :
    (spliceHead ix h i n).freed = ix.freed := by
  unfold spliceHead
  split <;> simp [setHead]

@[simp] theorem spliceHead_fresh (ix : WindowIndex) (h i : Nat) (n : Node) :
    (spliceHead ix h i n).fresh = ix.fresh := by
  unfold spliceHead
  split <;> simp [setHead]

/-! ### The oldest node out (R247) -/

/-- The last entry of a ring is linked between the one before it and the head. -/
theorem hasNodes_cycle_concat {nd : Nat → Node} {ix : WindowIndex} {l : List RingEntry} {i p : Nat}
    (h : HasNodes ix (cycleNodes nd (l ++ [(i, p)]))) :
    HasNodes ix (chainNodes nd i l i) ∧ nodeAt ix i = some (linkNode (nd p) (lastIndex i l) (firstIndex l i)) := by
  rw [cycleNodes, lastIndex_append, firstIndex_append, chainNodes_append] at h
  exact ⟨fun e he => h e (List.mem_append_left _ he), h _ (List.mem_append_right _ List.mem_cons_self)⟩

theorem unlinkNode_of_single {ix : WindowIndex} {i : Nat} {n : Node} (live : nodeAt ix i = some n)
    (single : n.next = i) (h : Nat) : unlinkNode ix h i = freeNode (clearHead ix h) i := by
  simp only [unlinkNode, live, if_pos single]

/-- A node that is not the head: its neighbours are bent to each other. -/
theorem unlinkNode_of_inner {ix : WindowIndex} {h i : Nat} {n : Node} (live : nodeAt ix i = some n)
    (inner : n.next ≠ i) (head : headOf ix h ≠ some i) :
    unlinkNode ix h i = freeNode (changeNode (changeNode ix n.prev fun x => { x with next := n.next })
      n.next fun x => { x with prev := n.prev }) i := by
  simp only [unlinkNode, live, if_neg inner, headOf_changeNode, if_neg head]

/-- What taking out the last entry of a ring does: either the ring was that entry alone, or the entries
before it are closed to a ring. -/
theorem unlinkNode_last {nd : Nat → Node} {ix : WindowIndex} {h i p : Nat} {l : List RingEntry}
    (ring : RingHas nd ix h (l ++ [(i, p)])) (new : i ∉ l.map Prod.fst) :
    (l = [] ∧ unlinkNode ix h i = freeNode (clearHead ix h) i) ∨
    (l ≠ [] ∧ unlinkNode ix h i =
      freeNode (changeNode (changeNode ix (lastIndex 0 l) fun x => { x with next := firstIndex l 0 })
        (firstIndex l 0) fun x => { x with prev := lastIndex 0 l }) i) := by
  obtain ⟨head, nodes⟩ := ring
  obtain ⟨-, live⟩ := hasNodes_cycle_concat nodes
  by_cases hl : l = []
  · subst hl
    exact .inl ⟨rfl, unlinkNode_of_single live rfl h⟩
  · have first : firstIndex l i ≠ i := fun same => new (same ▸ firstIndex_mem hl i)
    rw [head?_of_ne_nil (by simp) i, firstIndex_append, firstIndex_of_ne_nil hl _ i] at head
    have out := unlinkNode_of_inner live first (by rw [head]; simpa using first)
    simp only [linkNode] at out
    rw [firstIndex_of_ne_nil hl i 0, lastIndex_of_ne_nil hl i 0] at out
    exact .inr ⟨hl, out⟩

theorem ringHas_unlinkNode {nd : Nat → Node} {ix : WindowIndex} {h i p : Nat} {l : List RingEntry}
    (ring : RingHas nd ix h (l ++ [(i, p)])) (distinct : (l.map Prod.fst).Nodup) (new : i ∉ l.map Prod.fst) :
    RingHas nd (unlinkNode ix h i) h l := by
  have others : ∀ j ∈ l.map Prod.fst, j ≠ i := fun j hj same => new (same ▸ hj)
  rcases unlinkNode_last ring new with ⟨rfl, out⟩ | ⟨hl, out⟩ <;> rw [out]
  · exact ⟨by simp, fun e he => by cases he⟩
  · obtain ⟨head, nodes⟩ := ring
    obtain ⟨chain, -⟩ := hasNodes_cycle_concat nodes
    refine ⟨?_, hasNodes_of_nodeAt_eq
      (hasNodes_relinkFirst distinct (hasNodes_relinkLast distinct chain 0 (firstIndex l 0)) 0 (lastIndex 0 l))
      fun j hj => ?_⟩
    · simp only [headOf_freeNode, headOf_changeNode, head]
      rw [head?_of_ne_nil (by simp) 0, head?_of_ne_nil hl 0, firstIndex_append, firstIndex_of_ne_nil hl _ 0]
    · simp only [nodeAt_freeNode, if_neg (others j hj)]

/-- The other rings do not see the node go. -/
theorem unlinkNode_frame {nd : Nat → Node} {ix : WindowIndex} {h i p : Nat} {l : List RingEntry}
    (ring : RingHas nd ix h (l ++ [(i, p)])) (new : i ∉ l.map Prod.fst) :
    (∀ k ≠ h, headOf (unlinkNode ix h i) k = headOf ix k) ∧
      ∀ j, j ∉ (l ++ [(i, p)]).map Prod.fst → nodeAt (unlinkNode ix h i) j = nodeAt ix j := by
  rcases unlinkNode_last ring new with ⟨rfl, out⟩ | ⟨hl, out⟩ <;> rw [out]
  · exact ⟨fun k hk => by simp [hk], fun j hj => by simp at hj; simp [hj]⟩
  · refine ⟨fun k hk => by simp, fun j hj => ?_⟩
    simp only [List.map_append, List.mem_append, List.map_cons, List.map_nil, List.mem_singleton, not_or] at hj
    obtain ⟨out, away⟩ := hj
    have last : j ≠ lastIndex 0 l := fun same => out (same ▸ lastIndex_mem hl 0)
    have first : j ≠ firstIndex l 0 := fun same => out (same ▸ firstIndex_mem hl 0)
    simp [away, last, first]

theorem unlinkNode_freed {nd : Nat → Node} {ix : WindowIndex} {h i p : Nat} {l : List RingEntry}
    (ring : RingHas nd ix h (l ++ [(i, p)])) (new : i ∉ l.map Prod.fst) :
    (unlinkNode ix h i).freed = i :: ix.freed ∧ (unlinkNode ix h i).fresh = ix.fresh := by
  rcases unlinkNode_last ring new with ⟨-, out⟩ | ⟨-, out⟩ <;> rw [out] <;> simp [freeNode, clearHead]

/-! ### Walks -/

/-- `ringFrom` walks a chain that ends at the head. -/
theorem ringFrom_chain {nd : Nat → Node} {ix : WindowIndex} {hd : Nat} {l : List RingEntry} (hl : l ≠ [])
    {prv : Nat} (h : HasNodes ix (chainNodes nd prv l hd)) (headOnce : hd ∉ l.tail.map Prod.fst) {fuel : Nat}
    (enough : l.length ≤ fuel) (d : Nat) :
    ringFrom ix hd fuel (firstIndex l d) = some (chainNodes nd prv l hd) := by
  induction l generalizing prv fuel d with
  | nil => exact absurd rfl hl
  | cons e rest ih =>
    obtain ⟨fuel, rfl⟩ : ∃ f, fuel = f + 1 := ⟨fuel - 1, by simp at enough; omega⟩
    obtain ⟨here, there⟩ := List.forall_mem_cons.mp h
    simp only [ringFrom, firstIndex_cons, here, linkNode]
    cases rest with
    | nil => simp [chainNodes, linkNode]
    | cons c rest =>
      simp only [List.tail_cons, List.map_cons, List.mem_cons, not_or] at headOnce
      have more : firstIndex (c :: rest) hd ≠ hd := fun same => headOnce.1 same.symm
      rw [if_neg more, ih (List.cons_ne_nil _ _) there headOnce.2 (by simpa using enough)]
      rfl

/-- `findInRing` answers the first entry of a chain with the position. -/
theorem findInRing_chain {nd : Nat → Node} {ix : WindowIndex} {hd q : Nat} {l : List RingEntry} (hl : l ≠ [])
    {prv : Nat} (h : HasNodes ix (chainNodes nd prv l hd)) (headOnce : hd ∉ l.tail.map Prod.fst) {fuel : Nat}
    (enough : l.length ≤ fuel) (addr : ∀ e ∈ l, (nd e.2).addr.toNat = e.2) (d : Nat) :
    findInRing ix hd q fuel (firstIndex l d) = (l.find? fun e => e.2 = q).map Prod.fst := by
  induction l generalizing prv fuel d with
  | nil => exact absurd rfl hl
  | cons e rest ih =>
    obtain ⟨fuel, rfl⟩ : ∃ f, fuel = f + 1 := ⟨fuel - 1, by simp at enough; omega⟩
    obtain ⟨here, there⟩ := List.forall_mem_cons.mp h
    obtain ⟨addrHere, addrThere⟩ := List.forall_mem_cons.mp addr
    simp only [findInRing, firstIndex_cons, here, linkNode, addrHere, List.find?_cons]
    by_cases found : e.2 = q
    · simp [found]
    · simp only [found, decide_false, if_false]
      cases rest with
      | nil => simp
      | cons c rest =>
        simp only [List.tail_cons, List.map_cons, List.mem_cons, not_or] at headOnce
        have more : firstIndex (c :: rest) hd ≠ hd := fun same => headOnce.1 same.symm
        rw [if_neg more, ih (List.cons_ne_nil _ _) there headOnce.2 (by simpa using enough) addrThere]

/-- Whatever `ringFrom` answers is a chain, if each of its nodes is what its address says and points
back to the one before it. -/
theorem chain_of_ringFrom {nd : Nat → Node} {ix : WindowIndex} {hd fuel i prv : Nat} {ring : List (Nat × Node)}
    (h : ringFrom ix hd fuel i = some ring)
    (content : ∀ e ∈ ring, linkNode (nd e.2.addr.toNat) e.2.prev e.2.next = e.2)
    (back : ring.map (fun e => e.2.prev) = (prv :: ring.map Prod.fst).dropLast) :
    HasNodes ix ring ∧ ring = chainNodes nd prv (ring.map fun e => (e.1, e.2.addr.toNat)) hd ∧
      (ring.map Prod.fst).head? = some i := by
  induction fuel generalizing i prv ring with
  | zero => cases h
  | succ fuel ih =>
    simp only [ringFrom] at h
    split at h
    · cases h
    · rename_i n live
      split at h
      · rename_i closes
        cases h
        simp only [List.mem_singleton, forall_eq, List.map_cons, List.map_nil, List.dropLast_cons_cons,
          List.dropLast_singleton, List.cons.injEq, and_true] at content back
        refine ⟨by simpa [HasNodes] using live, ?_, rfl⟩
        simp only [List.map_cons, List.map_nil, chainNodes, firstIndex, ← back, ← closes, content]
      · obtain ⟨rest, walk, rfl⟩ := Option.map_eq_some_iff.mp h
        obtain ⟨contentHere, contentThere⟩ := List.forall_mem_cons.mp content
        simp only [List.map_cons, List.dropLast_cons_cons, List.cons.injEq] at back
        obtain ⟨backHere, backThere⟩ := back
        obtain ⟨nodes, chain, first⟩ := ih walk contentThere backThere
        refine ⟨List.forall_mem_cons.mpr ⟨live, nodes⟩, ?_, rfl⟩
        have next : firstIndex (rest.map fun e => (e.1, e.2.addr.toNat)) hd = n.next := by
          cases rest with
          | nil => cases first
          | cons e rest => simpa [firstIndex] using first
        simp only [List.map_cons, chainNodes, ← chain, next, ← backHere]
        exact congrArg (fun m => (i, m) :: rest) contentHere.symm

end Sys2Proof.Machine

/-! ## The index as a list of positions (10_state.md R35; 45_window_index.md R245 to R248)

`nd p` is what the node of position `p` holds beside its links, `slot p` the slot of its signature. -/

namespace Sys2Proof.Machine

/-- The positions of one slot, from the newest to the oldest, of positions from the oldest on. -/
def slotPositions (slot : Nat → Nat) (h : Nat) (ps : List Nat) : List Nat :=
  (ps.filter fun p => decide (slot p = h)).reverse

/-- The index holds these positions, listed from the oldest on, and no other. -/
def IndexHolds (tableSize : Nat) (nd : Nat → Node) (slot : Nat → Nat) (ps : List Nat) (ix : WindowIndex) : Prop :=
  (∀ h < tableSize, ∃ l, l.map Prod.snd = slotPositions slot h ps ∧ RingHas nd ix h l) ∧
    ix.nodes.length = ps.length

/-- Positions that differ and that their nodes' addresses tell apart. -/
def Addressed (nd : Nat → Node) (ps : List Nat) : Prop := ps.Nodup ∧ ∀ p ∈ ps, (nd p).addr.toNat = p

theorem mem_slotPositions {slot : Nat → Nat} {h p : Nat} {ps : List Nat} :
    p ∈ slotPositions slot h ps ↔ p ∈ ps ∧ slot p = h := by
  simp [slotPositions]

theorem slotPositions_nodup {slot : Nat → Nat} {h : Nat} {ps : List Nat} (hps : ps.Nodup) :
    (slotPositions slot h ps).Nodup :=
  List.nodup_reverse.mpr (hps.filter _)

theorem slotPositions_length_le (slot : Nat → Nat) (h : Nat) (ps : List Nat) :
    (slotPositions slot h ps).length ≤ ps.length := by
  rw [slotPositions, List.length_reverse]
  exact List.length_filter_le _ _

theorem slotPositions_concat (slot : Nat → Nat) (h : Nat) (ps : List Nat) (p : Nat) :
    slotPositions slot h (ps ++ [p]) =
      if slot p = h then p :: slotPositions slot h ps else slotPositions slot h ps := by
  simp only [slotPositions, List.filter_append, List.reverse_append]
  split <;> rename_i hp <;> simp [hp]

theorem slotPositions_cons (slot : Nat → Nat) (h : Nat) (p : Nat) (ps : List Nat) :
    slotPositions slot h (p :: ps) =
      if slot p = h then slotPositions slot h ps ++ [p] else slotPositions slot h ps := by
  simp only [slotPositions, List.filter_cons]
  split <;> rename_i hp <;> simp_all

/-! ### Entries and positions determine each other -/

theorem RingHas.nodeAt_of_mem {nd : Nat → Node} {ix : WindowIndex} {h : Nat} {l : List RingEntry}
    (ring : RingHas nd ix h l) {e : RingEntry} (he : e ∈ l) :
    ∃ a b, nodeAt ix e.1 = some (linkNode (nd e.2) a b) := by
  obtain ⟨a, b, hm⟩ := exists_linkNode_of_mem he
  exact ⟨a, b, ring.2 _ hm⟩

/-- A node stands for one position only. -/
theorem position_unique {nd : Nat → Node} {ix : WindowIndex} {h k : Nat} {l l' : List RingEntry}
    (ring : RingHas nd ix h l) (ring' : RingHas nd ix k l') {e e' : RingEntry} (he : e ∈ l) (he' : e' ∈ l')
    (addr : (nd e.2).addr.toNat = e.2) (addr' : (nd e'.2).addr.toNat = e'.2) (same : e.1 = e'.1) :
    e.2 = e'.2 := by
  obtain ⟨a, b, node⟩ := ring.nodeAt_of_mem he
  obtain ⟨a', b', node'⟩ := ring'.nodeAt_of_mem he'
  rw [same, node'] at node
  have nodes : linkNode (nd e'.2) a' b' = linkNode (nd e.2) a b := Option.some.inj node
  have : (nd e'.2).addr = (nd e.2).addr := (congrArg Node.addr nodes :)
  rw [← addr, ← addr', this]

section
variable {tableSize : Nat} {nd : Nat → Node} {slot : Nat → Nat} {ps : List Nat} {ix : WindowIndex}

theorem mem_of_ring {h : Nat} {l : List RingEntry} (positions : l.map Prod.snd = slotPositions slot h ps)
    {e : RingEntry} (he : e ∈ l) : e.2 ∈ ps ∧ slot e.2 = h :=
  mem_slotPositions.mp (positions ▸ List.mem_map_of_mem he)

/-- A ring has no node twice. -/
theorem ring_distinct (hps : Addressed nd ps) {h : Nat} {l : List RingEntry}
    (positions : l.map Prod.snd = slotPositions slot h ps) (ring : RingHas nd ix h l) :
    (l.map Prod.fst).Nodup := by
  have apart : l.Pairwise fun e e' => e.2 ≠ e'.2 :=
    List.pairwise_map.mp (positions ▸ slotPositions_nodup hps.1)
  refine List.pairwise_map.mpr (apart.imp_of_mem fun he he' differ same => differ ?_)
  exact position_unique ring ring he he' (hps.2 _ (mem_of_ring positions he).1)
    (hps.2 _ (mem_of_ring positions he').1) same

/-- Two rings have no node in common. -/
theorem rings_disjoint (hps : Addressed nd ps) {h k : Nat} {l l' : List RingEntry} (hk : k ≠ h)
    (positions : l.map Prod.snd = slotPositions slot h ps) (ring : RingHas nd ix h l)
    (positions' : l'.map Prod.snd = slotPositions slot k ps) (ring' : RingHas nd ix k l') {i : Nat}
    (hi : i ∈ l'.map Prod.fst) : i ∉ l.map Prod.fst := by
  intro hi'
  obtain ⟨e', he', rfl⟩ := List.mem_map.mp hi
  obtain ⟨e, he, same⟩ := List.mem_map.mp hi'
  obtain ⟨there, slotHere⟩ := mem_of_ring positions he
  obtain ⟨there', slotThere⟩ := mem_of_ring positions' he'
  have := position_unique ring ring' he he' (hps.2 _ there) (hps.2 _ there') same
  exact hk (by rw [← slotThere, ← slotHere, this])

/-- The nodes of a ring are live. -/
theorem RingHas.live {h : Nat} {l : List RingEntry} (ring : RingHas nd ix h l) {i : Nat}
    (hi : i ∈ l.map Prod.fst) : i ∈ liveIndices ix := by
  obtain ⟨e, he, rfl⟩ := List.mem_map.mp hi
  obtain ⟨a, b, node⟩ := ring.nodeAt_of_mem he
  exact tableGet_mem_keys _ _ _ node

theorem ringHas_of_frame {jx : WindowIndex} {k : Nat} {l : List RingEntry} (ring : RingHas nd ix k l)
    (head : headOf jx k = headOf ix k) (same : ∀ j ∈ l.map Prod.fst, nodeAt jx j = nodeAt ix j) :
    RingHas nd jx k l :=
  ⟨head.trans ring.1, hasNodes_of_nodeAt_eq ring.2 same⟩

theorem ring_length_le (hold : IndexHolds tableSize nd slot ps ix) {h : Nat} {l : List RingEntry}
    (positions : l.map Prod.snd = slotPositions slot h ps) : l.length ≤ ix.nodes.length := by
  have := slotPositions_length_le slot h ps
  rw [← positions, List.length_map] at this
  exact this.trans hold.2.ge

/-- The head of a ring is no other node of it. -/
theorem first_not_mem_tail {l : List RingEntry} (distinct : (l.map Prod.fst).Nodup) :
    l = [] ∨ ∀ d, firstIndex l d ∉ l.tail.map Prod.fst := by
  cases l with
  | nil => exact .inl rfl
  | cons e rest => exact .inr fun _ => (List.nodup_cons.mp distinct).1

/-! ### A position in -/

/-- What an allocation takes: a node that is not live, off the free list. -/
theorem allocNode_spec {maxWindow i : Nat} {jx : WindowIndex} (pool : IndexPoolOk maxWindow ix)
    (h : allocNode maxWindow ix = some (i, jx)) :
    jx.nodes = ix.nodes ∧ jx.ht = ix.ht ∧ i ∉ liveIndices ix ∧
      jx.fresh + ix.freed.length = ix.fresh + jx.freed.length + 1 := by
  obtain ⟨nodup, below, -, -⟩ := pool
  simp only [allocNode] at h
  split at h
  · rename_i rest top
    cases h
    rw [top] at nodup
    refine ⟨rfl, rfl, fun live => ?_, by simp only [top, List.length_cons, Nat.add_assoc]⟩
    exact (List.nodup_cons.mp nodup).1 (List.mem_append_right _ live)
  · rename_i empty
    split at h
    · cases h
      refine ⟨rfl, rfl, fun live => ?_, by simp only [empty, List.length_nil, Nat.add_right_comm]⟩
      exact Nat.lt_irrefl _ (below _ (List.mem_append_right _ live))
    · cases h

/-- A pool with a node to spare gives one. -/
theorem exists_allocNode {maxWindow : Nat} (pool : IndexPoolOk maxWindow ix) (room : ix.nodes.length < maxWindow) :
    ∃ i jx, allocNode maxWindow ix = some (i, jx) := by
  obtain ⟨-, -, count, -⟩ := pool
  simp only [allocNode]
  split
  · exact ⟨_, _, rfl⟩
  · rename_i empty
    rw [empty, List.length_nil] at count
    rw [if_pos (by omega)]
    exact ⟨_, _, rfl⟩

theorem indexHolds_spliceHead (hold : IndexHolds tableSize nd slot ps ix) (hps : Addressed nd ps)
    {maxWindow : Nat} (pool : IndexPoolOk maxWindow ix) {i p : Nat} {jx : WindowIndex}
    (alloc : allocNode maxWindow ix = some (i, jx)) (hslot : slot p < tableSize) {n : Node}
    (hn : ∀ prv nxt, linkNode n prv nxt = linkNode (nd p) prv nxt) :
    IndexHolds tableSize nd slot (ps ++ [p]) (spliceHead jx (slot p) i n) := by
  obtain ⟨nodes, heads, new, taken⟩ := allocNode_spec pool alloc
  have same : ∀ {k l}, RingHas nd ix k l → RingHas nd jx k l := fun ring =>
    ringHas_of_frame ring (by rw [headOf, heads, headOf]) fun _ _ => by rw [nodeAt, nodes, nodeAt]
  obtain ⟨l, positions, ring⟩ := hold.1 _ hslot
  have distinct := ring_distinct hps positions ring
  obtain ⟨otherHeads, otherNodes⟩ := spliceHead_frame n (same ring) (i := i)
  refine ⟨fun k hk => ?_, ?_⟩
  · by_cases here : slot p = k
    · subst here
      refine ⟨(i, p) :: l, ?_, ringHas_spliceHead (same ring) distinct (fun hi => new (ring.live hi)) hn⟩
      rw [slotPositions_concat, if_pos rfl, List.map_cons, positions]
    · obtain ⟨l', positions', ring'⟩ := hold.1 k hk
      refine ⟨l', by rw [slotPositions_concat, if_neg here, positions'], ?_⟩
      refine ringHas_of_frame (same ring') (otherHeads k (Ne.symm here)) fun j hj => otherNodes j ?_ ?_
      · exact fun e => new (e ▸ ring'.live hj)
      · exact rings_disjoint hps (Ne.symm here) positions ring positions' ring' hj
  · have ⟨_, _, before, _⟩ := pool
    obtain ⟨-, -, after, -⟩ := spliceHead_pool maxWindow ix jx (slot p) i n pool alloc
    rw [spliceHead_freed, spliceHead_fresh] at after
    have count := hold.2
    simp only [List.length_append, List.length_singleton]
    omega

/-! ### The oldest position out -/

/-- The ring of the oldest position ends with it. -/
theorem ring_of_oldest {p : Nat} {l : List RingEntry}
    (positions : l.map Prod.snd = slotPositions slot (slot p) (p :: ps)) :
    ∃ l₀ i, l = l₀ ++ [(i, p)] ∧ l₀.map Prod.snd = slotPositions slot (slot p) ps := by
  rw [slotPositions_cons, if_pos rfl] at positions
  obtain ⟨l₀, last, rfl, front, oldest⟩ := List.map_eq_append_iff.mp positions
  obtain ⟨e, rfl, rfl⟩ := List.map_eq_singleton_iff.mp oldest
  exact ⟨l₀, e.1, rfl, front⟩

theorem indexHolds_unlinkNode {p i : Nat} {l : List RingEntry} (hold : IndexHolds tableSize nd slot (p :: ps) ix)
    (hps : Addressed nd (p :: ps)) {maxWindow : Nat} (pool : IndexPoolOk maxWindow ix)
    (front : l.map Prod.snd = slotPositions slot (slot p) ps)
    (ring : RingHas nd ix (slot p) (l ++ [(i, p)])) :
    IndexHolds tableSize nd slot ps (unlinkNode ix (slot p) i) := by
  have positions : (l ++ [(i, p)]).map Prod.snd = slotPositions slot (slot p) (p :: ps) := by
    simp [slotPositions_cons, front]
  have distinct := ring_distinct hps positions ring
  rw [List.map_append, List.nodup_append] at distinct
  obtain ⟨distinct, -, apart⟩ := distinct
  have new : i ∉ l.map Prod.fst := fun hi => apart i hi i (by simp) rfl
  obtain ⟨otherHeads, otherNodes⟩ := unlinkNode_frame ring new
  refine ⟨fun k hk => ?_, ?_⟩
  · by_cases here : slot p = k
    · subst here
      exact ⟨l, front, ringHas_unlinkNode ring distinct new⟩
    · obtain ⟨l', positions', ring'⟩ := hold.1 k hk
      refine ⟨l', by rw [positions', slotPositions_cons, if_neg here], ?_⟩
      refine ringHas_of_frame ring' (otherHeads k (Ne.symm here)) fun j hj => otherNodes j ?_
      exact rings_disjoint hps (Ne.symm here) positions ring positions' ring' hj
  · have ⟨_, _, before, _⟩ := pool
    obtain ⟨-, -, after, -⟩ := unlinkNode_pool maxWindow ix (slot p) i pool
    obtain ⟨freed, fresh⟩ := unlinkNode_freed ring new
    rw [freed, fresh, List.length_cons] at after
    have count := hold.2
    rw [List.length_cons] at count
    omega

/-- The search of `remove` meets the oldest position. -/
theorem findInRing_oldest {p i hd : Nat} {l : List RingEntry} (hold : IndexHolds tableSize nd slot (p :: ps) ix)
    (hps : Addressed nd (p :: ps)) (front : l.map Prod.snd = slotPositions slot (slot p) ps)
    (ring : RingHas nd ix (slot p) (l ++ [(i, p)])) (head : headOf ix (slot p) = some hd) :
    findInRing ix hd p ix.nodes.length hd = some i := by
  have positions : (l ++ [(i, p)]).map Prod.snd = slotPositions slot (slot p) (p :: ps) := by
    simp [slotPositions_cons, front]
  have nonempty : l ++ [(i, p)] ≠ [] := by simp
  have first : hd = firstIndex (l ++ [(i, p)]) 0 := by
    have := ring.1
    rw [head, head?_of_ne_nil nonempty 0] at this
    exact Option.some.inj this
  have headOnce := (first_not_mem_tail (ring_distinct hps positions ring)).resolve_left nonempty 0
  have addr : ∀ e ∈ l ++ [(i, p)], (nd e.2).addr.toNat = e.2 := fun e he =>
    hps.2 _ (mem_of_ring positions he).1
  have younger : ∀ e ∈ l, ¬ e.2 = p := fun e he same =>
    (List.nodup_cons.mp hps.1).1 (same ▸ (mem_of_ring front he).1)
  subst first
  rw [findInRing_chain nonempty ring.2 headOnce (ring_length_le hold positions) addr 0]
  rw [List.find?_append, List.find?_eq_none.mpr (by simpa using younger)]
  simp

end

end Sys2Proof.Machine

/-! ## The index through a sliding window (46_lzsw_encode.md R278) -/

namespace Sys2Proof.Machine

/-- What the node of position `p` holds beside its links (45_window_index.md R246). -/
def sourceNode (maxWindow : Nat) (m : Memory) (wOrg p : Nat) : Node :=
  { sig := signature m p, addr := word p, coff := (p - wOrg) % maxWindow, prev := 0, next := 0 }

/-- The slot of position `p` (45_window_index.md R242). -/
def sourceSlot (tableSize : Nat) (m : Memory) (p : Nat) : Nat := sigHash tableSize (signature m p)

/-- The positions with a full signature among the `n` from `a` on, for a source that ends at `se`. -/
def fullPositions (se a n : Nat) : List Nat := (List.range' a n).filter fun p => decide (p + 3 ≤ se)

/-- The index holds the positions with a full signature among the `n` from `a` on. -/
def HoldsWindow (tableSize maxWindow : Nat) (m : Memory) (wOrg se a n : Nat) (ix : WindowIndex) : Prop :=
  IndexHolds tableSize (sourceNode maxWindow m wOrg) (sourceSlot tableSize m) (fullPositions se a n) ix

theorem sourceSlot_lt {tableSize : Nat} (hT : 1 ≤ tableSize) (m : Memory) (p : Nat) :
    sourceSlot tableSize m p < tableSize := Nat.mod_lt _ hT

theorem mem_fullPositions {se a n p : Nat} : p ∈ fullPositions se a n ↔ (a ≤ p ∧ p < a + n) ∧ p + 3 ≤ se := by
  simp [fullPositions, List.mem_range'_1]

theorem fullPositions_length_le (se a n : Nat) : (fullPositions se a n).length ≤ n :=
  (List.length_filter_le _ _).trans_eq List.length_range'

theorem fullPositions_cons (se a n : Nat) :
    fullPositions se a (n + 1) =
      if a + 3 ≤ se then a :: fullPositions se (a + 1) n else fullPositions se (a + 1) n := by
  simp only [fullPositions, List.range'_succ, List.filter_cons, decide_eq_true_eq]

theorem fullPositions_concat (se a n : Nat) :
    fullPositions se a (n + 1) =
      if a + n + 3 ≤ se then fullPositions se a n ++ [a + n] else fullPositions se a n := by
  simp only [fullPositions, List.range'_1_concat, List.filter_append, List.filter_cons, List.filter_nil,
    decide_eq_true_eq]
  split <;> simp

theorem fullPositions_eq_nil {se a : Nat} (n : Nat) (h : se < a + 3) : fullPositions se a n = [] :=
  List.filter_eq_nil_iff.mpr fun p hp => by
    have := (List.mem_range'_1.mp hp).1
    simp only [decide_eq_true_eq]
    omega

theorem addressed_fullPositions (maxWindow : Nat) (m : Memory) (wOrg : Nat) {se : Nat} (hse : se < 2 ^ 32)
    (a n : Nat) : Addressed (sourceNode maxWindow m wOrg) (fullPositions se a n) := by
  refine ⟨(List.nodup_range' (step := 1)).filter _, fun p hp => word_toNat_of_lt p ?_⟩
  have := (mem_fullPositions.mp hp).2
  omega

section
variable {tableSize maxWindow : Nat} {m : Memory} {wOrg se : Nat}

/-- `insert` at the position behind the window (R246). -/
theorem holdsWindow_insertPosition {a n : Nat} {ix : WindowIndex} (hT : 1 ≤ tableSize) (hse : se < 2 ^ 32)
    (room : n < maxWindow) (pool : IndexPoolOk maxWindow ix)
    (hold : HoldsWindow tableSize maxWindow m wOrg se a n ix) :
    HoldsWindow tableSize maxWindow m wOrg se a (n + 1)
      (insertPosition maxWindow tableSize m wOrg se (a + n) ix) := by
  simp only [HoldsWindow, fullPositions_concat, insertPosition]
  by_cases full : a + n + 3 ≤ se
  · have spare : ix.nodes.length < maxWindow :=
      (hold.2.trans_le (fullPositions_length_le se a n)).trans_lt room
    obtain ⟨i, jx, alloc⟩ := exists_allocNode pool spare
    rw [if_pos full, if_neg (by omega), alloc]
    exact indexHolds_spliceHead hold (addressed_fullPositions _ _ _ hse _ _) pool alloc (sourceSlot_lt hT m _)
      fun _ _ => rfl
  · rw [if_neg full, if_pos (by omega)]
    exact hold

theorem holdsWindow_insertRange {a : Nat} (k : Nat) {n : Nat} {ix : WindowIndex} (hT : 1 ≤ tableSize)
    (hse : se < 2 ^ 32) (room : n + k ≤ maxWindow) (pool : IndexPoolOk maxWindow ix)
    (hold : HoldsWindow tableSize maxWindow m wOrg se a n ix) :
    HoldsWindow tableSize maxWindow m wOrg se a (n + k)
      (insertRange maxWindow tableSize m wOrg se k (a + n) ix) := by
  induction k generalizing n ix with
  | zero => exact hold
  | succ k ih =>
    rw [Nat.add_succ, ← Nat.succ_add]
    exact ih (by omega) (insertPosition_pool _ _ _ _ _ _ _ pool)
      (holdsWindow_insertPosition hT hse (by omega) pool hold)

/-- An empty index has nothing to remove. -/
theorem removePosition_of_empty {ix : WindowIndex} (hT : 1 ≤ tableSize) {nd : Nat → Node}
    (hold : IndexHolds tableSize nd (sourceSlot tableSize m) [] ix) (p : Nat) :
    removePosition tableSize m se p ix = ix := by
  obtain ⟨l, positions, head, -⟩ := hold.1 _ (sourceSlot_lt hT m p)
  have empty : l = [] := List.map_eq_nil_iff.mp positions
  subst empty
  have head : headOf ix (sigHash tableSize (signature m p)) = none := head
  simp only [removePosition, head]
  split <;> rfl

/-- `remove` at the oldest position of the window (R248). -/
theorem holdsWindow_removePosition {a n : Nat} {ix : WindowIndex} (hT : 1 ≤ tableSize) (hse : se < 2 ^ 32)
    (pool : IndexPoolOk maxWindow ix) (hold : HoldsWindow tableSize maxWindow m wOrg se a n ix) :
    HoldsWindow tableSize maxWindow m wOrg se (a + 1) (n - 1) (removePosition tableSize m se a ix) := by
  have addressed := addressed_fullPositions maxWindow m wOrg hse a n
  unfold HoldsWindow at hold ⊢
  by_cases nothing : n = 0 ∨ se < a + 3
  · have empty : fullPositions se a n = [] := by
      rcases nothing with rfl | short
      · rfl
      · exact fullPositions_eq_nil n short
    have empty' : fullPositions se (a + 1) (n - 1) = [] := by
      rcases nothing with rfl | short
      · rfl
      · exact fullPositions_eq_nil _ (by omega)
    rw [empty] at hold
    rw [empty', removePosition_of_empty hT hold]
    exact hold
  · obtain ⟨n, rfl⟩ : ∃ j, n = j + 1 := ⟨n - 1, by omega⟩
    rw [fullPositions_cons, if_pos (by omega)] at hold addressed
    obtain ⟨l', positions, ring⟩ := hold.1 _ (sourceSlot_lt hT m a)
    obtain ⟨l, i, rfl, front⟩ := ring_of_oldest positions
    have head : headOf ix (sigHash tableSize (signature m a)) = some (firstIndex (l ++ [(i, a)]) 0) :=
      ring.1.trans (head?_of_ne_nil (by simp) 0)
    have found := findInRing_oldest hold addressed front ring head
    simp only [removePosition, if_neg (show ¬ se < a + 3 by omega), head, found]
    exact indexHolds_unlinkNode hold addressed pool front ring

theorem holdsWindow_removeRange (k : Nat) {a n : Nat} {ix : WindowIndex} (hT : 1 ≤ tableSize)
    (hse : se < 2 ^ 32) (pool : IndexPoolOk maxWindow ix)
    (hold : HoldsWindow tableSize maxWindow m wOrg se a n ix) :
    HoldsWindow tableSize maxWindow m wOrg se (a + k) (n - k) (removeRange tableSize m se k a ix) := by
  induction k generalizing a n ix with
  | zero => exact hold
  | succ k ih =>
    have rest := ih (removePosition_pool _ _ _ _ _ _ pool) (holdsWindow_removePosition hT hse pool hold)
    rwa [show a + 1 + k = a + (k + 1) by omega, show n - 1 - k = n - (k + 1) by omega] at rest

end

/-! ### The index of a state (10_state.md R35) -/

theorem indexedPositions_eq (s : State) :
    indexedPositions s = fullPositions s.cur0.fin.toNat (windowStart s) s.wLen.toNat := by
  rw [indexedPositions, fullPositions, List.range'_eq_map_range]

/-- What the ring of a slot has to hold, by its positions. -/
theorem expectedRing_eq (s : State) (h : Nat) :
    expectedRing s h = (slotPositions (sourceSlot s.tableSize s.mem) h (indexedPositions s)).map
      fun p => (p, signature s.mem p, (p - s.wOrg.toNat) % s.maxWindow) := rfl

/-- One place to the right, the last index comes to the front. -/
theorem rotateRight_indices (l : List RingEntry) :
    (l.map Prod.fst).rotateRight 1 = (lastIndex 0 l :: l.map Prod.fst).dropLast := by
  rcases List.eq_nil_or_concat' l with rfl | ⟨l, e, rfl⟩
  · rfl
  · rw [lastIndex_append, List.map_append, List.map_singleton, ← List.cons_append, List.dropLast_concat]
    cases l with
    | nil => rfl
    | cons d rest => simp [List.rotateRight, lastIndex]

/-- The index of a state against the lists of positions. -/
def StateHolds (s : State) : Prop :=
  HoldsWindow s.tableSize s.maxWindow s.mem s.wOrg.toNat s.cur0.fin.toNat (windowStart s) s.wLen.toNat s.index

/-- A ring that is as it has to be is a chain of the nodes of its positions. -/
theorem ringHas_of_ringOk {s : State} {h : Nat} (ok : ringOk s h = true) :
    ∃ l, l.map Prod.snd = slotPositions (sourceSlot s.tableSize s.mem) h (indexedPositions s) ∧
      RingHas (sourceNode s.maxWindow s.mem s.wOrg.toNat) s.index h l := by
  simp only [ringOk] at ok
  split at ok
  · cases ok
  · rename_i ring walked
    simp only [Bool.and_eq_true, decide_eq_true_eq] at ok
    obtain ⟨contents, back⟩ := ok
    rw [expectedRing_eq] at contents
    refine ⟨ring.map fun e => (e.1, e.2.addr.toNat), ?_, ?_⟩
    · have := congrArg (List.map Prod.fst) contents
      simpa [Function.comp_def] using this
    simp only [ringNodes] at walked
    split at walked
    · rename_i empty
      cases walked
      exact ⟨empty, fun e he => by cases he⟩
    · rename_i hd head
      have content : ∀ e ∈ ring, linkNode (sourceNode s.maxWindow s.mem s.wOrg.toNat e.2.addr.toNat)
          e.2.prev e.2.next = e.2 := by
        intro e he
        have there := List.mem_map_of_mem (f := fun e => (e.2.addr.toNat, e.2.sig, e.2.coff)) he
        rw [contents] at there
        obtain ⟨p, -, same⟩ := List.mem_map.mp there
        simp only [Prod.mk.injEq] at same
        obtain ⟨rfl, sig, coff⟩ := same
        simp only [sourceNode, linkNode, sig, coff, word_of_toNat]
      have keys : (ring.map fun e => (e.1, e.2.addr.toNat)).map Prod.fst = ring.map Prod.fst := by
        simp [Function.comp_def]
      rw [← keys, rotateRight_indices, keys] at back
      obtain ⟨nodes, chain, first⟩ := chain_of_ringFrom walked content back
      rw [← keys, List.head?_map] at first
      refine ⟨head.trans first.symm, ?_⟩
      have closes : firstIndex (ring.map fun e => (e.1, e.2.addr.toNat)) 0 = hd := by
        cases ring with
        | nil => cases first
        | cons e rest => exact Option.some.inj first
      rw [cycleNodes, closes, ← chain]
      exact nodes

/-- A ring that is a closed chain is walked as a whole. -/
theorem ringNodes_of_ringHas {nd : Nat → Node} {ix : WindowIndex} {h : Nat} {l : List RingEntry}
    (ring : RingHas nd ix h l) (distinct : (l.map Prod.fst).Nodup) (enough : l.length ≤ ix.nodes.length) :
    ringNodes ix h = some (cycleNodes nd l) := by
  by_cases hl : l = []
  · subst hl
    simp only [ringNodes, ring.1]
    rfl
  · have headOnce := (first_not_mem_tail distinct).resolve_left hl 0
    have head := ring.1.trans (head?_of_ne_nil hl 0)
    simp only [ringNodes, head]
    exact ringFrom_chain hl ring.2 headOnce enough 0

theorem ringOk_of_ringHas {s : State} (hold : StateHolds s) {h : Nat} {l : List RingEntry}
    (positions : l.map Prod.snd = slotPositions (sourceSlot s.tableSize s.mem) h (indexedPositions s))
    (ring : RingHas (sourceNode s.maxWindow s.mem s.wOrg.toNat) s.index h l) : ringOk s h = true := by
  have addressed := addressed_fullPositions s.maxWindow s.mem s.wOrg.toNat s.cur0.fin.isLt
    (windowStart s) s.wLen.toNat
  rw [indexedPositions_eq] at positions
  have walked := ringNodes_of_ringHas ring (ring_distinct addressed positions ring)
    (ring_length_le hold positions)
  simp only [ringOk, walked, Bool.and_eq_true, decide_eq_true_eq]
  constructor
  · rw [expectedRing_eq, indexedPositions_eq, ← positions, cycleNodes,
      chainNodes_map _ (fun n => (n.addr.toNat, n.sig, n.coff)) (fun _ _ _ => rfl), List.map_map]
    refine List.map_congr_left fun e he => ?_
    have addr := addressed.2 _ (mem_of_ring positions he).1
    simp only [addr, Function.comp_apply]
    rfl
  · rw [cycleNodes, chainNodes_prev, chainNodes_keys, rotateRight_indices]

/-- R35 of a state, said of its positions. -/
theorem indexOk_iff (s : State) : IndexOk s ↔ StateHolds s := by
  constructor
  · rintro ⟨rings, count⟩
    rw [StateHolds, HoldsWindow, ← indexedPositions_eq]
    exact ⟨fun h hh => ringHas_of_ringOk (rings h hh), count⟩
  · intro hold
    have ⟨rings, count⟩ := hold
    rw [← indexedPositions_eq] at rings count
    refine ⟨fun h hh => ?_, count⟩
    obtain ⟨l, positions, ring⟩ := rings h hh
    exact ringOk_of_ringHas hold positions ring

/-! ### A slide, and a token -/

/-- `slide` keeps the index in step with the window, eviction included. -/
theorem stateHolds_slideWindow {s : State} {e : Nat} (hold : StateHolds s) (pool : PoolOk s)
    (hT : 1 ≤ s.tableSize) (low : s.wOrg.toNat ≤ s.wEnd.toNat)
    (len : s.wLen.toNat = min (s.wEnd.toNat - s.wOrg.toNat) s.maxWindow) (forward : s.wEnd.toNat ≤ e)
    (below : e < 2 ^ 32) : StateHolds (slideWindow s e) := by
  have wLen := slideWindow_wLen s e below
  have wEnd := slideWindow_wEnd s e below
  rw [StateHolds, windowStart, wLen, wEnd]
  have fin := s.cur0.fin.isLt
  set newLen := min (e - s.wOrg.toNat) s.maxWindow with newLen_def
  set newStart := e - newLen with newStart_def
  have start : windowStart s + (newStart - windowStart s) = newStart := by
    simp only [windowStart]
    omega
  have evicted := holdsWindow_removeRange (newStart - windowStart s) hT fin pool hold
  rw [start] at evicted
  have from_ : max s.wEnd.toNat newStart = newStart + (s.wLen.toNat - (newStart - windowStart s)) := by
    simp only [windowStart]
    omega
  have whole : s.wLen.toNat - (newStart - windowStart s) + (e - max s.wEnd.toNat newStart) = newLen := by
    simp only [windowStart]
    omega
  have indexed := holdsWindow_insertRange (e - max s.wEnd.toNat newStart) hT fin
    (whole.trans_le (Nat.min_le_right _ _)) (removeRange_pool _ _ _ _ _ _ _ pool) evicted
  rw [whole, ← from_] at indexed
  exact indexed

/-- Only the signatures of the indexed positions matter of memory. -/
theorem indexOk_of_same_signatures {s : State} {m : Memory} (k : Cursor)
    (same : ∀ p ∈ indexedPositions s, signature m p = signature s.mem p) (hs : IndexOk s) :
    IndexOk { s with mem := m, cur1 := k } := by
  obtain ⟨rings, count⟩ := hs
  refine ⟨fun h hh => ?_, count⟩
  have expected : expectedRing { s with mem := m, cur1 := k } h = expectedRing s h := by
    have slots : slotPositions (sourceSlot s.tableSize m) h (indexedPositions s) =
        slotPositions (sourceSlot s.tableSize s.mem) h (indexedPositions s) := by
      refine congrArg List.reverse (List.filter_congr fun p hp => ?_)
      have slot : sourceSlot s.tableSize m p = sourceSlot s.tableSize s.mem p :=
        congrArg (sigHash s.tableSize) (same p hp)
      rw [slot]
    rw [expectedRing_eq, expectedRing_eq]
    refine (congrArg (List.map _) slots).trans (List.map_congr_left fun p hp => ?_)
    simp only [same p (mem_slotPositions.mp hp).1]
  have ok := rings h hh
  simp only [ringOk, expected] at ok ⊢
  exact ok

/-- The token goes to the output region, which is apart from the source (20_memory.md R76). -/
theorem memRead_writeBits_source {s : State} (ready : encReady s = true) (output : CursorOk s.cur1)
    {bits : List Bool} (room : bits.length ≤ leftBits s.cur1) {x : Nat}
    (low : s.cur0.origin.toNat ≤ x) (high : x < s.cur0.fin.toNat) :
    memRead (writeBits s.mem (bitAddr s.cur1) bits) x = memRead s.mem x := by
  obtain ⟨-, -, -, -, -, apart⟩ := (encReady_iff s).mp ready
  have apart := of_decide_eq_true apart
  obtain ⟨origin, -, -⟩ := output
  by_contra written
  have := writeBits_region _ _ _ room x written
  omega

theorem signature_writeBits_source {s : State} (ready : encReady s = true) (output : CursorOk s.cur1)
    (window : WindowOk s) {bits : List Bool} (room : bits.length ≤ leftBits s.cur1) {p : Nat}
    (hp : p ∈ indexedPositions s) :
    signature (writeBits s.mem (bitAddr s.cur1) bits) p = signature s.mem p := by
  obtain ⟨state, -, -, origin, -, -⟩ := (encReady_iff s).mp ready
  obtain ⟨low, len, -, -⟩ := window (by simp [state])
  rw [indexedPositions_eq, mem_fullPositions, windowStart] at hp
  simp only [signature]
  rw [memRead_writeBits_source ready output room (by omega) (by omega),
    memRead_writeBits_source ready output room (by omega) (by omega),
    memRead_writeBits_source ready output room (by omega) (by omega)]

/-- What the encoder keeps turn by turn beside its readiness. -/
def EncoderOk (s : State) : Prop := CursorsOk s ∧ ParamsOk s ∧ WindowOk s ∧ PoolOk s ∧ IndexOk s

theorem indexOk_afterToken {s : State} (ready : encReady s = true) (more : s.cur0.pos ≠ s.cur0.fin)
    (room : (chosenBits s).length ≤ leftBits s.cur1) (hs : EncoderOk s) : IndexOk (afterToken s) := by
  obtain ⟨⟨source, output⟩, ⟨-, -, hT⟩, window, pool, index⟩ := hs
  obtain ⟨state, -, atEnd, -⟩ := (encReady_iff s).mp ready
  obtain ⟨low, len, -, -⟩ := window (by simp [state])
  have bound := (chooseToken_bounds s source more).2
  have fin := s.cur0.fin.isLt
  have pos := source.2.1
  simp only [leftBytes] at bound
  have written := (indexOk_iff _).mp (indexOk_of_same_signatures (advance s.cur1 (chosenBits s).length)
    (fun p hp => signature_writeBits_source ready output window room hp) index)
  have slid := stateHolds_slideWindow (e := s.cur0.pos.toNat + (chooseToken s).2) written pool hT low len
    (by rw [atEnd]; exact Nat.le_add_right _ _) (by omega)
  exact (indexOk_iff _).mpr slid

theorem EncodeStep.indexOk {s t : State} (h : EncodeStep s t) (hs : EncoderOk s) : IndexOk t := by
  cases h with
  | token ready more room => exact indexOk_afterToken ready more room hs
  | _ => exact hs.2.2.2.2

theorem EncodeStep.encoderOk {s t : State} (hs : EncoderOk s) (h : EncodeStep s t) : EncoderOk t := by
  have ⟨cursors, params, window, pool, _⟩ := hs
  obtain ⟨⟨-, maxWindow, tableSize, -⟩, -⟩ := h.sameOpening
  exact ⟨h.cursorsOk cursors, by simpa only [ParamsOk, maxWindow, tableSize] using params,
    h.windowOk cursors window, h.poolOk pool, h.indexOk hs⟩

/-- An empty index is right for an empty window. -/
theorem indexOk_openedState (mode : CodecMode) (ty : VlcType) (a : Word) (s : State) :
    IndexOk (openedState mode ty a s) := ⟨fun _ _ => rfl, rfl⟩

/-- Settles O45: the empty index at the opening, and the slide turn by turn. -/
theorem encodeKeepsTheIndexConsistent : Obligations.EncodeKeepsTheIndexConsistent := by
  refine ⟨fun s t ty a legal aligned h => ?_, fun s t i hi ready cursors params window pool index h => ?_⟩
  · simp only [exec, execCodecOpen, legal, aligned] at h
    cases h
    exact (indexOk_openedState .enc ty a s :)
  · cases commandEffect_of_exec h with
    | named names => rcases hi with rfl | rfl <;> cases names
    | encoded _ _ _ _ _ steps =>
      exact (kept_by_turns (P := EncoderOk) EncodeStep.encoderOk ⟨cursors, params, window, pool, index⟩ steps
        :).2.2.2.2
    | opened is => rcases hi with rfl | rfl <;> cases is
    | decoded _ _ _ _ decoding =>
      have encoding := ((encReady_iff s).mp ready).1
      simp [((decReady_iff s).mp decoding).1] at encoding
    | _ => exact index

end Sys2Proof.Machine

/-! ## Whole bytes as bit fields (20_memory.md R64) -/

namespace Sys2Proof.Machine

/-! ### Stores -/

/-- Bits stored within one byte are one byte write, whatever the bits: every bit write rewrites the
whole byte (41_cursor_bits.md R151), and the last one stands. -/
theorem writeBits_within_byte {bs : List Bool} {m : Memory} {p : Nat} (hne : bs ≠ [])
    (within : p % 8 + bs.length ≤ 8) :
    writeBits m p bs = memWrite m (p / 8) (memRead (writeBits m p bs) (p / 8)) := by
  induction bs generalizing m p with
  | nil => exact absurd rfl hne
  | cons b rest ih =>
    rw [writeBits, writeBit]
    cases rest with
    | nil => simp [writeBits]
    | cons b' rest =>
      simp only [List.length_cons] at within ih
      have sameByte : (p + 1) / 8 = p / 8 := by omega
      have later := ih (m := memWrite m (p / 8) (putBit (memRead m (p / 8)) (p % 8) b)) (p := p + 1)
        (List.cons_ne_nil b' rest) (by omega)
      rwa [sameByte, memWrite_memWrite] at later

/-- The eight bits of a number at a byte address, read back as a byte. -/
theorem memRead_writeBits_fieldBits (m : Memory) (a v : Nat) :
    memRead (writeBits m (8 * a) (fieldBits 8 v)) a = BitVec.ofNat 8 v := by
  apply BitVec.eq_of_toNat_eq
  rw [← readField_byte, BitVec.toNat_ofNat]
  refine readField_fieldBits _ _ 8 v fun j hj => ?_
  rw [storesBits_writeBits, fieldBits_length, if_pos (by omega), Nat.add_sub_cancel_left]

theorem writeBits_byte (m : Memory) (a v : Nat) :
    writeBits m (8 * a) (fieldBits 8 v) = memWrite m a (BitVec.ofNat 8 v) := by
  have oneWrite := writeBits_within_byte (bs := fieldBits 8 v) (m := m) (p := 8 * a) (List.cons_ne_nil _ _) (by simp)
  rwa [Nat.mul_div_cancel_left a (by omega), memRead_writeBits_fieldBits] at oneWrite

theorem memWriteBytes_append (xs ys : List Byte) (m : Memory) (a : Nat) :
    memWriteBytes m a (xs ++ ys) = memWriteBytes (memWriteBytes m a xs) (a + xs.length) ys := by
  induction xs generalizing m a with
  | nil => rfl
  | cons b rest ih =>
    rw [List.cons_append, memWriteBytes, ih, memWriteBytes, List.length_cons, Nat.add_right_comm, Nat.add_assoc]

/-- The least significant byte of a big-endian number stands last. -/
theorem decomposeBytes_big_succ (w v : Nat) :
    decomposeBytes .big (w + 1) v = decomposeBytes .big w (v / 2 ^ 8) ++ [BitVec.ofNat 8 v] :=
  List.reverse_cons

/-- A field of whole bytes at a byte address is the big-endian store, as data (R64). -/
theorem writeBits_wholeBytes (m : Memory) (a w v : Nat) :
    writeBits m (8 * a) (fieldBits (8 * w) v) = memWriteBytes m a (decomposeBytes .big w v) := by
  induction w generalizing v with
  | zero => rfl
  | succ w ih =>
    calc writeBits m (8 * a) (fieldBits (8 * w + 8) v)
        = writeBits (writeBits m (8 * a) (fieldBits (8 * w) (v / 2 ^ 8))) (8 * (a + w)) (fieldBits 8 v) := by
          rw [fieldBits_append, writeBits_append, fieldBits_length, Nat.mul_add]
      _ = memWrite (memWriteBytes m a (decomposeBytes .big w (v / 2 ^ 8))) (a + w) (BitVec.ofNat 8 v) := by
          rw [ih, writeBits_byte]
      _ = memWriteBytes m a (decomposeBytes .big (w + 1) v) := by
          rw [decomposeBytes_big_succ, memWriteBytes_append, decomposeBytes_length]; rfl

/-! ### The shared accesses at a byte boundary -/

theorem bitAddr_of_aligned {k : Cursor} (aligned : k.bitoff = 0) : bitAddr k = 8 * k.pos.toNat := by
  simp [bitAddr, aligned]

theorem leftBits_of_aligned {k : Cursor} (aligned : k.bitoff = 0) : leftBits k = 8 * leftBytes k := by
  simp [leftBits, leftBytes, aligned]

theorem readField_bitsAt_wholeBytes (m : Memory) (w : Nat) {k : Cursor} (aligned : k.bitoff = 0) :
    readField (bitsAt m k) 0 (8 * w) = byteSum m k.pos.toNat w .big := by
  rw [← readField_bytes, ← bitAddr_of_aligned aligned]
  exact readField_congr _ _ _ _ _ fun j _ => by rw [bitsAt, Nat.zero_add]

/-- A bit-level get of whole bytes is the big-endian byte-level get, errors included (R64). -/
theorem getField_eq_getBytes (w : Nat) (ext : Nat → Word) {c : CurSel} {s : State}
    (aligned : (getCur s c).bitoff = 0) : getField (8 * w) ext c s = getBytes w .big ext c s := by
  have left := leftBits_of_aligned aligned
  obtain ⟨short, field⟩ | ⟨fits, field⟩ := getField_spec (8 * w) ext c s <;>
    obtain ⟨unaligned, -⟩ | ⟨-, short', bytes⟩ | ⟨-, fits', bytes⟩ := getBytes_spec w .big ext c s
  case inl.inr.inl => rw [field, bytes]
  case inr.inr.inr =>
    rw [field, bytes, advance_eq_advanceBytes _ w aligned, readField_bitsAt_wholeBytes s.mem w aligned]
  case inl.inl | inr.inl => exact absurd aligned unaligned
  all_goals omega

/-- A bit-level set of whole bytes is the big-endian byte-level set, errors included (R64). -/
theorem setField_eq_setBytes (w v : Nat) {c : CurSel} {s : State} (aligned : (getCur s c).bitoff = 0) :
    setField (8 * w) v c s = setBytes w .big v c s := by
  have left := leftBits_of_aligned aligned
  obtain ⟨short, field⟩ | ⟨fits, field⟩ := setField_spec (8 * w) v c s <;>
    obtain ⟨unaligned, -⟩ | ⟨-, short', bytes⟩ | ⟨-, fits', bytes⟩ := setBytes_spec w .big v c s
  case inl.inr.inl => rw [field, bytes]
  case inr.inr.inr =>
    rw [field, bytes, advance_eq_advanceBytes _ w aligned, bitAddr_of_aligned aligned, writeBits_wholeBytes]
  case inl.inl | inr.inl => exact absurd aligned unaligned
  all_goals omega

/-! ### A single byte has no order (42_cursor_bytes.md R176, R183, R190) -/

theorem getBytes_one_order (ext : Nat → Word) (c : CurSel) (s : State) :
    getBytes 1 .big ext c s = getBytes 1 .little ext c s := rfl

theorem setBytes_one_order (v : Nat) (c : CurSel) (s : State) :
    setBytes 1 .big v c s = setBytes 1 .little v c s := rfl

/-! ### The commands -/

section
variable {c : CurSel} {n : BitVec 6} {w : Nat} {s : State}

theorem exec_getUbits_wholeBytes (legal : countOk n = true) (count : n.toNat = 8 * w)
    (aligned : (getCur s c).bitoff = 0) :
    exec (.getUbits c n) s = getBytes w .big (zext32 (8 * w)) c s :=
  calc exec (.getUbits c n) s = getField n.toNat (zext32 n.toNat) c s := if_pos legal
    _ = getBytes w .big (zext32 (8 * w)) c s := by rw [count, getField_eq_getBytes w _ aligned]

theorem exec_getSbits_wholeBytes (legal : countOk n = true) (count : n.toNat = 8 * w)
    (aligned : (getCur s c).bitoff = 0) :
    exec (.getSbits c n) s = getBytes w .big (sext32 (8 * w)) c s :=
  calc exec (.getSbits c n) s = getField n.toNat (sext32 n.toNat) c s := if_pos legal
    _ = getBytes w .big (sext32 (8 * w)) c s := by rw [count, getField_eq_getBytes w _ aligned]

theorem exec_setUbits_wholeBytes (a : Word) (legal : countOk n = true) (count : n.toNat = 8 * w)
    (aligned : (getCur s c).bitoff = 0) :
    exec (.setUbits c n a) s = setBytes w .big a.toNat c s :=
  calc exec (.setUbits c n a) s = setField n.toNat a.toNat c s := if_pos legal
    _ = setBytes w .big a.toNat c s := by rw [count, setField_eq_setBytes w _ aligned]

end

/-- Settles O21: each of the twelve pairs is one shared access of whole bytes at a byte boundary. -/
theorem wholeByteFieldsAreBigEndian : Obligations.WholeByteFieldsAreBigEndian := by
  intro c a s aligned
  refine ⟨?getU8, ?getU16, ?getU24, ?getU32, ?getS8, ?getS16, ?getS24, ?getS32, ?setU8, ?setU16, ?setU24, ?setU32⟩
  case getU8 => exact (exec_getUbits_wholeBytes (w := 1) rfl rfl aligned).trans (getBytes_one_order _ c s)
  case getS8 => exact (exec_getSbits_wholeBytes (w := 1) rfl rfl aligned).trans (getBytes_one_order _ c s)
  case setU8 => exact (exec_setUbits_wholeBytes (w := 1) a rfl rfl aligned).trans (setBytes_one_order _ c s)
  case getU16 | getU24 | getU32 => exact exec_getUbits_wholeBytes rfl rfl aligned
  case getS16 | getS24 | getS32 => exact exec_getSbits_wholeBytes rfl rfl aligned
  case setU16 | setU24 | setU32 => exact exec_setUbits_wholeBytes a rfl rfl aligned

end Sys2Proof.Machine

/-! ## Command words and their fields (30_encoding.md R91) -/

namespace Sys2Proof

/-- Above the low part of a concatenation stands the high part. -/
theorem extractLsb'_append_high {m n start len : Nat} (i : Nat) (hi : BitVec m) (lo : BitVec n)
    (h : start = n + i) : (hi ++ lo).extractLsb' start len = hi.extractLsb' i len := by
  rw [BitVec.extractLsb'_append_eq_of_le (by omega), h, Nat.add_sub_cancel_left]

@[simp] theorem unpackCommand_packCommand (f : CommandFields) : unpackCommand (packCommand f) = f := by
  obtain ⟨op, c, z, n, a, b⟩ := f
  have aboveB (i len : Nat) := extractLsb'_append_high (len := len) i (op ++ c ++ z ++ n ++ a) b rfl
  have aboveA (i len : Nat) := extractLsb'_append_high (len := len) i (op ++ c ++ z ++ n) a rfl
  have aboveN (i len : Nat) := extractLsb'_append_high (len := len) i (op ++ c ++ z) n rfl
  have aboveZ (i len : Nat) := extractLsb'_append_high (len := len) i (op ++ c) z rfl
  simp only [unpackCommand, CommandFields.mk.injEq]
  exact ⟨(aboveB 40 8).trans ((aboveA 8 8).trans
      ((aboveN 2 8).trans ((aboveZ 1 8).trans BitVec.extractLsb'_append_eq_left))),
    (aboveB 39 1).trans ((aboveA 7 1).trans
      ((aboveN 1 1).trans ((aboveZ 0 1).trans BitVec.extractLsb'_append_eq_right))),
    (aboveB 38 1).trans ((aboveA 6 1).trans ((aboveN 0 1).trans BitVec.extractLsb'_append_eq_right)),
    (aboveB 32 6).trans ((aboveA 0 6).trans BitVec.extractLsb'_append_eq_right),
    (aboveB 0 32).trans BitVec.extractLsb'_append_eq_right,
    BitVec.extractLsb'_append_eq_right⟩

@[simp] theorem packCommand_unpackCommand (w : CommandWord) : packCommand (unpackCommand w) = w := by
  have join {i j len len' : Nat} (h : i = j + len) :
      w.extractLsb' i len' ++ w.extractLsb' j len = w.extractLsb' j (len' + len) :=
    BitVec.extractLsb'_append_extractLsb'_eq_extractLsb' h
  calc packCommand (unpackCommand w)
    _ = w.extractLsb' 0 80 := by
      simp only [unpackCommand, packCommand]
      rw [join (i := 72) rfl, join (i := 71) rfl, join (i := 70) rfl, join (i := 64) rfl, join (i := 32) rfl]
    _ = w := BitVec.extractLsb'_eq_self

theorem packCommand_injective : Function.Injective packCommand :=
  Function.LeftInverse.injective unpackCommand_packCommand

theorem encode_eq_some_iff (i : Instr) (w : CommandWord) :
    encode i = some w ↔ encodeFields i = some (unpackCommand w) := by
  rw [encode, Option.map_eq_some_iff]
  constructor
  · rintro ⟨f, hf, rfl⟩
    rw [hf, unpackCommand_packCommand]
  · exact fun h => ⟨_, h, packCommand_unpackCommand w⟩

/-! ## Selectors and their codes (30_encoding.md R91, R95) -/

@[simp] theorem curSelOf_code (c : CurSel) : curSelOf c.code = c := by cases c <;> rfl

@[simp] theorem code_curSelOf (c : BitVec 1) : (curSelOf c).code = c := by revert c; decide

@[simp] theorem codecModeOf_code (m : CodecMode) : codecModeOf m.code = m := by cases m <;> rfl

@[simp] theorem code_codecModeOf (m : BitVec 1) : (codecModeOf m).code = m := by revert m; decide

/-- `n` of `codec_open` holds the strategy in bits 2:1 and the mode in bit 0. -/
theorem vlcTypeOf_eq_some_iff (t : BitVec 2) (ty : VlcType) : vlcTypeOf t = some ty ↔ t = ty.code := by
  revert t; cases ty <;> decide

/-! ## Fields that keep to a format (30_encoding.md R93, R99) -/

/-- The part of the `n` field that a format uses. -/
def Format.keepCount (fmt : Format) (n : BitVec 6) : BitVec 6 :=
  match fmt with
  | .N | .NA => n
  | .P => (0 : BitVec 3) ++ n.extractLsb' 1 2 ++ n.extractLsb' 0 1
  | .Z | .A | .AB | .O => 0

/-- The command fields with what the format does not use set to 0. -/
def Format.keep (fmt : Format) (f : CommandFields) : CommandFields :=
  { op := f.op
    c := if fmt.usesC then f.c else 0
    z := 0
    n := fmt.keepCount f.n
    a := if fmt.usesA then f.a else 0
    b := if fmt.usesB then f.b else 0 }

/-- What the range check adds to a format that has a bit count. -/
def Format.countLegal (fmt : Format) (n : BitVec 6) : Prop := fmt = .N ∨ fmt = .NA → n.toNat ≤ 32

theorem modeBits_eq_zero_iff (n : BitVec 6) :
    n.extractLsb' 3 3 = 0 ↔ (0 : BitVec 3) ++ n.extractLsb' 1 2 ++ n.extractLsb' 0 1 = n := by
  revert n; decide

theorem countError_eq_none_iff (fmt : Format) (n : BitVec 6) :
    countError fmt n = none ↔ fmt.keepCount n = n ∧ fmt.countLegal n := by
  cases fmt
  case N | NA => simp [countError, Format.keepCount, Format.countLegal, countOk]
  case P => simpa [countError, Format.keepCount, Format.countLegal] using modeBits_eq_zero_iff n
  case Z | A | AB | O => simp [countError, Format.keepCount, Format.countLegal, eq_comm (a := n)]

/-- A field that a format does not use is 0 when setting it to 0 changes nothing. -/
theorem kept_iff {w : Nat} (used : Bool) (x : BitVec w) :
    (used = false → x = 0) ↔ (if used then x else 0) = x := by
  cases used
  · simpa using eq_comm
  · simp

theorem ite_some_eq_none_iff {α : Type} (p : Prop) [Decidable p] (e : α) (o : Option α) :
    (if p then some e else o) = none ↔ ¬ p ∧ o = none := by
  split <;> simp [*]

/-- The format check passes fields that are 0 wherever the format does not use them, with a count in
its range. -/
theorem formatError_eq_none_iff (fmt : Format) (f : CommandFields) :
    formatError fmt f = none ↔ fmt.keep f = f ∧ fmt.countLegal f.n := by
  have parts : formatError fmt f = none ↔
      f.z = 0 ∧ (fmt.usesC = false → f.c = 0) ∧ countError fmt f.n = none ∧
        (fmt.usesA = false → f.a = 0) ∧ (fmt.usesB = false → f.b = 0) := by
    unfold formatError
    cases countError fmt f.n with
    | some e =>
      simp only [ite_some_eq_none_iff]
      simp
    | none =>
      simp only [ite_some_eq_none_iff]
      simp
  rw [parts, countError_eq_none_iff, kept_iff, kept_iff, kept_iff]
  obtain ⟨op, c, z, n, a, b⟩ := f
  simp only [Format.keep, CommandFields.mk.injEq, true_and]
  constructor
  · rintro ⟨hz, hc, ⟨hn, legal⟩, ha, hb⟩
    exact ⟨⟨hc, hz.symm, hn, ha, hb⟩, legal⟩
  · rintro ⟨⟨hc, hz, hn, ha, hb⟩, legal⟩
    exact ⟨hz.symm, hc, ⟨hn, legal⟩, ha, hb⟩

/-! ## Decoding an encoding -/

/-- A row of the opcode map reads the fields that keep to its format. -/
theorem decodeFields_eq_ok_of_row {fmt : Format} {f : CommandFields} {i j : Instr}
    (row : decodeFields f = checked fmt f i) (keeps : fmt.keep f = f) (legal : fmt.countLegal f.n)
    (same : i = j) : decodeFields f = .ok j :=
  row.trans ((checked_eq_ok_iff ..).mpr ⟨(formatError_eq_none_iff ..).mpr ⟨keeps, legal⟩, same⟩)

theorem countLegal_of_no_count {fmt : Format} (n : BitVec 6) (h : fmt ≠ .N) (h' : fmt ≠ .NA) :
    fmt.countLegal n :=
  fun counts => (counts.elim h h').elim

/-- The row of `codec_open` reads the fields written from it. -/
theorem decodeCodecOpen_codecOpen (op : BitVec 8) (mode : CodecMode) {ty : VlcType} {a : Word}
    (legal : vlcParamOk ty a = true) :
    decodeCodecOpen ⟨op, 0, 0, (0 : BitVec 3) ++ ty.code ++ mode.code, a, 0⟩ =
      .ok (.codecOpen mode ty a) := by
  have type : ((0 : BitVec 3) ++ ty.code ++ mode.code).extractLsb' 1 2 = ty.code := by
    cases ty <;> cases mode <;> rfl
  have bit : ((0 : BitVec 3) ++ ty.code ++ mode.code).extractLsb' 0 1 = mode.code := by
    cases ty <;> cases mode <;> rfl
  refine (decodeCodecOpen_eq_ok_iff ..).mpr ⟨(formatError_eq_none_iff ..).mpr ⟨?_, ?_⟩, ty, ?_, legal, ?_⟩
  · simp only [Format.keep, Format.keepCount, type, bit]
    rfl
  · exact countLegal_of_no_count _ (by decide) (by decide)
  · exact (vlcTypeOf_eq_some_iff ..).mpr type
  · simp only [bit, codecModeOf_code]

/-- The encoding of a well-formed command is read by the row it was written from. -/
theorem decodeFields_of_encodeFields {i : Instr} {f : CommandFields} (wf : i.wf = true)
    (h : encodeFields i = some f) : decodeFields f = .ok i := by
  cases i <;> cases h
  case codecOpen.refl mode ty a => exact decodeCodecOpen_codecOpen _ mode wf
  case getUbits.refl | getSbits.refl | peekUbits.refl | peekSbits.refl =>
    exact decodeFields_eq_ok_of_row (fmt := .N) rfl rfl (fun _ => of_decide_eq_true wf) (by simp)
  case setUbits.refl | setSbits.refl =>
    exact decodeFields_eq_ok_of_row (fmt := .NA) rfl rfl (fun _ => of_decide_eq_true wf) (by simp)
  case attach.refl | getData.refl | setData.refl =>
    exact decodeFields_eq_ok_of_row (fmt := .AB) rfl rfl (countLegal_of_no_count _ (by decide) (by decide)) (by simp)
  case codecClose.refl | deflateStep.refl | deflateRun.refl | inflateStep.refl | inflateRun.refl |
      codecState.refl | winFind.refl =>
    exact decodeFields_eq_ok_of_row (fmt := .O) rfl rfl (countLegal_of_no_count _ (by decide) (by decide)) rfl
  case goto.refl | skipBytes.refl | skipBits.refl | setU1.refl | setU8.refl | setU16Le.refl | setU24Le.refl |
      setU32Le.refl | setU16Be.refl | setU24Be.refl | setU32Be.refl | setS8.refl | setS16Le.refl | setS24Le.refl |
      setS32Le.refl | setS16Be.refl | setS24Be.refl | setS32Be.refl | vlcPut.refl =>
    exact decodeFields_eq_ok_of_row (fmt := .A) rfl rfl (countLegal_of_no_count _ (by decide) (by decide)) (by simp)
  all_goals
    exact decodeFields_eq_ok_of_row (fmt := .Z) rfl rfl (countLegal_of_no_count _ (by decide) (by decide)) (by simp)

/-- Settles O4: the fields of a command's word come back, and its row reads them. -/
theorem decodeOfEncodeIsTheCommand : Obligations.DecodeOfEncodeIsTheCommand := by
  intro i w wf h
  exact decodeFields_of_encodeFields wf ((encode_eq_some_iff i w).mp h)

/-- Settles O3: each example word is the encoding of its command. -/
theorem exampleWordsDecode : Obligations.ExampleWordsDecode := by
  refine ⟨?_, ?_, ?_, ?_, ?_, ?_⟩ <;> exact decodeOfEncodeIsTheCommand _ _ rfl rfl

/-! ## Encoding what was decoded -/

theorem fields_of_keeps {fmt : Format} {f : CommandFields} {k : Nat} (op : f.op.toNat = k)
    (h : formatError fmt f = none) : { fmt.keep f with op := BitVec.ofNat 8 k } = f := by
  subst op
  obtain ⟨keeps, -⟩ := (formatError_eq_none_iff fmt f).mp h
  simpa [Format.keep] using keeps

/-- A row writes the fields that it reads. -/
theorem encodeFields_of_checked {fmt : Format} {f : CommandFields} {i j : Instr} {k : Nat}
    (op : f.op.toNat = k) (h : checked fmt f i = .ok j)
    (row : encodeFields i = some { fmt.keep f with op := BitVec.ofNat 8 k }) : encodeFields j = some f := by
  obtain ⟨keeps, rfl⟩ := (checked_eq_ok_iff ..).mp h
  rw [row, fields_of_keeps op keeps]

theorem encodeFields_of_decodeCodecOpen {f : CommandFields} {i : Instr} (op : f.op.toNat = 0x50)
    (h : decodeCodecOpen f = .ok i) : encodeFields i = some f := by
  obtain ⟨keeps, ty, type, -, rfl⟩ := (decodeCodecOpen_eq_ok_iff f i).mp h
  rw [encodeFields, code_codecModeOf, ← (vlcTypeOf_eq_some_iff ..).mp type]
  exact congrArg some (fields_of_keeps op keeps)

theorem encodeFields_of_decodeFields {i : Instr} {f : CommandFields} (h : decodeFields f = .ok i) :
    encodeFields i = some f := by
  unfold decodeFields at h
  split at h
  -- arm 50 is opcode 0x50, arm 58 the reserved opcodes; every other row is `checked`
  case h_50 => exact encodeFields_of_decodeCodecOpen (by assumption) h
  case h_58 => cases h
  all_goals
    exact encodeFields_of_checked (by assumption) h (by simp only [encodeFields, code_curSelOf]; rfl)

/-- Settles O5: every row writes the fields it reads, and the decoder answers well-formed commands only. -/
theorem everyDecodedWordIsTheEncodingOfItsCommand :
    Obligations.EveryDecodedWordIsTheEncodingOfItsCommand := by
  intro w i h
  exact ⟨wf_of_decode h, (encode_eq_some_iff i w).mpr (encodeFields_of_decodeFields h)⟩

end Sys2Proof

/-! ## Legal words (30_encoding.md R93, R96, R99) -/

namespace Sys2Proof

/-- The fields of a format's mask: all ones where the format fixes the field. -/
def Format.maskFields (fmt : Format) : CommandFields :=
  { op := .allOnes 8
    c := if fmt.usesC then 0 else .allOnes 1
    z := .allOnes 1
    n := match fmt with
      | .N | .NA => 0
      | .P => 0x38
      | .Z | .A | .AB | .O => .allOnes 6
    a := if fmt.usesA then 0 else .allOnes 32
    b := if fmt.usesB then 0 else .allOnes 32 }

theorem formatMask_eq_packCommand (fmt : Format) : Machine.formatMask fmt = packCommand fmt.maskFields := by
  cases fmt <;> decide

theorem unpackCommand_pattern (op : BitVec 8) : unpackCommand (op ++ (0 : BitVec 72)) = ⟨op, 0, 0, 0, 0, 0⟩ := by
  have low {start len : Nat} (h : start + len ≤ 72) :
      (op ++ (0 : BitVec 72)).extractLsb' start len = 0 :=
    (BitVec.extractLsb'_append_eq_of_add_le h).trans (by simp)
  simp only [unpackCommand, CommandFields.mk.injEq]
  exact ⟨BitVec.extractLsb'_append_eq_left, low (by decide), low (by decide), low (by decide), low (by decide),
    low (by decide)⟩

theorem and_mask_eq_zero_iff {w : Nat} (used : Bool) (x : BitVec w) :
    x &&& (if used then 0 else .allOnes w) = 0 ↔ (if used then x else 0) = x := by
  rw [← kept_iff]
  cases used <;> simp

theorem count_and_mask_eq_zero_iff (fmt : Format) (n : BitVec 6) :
    n &&& fmt.maskFields.n = 0 ↔ fmt.keepCount n = n := by
  revert n; cases fmt <;> decide

/-- A word matches mask and pattern of a row if it has the opcode and keeps to the format. -/
theorem matches_row_iff (w : CommandWord) (op : BitVec 8) (fmt : Format) :
    w &&& Machine.formatMask fmt = op ++ (0 : BitVec 72) ↔
      (unpackCommand w).op = op ∧ fmt.keep (unpackCommand w) = unpackCommand w := by
  rw [← packCommand_unpackCommand w, ← packCommand_unpackCommand (op ++ _), unpackCommand_packCommand,
    formatMask_eq_packCommand, packCommand_and, packCommand_injective.eq_iff, unpackCommand_pattern]
  obtain ⟨o, c, z, n, a, b⟩ := unpackCommand w
  simp only [CommandFields.mk.injEq, count_and_mask_eq_zero_iff, Format.keep]
  simp only [Format.maskFields, BitVec.and_allOnes, and_mask_eq_zero_iff, true_and,
    eq_comm (a := (0 : BitVec 1)) (b := z)]

/-- Every opcode of R96 other than that of `codec_open` checks its format and nothing else. -/
theorem decodeFields_of_row {row : Machine.OpcodeRow} (mem : row ∈ Machine.opcodeMap) (other : row.2 ≠ .P)
    (f : CommandFields) (op : f.op = row.1) : ∃ i, decodeFields f = checked row.2 f i := by
  obtain ⟨_, c, z, n, a, b⟩ := f
  subst op
  revert row
  simp only [Machine.opcodeMap, List.cons_append, List.nil_append, List.forall_mem_cons, ne_eq, reduceCtorEq,
    not_true_eq_false, not_false_eq_true, forall_const, false_imp_iff, true_and, List.not_mem_nil,
    implies_true, and_true]
  and_intros
  all_goals exact ⟨_, rfl⟩

theorem opcode_of_format_P : ∀ row ∈ Machine.opcodeMap, row.2 = .P → row.1 = 0x50 := by decide

theorem decodeFields_of_opcode_codecOpen {f : CommandFields} (op : f.op = 0x50) :
    decodeFields f = decodeCodecOpen f := by
  obtain ⟨_, c, z, n, a, b⟩ := f
  subst op
  rfl

theorem mem_opcodeMap_of_decodeFields {f : CommandFields} {i : Instr} (h : decodeFields f = .ok i) :
    f.op ∈ Machine.opcodeMap.map Prod.fst := by
  have self : f.op = BitVec.ofNat 8 f.op.toNat := by simp
  rw [self]
  unfold decodeFields at h
  split at h
  case h_58 => cases h
  all_goals
    rename_i op
    rw [op]
    decide

/-- A row of the opcode map reads the fields that keep to its format; those of `codec_open` also name a
strategy with a parameter in its range. -/
theorem exists_decodeFields_iff_of_row {row : Machine.OpcodeRow} (mem : row ∈ Machine.opcodeMap)
    {f : CommandFields} (op : f.op = row.1) :
    (∃ i, decodeFields f = .ok i) ↔ formatError row.2 f = none ∧
      (row.2 = .P → ∃ ty, vlcTypeOf (f.n.extractLsb' 1 2) = some ty ∧ vlcParamOk ty f.a = true) := by
  by_cases hP : row.2 = .P
  · rw [decodeFields_of_opcode_codecOpen (op.trans (opcode_of_format_P row mem hP)), hP]
    simp [decodeCodecOpen_eq_ok_iff]
  · obtain ⟨i, row⟩ := decodeFields_of_row mem hP f op
    simp [row, hP]

/-- The types and parameters of `codec_open` (44_vlc.md R224), listed. -/
theorem exists_vlcType_iff (t : BitVec 2) (a : Word) :
    (∃ ty, vlcTypeOf t = some ty ∧ vlcParamOk ty a = true) ↔
      (t = 0 ∧ 1 ≤ a.toNat ∧ a.toNat ≤ 32) ∨ (t = 1 ∧ a.toNat ≤ 31) ∨ (t = 2 ∧ a = 0) := by
  simp only [vlcTypeOf_eq_some_iff]
  constructor
  · rintro ⟨ty, rfl, legal⟩
    cases ty
    case fixed => exact .inl ⟨rfl, (vlcParamOk_fixed a).mp legal⟩
    case golomb => exact .inr (.inl ⟨rfl, (vlcParamOk_golomb a).mp legal⟩)
    case gamma => exact .inr (.inr ⟨rfl, of_decide_eq_true legal⟩)
  · rintro (⟨rfl, legal⟩ | ⟨rfl, legal⟩ | ⟨rfl, legal⟩)
    · exact ⟨.fixed, rfl, (vlcParamOk_fixed a).mpr legal⟩
    · exact ⟨.golomb, rfl, (vlcParamOk_golomb a).mpr legal⟩
    · exact ⟨.gamma, rfl, decide_eq_true legal⟩

theorem vlcType_field (w : CommandWord) : (unpackCommand w).n.extractLsb' 1 2 = w.extractLsb' 65 2 := by
  ext i hi
  simp only [unpackCommand, BitVec.getElem_extractLsb', BitVec.getLsbD_extractLsb']
  rw [decide_eq_true (by omega), Bool.true_and, ← Nat.add_assoc]

theorem legalWord_iff (w : CommandWord) : Machine.legalWord w ↔ ∃ i, decode w = .ok i := by
  have row_iff {row : Machine.OpcodeRow} (mem : row ∈ Machine.opcodeMap) (op : (unpackCommand w).op = row.1) :=
    (exists_decodeFields_iff_of_row mem op).trans (by
      rw [formatError_eq_none_iff, exists_vlcType_iff, vlcType_field])
  constructor
  · rintro ⟨row, mem, hmatch, count, param⟩
    obtain ⟨op, keeps⟩ := (matches_row_iff w row.1 row.2).mp hmatch
    exact (row_iff mem op).mpr ⟨⟨keeps, count⟩, param⟩
  · rintro ⟨i, h⟩
    obtain ⟨row, mem, op⟩ := List.mem_map.mp (mem_opcodeMap_of_decodeFields h)
    obtain ⟨⟨keeps, count⟩, param⟩ := (row_iff mem op.symm).mp ⟨i, h⟩
    exact ⟨row, mem, (matches_row_iff w row.1 row.2).mpr ⟨op.symm, keeps⟩, count, param⟩

namespace Machine

theorem runCommand_of_not_legal {w : CommandWord} (h : ¬ legalWord w) (s : State) :
    runCommand w s = .next (answered s .eIllegal 0 0) := by
  simp only [runCommand]
  split
  · exact absurd ((legalWord_iff w).mpr ⟨_, ‹_›⟩) h
  · rfl

/-- Settles O2: legality is what the decoder accepts, and every other word runs to E_ILLEGAL. -/
theorem illegalWordsAnswerEIllegal : Obligations.IllegalWordsAnswerEIllegal :=
  ⟨legalWord_iff, fun _ _ _ hinputs illegal => (step_command hinputs).trans (runCommand_of_not_legal illegal _)⟩

end Machine

end Sys2Proof

/-! ## Codes and tokens read back from a stream (30_encoding.md R103 to R106; 44_vlc.md R225 to R229) -/

namespace Sys2Proof

/-- From bit `i` on the stream begins with these bits. -/
def StandsAt (bits : BitStream) (i : Nat) (l : List Bool) : Prop :=
  ∀ j < l.length, bits (i + j) = l.getD j false

theorem standsAt_cons {bits : BitStream} {i : Nat} {b : Bool} {l : List Bool} :
    StandsAt bits i (b :: l) ↔ bits i = b ∧ StandsAt bits (i + 1) l := by
  constructor
  · intro h
    refine ⟨h 0 (by simp), fun j hj => ?_⟩
    have next := h (j + 1) (by simpa using hj)
    rwa [← Nat.add_assoc, Nat.add_right_comm] at next
  · rintro ⟨first, rest⟩ j hj
    cases j with
    | zero => exact first
    | succ j =>
      have next := rest j (by simpa using hj)
      rwa [Nat.add_right_comm] at next

theorem standsAt_append {bits : BitStream} {i : Nat} {l l' : List Bool} :
    StandsAt bits i (l ++ l') ↔ StandsAt bits i l ∧ StandsAt bits (i + l.length) l' := by
  induction l generalizing i with
  | nil => simp [StandsAt]
  | cons b l ih =>
    rw [List.cons_append, standsAt_cons, standsAt_cons, ih, and_assoc, List.length_cons, Nat.add_assoc,
      Nat.add_comm 1]

theorem StandsAt.replicate {bits : BitStream} {i n : Nat} {b : Bool} (h : StandsAt bits i (List.replicate n b)) :
    ∀ j < n, bits (i + j) = b := by
  intro j hj
  simpa [hj] using h j (by simpa using hj)

theorem StandsAt.readField {bits : BitStream} {i n v : Nat} (h : StandsAt bits i (fieldBits n v)) :
    readField bits i n = v % 2 ^ n :=
  readField_fieldBits bits i n v (by simpa [StandsAt] using h)

/-- A code that stands at bit `i` is read back with its length, whatever follows it. -/
theorem vlcDecode_of_standsAt {ty : VlcType} {p v : Nat} {bits : BitStream} {i left : Nat}
    (least : vlcMin ty ≤ v) (most : v ≤ vlcMax ty p) (stands : StandsAt bits i (vlcCode ty p v))
    (room : vlcLen ty p v ≤ left) : vlcDecode ty p bits i left = .ok (v, vlcLen ty p v) := by
  cases ty with
  | fixed =>
    simp only [vlcCode, vlcLen, vlcMax] at stands room most
    have small : v < 2 ^ p := by have := Nat.two_pow_pos p; omega
    simp only [vlcDecode, vlcLen, if_neg (Nat.not_lt.mpr room), stands.readField, Nat.mod_eq_of_lt small]
  | golomb =>
    simp only [vlcCode, vlcLen, vlcMax] at stands room most
    obtain ⟨unary, closing, field⟩ : _ ∧ _ ∧ _ := by simpa only [standsAt_append, standsAt_cons] using stands
    rw [List.length_replicate] at closing field
    have quotient : vlcUnary bits true ((2 ^ 32 - 1) / 2 ^ p) left i 0 = .ok (v / 2 ^ p) := by
      simpa using vlcUnary_run bits true _ left i 0 _ unary.replicate (by simp [closing]) (by omega)
        (by simpa using Nat.div_le_div_right most)
    simp only [vlcDecode, vlcLen, quotient, field.readField, Nat.div_add_mod']
    rw [if_neg (by omega)]
  | gamma =>
    simp only [vlcCode, vlcLen, vlcMax, vlcMin] at stands room most least
    rw [standsAt_append, fieldBits, standsAt_cons, List.length_replicate] at stands
    obtain ⟨unary, closing, field⟩ := stands
    have low := pow_log2_le v least
    have high := lt_pow_log2 v
    rw [Nat.pow_succ] at high
    have exponent : Nat.log2 v < 32 := (Nat.log2_lt (by omega)).mpr (by omega)
    have count : vlcUnary bits false 31 left i 0 = .ok (Nat.log2 v) := by
      simpa using vlcUnary_run bits false 31 left i 0 _ unary.replicate
        (by rw [closing, Nat.testBit_log2 (by omega)]; simp) (by omega) (by omega)
    have value : 2 ^ Nat.log2 v + v % 2 ^ Nat.log2 v = v := by
      rw [Nat.mod_eq_sub_mod low, Nat.mod_eq_of_lt (by omega)]; omega
    simp only [vlcDecode, vlcLen, count, field.readField, value]
    rw [if_neg (by omega)]

theorem ofNat_toNat_mod {w : Nat} (b : BitVec w) : BitVec.ofNat w (b.toNat % 2 ^ w) = b := by
  rw [Nat.mod_eq_of_lt b.isLt, BitVec.ofNat_toNat, BitVec.setWidth_eq]

/-- Settles O49: the flag says which token stands, and each of its fields is read back. -/
theorem tokensDecodeToThemselves : Obligations.TokensDecodeToThemselves := by
  intro posBits ty a tk bits left _ _ fits room agree
  have stands : StandsAt bits 0 (tokenBits posBits ty a.toNat tk) := by simpa [StandsAt] using agree
  rw [tokenBits_length] at room
  refine ⟨?_, (tokenBits_length ..).symm⟩
  cases tk with
  | literalPair b0 b1 =>
    simp only [tokenBits, standsAt_cons, standsAt_append, fieldBits_length] at stands
    obtain ⟨flag, first, second⟩ := stands
    simp only [tokenLen] at room
    simp only [decodeToken, flag, first.readField, second.readField, ofNat_toNat_mod]
    simp [tokenLen, show 16 ≤ left - 1 by omega]
  | singleLiteral b0 =>
    simp only [tokenBits, standsAt_cons] at stands
    obtain ⟨flag, first⟩ := stands
    have short : left < 17 := fits
    simp only [decodeToken, flag, first.readField, ofNat_toNat_mod]
    simp [tokenLen, show ¬ 16 ≤ left - 1 by omega]
  | matchRef off v =>
    simp only [tokenBits, standsAt_cons, standsAt_append, fieldBits_length] at stands
    obtain ⟨flag, offset, code⟩ := stands
    obtain ⟨small, least, most⟩ := fits
    simp only [tokenLen] at room
    have length := vlcDecode_of_standsAt (left := left - 1 - posBits) least most code (by omega)
    simp [decodeToken, flag, offset.readField, Nat.mod_eq_of_lt small, length, tokenLen,
      show ¬ left - 1 < posBits by omega]

end Sys2Proof

/-! ## Token forms and `inflate_step` (30_encoding.md R103 to R105; 47_lzsw_decode.md R292; log 10) -/

namespace Sys2Proof

/-- A token that the decoder reads has the length of its bits, and the value of a match is
representable. -/
theorem decodeToken_ok {posBits : Nat} {ty : VlcType} {p : Nat} {bits : BitStream} {left : Nat} {tk : Token}
    {len : Nat} (hp : ty = .gamma ∨ p ≤ 32) (h : decodeToken posBits ty p bits left = .ok (tk, len)) :
    len = tokenLen posBits ty p tk ∧
      ∀ off v, tk = .matchRef off v → vlcMin ty ≤ v.toNat ∧ v.toNat ≤ vlcMax ty p := by
  simp only [decodeToken] at h
  split at h
  · split at h
    · cases h
    · split at h
      · cases h
      · rename_i v codeLen code
        obtain ⟨least, most, small, hlen⟩ := vlcDecode_ok _ _ _ _ _ _ _ hp code
        have value : (BitVec.ofNat 32 v).toNat = v := Nat.mod_eq_of_lt small
        cases h
        refine ⟨by simp only [tokenLen, value, hlen], ?_⟩
        rintro off v' ⟨⟩
        exact ⟨value.symm ▸ least, value.symm ▸ most⟩
  · split at h <;> cases h <;> exact ⟨rfl, by simp⟩

namespace Machine

theorem vlcParam_le_of_strategyOk {s : State} (strategy : StrategyOk s) (running : s.cstate ≠ .closed) :
    s.vlcType = .gamma ∨ s.vlcParam.toNat ≤ 32 := by
  have legal := strategy running
  have same : (s.vlcParam.setWidth 32).toNat = s.vlcParam.toNat := by
    have := s.vlcParam.isLt
    rw [BitVec.toNat_setWidth]
    omega
  cases type : s.vlcType with
  | fixed => rw [type, vlcParamOk_fixed, same] at legal; exact .inr legal.2
  | golomb => rw [type, vlcParamOk_golomb, same] at legal; exact .inr (by omega)
  | gamma => exact .inl rfl

/-- What a token form does once the decoder is ready, the tests of R292 in their order. -/
def meetTurn (tk : Token) (s : State) : State × Status × Nat × Nat :=
  let len := tokenLen s.posBits.toNat s.vlcType s.vlcParam.toNat tk
  if leftBits s.cur0 < 9 then ({ s with cstate := .decDone }, .done, 0, 0)
  else if leftBytes s.cur1 = 0 then (s, .outFull, 0, 0)
  else if leftBits s.cur0 < len then failToken .eCodecTrunc s
  else applyToken tk len s

/-- How a decoder that is ready answers for one turn. -/
def answerTurn (r : State × Status × Nat × Nat) : State := answered r.1 r.2.1 (word r.2.2.1) (word r.2.2.2)

theorem meetToken_of_ready {s : State} (ready : decReady s = true) (tk : Token) :
    meetToken tk s = .next (answerTurn (meetTurn tk s)) := by
  simp only [meetToken, ready, if_true]
  rfl

theorem inflateStep_of_ready {s : State} (ready : decReady s = true) :
    exec .inflateStep s = .next (answerTurn (inflateToken s)) := by
  simp only [exec, execInflateStep, ready, if_true]
  rfl

/-- No value that the open strategy has a code for makes a match form malformed. -/
theorem exec_token_of_representable {s : State} {tk : Token}
    (fits : ∀ off v, tk = .matchRef off v → representable s v.toNat = true) :
    exec tk.instr s = meetToken tk s := by
  cases tk with
  | literalPair b0 b1 => rfl
  | singleLiteral b0 => rfl
  | matchRef off v => simp [Token.instr, exec, execTokenMatch, fits off v rfl]

/-- A decoder that is not ready refuses every token form as it refuses `inflate_step`. -/
theorem exec_token_of_not_ready {s : State} (ready : decReady s = false) (tk : Token) :
    exec tk.instr s = .next (answered s .eSequence 0 0) := by
  have refused (tk : Token) : meetToken tk s = .next (answered s .eSequence 0 0) := by
    simp [meetToken, ready]
  cases tk with
  | literalPair b0 b1 => exact refused _
  | singleLiteral b0 => exact refused _
  | matchRef off v =>
    simp only [Token.instr, exec, execTokenMatch, ready, Bool.false_and, Bool.false_eq_true, if_false]
    exact refused _

/-- The turn of a form is the turn of `inflate_step` when the form is the token that is read. -/
theorem meetTurn_eq_inflateToken {s : State} {tk : Token} {len : Nat} (reads : tokenAtCursor s = .ok (tk, len))
    (length : len = tokenLen s.posBits.toNat s.vlcType s.vlcParam.toNat tk) :
    meetTurn tk s = inflateToken s := by
  simp only [meetTurn, inflateToken, reads, ← length]
  split
  · rfl
  · have there := (decodeToken_len _ _ _ _ _ _ _ (by omega) reads).2
    rw [if_neg (Nat.not_lt.mpr there)]

theorem inflateStep_eq_exec_token {s : State} {tk : Token} {len : Nat} (strategy : StrategyOk s)
    (reads : tokenAtCursor s = .ok (tk, len)) : exec .inflateStep s = exec tk.instr s := by
  cases ready : decReady s with
  | false => rw [exec_token_of_not_ready ready, exec, execInflateStep, ready]; rfl
  | true =>
    obtain ⟨decoding, -⟩ := (decReady_iff s).mp ready
    obtain ⟨length, fits⟩ := decodeToken_ok (vlcParam_le_of_strategyOk strategy (by simp [decoding])) reads
    have coded : ∀ off v, tk = .matchRef off v → representable s v.toNat = true :=
      fun off v is => decide_eq_true (fits off v is)
    rw [inflateStep_of_ready ready, exec_token_of_representable coded, meetToken_of_ready ready,
      meetTurn_eq_inflateToken reads length]

/-! ### A token form with its token whole and room for its bytes -/

/-- What a decoded token leaves (R292, R300), for every memory it puts out. -/
theorem decoded_commitToken {s : State} (m : Memory) {n len : Nat} (ready : decReady s = true)
    (there : len ≤ leftBits s.cur0) (room : n ≤ leftBytes s.cur1) :
    Decoded s (commitToken s m n len).1 n len := by
  obtain ⟨-, -, atEnd, -⟩ := (decReady_iff s).mp ready
  have fin := s.cur1.fin.isLt
  have pos := s.cur1.pos.isLt
  have below : s.cur1.pos.toNat + n < 2 ^ 32 := by
    simp only [leftBytes] at room
    omega
  have wLen : (commitToken s m n len).1.wLen.toNat = min (s.cur1.pos.toNat + n - s.wOrg.toNat) s.maxWindow :=
    word_toNat_of_lt _ (by omega)
  refine ⟨movedBits_advance _ _ there, movedBits_advanceBytes _ _ room, ?_, ?_, ?_, rfl, rfl, rfl, rfl, rfl, rfl,
    rfl, rfl, rfl, rfl, rfl⟩
  · exact (word_toNat_of_lt _ below).trans (by rw [atEnd])
  · rw [wLen, atEnd]
  · rw [wLen]
    exact posBits_toNat _ (by omega)

/-- A form whose token stands whole, with the decoder ready, has the token's effect. -/
theorem exec_token_of_whole {s : State} {tk : Token} (ready : decReady s = true)
    (fits : ∀ off v, tk = .matchRef off v → representable s v.toNat = true) (more : 9 ≤ leftBits s.cur0)
    (there : tokenLen s.posBits.toNat s.vlcType s.vlcParam.toNat tk ≤ leftBits s.cur0)
    (room : 1 ≤ leftBytes s.cur1) :
    exec tk.instr s =
      .next (answerTurn (applyToken tk (tokenLen s.posBits.toNat s.vlcType s.vlcParam.toNat tk) s)) := by
  rw [exec_token_of_representable fits, meetToken_of_ready ready, meetTurn, if_neg (by omega), if_neg (by omega),
    if_neg (by omega)]

/-- A form whose token is put out answers with the bytes and the token bits. -/
theorem exec_token_of_commit {s : State} {tk : Token} {m : Memory} {n : Nat} (ready : decReady s = true)
    (fits : ∀ off v, tk = .matchRef off v → representable s v.toNat = true) (more : 9 ≤ leftBits s.cur0)
    (there : tokenLen s.posBits.toNat s.vlcType s.vlcParam.toNat tk ≤ leftBits s.cur0)
    (bytes : 1 ≤ n) (room : n ≤ leftBytes s.cur1)
    (effect : ∀ len, applyToken tk len s = commitToken s m n len) :
    ∃ t, exec tk.instr s = .next t ∧
      t.response = some ⟨.ok, word n, word (tokenLen s.posBits.toNat s.vlcType s.vlcParam.toNat tk)⟩ ∧
      Decoded s t n (tokenLen s.posBits.toNat s.vlcType s.vlcParam.toNat tk) ∧ t.mem = m := by
  refine ⟨_, exec_token_of_whole ready fits more there (by omega), ?_⟩
  rw [effect]
  exact ⟨rfl, decoded_commitToken m ready there room, rfl⟩

theorem applyToken_literalPair {s : State} (b0 b1 : Byte) (room : 2 ≤ leftBytes s.cur1) (len : Nat) :
    applyToken (.literalPair b0 b1) len s =
      commitToken s (memWriteBytes s.mem s.cur1.pos.toNat [b0, b1]) 2 len := by
  rw [applyToken, if_neg (by omega)]

theorem applyToken_singleLiteral {s : State} (b0 : Byte) (room : 1 ≤ leftBytes s.cur1) (len : Nat) :
    applyToken (.singleLiteral b0) len s = commitToken s (memWriteBytes s.mem s.cur1.pos.toNat [b0]) 1 len := by
  rw [applyToken, if_neg (by omega)]

theorem applyToken_matchRef {s : State} {off v : Word} (short : v.toNat + 2 < 2 ^ 32)
    (inside : off.toNat < s.wLen.toNat) (room : v.toNat + 2 ≤ leftBytes s.cur1) (len : Nat) :
    applyToken (.matchRef off v) len s =
      commitToken s (memCopy s.mem (s.wEnd.toNat - s.wLen.toNat + off.toNat) s.cur1.pos.toNat (v.toNat + 2))
        (v.toNat + 2) len := by
  rw [applyToken, if_neg (by omega), if_neg (by omega), if_neg (by omega)]

/-- Settles O51: the forms take the turn of `inflate_step`, and a token that is whole is put out. -/
theorem tokenFormsAreWhatInflateStepMeets : Obligations.TokenFormsAreWhatInflateStepMeets := by
  refine ⟨fun s tk len => inflateStep_eq_exec_token,
    fun s b0 b1 off v ready _ window => ⟨?pair, ?single, ?copy⟩⟩
  case pair =>
    intro there room
    obtain ⟨t, he, hr, decoded, hm⟩ := exec_token_of_commit (tk := .literalPair b0 b1) ready (by simp)
      (by omega) there (by decide) room (applyToken_literalPair b0 b1 room)
    refine ⟨t, he, hr, decoded, fun x => ?_⟩
    rw [hm]
    simp only [memWriteBytes, memRead_memWrite]
    by_cases second : x = s.cur1.pos.toNat + 1
    · simp [second]
    · simp [second]
  case single =>
    intro there room
    obtain ⟨t, he, hr, decoded, hm⟩ := exec_token_of_commit (tk := .singleLiteral b0) ready (by simp) there
      there (by decide) room (applyToken_singleLiteral b0 room)
    exact ⟨t, he, hr, decoded, fun x => by rw [hm, memWriteBytes, memWriteBytes, memRead_memWrite]⟩
  case copy =>
    intro more there fits short inside room
    obtain ⟨decoding, -, atEnd, -⟩ := (decReady_iff s).mp ready
    obtain ⟨order, wLen, -⟩ := window (by simp [decoding])
    obtain ⟨t, he, hr, decoded, hm⟩ := exec_token_of_commit (tk := .matchRef off v) ready
      (by rintro _ _ ⟨⟩; exact fits) more there (by omega) room (applyToken_matchRef short inside room)
    refine ⟨t, he, hr, decoded, ?_⟩
    have source : s.wEnd.toNat - s.wLen.toNat + off.toNat = s.cur1.pos.toNat - (s.wLen.toNat - off.toNat) := by
      rw [atEnd]
      omega
    rw [hm, source]
    exact repeatsBytes_memCopy _ _ _ _ (by omega) (by rw [atEnd]; omega)

end Machine

end Sys2Proof

/-! ## Errors (60_exceptions.md R312, R313; 47_lzsw_decode.md R297) -/

namespace Sys2Proof.Machine

/-- The status is an error (30_encoding.md R97). -/
abbrev IsError (st : Status) : Prop := 0x10 ≤ (statusCode st).toNat

/-- The status is a CodecError (30_encoding.md R97). -/
abbrev IsCodecError (st : Status) : Prop := 0x20 ≤ (statusCode st).toNat

theorem isError_iff (st : Status) : isError st = true ↔ IsError st := decide_eq_true_iff

/-! ### The encoder -/

theorem deflateToken_no_error (s : State) : ¬ IsError (deflateToken s).2.1 := by
  have status : (deflateToken s).2.1 ∈ [Status.done, .outFull, .ok] := by
    rcases deflateToken_spec s with ⟨-, h⟩ | ⟨-, -, h⟩ | ⟨-, -, h⟩ <;> simp [h]
  have fine : ∀ st ∈ [Status.done, .outFull, .ok], ¬ IsError st := by decide
  exact fine _ status

theorem deflateLoop_no_error (fuel : Nat) (s : State) (consumed : Nat) :
    ¬ IsError (deflateLoop fuel s consumed).2.1 := by
  induction fuel generalizing s consumed with
  | zero => exact deflateToken_no_error s
  | succ fuel ih =>
    have turn := deflateToken_no_error s
    simp only [deflateLoop]
    split
    · exact ih _ _
    · rename_i h
      rwa [h] at turn

/-- The only error of an encode command is E_SEQUENCE, and it changes nothing. -/
theorem encodeCommand_error {i : Instr} {s t : State} (is : i = .deflateStep ∨ i = .deflateRun)
    (h : exec i s = .next t) :
    t = answered s .eSequence 0 0 ∨ ∃ st r0 r1, t.response = some ⟨st, r0, r1⟩ ∧ ¬ IsError st := by
  rcases is with rfl | rfl
  · simp only [exec, execDeflateStep] at h
    split at h
    · cases h
      exact .inr ⟨_, _, _, rfl, deflateToken_no_error s⟩
    · cases h
      exact .inl rfl
  · simp only [exec, execDeflateRun] at h
    split at h
    · cases h
      exact .inr ⟨_, _, _, rfl, deflateLoop_no_error _ s 0⟩
    · cases h
      exact .inl rfl

/-! ### One turn of the decoder -/

/-- If the turn ends with an error, it is a CodecError and `FAILED` is all it leaves. -/
def FailsClean (s : State) (r : State × Status × Nat × Nat) : Prop :=
  IsError r.2.1 → IsCodecError r.2.1 ∧ r = failToken r.2.1 s

theorem failsClean_failToken {e : Status} (s : State) (h : IsCodecError e) : FailsClean s (failToken e s) :=
  fun _ => ⟨h, rfl⟩

theorem failsClean_of_no_error {s u : State} {st : Status} {n len : Nat} (h : ¬ IsError st) :
    FailsClean s (u, st, n, len) := fun err => absurd err h

theorem failsClean_applyToken (tk : Token) (len : Nat) (s : State) : FailsClean s (applyToken tk len s) := by
  rcases applyToken_spec tk len s with h | h | h | ⟨m, n, h, -⟩ <;> rw [h]
  · exact failsClean_failToken s (by decide)
  · exact failsClean_failToken s (by decide)
  · exact failsClean_of_no_error (by decide)
  · exact failsClean_of_no_error (by decide)

theorem failsClean_inflateToken (s : State) : FailsClean s (inflateToken s) := by
  rcases inflateToken_spec s with ⟨-, h⟩ | ⟨-, h⟩ | ⟨-, e, codec, h⟩ | ⟨-, m, n, len, h, -⟩ <;> rw [h]
  · exact failsClean_of_no_error (by decide)
  · exact failsClean_of_no_error (by decide)
  · exact failsClean_failToken s (by rcases codec with rfl | rfl | rfl <;> decide)
  · exact failsClean_of_no_error (by decide)

theorem failsClean_meetTurn (tk : Token) (s : State) : FailsClean s (meetTurn tk s) := by
  simp only [meetTurn]
  split
  · exact failsClean_of_no_error (by decide)
  · split
    · exact failsClean_of_no_error (by decide)
    · split
      · exact failsClean_failToken s (by decide)
      · exact failsClean_applyToken _ _ s

/-- A token form that the decoder meets takes one turn. -/
theorem exec_token_of_ready {s : State} (ready : decReady s = true) (tk : Token) :
    ∃ r, FailsClean s r ∧ exec tk.instr s = .next (answerTurn r) := by
  have met (tk : Token) : ∃ r, FailsClean s r ∧ meetToken tk s = .next (answerTurn r) :=
    ⟨_, failsClean_meetTurn tk s, meetToken_of_ready ready tk⟩
  cases tk with
  | literalPair b0 b1 => exact met _
  | singleLiteral b0 => exact met _
  | matchRef off v =>
    simp only [Token.instr, exec, execTokenMatch]
    split
    · exact ⟨failToken .eCodecVlc s, failsClean_failToken s (by decide), rfl⟩
    · exact met _

/-- The commands and forms that decode one token. -/
def DecodesOne (i : Instr) : Prop := i = .inflateStep ∨ ∃ tk : Token, i = tk.instr

/-- Decoding one token is refused in the wrong state, or it is one turn. -/
theorem decodesOne_answer {i : Instr} {s t : State} (is : DecodesOne i) (h : exec i s = .next t) :
    t = answered s .eSequence 0 0 ∨ ∃ r, FailsClean s r ∧ t = answerTurn r := by
  cases ready : decReady s with
  | false =>
    left
    rcases is with rfl | ⟨tk, rfl⟩
    · simp only [exec, execInflateStep, ready] at h
      cases h
      rfl
    · rw [exec_token_of_not_ready ready] at h
      cases h
      rfl
  | true =>
    right
    rcases is with rfl | ⟨tk, rfl⟩
    · rw [inflateStep_of_ready ready] at h
      cases h
      exact ⟨_, failsClean_inflateToken s, rfl⟩
    · obtain ⟨r, clean, answer⟩ := exec_token_of_ready ready tk
      rw [answer] at h
      cases h
      exact ⟨r, clean, rfl⟩

/-- An error that is met while one token is decoded: E_SEQUENCE with nothing changed, or a CodecError
with CSTATE alone changed. -/
theorem decodesOne_error {i : Instr} {s t : State} {st : Status} {r0 r1 : Word} (is : DecodesOne i)
    (h : exec i s = .next t) (response : t.response = some ⟨st, r0, r1⟩) (err : IsError st) :
    (st = .eSequence ∧ t = answered s st 0 0) ∨
      (IsCodecError st ∧ t = answered { s with cstate := .failed } st 0 0) := by
  rcases decodesOne_answer is h with rfl | ⟨⟨u, st', n, len⟩, clean, rfl⟩
  · cases response
    exact .inl ⟨rfl, rfl⟩
  · cases response
    obtain ⟨codec, failed⟩ := clean err
    rw [failed]
    exact .inr ⟨codec, rfl⟩

/-! ### A run of the decoder -/

theorem inflateLoop_error (fuel : Nat) (s : State) (produced : Nat)
    (err : IsError (inflateLoop fuel s produced).2.1) :
    IsCodecError (inflateLoop fuel s produced).2.1 ∧ (inflateLoop fuel s produced).1.cstate = .failed := by
  have turn (s : State) (err : IsError (inflateToken s).2.1) :
      IsCodecError (inflateToken s).2.1 ∧ (inflateToken s).1.cstate = .failed := by
    obtain ⟨codec, failed⟩ := failsClean_inflateToken s err
    exact ⟨codec, by rw [failed]; rfl⟩
  induction fuel generalizing s produced with
  | zero => exact turn s err
  | succ fuel ih =>
    simp only [inflateLoop] at err ⊢
    split at err
    · exact ih _ _ err
    · rename_i h
      have last := turn s
      rw [h] at last
      exact last err

theorem inflateRun_error {s t : State} {st : Status} {r0 r1 : Word} (h : exec .inflateRun s = .next t)
    (response : t.response = some ⟨st, r0, r1⟩) (err : IsError st) :
    (st = .eSequence ∧ t = answered s st 0 0) ∨
      (IsCodecError st ∧ ∃ u : State, u.cstate = .failed ∧ t = answered u st 0 0) := by
  simp only [exec, execInflateRun] at h
  split at h
  · split at h
    · rename_i failed
      cases h
      cases response
      obtain ⟨codec, state⟩ := inflateLoop_error _ _ _ ((isError_iff _).mp failed)
      exact .inr ⟨codec, _, state, rfl⟩
    · rename_i fine
      cases h
      cases response
      exact absurd ((isError_iff _).mpr err) fine
  · cases h
    cases response
    exact .inl ⟨rfl, rfl⟩

/-! ### Every other command -/

theorem CursorEffect.error_frame {i : Instr} {c : CurSel} {s t : State} {st : Status} {r0 r1 : Word}
    (h : CursorEffect i c s t) (response : t.response = some ⟨st, r0, r1⟩) (err : IsError st) :
    t = answered s st 0 0 := by
  rcases h with ⟨st', r0', r1', rfl, zero⟩ | ⟨m, k, r0', r1', rfl, -⟩
  · cases response
    obtain ⟨rfl, rfl⟩ := zero err
    rfl
  · cases response
    exact absurd err (by decide)

/-- An error of a command that decodes no token changes nothing. -/
theorem exec_error_frame {i : Instr} {s t : State} {st : Status} {r0 r1 : Word} (one : ¬ DecodesOne i)
    (run : i ≠ .inflateRun) (h : exec i s = .next t) (response : t.response = some ⟨st, r0, r1⟩)
    (err : IsError st) : t = answered s st 0 0 := by
  have effect := commandEffect_of_exec h
  cases effect with
  | named _ effect => exact effect.error_frame response err
  | refused => cases response; rfl
  | encoded st' r0' r1' is =>
    rcases encodeCommand_error is h with answer | ⟨st'', _, _, response', fine⟩
    · rw [answer] at response ⊢
      cases response
      rfl
    · cases response.symm.trans response'
      exact absurd err fine
  | decoded _ _ _ is =>
    rcases is with is | is | is
    · exact absurd (.inl is) one
    · exact absurd is run
    · exact absurd (.inr is) one
  | _ => cases response; exact absurd err (by decide)

/-- Settles O10, by who can meet a CodecError: a turn of the decoder, a run of turns, no other command. -/
theorem errorsHaveNoSideEffect : Obligations.ErrorsHaveNoSideEffect := by
  intro i s t st r0 r1 h response err
  have zero {u : State} (answer : t = answered u st 0 0) : r0 = 0 ∧ r1 = 0 := by
    rw [answer] at response
    cases response
    exact ⟨rfl, rfl⟩
  by_cases run : i = .inflateRun
  · subst run
    rcases inflateRun_error h response err with ⟨rfl, answer⟩ | ⟨codec, u, state, answer⟩
    · obtain ⟨z0, z1⟩ := zero answer
      exact ⟨z0, z1, fun _ => ⟨fun ⟨_, codec⟩ => absurd codec (by decide), fun _ => answer⟩,
        fun _ codec => absurd codec (by decide)⟩
    · obtain ⟨z0, z1⟩ := zero answer
      refine ⟨z0, z1, ?_, fun _ _ => by rw [answer]; exact state⟩
      rintro (other | rfl)
      · exact absurd rfl other
      · exact absurd codec (by decide)
  · by_cases one : DecodesOne i
    · rcases decodesOne_error one h response err with ⟨rfl, answer⟩ | ⟨codec, answer⟩
      · obtain ⟨z0, z1⟩ := zero answer
        exact ⟨z0, z1, fun _ => ⟨fun ⟨_, codec⟩ => absurd codec (by decide), fun _ => answer⟩,
          fun is => absurd is run⟩
      · obtain ⟨z0, z1⟩ := zero answer
        exact ⟨z0, z1, fun _ => ⟨fun _ => answer, fun other => absurd ⟨one, codec⟩ other⟩,
          fun is => absurd is run⟩
    · have answer := exec_error_frame one run h response err
      obtain ⟨z0, z1⟩ := zero answer
      exact ⟨z0, z1, fun _ => ⟨fun ⟨is, _⟩ => absurd is one, fun _ => answer⟩, fun is => absurd is run⟩

end Sys2Proof.Machine

/-! ## Cursor control (40_cursor_control.md R130 to R139) -/

namespace Sys2Proof.Machine

theorem word_add (x y : Word) : word (x.toNat + y.toNat) = x + y :=
  BitVec.eq_of_toNat_eq (by rw [word_toNat, BitVec.toNat_add])

/-- The model's difference of addresses (log 16) is that of 32-bit words when it is not negative. -/
theorem word_sub_of_le {x y : Word} (le : y.toNat ≤ x.toNat) : word (x.toNat - y.toNat) = x - y := by
  rw [← BitVec.toNat_sub_of_le (BitVec.le_def.mpr le), word_of_toNat]

/-! ### What is left -/

theorem bitAddr_add_leftBits {k : Cursor} (ok : CursorOk k) : bitAddr k + leftBits k = 8 * k.fin.toNat := by
  obtain ⟨-, inside, openByte⟩ := ok
  by_cases aligned : k.bitoff = 0
  · rw [bitAddr_of_aligned aligned, leftBits_of_aligned aligned, leftBytes]
    omega
  · have := openByte aligned
    simp only [bitAddr, leftBits]
    omega

/-- Four bits beyond a word hold any count of bits left (R136). -/
theorem leftBits_lt (k : Cursor) : leftBits k < 2 ^ 36 := by
  have := k.fin.isLt
  simp only [leftBits]
  omega

/-! ### The commands -/

section
variable {c : CurSel} {a b : Word} {s : State}

theorem exec_attach_outside (outside : b.toNat = 0 ∨ 2 ^ 32 - 1 < a.toNat + b.toNat) :
    exec (.attach c a b) s = .next (answered s .eBounds 0 0) := if_pos outside

theorem exec_attach_region (nonempty : b.toNat ≠ 0) (below : a.toNat + b.toNat ≤ 2 ^ 32 - 1) :
    exec (.attach c a b) s = .next (answered (setCur s c ⟨a, a, a + b, 0⟩) .ok 0 0) := by
  rw [← word_add]
  exact if_neg (not_or.mpr ⟨nonempty, by omega⟩)

theorem exec_goto_outside (outside : regionSize (getCur s c) < a.toNat) :
    exec (.goto c a) s = .next (answered s .eBounds 0 0) := if_pos outside

theorem exec_goto_within (within : a.toNat ≤ regionSize (getCur s c)) :
    exec (.goto c a) s = .next (answered
      (setCur s c { getCur s c with pos := (getCur s c).origin + a, bitoff := 0 }) .ok 0 0) := by
  rw [← word_add]
  exact if_neg (Nat.not_lt.mpr within)

theorem exec_tell (ok : CursorOk (getCur s c)) :
    exec (.tell c) s = .next (answered (setCur s c (syncCursor (getCur s c))) .ok
      ((syncCursor (getCur s c)).pos - (syncCursor (getCur s c)).origin) 0) := by
  obtain ⟨-, -, -, -, low, -⟩ := syncCursor_spec _ ok
  rw [← word_sub_of_le low]
  rfl

theorem exec_leftBytes (ok : CursorOk (getCur s c)) :
    exec (.leftBytes c) s = .next (answered (setCur s c (syncCursor (getCur s c))) .ok
      ((syncCursor (getCur s c)).fin - (syncCursor (getCur s c)).pos) 0) := by
  obtain ⟨-, -, -, -, -, high, -⟩ := syncCursor_spec _ ok
  rw [← word_sub_of_le high]
  rfl

theorem exec_skipBytes_unaligned (unaligned : (getCur s c).bitoff ≠ 0) :
    exec (.skipBytes c a) s = .next (answered s .eUnaligned 0 0) := if_pos unaligned

theorem exec_skipBytes_short (aligned : (getCur s c).bitoff = 0) (short : leftBytes (getCur s c) < a.toNat) :
    exec (.skipBytes c a) s = .next (answered s .eBounds 0 0) :=
  (if_neg (not_not.mpr aligned)).trans (if_pos short)

theorem exec_skipBytes_fits (aligned : (getCur s c).bitoff = 0) (fits : a.toNat ≤ leftBytes (getCur s c)) :
    exec (.skipBytes c a) s =
      .next (answered (setCur s c (advanceBytes (getCur s c) a.toNat)) .ok 0 0) :=
  (if_neg (not_not.mpr aligned)).trans (if_neg (Nat.not_lt.mpr fits))

theorem exec_skipBits_short (short : leftBits (getCur s c) < a.toNat) :
    exec (.skipBits c a) s = .next (answered s .eBounds 0 0) := if_pos short

theorem exec_skipBits_fits (fits : a.toNat ≤ leftBits (getCur s c)) :
    exec (.skipBits c a) s = .next (answered (setCur s c (advance (getCur s c) a.toNat)) .ok 0 0) :=
  if_neg (Nat.not_lt.mpr fits)

end

/-- Settles O12: the cursor is `syncCursor` of the old one, which `syncCursor_spec` places. -/
theorem syncRoundsUpAndTheQueriesSyncFirst : Obligations.SyncRoundsUpAndTheQueriesSyncFirst := by
  intro c s ok
  obtain ⟨aligned, boundary, origin, fin, synced⟩ := syncCursor_spec _ ok
  have ⟨low, high, _⟩ := synced
  exact ⟨syncCursor (getCur s c), aligned, boundary, origin, fin, synced, rfl,
    exec_tell ok, BitVec.toNat_sub_of_le (BitVec.le_def.mpr low),
    exec_leftBytes ok, BitVec.toNat_sub_of_le (BitVec.le_def.mpr high)⟩

/-- Settles O13: the count is exact under R22, and below 2^36 it is its low word and its next four bits. -/
theorem leftBitsReportsTheExactCount : Obligations.LeftBitsReportsTheExactCount := by
  intro c s ok
  have count := bitAddr_add_leftBits ok
  have bound := leftBits_lt (getCur s c)
  refine ⟨_, _, rfl, ?_, ?_⟩ <;> simp only [word_toNat] <;> omega

/-- Settles O14: within the region `advanceBytes` and `advance` move the bit address by their count. -/
theorem skipsAdvanceByTheirCount : Obligations.SkipsAdvanceByTheirCount := fun c _ s =>
  ⟨exec_skipBytes_unaligned, exec_skipBytes_short,
    fun aligned fits => ⟨_, exec_skipBytes_fits aligned fits, movedBits_advanceBytes (getCur s c) _ fits⟩,
    exec_skipBits_short,
    fun fits => ⟨_, exec_skipBits_fits fits, movedBits_advance (getCur s c) _ fits⟩⟩

/-- Settles O11: neither the end of a region nor an offset within one passes the top of the address space. -/
theorem attachAndGotoPlaceTheCursor : Obligations.AttachAndGotoPlaceTheCursor := by
  refine ⟨fun c a b s => ⟨fun outside => ?_, fun nonempty below => ⟨?_, ?_⟩⟩,
    fun c a s order => ⟨exec_goto_outside, fun within => ⟨_, exec_goto_within within, rfl, rfl, rfl, ?_⟩⟩⟩
  · exact exec_attach_outside (outside.imp_left (congrArg BitVec.toNat))
  · exact exec_attach_region (fun zero => nonempty (BitVec.eq_of_toNat_eq zero)) below
  · exact BitVec.toNat_add_of_lt (by omega)
  · have top := (getCur s c).fin.isLt
    exact BitVec.toNat_add_of_lt (by omega)

end Sys2Proof.Machine

/-! ## Bit fields at a cursor (41_cursor_bits.md R150 to R159) -/

namespace Sys2Proof

/-- A field inside a longer one: drop the bits behind it by the quotient, those before it by the remainder. -/
theorem readField_inner (bits : BitStream) (i before n behind : Nat) :
    readField bits (i + before) n = readField bits i (before + n + behind) / 2 ^ behind % 2 ^ n := by
  have dropBehind : readField bits i (before + n + behind) / 2 ^ behind = readField bits i (before + n) := by
    rw [readField_add, Nat.mul_comm, Nat.mul_add_div (Nat.two_pow_pos _),
      Nat.div_eq_of_lt (readField_lt _ _ _), Nat.add_zero]
  rw [dropBehind, readField_add, Nat.mul_add_mod_self_right, Nat.mod_eq_of_lt (readField_lt _ _ _)]

namespace Machine

/-! ### Where a field stands -/

theorem readField_bitsAt (m : Memory) (k : Cursor) (n : Nat) :
    readField (bitsAt m k) 0 n = readField (readBit m) (bitAddr k) n :=
  readField_congr _ _ _ _ _ fun j _ => by rw [bitsAt, Nat.zero_add]

/-- A field inside the `w` bytes from the cursor's byte on, cut out of their big-endian number (R150, R152). -/
theorem readField_bitAddr_eq_byteSum (m : Memory) (k : Cursor) {n w : Nat} (covered : k.bitoff.toNat + n ≤ 8 * w) :
    readField (readBit m) (bitAddr k) n =
      byteSum m k.pos.toNat w .big / 2 ^ (8 * w - k.bitoff.toNat - n) % 2 ^ n := by
  have width : k.bitoff.toNat + n + (8 * w - k.bitoff.toNat - n) = 8 * w := by omega
  rw [bitAddr, readField_inner _ _ _ n (8 * w - k.bitoff.toNat - n), width, readField_bytes]

theorem bitAddr_advance {k : Cursor} {n : Nat} (fits : n ≤ leftBits k) :
    bitAddr (advance k n) = bitAddr k + n := (movedBits_advance k n fits).1

theorem readField_advance (m : Memory) {k : Cursor} {n1 : Nat} (n2 : Nat) (fits : n1 ≤ leftBits k) :
    readField (readBit m) (bitAddr k) (n1 + n2) =
      readField (readBit m) (bitAddr k) n1 * 2 ^ n2 + readField (readBit m) (bitAddr (advance k n1)) n2 := by
  rw [bitAddr_advance fits, readField_add]

theorem writeBits_advance (m : Memory) {k : Cursor} {n1 : Nat} (n2 v : Nat) (fits : n1 ≤ leftBits k) :
    writeBits m (bitAddr k) (fieldBits (n1 + n2) v) =
      writeBits (writeBits m (bitAddr k) (fieldBits n1 (v / 2 ^ n2))) (bitAddr (advance k n1)) (fieldBits n2 v) := by
  rw [fieldBits_append, writeBits_append, fieldBits_length, bitAddr_advance fits]

theorem readField_writeBits_fieldBits (m : Memory) (p n v : Nat) :
    readField (readBit (writeBits m p (fieldBits n v))) p n = v % 2 ^ n := by
  refine readField_fieldBits _ _ n v fun j inField => ?_
  rw [storesBits_writeBits, fieldBits_length, if_pos (by omega), Nat.add_sub_cancel_left]

/-! ### The shared accesses, outside and within the region -/

section
variable {n v : Nat} {ext : Nat → Word} {c : CurSel} {s : State}

theorem getField_short (short : leftBits (getCur s c) < n) :
    getField n ext c s = .next (answered s .eBounds 0 0) := if_pos short

theorem getField_fits (fits : n ≤ leftBits (getCur s c)) :
    getField n ext c s = .next (answered (setCur s c (advance (getCur s c) n)) .ok
      (ext (readField (readBit s.mem) (bitAddr (getCur s c)) n)) 0) := by
  rw [← readField_bitsAt]
  exact if_neg (Nat.not_lt.mpr fits)

theorem peekField_short (short : leftBits (getCur s c) < n) :
    peekField n ext c s = .next (answered s .eBounds 0 0) := if_pos short

theorem peekField_fits (fits : n ≤ leftBits (getCur s c)) :
    peekField n ext c s =
      .next (answered s .ok (ext (readField (readBit s.mem) (bitAddr (getCur s c)) n)) 0) := by
  rw [← readField_bitsAt]
  exact if_neg (Nat.not_lt.mpr fits)

theorem setField_short (short : leftBits (getCur s c) < n) :
    setField n v c s = .next (answered s .eBounds 0 0) := if_pos short

theorem setField_fits (fits : n ≤ leftBits (getCur s c)) :
    setField n v c s = .next (answered
      (setCur { s with mem := writeBits s.mem (bitAddr (getCur s c)) (fieldBits n v) } c (advance (getCur s c) n))
      .ok 0 0) := if_neg (Nat.not_lt.mpr fits)

end

/-! ### The commands with a legal count -/

section
variable {c : CurSel} {n : BitVec 6} {a : Word} {s : State}

theorem exec_getUbits (legal : n.toNat ≤ 32) :
    exec (.getUbits c n) s = getField n.toNat (zext32 n.toNat) c s := if_pos (decide_eq_true legal)

theorem exec_getSbits (legal : n.toNat ≤ 32) :
    exec (.getSbits c n) s = getField n.toNat (sext32 n.toNat) c s := if_pos (decide_eq_true legal)

theorem exec_peekUbits (legal : n.toNat ≤ 32) :
    exec (.peekUbits c n) s = peekField n.toNat (zext32 n.toNat) c s := if_pos (decide_eq_true legal)

theorem exec_peekSbits (legal : n.toNat ≤ 32) :
    exec (.peekSbits c n) s = peekField n.toNat (sext32 n.toNat) c s := if_pos (decide_eq_true legal)

theorem exec_setUbits (legal : n.toNat ≤ 32) :
    exec (.setUbits c n a) s = setField n.toNat a.toNat c s := if_pos (decide_eq_true legal)

theorem exec_setSbits (legal : n.toNat ≤ 32) :
    exec (.setSbits c n a) s = setField n.toNat a.toNat c s := if_pos (decide_eq_true legal)

end

theorem zext32_readField_toNat (bits : BitStream) (i : Nat) {n : Nat} (legal : n ≤ 32) :
    (zext32 n (readField bits i n)).toNat = readField bits i n := zext32_toNat n _ legal (readField_lt bits i n)

/-- Settles O15: the field is cut out of the big-endian number of the bytes that cover it. -/
theorem getUbitsReadsTheBigEndianField : Obligations.GetUbitsReadsTheBigEndianField := by
  refine ⟨fun c n s legal => ⟨fun short => ?_, fun fits => ?_⟩, fun c s => ⟨getField_short, fun fits => ?_⟩⟩
  · rw [exec_getUbits legal, getField_short short]
  · refine ⟨_, _, (exec_getUbits legal).trans (getField_fits fits), movedBits_advance _ _ fits, ?_⟩
    rw [zext32_readField_toNat _ _ legal]
    exact readField_bitAddr_eq_byteSum s.mem _ (by omega)
  · refine ⟨_, _, getField_fits fits, movedBits_advance _ _ fits, ?_⟩
    have inByte := (getCur s c).bitoff.isLt
    have oneByte : byteSum s.mem (getCur s c).pos.toNat 1 .big = (memRead s.mem (getCur s c).pos.toNat).toNat := by
      rw [← readField_bytes, readField_byte]
    have behind : 8 * 1 - (getCur s c).bitoff.toNat - 1 = 7 - (getCur s c).bitoff.toNat := by omega
    rw [zext32_readField_toNat _ _ (by omega), readField_bitAddr_eq_byteSum s.mem _ (w := 1) (by omega),
      oneByte, behind, pow_one]

/-- Settles O16: both getters read one field, and `sext32` of an n-bit number is its two's complement reading. -/
theorem getSbitsIsTheSignExtensionOfGetUbits : Obligations.GetSbitsIsTheSignExtensionOfGetUbits := by
  refine fun c n s legal => ⟨fun short => ?_, fun fits => ?_⟩
  · rw [exec_getSbits legal, getField_short short]
  · have bound := readField_lt (readBit s.mem) (bitAddr (getCur s c)) n.toNat
    refine ⟨_, _, (exec_getUbits legal).trans (getField_fits fits), ?_, ?_, movedBits_advance _ _ fits⟩ <;>
      rw [zext32_readField_toNat _ _ legal]
    · rw [exec_getSbits legal, getField_fits fits, sext32_eq_signedWord _ _ legal bound]
    · exact bound

/-- Settles O17: a peek reads the field of the get at the same cursor. -/
theorem peeksAnswerTheGetAndMoveNothing : Obligations.PeeksAnswerTheGetAndMoveNothing := by
  refine fun c n s legal => ⟨fun short => ⟨?_, ?_⟩, fun fits => ⟨?unsigned, ?signed⟩⟩
  · rw [exec_peekUbits legal, peekField_short short]
  · rw [exec_peekSbits legal, peekField_short short]
  case unsigned =>
    exact ⟨_, _, (exec_getUbits legal).trans (getField_fits fits), rfl,
      (exec_peekUbits legal).trans (peekField_fits fits)⟩
  case signed =>
    exact ⟨_, _, (exec_getSbits legal).trans (getField_fits fits), rfl,
      (exec_peekSbits legal).trans (peekField_fits fits)⟩

/-! ### Setters -/

/-- The three setters store one field: only the low bits of `a` count, so a sign makes no difference
(R151, R153, R155). -/
theorem exec_bitSetter {c : CurSel} {a : Word} {s : State} {i : Instr} {n : Nat} (legal : n ≤ 32)
    (setter : (i = .setU1 c a ∧ n = 1) ∨ i = .setUbits c (BitVec.ofNat 6 n) a ∨
      i = .setSbits c (BitVec.ofNat 6 n) a) :
    exec i s = setField n a.toNat c s := by
  have count : (BitVec.ofNat 6 n).toNat = n := by rw [BitVec.toNat_ofNat]; omega
  obtain ⟨rfl, rfl⟩ | rfl | rfl := setter
  · rfl
  · rw [exec_setUbits (by omega), count]
  · rw [exec_setSbits (by omega), count]

/-- Settles O18: a store of bits leaves its bits and every other bit, and the bits are those of `a`. -/
theorem bitSettersWriteTheirFieldAndNoOtherBit : Obligations.BitSettersWriteTheirFieldAndNoOtherBit := by
  refine fun c a s i n legal setter => ⟨fun short => ?_, fun fits => ?_⟩
  · rw [exec_bitSetter legal setter, setField_short short]
  have stored := storesBits_writeBits (fieldBits n a.toNat) s.mem (bitAddr (getCur s c))
  simp only [storesBits, fieldBits_length] at stored
  refine ⟨_, _, (exec_bitSetter legal setter).trans (setField_fits fits), movedBits_advance _ _ fits,
    fun j inField => ?field, fun p outside => ?otherBits, fun x outside => ?otherBytes⟩
  case field =>
    rw [stored, if_pos (by omega), Nat.add_sub_cancel_left, fieldBits_getD _ _ _ inField]
    rfl
  case otherBits => rw [stored, if_neg (by omega)]
  case otherBytes => exact memRead_writeBits_outside _ _ _ _ (by rwa [fieldBits_length])

/-! ### A field set and read back (R158) -/

/-- The cursor back at the start of its byte. -/
def Cursor.atByte (k : Cursor) : Cursor := { k with bitoff := 0 }

theorem leftBits_atByte (k : Cursor) : leftBits k.atByte = 8 * leftBytes k := leftBits_of_aligned rfl

theorem bitAddr_atByte (k : Cursor) : bitAddr k.atByte = 8 * k.pos.toNat := bitAddr_of_aligned rfl

theorem bitoff_le_leftBits_atByte {k : Cursor} (ok : CursorOk k) : k.bitoff.toNat ≤ leftBits k.atByte := by
  obtain ⟨-, -, openByte⟩ := ok
  by_cases aligned : k.bitoff = 0
  · simp [aligned]
  · have inByte := k.bitoff.isLt
    have below := openByte aligned
    rw [leftBits_atByte, leftBytes]
    omega

theorem advance_atByte {k : Cursor} (ok : CursorOk k) : advance k.atByte k.bitoff.toNat = k :=
  cursor_ext rfl rfl (by rw [bitAddr_advance (bitoff_le_leftBits_atByte ok), bitAddr_atByte, bitAddr])

/-- `goto` to the byte of a cursor that meets R22, from anywhere in its region. -/
theorem exec_goto_atByte {c : CurSel} {t : State} {k : Cursor} (ok : CursorOk k)
    (origin : (getCur t c).origin = k.origin) (fin : (getCur t c).fin = k.fin) :
    exec (.goto c (word (k.pos.toNat - k.origin.toNat))) t = .next (answered (setCur t c k.atByte) .ok 0 0) := by
  obtain ⟨low, high, -⟩ := ok
  have within : (word (k.pos.toNat - k.origin.toNat)).toNat ≤ regionSize (getCur t c) := by
    rw [regionSize, origin, fin, word_toNat_of_lt _ (by omega)]
    omega
  rw [exec_goto_within within, word_sub_of_le low]
  simp only [origin, fin, add_sub_cancel, Cursor.atByte]

/-- `skip_bits` from the start of a cursor's byte to its bit. -/
theorem exec_skipBits_from_atByte {c : CurSel} {u : State} {k : Cursor} (ok : CursorOk k)
    (start : getCur u c = k.atByte) :
    exec (.skipBits c (word k.bitoff.toNat)) u = .next (answered (setCur u c k) .ok 0 0) := by
  have count : (word k.bitoff.toNat).toNat = k.bitoff.toNat := word_toNat_of_lt _ (by omega)
  rw [exec_skipBits_fits (by rw [count, start]; exact bitoff_le_leftBits_atByte ok), count, start, advance_atByte ok]

/-- A field set and read back at the same place is the extension of its low bits. -/
theorem setField_then_getField {c : CurSel} {s : State} {n v : Nat} {ext : Nat → Word} {store load : Instr}
    (setter : exec store s = setField n v c s) (getter : ∀ w, exec load w = getField n ext c w)
    (ok : CursorOk (getCur s c)) (fits : n ≤ leftBits (getCur s c)) :
    ∃ t u w x, exec store s = .next t ∧
      exec (.goto c (word ((getCur s c).pos.toNat - (getCur s c).origin.toNat))) t = .next u ∧
      exec (.skipBits c (word (getCur s c).bitoff.toNat)) u = .next w ∧ exec load w = .next x ∧
      x.response = some ⟨.ok, ext (v % 2 ^ n), 0⟩ := by
  refine ⟨_, _, _, _, setter.trans (setField_fits fits), exec_goto_atByte ok (by simp) (by simp),
    exec_skipBits_from_atByte ok (by simp), (getter _).trans (getField_fits (by simpa using fits)), ?_⟩
  simp [readField_writeBits_fieldBits]

theorem zext32_of_lt {n : Nat} {v : Word} (inRange : v.toNat < 2 ^ n) : zext32 n (v.toNat % 2 ^ n) = v := by
  rw [zext32, Nat.mod_mod, Nat.mod_eq_of_lt inRange, word_of_toNat]

/-- A signed number in the range of `n` bits is the sign extension of its low `n` bits. -/
theorem sext32_of_inRange {n : Nat} {v : Word} (nonzero : 1 ≤ n) (legal : n ≤ 32)
    (low : -(2 ^ (n - 1) : Int) ≤ v.toInt) (high : v.toInt < 2 ^ (n - 1)) :
    sext32 n (v.toNat % 2 ^ n) = v := by
  have twice : ((2 ^ n : Nat) : Int) = 2 ^ (n - 1) * 2 := by exact_mod_cast (Nat.two_pow_pred_mul_two nonzero).symm
  have lowBits : BitVec.ofNat n (v.toNat % 2 ^ n) = v.setWidth n := BitVec.eq_of_toNat_eq (by simp)
  apply BitVec.eq_of_toInt_eq
  calc (sext32 n (v.toNat % 2 ^ n)).toInt
      = (v.setWidth n).toInt := by rw [sext32, BitVec.toInt_signExtend_of_le legal, lowBits]
    _ = v.toInt.bmod (2 ^ n) := by
        rw [BitVec.toInt_setWidth, BitVec.toInt_eq_toNat_bmod, Int.bmod_bmod_of_dvd (Nat.pow_dvd_pow 2 legal)]
    _ = v.toInt := Int.bmod_eq_of_le_mul_two (by omega) (by omega)

/-- Settles O19: the way back restores the cursor, and either extension restores a value in its range. -/
theorem fieldsRoundTripThroughMemory : Obligations.FieldsRoundTripThroughMemory := by
  intro c n v s nonzero legal ok fits
  refine ⟨fun inRange => ?unsigned, fun low high => ?signed⟩
  case unsigned =>
    have back := setField_then_getField (exec_setUbits (a := v) legal) (fun _ => exec_getUbits legal) ok fits
    rwa [zext32_of_lt inRange] at back
  case signed =>
    have back := setField_then_getField (exec_setSbits (a := v) legal) (fun _ => exec_getSbits legal) ok fits
    rwa [sext32_of_inRange nonzero legal low high] at back

/-! ### Two fields side by side (R159) -/

section
variable {c : CurSel} {s : State} {n1 n2 : Nat}

theorem le_leftBits_advance {k : Cursor} (fits : n1 + n2 ≤ leftBits k) : n2 ≤ leftBits (advance k n1) := by
  rw [leftBits_advance k n1 (by omega)]
  omega

theorem getField_after_getField {ext : Nat → Word} {r : Word} (fits : n1 + n2 ≤ leftBits (getCur s c)) :
    getField n2 ext c (answered (setCur s c (advance (getCur s c) n1)) .ok r 0) =
      .next (answered (setCur s c (advance (getCur s c) (n1 + n2))) .ok
        (ext (readField (readBit s.mem) (bitAddr (advance (getCur s c) n1)) n2)) 0) := by
  rw [getField_fits (by simpa using le_leftBits_advance fits)]
  simp [setCur_answered, advance_advance]

/-- Of two stores through one cursor the second memory and the second position stand. -/
theorem setCur_withMem_again (m m' : Memory) (k l : Cursor) (st : Status) (r0 r1 : Word) :
    setCur { answered (setCur { s with mem := m } c k) st r0 r1 with mem := m' } c l =
      answered (setCur { s with mem := m' } c l) st r0 r1 := by cases c <;> rfl

theorem setField_after_setField {v : Nat} {t : State} (fits : n1 + n2 ≤ leftBits (getCur s c))
    (highStored : setField n1 (v / 2 ^ n2) c s = .next t) : setField n2 v c t = setField (n1 + n2) v c s := by
  have fits1 : n1 ≤ leftBits (getCur s c) := by omega
  rw [setField_fits fits1] at highStored
  cases highStored
  rw [setField_fits (by simpa using le_leftBits_advance fits), setField_fits fits, writeBits_advance _ _ _ fits1,
    setCur_withMem_again]
  simp [advance_advance]

end

/-- Settles O20: the second field starts where the advance over the first one ends. -/
theorem fieldsSplitAndJoin : Obligations.FieldsSplitAndJoin := by
  intro c n1 n2 a s legal fits
  have legal1 : n1.toNat ≤ 32 := by omega
  have legal2 : n2.toNat ≤ 32 := by omega
  have fits1 : n1.toNat ≤ leftBits (getCur s c) := by omega
  have count : (n1 + n2).toNat = n1.toNat + n2.toNat := BitVec.toNat_add_of_lt (by omega)
  constructor
  · refine ⟨_, _, _, _, _, _, (exec_getUbits legal1).trans (getField_fits fits1), rfl,
      (exec_getUbits legal2).trans (getField_after_getField fits), rfl,
      (exec_getUbits (count ▸ legal)).trans (getField_fits (count ▸ fits)), rfl, ?_, ?_⟩
    · rw [zext32_readField_toNat _ _ legal1, zext32_readField_toNat _ _ legal2,
        zext32_readField_toNat _ _ (count ▸ legal), count, readField_advance _ _ fits1]
    · simp [count]
  · have high : exec (.setUbits c n1 (a >>> n2.toNat)) s = setField n1.toNat (a.toNat / 2 ^ n2.toNat) c s := by
      rw [exec_setUbits legal1, BitVec.toNat_ushiftRight, Nat.shiftRight_eq_div_pow]
    have highStored := setField_fits (v := a.toNat / 2 ^ n2.toNat) fits1
    have joined := setField_fits (v := a.toNat) fits
    refine ⟨_, _, high.trans highStored,
      (exec_setUbits legal2).trans ((setField_after_setField fits highStored).trans joined), ?_⟩
    rw [exec_setUbits (count ▸ legal), count, joined]

end Machine

end Sys2Proof

/-! ## Bytes at a cursor (42_cursor_bytes.md R171 to R204) -/

namespace Sys2Proof.Machine

/-! ### The shared accesses, outside and within the region -/

section
variable {w v : Nat} {order : ByteOrder} {ext : Nat → Word} {c : CurSel} {s : State}

theorem getBytes_unaligned (unaligned : (getCur s c).bitoff ≠ 0) :
    getBytes w order ext c s = .next (answered s .eUnaligned 0 0) := if_pos unaligned

theorem getBytes_short (aligned : (getCur s c).bitoff = 0) (short : leftBytes (getCur s c) < w) :
    getBytes w order ext c s = .next (answered s .eBounds 0 0) :=
  (if_neg (not_not.mpr aligned)).trans (if_pos short)

theorem getBytes_fits (aligned : (getCur s c).bitoff = 0) (fits : w ≤ leftBytes (getCur s c)) :
    getBytes w order ext c s = .next (answered (setCur s c (advanceBytes (getCur s c) w)) .ok
      (ext (byteSum s.mem (getCur s c).pos.toNat w order)) 0) := by
  rw [← composeBytes_memReadBytes]
  exact (if_neg (not_not.mpr aligned)).trans (if_neg (Nat.not_lt.mpr fits))

theorem setBytes_unaligned (unaligned : (getCur s c).bitoff ≠ 0) :
    setBytes w order v c s = .next (answered s .eUnaligned 0 0) := if_pos unaligned

theorem setBytes_short (aligned : (getCur s c).bitoff = 0) (short : leftBytes (getCur s c) < w) :
    setBytes w order v c s = .next (answered s .eBounds 0 0) :=
  (if_neg (not_not.mpr aligned)).trans (if_pos short)

theorem setBytes_fits (aligned : (getCur s c).bitoff = 0) (fits : w ≤ leftBytes (getCur s c)) :
    setBytes w order v c s = .next (answered
      (setCur { s with mem := memWriteBytes s.mem (getCur s c).pos.toNat (decomposeBytes order w v) } c
        (advanceBytes (getCur s c) w)) .ok 0 0) :=
  (if_neg (not_not.mpr aligned)).trans (if_neg (Nat.not_lt.mpr fits))

/-- What a byte-level setter leaves: its bytes and every other byte, and the cursor behind them (R174, R175). -/
theorem setBytes_stores (aligned : (getCur s c).bitoff = 0) (fits : w ≤ leftBytes (getCur s c)) :
    ∃ m k, setBytes w order v c s = .next (answered (setCur { s with mem := m } c k) .ok 0 0) ∧
      movedBits (getCur s c) k (8 * w) ∧ storesBytes s.mem m (getCur s c).pos.toNat w v order :=
  ⟨_, _, setBytes_fits aligned fits, movedBits_advanceBytes _ w fits, storesBytes_memWriteBytes _ _ w v order⟩

end

/-! ### Bytes as a number of `8 * w` bits -/

theorem byteSum_lt_two_pow (m : Memory) (p w : Nat) (order : ByteOrder) : byteSum m p w order < 2 ^ (8 * w) :=
  (byteSum_lt m p w order).trans_eq (Nat.pow_mul 2 8 w).symm

theorem byteSum_memWriteBytes (m : Memory) (p w v : Nat) (order : ByteOrder) :
    byteSum (memWriteBytes m p (decomposeBytes order w v)) p w order = v % 2 ^ (8 * w) := by
  rw [byteSum_of_storesBytes _ _ p w v order (storesBytes_memWriteBytes m p w v order), Nat.pow_mul]

/-- The extension of a getter's number to 32 bits, by its signedness (R171, R173). -/
def extend32 (signed : Bool) : Nat → Nat → Word := if signed then sext32 else zext32

theorem extend32_unsigned_toNat {w : Nat} (width : w ≤ 4) (m : Memory) (p : Nat) (order : ByteOrder) :
    (extend32 false (8 * w) (byteSum m p w order)).toNat = byteSum m p w order :=
  zext32_toNat _ _ (by omega) (byteSum_lt_two_pow m p w order)

theorem extend32_signed {w : Nat} (width : w ≤ 4) (m : Memory) (p : Nat) (order : ByteOrder) :
    extend32 true (8 * w) (byteSum m p w order) = signedWord (8 * w) (byteSum m p w order) :=
  sext32_eq_signedWord _ _ (by omega) (byteSum_lt_two_pow m p w order)

/-- A value in the range of `n` bits is the extension of its low `n` bits (R204). -/
theorem extend32_of_inRange {signed : Bool} {n : Nat} {v : Word} (nonzero : 1 ≤ n) (legal : n ≤ 32)
    (unsignedRange : signed = false → v.toNat < 2 ^ n)
    (signedRange : signed = true → -(2 ^ (n - 1) : Int) ≤ v.toInt ∧ v.toInt < 2 ^ (n - 1)) :
    extend32 signed n (v.toNat % 2 ^ n) = v := by
  cases signed with
  | false => exact zext32_of_lt (unsignedRange rfl)
  | true =>
    obtain ⟨low, high⟩ := signedRange rfl
    exact sext32_of_inRange nonzero legal low high

/-! ### The commands -/

/-- The row of a byte-level getter: its width, byte order and signedness (R176 to R189). -/
structure IsByteGetter (signed : Bool) (c : CurSel) (i : Instr) (w : Nat) (order : ByteOrder) : Prop where
  width : 1 ≤ w ∧ w ≤ 4
  runs (s : State) : exec i s = getBytes w order (extend32 signed (8 * w)) c s

/-- The row of a byte-level setter, which has no signedness: the bytes stored are the low ones of `a`
(R175, R190 to R203). -/
def IsByteSetter (c : CurSel) (a : Word) (i : Instr) (w : Nat) (order : ByteOrder) : Prop :=
  ∀ s, exec i s = setBytes w order a.toNat c s

section
variable {signed : Bool} {c : CurSel} {a : Word} {i g : Instr} {w : Nat} {order : ByteOrder}

theorem isByteGetter_of_listed {rows : List (Instr × Nat × ByteOrder)} (listed : (i, w, order) ∈ rows)
    (all : rows.Forall fun row => IsByteGetter signed c row.1 row.2.1 row.2.2) :
    IsByteGetter signed c i w order := List.forall_iff_forall_mem.mp all _ listed

theorem isByteSetter_of_listed {rows : List (Instr × Nat × ByteOrder)} (listed : (i, w, order) ∈ rows)
    (all : rows.Forall fun row => IsByteSetter c a row.1 row.2.1 row.2.2) :
    IsByteSetter c a i w order := List.forall_iff_forall_mem.mp all _ listed

theorem bytePair_of_listed {rows : List (Instr × Instr × Nat × Bool)} (listed : (i, g, w, signed) ∈ rows)
    (all : rows.Forall fun row =>
      ∃ order, IsByteSetter c a row.1 row.2.2.1 order ∧ IsByteGetter row.2.2.2 c row.2.1 row.2.2.1 order) :
    ∃ order, IsByteSetter c a i w order ∧ IsByteGetter signed c g w order :=
  List.forall_iff_forall_mem.mp all _ listed

/-- Bytes set and read back at the same place: the extension of the low bytes (R204). -/
theorem byteSetter_then_byteGetter {s : State} (setter : IsByteSetter c a i w order)
    (getter : IsByteGetter signed c g w order) (ok : CursorOk (getCur s c))
    (aligned : (getCur s c).bitoff = 0) (fits : w ≤ leftBytes (getCur s c)) :
    ∃ t u x, exec i s = .next t ∧
      exec (.goto c (word ((getCur s c).pos.toNat - (getCur s c).origin.toNat))) t = .next u ∧
      exec g u = .next x ∧
      x.response = some ⟨.ok, extend32 signed (8 * w) (a.toNat % 2 ^ (8 * w)), 0⟩ := by
  refine ⟨_, _, _, (setter s).trans (setBytes_fits aligned fits), exec_goto_atByte ok (by simp) (by simp),
    (getter.runs _).trans (getBytes_fits (by simp [Cursor.atByte]) ?_), ?_⟩
  · simpa [Cursor.atByte, leftBytes] using fits
  · simp [Cursor.atByte, byteSum_memWriteBytes]

end

/-- Settles O22: each row is the one getter of R171, and `w` bytes make a number that 32 bits hold. -/
theorem unsignedGettersComposeTheirBytes : Obligations.UnsignedGettersComposeTheirBytes := by
  intro c s i w order listed
  have getter : IsByteGetter false c i w order := isByteGetter_of_listed listed
    (by and_intros <;> exact ⟨by simp, fun _ => rfl⟩)
  rw [getter.runs s]
  exact ⟨getBytes_unaligned, getBytes_short, fun aligned fits => ⟨_, _, getBytes_fits aligned fits,
    movedBits_advanceBytes _ w fits, extend32_unsigned_toNat getter.width.2 _ _ _⟩⟩

/-- Settles O23: the same getter with the sign of the composed number extended. -/
theorem signedGettersExtendTheirSign : Obligations.SignedGettersExtendTheirSign := by
  intro c s i w order listed
  have getter : IsByteGetter true c i w order := isByteGetter_of_listed listed
    (by and_intros <;> exact ⟨by simp, fun _ => rfl⟩)
  rw [getter.runs s]
  exact ⟨getBytes_unaligned, getBytes_short, fun aligned fits => ⟨_, _, getBytes_fits aligned fits,
    movedBits_advanceBytes _ w fits, extend32_signed getter.width.2 _ _ _⟩⟩

/-- Settles O24: each row is the one setter of R174. -/
theorem unsignedSettersStoreTheirBytes : Obligations.UnsignedSettersStoreTheirBytes := by
  intro c a s i w order listed
  have setter : IsByteSetter c a i w order := isByteSetter_of_listed listed
    (by and_intros <;> exact fun _ => rfl)
  rw [setter s]
  exact ⟨setBytes_unaligned, setBytes_short, setBytes_stores⟩

/-- Settles O25: the signed rows are the same setter. -/
theorem signedSettersStoreTheirBytes : Obligations.SignedSettersStoreTheirBytes := by
  intro c a s i w order listed
  have setter : IsByteSetter c a i w order := isByteSetter_of_listed listed
    (by and_intros <;> exact fun _ => rfl)
  rw [setter s]
  exact ⟨setBytes_unaligned, setBytes_short, setBytes_stores⟩

/-- Settles O26: the pair reads back the extension of the low bytes, which is a value in its range. -/
theorem byteAccessesRoundTrip : Obligations.ByteAccessesRoundTrip := by
  intro c a s i g w signed listed ok aligned fits unsignedRange signedRange
  obtain ⟨order, setter, getter⟩ : ∃ order, IsByteSetter c a i w order ∧ IsByteGetter signed c g w order :=
    bytePair_of_listed listed
      (by and_intros <;> exact ⟨_, fun _ => rfl, ⟨by simp, fun _ => rfl⟩⟩)
  obtain ⟨nonzero, width⟩ := getter.width
  have back := byteSetter_then_byteGetter setter getter ok aligned fits
  rwa [extend32_of_inRange (by omega) (by omega) unsignedRange signedRange] at back

end Sys2Proof.Machine

/-! ## Blocks at a cursor (43_cursor_block.md R210 to R215) -/

namespace Sys2Proof.Machine

/-! ### `get_string` -/

/-- The scan answers the distance to the first zero byte (R210). -/
theorem scanString_eq_some {m : Memory} {a n len : Nat} (within : len < n) (zero : memRead m (a + len) = 0)
    (earliest : ∀ j < len, memRead m (a + j) ≠ 0) : scanString m a n = some len := by
  have spec := scanString_spec m a n
  cases scan : scanString m a n with
  | none =>
    rw [scan] at spec
    exact absurd zero (spec len within)
  | some found =>
    rw [scan] at spec
    obtain ⟨-, foundZero, foundEarliest⟩ := spec
    rcases lt_trichotomy found len with before | same | behind
    · exact absurd foundZero (earliest found before)
    · rw [same]
    · exact absurd zero (foundEarliest len behind)

theorem scanString_eq_none {m : Memory} {a n : Nat} (nonzero : ∀ j < n, memRead m (a + j) ≠ 0) :
    scanString m a n = none := by
  have spec := scanString_spec m a n
  cases scan : scanString m a n with
  | none => rfl
  | some found =>
    rw [scan] at spec
    obtain ⟨within, zero, -⟩ := spec
    exact absurd zero (nonzero found within)

section
variable {c : CurSel} {s : State}

theorem exec_getString_unaligned (unaligned : (getCur s c).bitoff ≠ 0) :
    exec (.getString c) s = .next (answered s .eUnaligned 0 0) := if_pos unaligned

theorem exec_getString_found {len : Nat} (aligned : (getCur s c).bitoff = 0)
    (scan : scanString s.mem (getCur s c).pos.toNat (leftBytes (getCur s c)) = some len) :
    exec (.getString c) s = .next
      (answered (setCur s c (advanceBytes (getCur s c) (len + 1))) .ok (getCur s c).pos (word len)) := by
  simp [exec, execGetString, aligned, scan]

theorem exec_getString_absent (aligned : (getCur s c).bitoff = 0)
    (scan : scanString s.mem (getCur s c).pos.toNat (leftBytes (getCur s c)) = none) :
    exec (.getString c) s = .next (answered s .notFound 0 0) := by
  simp [exec, execGetString, aligned, scan]

end

/-- Settles O27: the scan of the bytes left answers `q - P`, or nothing where no byte is zero. -/
theorem getStringFindsTheFirstZeroByte : Obligations.GetStringFindsTheFirstZeroByte := by
  refine fun c s => ⟨exec_getString_unaligned, fun q aligned low high zero earliest => ?_, fun aligned nonzero => ?_⟩
  · obtain ⟨len, rfl⟩ := Nat.exists_eq_add_of_le low
    have within : len < leftBytes (getCur s c) := by rw [leftBytes]; omega
    have scan := scanString_eq_some within zero fun j lt => earliest _ (by omega) (by omega)
    have word_len : (word len).toNat = len := word_toNat_of_lt len (by omega)
    refine ⟨_, _, exec_getString_found aligned scan, by omega, ?_⟩
    rw [Nat.add_assoc, Nat.add_sub_cancel_left]
    exact movedBits_advanceBytes _ _ within
  · refine exec_getString_absent aligned (scanString_eq_none fun j lt => nonzero _ (by omega) ?_)
    rw [leftBytes] at lt
    omega

/-! ### Block copies: `get_data` and `set_data` are one copy, with source and destination exchanged -/

theorem clippedCount_le (k : Cursor) (b : Word) : clippedCount k b ≤ leftBytes k := Nat.min_le_right _ _

theorem clippedCount_lt (k : Cursor) (b : Word) : clippedCount k b < 2 ^ 32 :=
  (Nat.min_le_left _ _).trans_lt b.isLt

/-- The state after a copy of `n` bytes that moves cursor `c` past them. -/
def blockCopied (src dst n : Nat) (c : CurSel) (s : State) : State :=
  setCur { s with mem := memCopy s.mem src dst n } c (advanceBytes (getCur s c) n)

/-- What `get_data` (R212) and `set_data` (R214) share: only the `ext` side, at `a`, is range checked. -/
def blockCopy (src dst : Nat) (c : CurSel) (a b : Word) (s : State) : Host.Outcome State Fault Refusal :=
  let n := clippedCount (getCur s c) b
  if (getCur s c).bitoff ≠ 0 then raise .eUnaligned s
  else if extRangeOk a n then respond .ok (word n) 0 (blockCopied src dst n c s)
  else raise .eBounds s

theorem exec_getData (c : CurSel) (a b : Word) (s : State) :
    exec (.getData c a b) s = blockCopy (getCur s c).pos.toNat a.toNat c a b s := rfl

theorem exec_setData (c : CurSel) (a b : Word) (s : State) :
    exec (.setData c a b) s = blockCopy a.toNat (getCur s c).pos.toNat c a b s := rfl

theorem extRangeOk_iff (a : Word) (n : Nat) : extRangeOk a n = true ↔ n = 0 ∨ a.toNat + n ≤ 2 ^ 32 :=
  decide_eq_true_iff

section
variable {src dst : Nat} {c : CurSel} {a b : Word} {s : State}

theorem blockCopy_unaligned (unaligned : (getCur s c).bitoff ≠ 0) :
    blockCopy src dst c a b s = .next (answered s .eUnaligned 0 0) := if_pos unaligned

theorem blockCopy_outside (aligned : (getCur s c).bitoff = 0)
    (outside : ¬ extRangeOk a (clippedCount (getCur s c) b)) :
    blockCopy src dst c a b s = .next (answered s .eBounds 0 0) :=
  (if_neg (not_not.mpr aligned)).trans (if_neg outside)

theorem blockCopy_within (aligned : (getCur s c).bitoff = 0)
    (within : extRangeOk a (clippedCount (getCur s c) b)) :
    blockCopy src dst c a b s = .next (answered (blockCopied src dst (clippedCount (getCur s c) b) c s) .ok
      (word (clippedCount (getCur s c) b)) 0) :=
  (if_neg (not_not.mpr aligned)).trans (if_pos within)

/-- The three outcomes of a block copy, as R212 to R214 give them. -/
theorem blockCopy_spec (src dst : Nat) (c : CurSel) (a b : Word) (s : State) :
    let k := min b.toNat (leftBytes (getCur s c))
    ((getCur s c).bitoff ≠ 0 → blockCopy src dst c a b s = .next (answered s .eUnaligned 0 0)) ∧
    ((getCur s c).bitoff = 0 → 0 < k → 2 ^ 32 < a.toNat + k →
      blockCopy src dst c a b s = .next (answered s .eBounds 0 0)) ∧
    ((getCur s c).bitoff = 0 → (k = 0 ∨ a.toNat + k ≤ 2 ^ 32) →
      ∃ m r q, blockCopy src dst c a b s = .next (answered (setCur { s with mem := m } c q) .ok r 0) ∧
        r.toNat = k ∧ movedBits (getCur s c) q (8 * k) ∧ copiesBytes s.mem m src dst k) := by
  refine ⟨blockCopy_unaligned, fun aligned positive above => blockCopy_outside aligned ?_, fun aligned within => ?_⟩
  · rw [extRangeOk_iff, clippedCount]
    omega
  · exact ⟨_, _, _, blockCopy_within aligned ((extRangeOk_iff _ _).mpr within),
      word_toNat_of_lt _ (clippedCount_lt _ _), movedBits_advanceBytes _ _ (clippedCount_le _ _),
      copiesBytes_memCopy _ _ _ _⟩

/-- A block copy that answers OK copied the clipped count of bytes: the two error outcomes answer otherwise. -/
theorem blockCopy_of_ok {t : State} {r : Word} (runs : blockCopy src dst c a b s = .next t)
    (ok : t.response = some ⟨.ok, r, 0⟩) :
    r = word (clippedCount (getCur s c) b) ∧
      t = answered (blockCopied src dst (clippedCount (getCur s c) b) c s) .ok r 0 := by
  by_cases aligned : (getCur s c).bitoff = 0
  · by_cases within : extRangeOk a (clippedCount (getCur s c) b)
    · cases runs.symm.trans (blockCopy_within aligned within)
      simp only [answered_response, Option.some.injEq, Response.mk.injEq] at ok
      obtain ⟨-, rfl, -⟩ := ok
      exact ⟨rfl, rfl⟩
    · cases runs.symm.trans (blockCopy_outside aligned within)
      simp at ok
  · cases runs.symm.trans (blockCopy_unaligned aligned)
    simp at ok

end

/-- Settles O28: the copy from the cursor to `a`. -/
theorem getDataCopiesAscending : Obligations.GetDataCopiesAscending := fun c a b s =>
  blockCopy_spec (getCur s c).pos.toNat a.toNat c a b s

/-- Settles O29: the copy from `a` to the cursor. -/
theorem setDataCopiesAscending : Obligations.SetDataCopiesAscending := fun c a b s =>
  blockCopy_spec a.toNat (getCur s c).pos.toNat c a b s

/-! ### Disjoint ranges (R215) -/

/-- No source byte of a copy between disjoint ranges is one that the copy stored. -/
theorem copiesBytes_of_disjoint {m m' : Memory} {src dst n : Nat} (copies : copiesBytes m m' src dst n)
    (disjoint : src + n ≤ dst ∨ dst + n ≤ src) {j : Nat} (inside : j < n) :
    memRead m' (dst + j) = memRead m (src + j) := by
  obtain ⟨stored, -⟩ := copies
  rw [stored j inside, if_neg (by omega)]

/-- Settles O30: the response names the clipped count, and disjoint ranges leave the source as it was. -/
theorem disjointBlockCopiesAreExact : Obligations.DisjointBlockCopiesAreExact := by
  intro c a b s t i src dst k command runs ok small disjoint
  have copy : blockCopy src dst c a b s = .next t := by
    rcases command with ⟨rfl, rfl, rfl⟩ | ⟨rfl, rfl, rfl⟩
    · rwa [exec_getData] at runs
    · rwa [exec_setData] at runs
  obtain ⟨count, rfl⟩ := blockCopy_of_ok copy ok
  have clipped : k = clippedCount (getCur s c) b := by
    rw [← word_toNat_of_lt k small, count, word_toNat_of_lt _ (clippedCount_lt _ _)]
  subst clipped
  have copies := copiesBytes_memCopy (clippedCount (getCur s c) b) s.mem src dst
  have ⟨_, unchanged⟩ := copies
  simp only [blockCopied, answered_mem, setCur_mem, getCur_answered, getCur_setCur]
  exact ⟨rfl, fun j inside => copiesBytes_of_disjoint copies disjoint inside, unchanged,
    movedBits_advanceBytes _ _ (clippedCount_le _ _)⟩

end Sys2Proof.Machine

/-! ## Variable-length codes (44_vlc.md R222 to R236) -/

namespace Sys2Proof

/-! ### A code determines its value (R233) -/

theorem standsAt_zero_iff {bits : BitStream} {l : List Bool} :
    StandsAt bits 0 l ↔ ∀ j < l.length, bits j = l.getD j false := by
  simp only [StandsAt, Nat.zero_add]

theorem StandsAt.of_isPrefix {bits : BitStream} {i : Nat} {l l' : List Bool} (stands : StandsAt bits i l')
    (starts : l <+: l') : StandsAt bits i l := by
  obtain ⟨rest, rfl⟩ := starts
  exact (standsAt_append.mp stands).1

/-- The decoder finds the end of a code from its bits alone, so a code that begins with another is that one. -/
theorem eq_of_vlcCode_isPrefix {ty : VlcType} {p v w : Nat} (leastV : vlcMin ty ≤ v) (mostV : v ≤ vlcMax ty p)
    (leastW : vlcMin ty ≤ w) (mostW : w ≤ vlcMax ty p) (starts : vlcCode ty p v <+: vlcCode ty p w) : v = w := by
  have stands : StandsAt (fun j => (vlcCode ty p w).getD j false) 0 (vlcCode ty p w) :=
    standsAt_zero_iff.mpr fun _ _ => rfl
  have room : vlcLen ty p v ≤ vlcLen ty p w := by simpa using starts.length_le
  have readV := vlcDecode_of_standsAt leastV mostV (stands.of_isPrefix starts) room
  have readW := vlcDecode_of_standsAt leastW mostW stands le_rfl
  rw [readV] at readW
  cases readW
  rfl

/-- Settles O35: where one code begins another, the decoder reads both values from the same bits. -/
theorem noCodeIsAPrefixOfAnother : Obligations.NoCodeIsAPrefixOfAnother :=
  fun _ _ _ _ _ leastV mostV leastW mostW different starts =>
    different (eq_of_vlcCode_isPrefix leastV mostV leastW mostW starts)

/-- Settles O36: the rows of the table, column by column. -/
theorem codeTableForSmallValues : Obligations.CodeTableForSmallValues :=
  ⟨by decide, by decide, by decide, by decide, by decide, by decide⟩

/-! ### How the unary part of a code ends (R229) -/

/-- The bit that the unary part of a Golomb or Elias-gamma code repeats. -/
def vlcUnaryBit (ty : VlcType) : Bool := decide (ty = .golomb)

/-- The most bits that the unary part of a code may have. -/
def vlcUnaryLimit (ty : VlcType) (p : Nat) : Nat := if ty = .golomb then (2 ^ 32 - 1) / 2 ^ p else 31

/-- The count of bits behind a unary part of `q` bits and its closing bit. -/
def vlcFieldLen (ty : VlcType) (p q : Nat) : Nat := if ty = .golomb then p else q

section
variable {ty : VlcType} {p : Nat} {bits : BitStream} {i left : Nat}

theorem vlcDecode_fixed_short (short : left < p) : vlcDecode .fixed p bits i left = .error .eCodecTrunc :=
  if_pos short

/-- A code whose unary part is not read is not read. -/
theorem vlcDecode_of_unary_error {e : Status} (unary : ty ≠ .fixed)
    (fails : vlcUnary bits (vlcUnaryBit ty) (vlcUnaryLimit ty p) left i 0 = .error e) :
    vlcDecode ty p bits i left = .error e := by
  cases ty with
  | fixed => exact absurd rfl unary
  | golomb =>
    have fails : vlcUnary bits true ((2 ^ 32 - 1) / 2 ^ p) left i 0 = .error e := fails
    simp only [vlcDecode, fails]
  | gamma =>
    have fails : vlcUnary bits false 31 left i 0 = .error e := fails
    simp only [vlcDecode, fails]

/-- A code whose unary part is read needs the bits behind it. -/
theorem vlcDecode_of_field_short {q : Nat} (unary : ty ≠ .fixed)
    (reads : vlcUnary bits (vlcUnaryBit ty) (vlcUnaryLimit ty p) left i 0 = .ok q)
    (short : left - (q + 1) < vlcFieldLen ty p q) : vlcDecode ty p bits i left = .error .eCodecTrunc := by
  cases ty with
  | fixed => exact absurd rfl unary
  | golomb =>
    have reads : vlcUnary bits true ((2 ^ 32 - 1) / 2 ^ p) left i 0 = .ok q := reads
    simp only [vlcDecode, reads]
    exact if_pos short
  | gamma =>
    have reads : vlcUnary bits false 31 left i 0 = .ok q := reads
    simp only [vlcDecode, reads]
    exact if_pos short

end

namespace Machine

/-! ### The commands, check by check (R228, R229) -/

theorem representable_iff (s : State) (v : Nat) :
    representable s v = true ↔ vlcMin s.vlcType ≤ v ∧ v ≤ vlcMax s.vlcType s.vlcParam.toNat := decide_eq_true_iff

theorem representable_eq_false_iff (s : State) (v : Nat) :
    representable s v = false ↔ v < vlcMin s.vlcType ∨ vlcMax s.vlcType s.vlcParam.toNat < v := by
  rw [← Bool.not_eq_true, representable_iff, not_and_or, not_le, not_le]

section
variable {c : CurSel} {v : Word} {s : State}

theorem exec_vlcPut_closed (closed : s.cstate = .closed) :
    exec (.vlcPut c v) s = .next (answered s .eSequence 0 0) := if_pos closed

theorem exec_vlcPut_outOfRange (running : s.cstate ≠ .closed) (outside : representable s v.toNat = false) :
    exec (.vlcPut c v) s = .next (answered s .eCodecVlc 0 0) :=
  (if_neg running).trans (if_pos outside)

theorem exec_vlcPut_short (running : s.cstate ≠ .closed) (coded : representable s v.toNat = true)
    (short : leftBits (getCur s c) < vlcLen s.vlcType s.vlcParam.toNat v.toNat) :
    exec (.vlcPut c v) s = .next (answered s .eBounds 0 0) :=
  (if_neg running).trans ((if_neg (by simp [coded])).trans (if_pos short))

theorem exec_vlcPut_fits (running : s.cstate ≠ .closed) (coded : representable s v.toNat = true)
    (fits : vlcLen s.vlcType s.vlcParam.toNat v.toNat ≤ leftBits (getCur s c)) :
    exec (.vlcPut c v) s = .next (answered
      (setCur { s with mem := writeBits s.mem (bitAddr (getCur s c)) (vlcCode s.vlcType s.vlcParam.toNat v.toNat) } c
        (advance (getCur s c) (vlcLen s.vlcType s.vlcParam.toNat v.toNat)))
      .ok (word (vlcLen s.vlcType s.vlcParam.toNat v.toNat)) 0) :=
  (if_neg running).trans ((if_neg (by simp [coded])).trans (if_neg (Nat.not_lt.mpr fits)))

theorem exec_vlcGet_closed (closed : s.cstate = .closed) :
    exec (.vlcGet c) s = .next (answered s .eSequence 0 0) := if_pos closed

theorem exec_vlcGet_error {e : Status} (running : s.cstate ≠ .closed)
    (fails : vlcDecode s.vlcType s.vlcParam.toNat (bitsAt s.mem (getCur s c)) 0 (leftBits (getCur s c)) = .error e) :
    exec (.vlcGet c) s = .next (answered s e 0 0) := by
  simp only [exec, execVlcGet, if_neg running, fails, raise_eq]

theorem exec_vlcGet_ok {n len : Nat} (running : s.cstate ≠ .closed)
    (reads : vlcDecode s.vlcType s.vlcParam.toNat (bitsAt s.mem (getCur s c)) 0 (leftBits (getCur s c)) =
      .ok (n, len)) :
    exec (.vlcGet c) s = .next (answered (setCur s c (advance (getCur s c) len)) .ok (word n) (word len)) := by
  simp only [exec, execVlcGet, if_neg running, reads, respond_eq]

/-- `vlc_get` reads the code that stands at the cursor, whatever follows it. -/
theorem exec_vlcGet_of_bitsStand (running : s.cstate ≠ .closed) (coded : representable s v.toNat = true)
    (stands : bitsStand s.mem (getCur s c) (vlcCode s.vlcType s.vlcParam.toNat v.toNat)) :
    exec (.vlcGet c) s = .next (answered
      (setCur s c (advance (getCur s c) (vlcLen s.vlcType s.vlcParam.toNat v.toNat))) .ok v
      (word (vlcLen s.vlcType s.vlcParam.toNat v.toNat))) := by
  obtain ⟨least, most⟩ := (representable_iff s _).mp coded
  obtain ⟨room, agree⟩ := stands
  rw [vlcCode_length] at room
  have reads := vlcDecode_of_standsAt least most (standsAt_zero_iff.mpr agree) room
  rw [exec_vlcGet_ok running reads, word_of_toNat]

/-- The code form of the open strategy, its value representable and its code whole (log 10). -/
theorem exec_code_fits (running : s.cstate ≠ .closed) (coded : representable s v.toNat = true)
    (fits : vlcLen s.vlcType s.vlcParam.toNat v.toNat ≤ leftBits s.cur0) :
    exec (s.vlcType.instr v) s = .next (answered
      { s with cur0 := advance s.cur0 (vlcLen s.vlcType s.vlcParam.toNat v.toNat) } .ok v
      (word (vlcLen s.vlcType s.vlcParam.toNat v.toNat))) := by
  have form : exec (s.vlcType.instr v) s = meetCode s.vlcType v s := by cases s.vlcType <;> rfl
  rw [form]
  exact (if_neg (by simp [running])).trans ((if_neg (by simp [coded])).trans (if_neg (Nat.not_lt.mpr fits)))

end

/-- What a store of bits leaves at the cursor it was made at. -/
theorem bitsStand_writeBits (m : Memory) {k : Cursor} {bs : List Bool} (room : bs.length ≤ leftBits k) :
    bitsStand (writeBits m (bitAddr k) bs) k bs := by
  refine ⟨room, fun j inside => ?_⟩
  rw [bitsAt, storesBits_writeBits, if_pos (by omega), Nat.add_sub_cancel_left]

/-- Settles O31: the written-out code is `vlcCode`, and the values without one are the unrepresentable. -/
theorem vlcPutWritesTheCode : Obligations.VlcPutWritesTheCode := by
  intro c a s v p Bad code
  have codeEq : code = vlcCode s.vlcType p v := by
    simp only [code]
    cases s.vlcType with
    | fixed => rfl
    | golomb => simp [vlcCode, fieldBits_mod]
    | gamma => rfl
  have bad : Bad ↔ representable s v = false := by
    rw [representable_eq_false_iff]
    have top : a.toNat < 2 ^ 32 := a.isLt
    have positive : 0 < 2 ^ s.vlcParam.toNat := Nat.two_pow_pos _
    simp only [Bad]
    cases s.vlcType with
    | fixed => show 2 ^ s.vlcParam.toNat ≤ a.toNat ↔ a.toNat < 0 ∨ 2 ^ s.vlcParam.toNat - 1 < a.toNat; omega
    | golomb => exact iff_of_false id (show ¬ (a.toNat < 0 ∨ 2 ^ 32 - 1 < a.toNat) by omega)
    | gamma => show a.toNat = 0 ↔ a.toNat < 1 ∨ 2 ^ 32 - 1 < a.toNat; omega
  have good : ¬ Bad → representable s v = true := fun h => by simpa [bad] using h
  have length : code.length = vlcLen s.vlcType p v := by rw [codeEq, vlcCode_length]
  refine ⟨exec_vlcPut_closed, fun running out => exec_vlcPut_outOfRange running (bad.mp out),
    fun running within short => exec_vlcPut_short running (good within) (length ▸ short),
    fun running within fits => ⟨_, _, length ▸ exec_vlcPut_fits running (good within) (length ▸ fits), ?_, ?_⟩⟩
  · exact length ▸ movedBits_advance _ _ (length ▸ fits)
  · exact codeEq ▸ storesBits_writeBits _ _ _

/-- Settles O32: a code that stands whole is read back, and a failed read passes its status on. -/
theorem vlcGetReadsTheCodeThatStands : Obligations.VlcGetReadsTheCodeThatStands := by
  refine fun c s _ => ⟨exec_vlcGet_closed, fun v running coded stands => ?_, fun e => exec_vlcGet_error⟩
  refine ⟨_, exec_vlcGet_of_bitsStand running coded stands, movedBits_advance _ _ ?_⟩
  obtain ⟨room, -⟩ := stands
  rwa [vlcCode_length] at room

/-- Settles O33: the unary part of a code overruns its limit, fills the region, or leaves too few bits. -/
theorem vlcGetFailsAsTheCodesAreWritten : Obligations.VlcGetFailsAsTheCodesAreWritten := by
  intro c s q running p L bit limit Trunc Run
  have repeats {n : Nat} (run : Run n) : ∀ j < n, bit (0 + j) = vlcUnaryBit s.vlcType := fun j inside => by
    rw [Nat.zero_add]
    exact run j inside
  refine ⟨fun fixed short => ?field, fun unary run inside => ?overrun, fun unary run below => ?fills,
    fun unary below inside run closing short => ?rest⟩
  case field => exact exec_vlcGet_error running (fixed ▸ vlcDecode_fixed_short short)
  case overrun =>
    exact exec_vlcGet_error running (vlcDecode_of_unary_error unary
      (vlcUnary_over _ _ _ _ _ _ (Nat.zero_le _) (repeats run) inside))
  case fills =>
    exact exec_vlcGet_error running (vlcDecode_of_unary_error unary
      (vlcUnary_trunc _ _ _ _ _ _ (repeats run) (by rwa [Nat.zero_add])))
  case rest =>
    have ends : bit (0 + q) ≠ vlcUnaryBit s.vlcType := by
      rw [Nat.zero_add, closing]
      exact Bool.not_ne_self _
    have reads := vlcUnary_run bit _ limit L 0 0 q (repeats run) ends inside (by rwa [Nat.zero_add])
    rw [Nat.zero_add] at reads
    exact exec_vlcGet_error running (vlcDecode_of_field_short unary reads short)

/-- Settles O34: the way back restores the cursor, and the code stands where it was put. -/
theorem vlcCodesRoundTripThroughMemory : Obligations.VlcCodesRoundTripThroughMemory := by
  intro c v s running _ ok coded fits
  have room : (vlcCode s.vlcType s.vlcParam.toNat v.toNat).length ≤ leftBits (getCur s c) := by
    rwa [vlcCode_length]
  have stands := bitsStand_writeBits s.mem room
  refine ⟨_, _, _, _, exec_vlcPut_fits running coded fits, rfl, exec_goto_atByte ok (by simp) (by simp),
    exec_skipBits_from_atByte ok (by simp),
    exec_vlcGet_of_bitsStand (by simpa using running) (by simpa [representable] using coded)
      (by simpa using stands), ?_, ?_⟩
  · simp
  · simp

/-- Settles O52: a code that is read has a representable value and its length, and such a form completes. -/
theorem codeFormsAreWhatVlcGetMeets : Obligations.CodeFormsAreWhatVlcGetMeets := by
  refine ⟨fun s v len strategy running reads => ?meets, fun s v i len running form fits => ?completes⟩
  case meets =>
    obtain ⟨least, most, small, rfl⟩ := vlcDecode_ok _ _ _ _ _ _ _ (vlcParam_le_of_strategyOk strategy running) reads
    have value : (word v).toNat = v := word_toNat_of_lt v small
    have coded : representable s (word v).toNat = true := (representable_iff s _).mpr (value.symm ▸ ⟨least, most⟩)
    have fits := vlcDecode_len_le _ _ _ _ _ _ _ reads
    rw [exec_vlcGet_ok (c := .c0) running reads, exec_code_fits running coded (value.symm ▸ fits), value]
    rfl
  case completes =>
    obtain ⟨rfl, coded, rfl⟩ : i = s.vlcType.instr v ∧ representable s v.toNat = true ∧
        len = vlcLen s.vlcType s.vlcParam.toNat v.toNat := by
      rw [representable_iff]
      rcases form with ⟨rfl, type, small, rfl⟩ | ⟨rfl, type, rfl⟩ | ⟨rfl, type, nonzero, rfl⟩ <;> rw [type]
      · exact ⟨rfl, ⟨Nat.zero_le _, Nat.le_sub_one_of_lt small⟩, rfl⟩
      · exact ⟨rfl, ⟨Nat.zero_le _, Nat.le_sub_one_of_lt v.isLt⟩, rfl⟩
      · have positive : 1 ≤ v.toNat := Nat.pos_of_ne_zero fun h => nonzero (BitVec.eq_of_toNat_eq h)
        exact ⟨rfl, ⟨positive, Nat.le_sub_one_of_lt v.isLt⟩, rfl⟩
    exact ⟨_, exec_code_fits running coded fits, movedBits_advance _ _ fits⟩

end Machine

end Sys2Proof

/-! ## find is the search of the window that the spec writes without an index (45_window_index.md R258) -/

namespace Sys2Proof.Machine

/-! ### The length of a match -/

/-- The extension of a match counts on from the length it starts with. -/
theorem extendMatch_eq (m : Memory) (p sp room len : Nat) :
    extendMatch m p sp room len = len + agreement m (p + len) (sp + len) room := by
  induction room generalizing len with
  | zero => rfl
  | succ room ih =>
    simp only [extendMatch, agreement, ih, Nat.add_assoc]
    split <;> omega

/-- Bytes that have the same signature agree three bytes further than the bytes behind it. -/
theorem agreement_of_signature_eq {m : Memory} {p sp : Nat} (same : signature m p = signature m sp) (room : Nat) :
    agreement m p sp (room + 3) = 3 + agreement m (p + 3) (sp + 3) room := by
  simp only [signature, Prod.mk.injEq] at same
  obtain ⟨first, second, third⟩ := same
  simp only [agreement, first, second, third, if_pos]
  exact Nat.add_comm _ 3

/-! ### The best of a set of candidates -/

/-- `best` is (offset, length) of the longest candidate, the lowest on a tie; (0, 0) for none (R258). -/
def IsBestMatch (cand : Nat → Prop) (len : Nat → Nat) (ws : Nat) (best : Nat × Nat) : Prop :=
  ((∀ p, ¬ cand p) ∧ best = (0, 0)) ∨
    ∃ p, cand p ∧ best = (p - ws, len p) ∧ (∀ q, cand q → len q ≤ len p) ∧ ∀ q, cand q → q < p → len q < len p

/-- One more candidate, below the best so far: it wins a tie (R252). -/
def preferLower (len : Nat → Nat) (ws p : Nat) (best : Nat × Nat) : Nat × Nat :=
  if best.2 ≤ len p then (p - ws, len p) else best

theorem IsBestMatch.congr {cand cand' : Nat → Prop} {len : Nat → Nat} {ws : Nat} {best : Nat × Nat}
    (h : IsBestMatch cand len ws best) (same : ∀ p, cand p ↔ cand' p) : IsBestMatch cand' len ws best :=
  (funext fun p => propext (same p) : cand = cand') ▸ h

theorem isBestMatch_preferLower {cand : Nat → Prop} {len : Nat → Nat} {ws p : Nat} {best : Nat × Nat}
    (h : IsBestMatch cand len ws best) (below : ∀ q, cand q → p < q) :
    IsBestMatch (fun q => q = p ∨ cand q) len ws (preferLower len ws p best) := by
  unfold preferLower
  rcases h with ⟨empty, rfl⟩ | ⟨r, there, rfl, longest, lowest⟩
  · refine .inr ⟨p, .inl rfl, if_pos (Nat.zero_le _), ?_, ?_⟩ <;> rintro q (rfl | hq)
    · exact Nat.le_refl _
    · exact absurd hq (empty q)
    · exact fun lower => absurd lower (Nat.lt_irrefl _)
    · exact absurd hq (empty q)
  · split <;> rename_i longer
    · refine .inr ⟨p, .inl rfl, rfl, ?_, ?_⟩ <;> rintro q (rfl | hq)
      · exact Nat.le_refl _
      · exact (longest q hq).trans longer
      · exact fun lower => absurd lower (Nat.lt_irrefl _)
      · exact fun lower => absurd lower (below q hq).asymm
    · have shorter : len p < len r := Nat.lt_of_not_le longer
      refine .inr ⟨r, .inr there, rfl, ?_, ?_⟩ <;> rintro q (rfl | hq)
      · exact shorter.le
      · exact longest q hq
      · exact fun _ => shorter
      · exact lowest q hq

/-- Positions taken from the newest to the oldest, those with `P` weighed against the best so far. -/
theorem isBestMatch_foldr {P : Nat → Prop} [DecidablePred P] (len : Nat → Nat) (ws : Nat) {ps : List Nat}
    (ascending : ps.Pairwise (· < ·)) :
    IsBestMatch (fun p => p ∈ ps ∧ P p) len ws
      (ps.foldr (fun p best => if P p then preferLower len ws p best else best) (0, 0)) := by
  induction ps with
  | nil => exact .inl ⟨fun _ h => (List.not_mem_nil h.1).elim, rfl⟩
  | cons p ps ih =>
    obtain ⟨below, ascending⟩ := List.pairwise_cons.mp ascending
    rw [List.foldr_cons]
    split <;> rename_i hp
    · refine (isBestMatch_preferLower (ih ascending) fun q hq => below q hq.1).congr fun q => ?_
      rw [List.mem_cons, or_and_right, and_iff_left_of_imp (fun same : q = p => same ▸ hp)]
    · refine (ih ascending).congr fun q => ?_
      rw [List.mem_cons, or_and_right, or_iff_right fun ⟨same, hq⟩ => hp (same ▸ hq)]

/-! ### The walk of a ring -/

/-- The walk of `find` weighs the entries of a ring one after the other, and does not look at the links
of their nodes. -/
theorem walkRing_chain {nd : Nat → Node} {ix : WindowIndex} {m : Memory} {ws sp se hd : Nat}
    {g : Byte × Byte × Byte} {l : List RingEntry} (hl : l ≠ []) {prv : Nat}
    (h : HasNodes ix (chainNodes nd prv l hd)) (headOnce : hd ∉ l.tail.map Prod.fst) {fuel : Nat}
    (enough : l.length ≤ fuel) (d : Nat) (best : Nat × Nat) :
    walkRing ix m ws sp se g hd fuel (firstIndex l d) best =
      (l.map Prod.snd).foldl (fun b p => tryCandidate m ws sp se g (nd p) b) best := by
  induction l generalizing prv fuel d best with
  | nil => exact absurd rfl hl
  | cons e rest ih =>
    obtain ⟨fuel, rfl⟩ : ∃ f, fuel = f + 1 := ⟨fuel - 1, by simp at enough; omega⟩
    obtain ⟨here, there⟩ := List.forall_mem_cons.mp h
    simp only [walkRing, firstIndex_cons, here, List.map_cons, List.foldl_cons]
    cases rest with
    | nil => exact if_pos rfl
    | cons c rest =>
      simp only [List.tail_cons, List.map_cons, List.mem_cons, not_or] at headOnce
      have more : firstIndex (c :: rest) hd ≠ hd := fun same => headOnce.1 same.symm
      rw [← ih (List.cons_ne_nil _ _) there headOnce.2 (by simpa using enough) hd]
      exact if_neg more

/-- What `find` makes of an index that holds positions: the fold of its test over one slot. -/
theorem findMatch_of_indexHolds {tableSize : Nat} {nd : Nat → Node} {slot : Nat → Nat} {ps : List Nat}
    {ix : WindowIndex} {m : Memory} {ws sp se : Nat} (hold : IndexHolds tableSize nd slot ps ix)
    (hps : Addressed nd ps) (hT : 1 ≤ tableSize) (enough : 3 ≤ se - sp) :
    findMatch tableSize ix m ws sp se =
      (slotPositions slot (sourceSlot tableSize m sp) ps).foldl
        (fun b p => tryCandidate m ws sp se (signature m sp) (nd p) b) (0, 0) := by
  obtain ⟨l, positions, ring⟩ := hold.1 _ (sourceSlot_lt hT m sp)
  have head : headOf ix (sigHash tableSize (signature m sp)) = l.head?.map Prod.fst := ring.1
  rw [← positions]
  simp only [findMatch, if_neg (Nat.not_lt.mpr enough)]
  by_cases hl : l = []
  · subst hl
    simp only [head, List.head?_nil, Option.map_none, List.map_nil, List.foldl_nil]
  · rw [head?_of_ne_nil hl 0] at head
    simp only [head]
    exact walkRing_chain hl ring.2 ((first_not_mem_tail (ring_distinct hps positions ring)).resolve_left hl 0)
      (ring_length_le hold positions) 0 _

/-- The test of a node that is not stale, as the spec's search has it. -/
theorem tryCandidate_sourceNode {m : Memory} {ws sp se p : Nat} (maxWindow wOrg : Nat) (enough : 3 ≤ se - sp)
    (inside : ws ≤ p) (small : p < 2 ^ 32) (best : Nat × Nat) :
    tryCandidate m ws sp se (signature m sp) (sourceNode maxWindow m wOrg p) best =
      if signature m p = signature m sp then preferLower (agreement m · sp (se - sp)) ws p best else best := by
  have addr : (word p).toNat = p := word_toNat_of_lt p small
  simp only [tryCandidate, sourceNode, preferLower, windowOffset, addr, if_pos inside]
  refine ite_congr rfl (fun same => ?_) fun _ => rfl
  have length := agreement_of_signature_eq same (se - sp - 3)
  rw [Nat.sub_add_cancel enough, ← extendMatch_eq] at length
  rw [length]

/-- Equal signatures lie in one slot, so the slot of the source has every candidate. -/
theorem sourceSlot_of_signature_eq {tableSize : Nat} {m : Memory} {p sp : Nat}
    (same : signature m p = signature m sp) : sourceSlot tableSize m p = sourceSlot tableSize m sp :=
  congrArg (sigHash tableSize) same

theorem fullPositions_ascending (se a n : Nat) : (fullPositions se a n).Pairwise (· < ·) :=
  (List.pairwise_lt_range' (step := 1)).filter _

/-- `find` on an index that holds the window answers the best of the window's positions. -/
theorem isBestMatch_findMatch {tableSize maxWindow wOrg ws sp se n : Nat} {m : Memory} {ix : WindowIndex}
    (hold : HoldsWindow tableSize maxWindow m wOrg se ws n ix) (hT : 1 ≤ tableSize) (hse : se < 2 ^ 32)
    (enough : 3 ≤ se - sp) :
    IsBestMatch (fun p => p ∈ fullPositions se ws n ∧ signature m p = signature m sp)
      (agreement m · sp (se - sp)) ws (findMatch tableSize ix m ws sp se) := by
  set ps := (fullPositions se ws n).filter fun p => decide (sourceSlot tableSize m p = sourceSlot tableSize m sp)
  have fold : findMatch tableSize ix m ws sp se = ps.foldr (fun p best => if signature m p = signature m sp then
      preferLower (agreement m · sp (se - sp)) ws p best else best) (0, 0) := by
    rw [findMatch_of_indexHolds hold (addressed_fullPositions _ _ _ hse _ _) hT enough, slotPositions,
      List.foldl_reverse]
    refine List.foldr_ext _ _ _ fun p hp best => ?_
    obtain ⟨⟨inside, -⟩, full⟩ := mem_fullPositions.mp (List.mem_of_mem_filter hp)
    exact tryCandidate_sourceNode maxWindow wOrg enough inside (by omega) best
  rw [fold]
  refine (isBestMatch_foldr _ ws ((fullPositions_ascending se ws n).filter _)).congr fun p => ?_
  rw [List.mem_filter, and_assoc, decide_eq_true_eq, and_iff_right_of_imp sourceSlot_of_signature_eq]

/-! ### A state that is ready -/

/-- Every candidate of the window has a full signature when the source has three bytes left. -/
theorem candidate_iff_of_ready {s : State} (ready : encReady s = true) (window : WindowOk s)
    (enough : 3 ≤ leftBytes s.cur0) (p : Nat) :
    Candidate s p ↔ p ∈ fullPositions s.cur0.fin.toNat (windowStart s) s.wLen.toNat ∧
      signature s.mem p = signature s.mem s.cur0.pos.toNat := by
  obtain ⟨state, -, atEnd, -⟩ := (encReady_iff s).mp ready
  obtain ⟨low, len, -, -⟩ := window (by simp [state])
  have start : windowStart s + s.wLen.toNat = s.wEnd.toNat := by
    rw [windowStart]
    omega
  rw [leftBytes, atEnd] at enough
  rw [mem_fullPositions, start, Candidate, ← and_assoc]
  exact and_congr_left' (iff_self_and.mpr fun inside => by omega)

/-- `find` at the source cursor computes the function of R258. -/
theorem isBestMatch_findAtCursor {s : State} (ready : encReady s = true) (params : ParamsOk s)
    (window : WindowOk s) (index : IndexOk s) (enough : 3 ≤ leftBytes s.cur0) :
    IsBestMatch (Candidate s) (agreement s.mem · s.cur0.pos.toNat (leftBytes s.cur0)) (windowStart s)
      (findAtCursor s) := by
  obtain ⟨-, -, hT⟩ := params
  exact (isBestMatch_findMatch ((indexOk_iff s).mp index) hT s.cur0.fin.isLt enough).congr fun p =>
    (candidate_iff_of_ready ready window enough p).symm

theorem findAtCursor_of_short {s : State} (short : leftBytes s.cur0 < 3) : findAtCursor s = (0, 0) := if_pos short

theorem findAtCursor_length_lt (s : State) : (findAtCursor s).2 < 2 ^ 32 := by
  have fin := s.cur0.fin.isLt
  rcases findMatch_bounds s.tableSize s.index s.mem (s.wEnd.toNat - s.wLen.toNat) s.cur0.pos.toNat
    s.cur0.fin.toNat with absent | ⟨-, bound⟩ <;> rw [findAtCursor] <;> omega

theorem exec_winFind_of_ready {s : State} (ready : encReady s = true) :
    exec .winFind s = .next (answered s .ok (word (findAtCursor s).1) (word (findAtCursor s).2)) := if_pos ready

/-- Settles O41: the slot of the source bytes has every candidate of the window, and its ring runs from the
newest to the oldest, so that the tie-break "greater than or equal" ends on the lowest. -/
theorem winFindAnswersTheLongestEarliestMatch : Obligations.WinFindAnswersTheLongestEarliestMatch := by
  intro s ready _ params window index
  refine ⟨_, _, exec_winFind_of_ready ready, fun short => ?few, fun enough empty => ?noCandidate,
    fun enough q hq => ?best⟩
  case few =>
    rw [findAtCursor_of_short short]
    exact ⟨rfl, rfl⟩
  case noCandidate =>
    rcases isBestMatch_findAtCursor ready params window index enough with ⟨-, found⟩ | ⟨p, there, -⟩
    · rw [found]
      exact ⟨rfl, rfl⟩
    · exact absurd there (empty p)
  case best =>
    have small := findAtCursor_length_lt s
    rcases isBestMatch_findAtCursor ready params window index enough with
      ⟨empty, -⟩ | ⟨p, there, found, longest, lowest⟩
    · exact absurd hq (empty q)
    rw [found] at small ⊢
    have offset : (word (p - windowStart s)).toNat = p - windowStart s :=
      word_toNat_of_lt _ (by have := s.wEnd.isLt; have := there.2.1; omega)
    have length := word_toNat_of_lt _ small
    refine ⟨p, there, offset, length, ?_, ?_⟩ <;> rw [length]
    · exact longest
    · exact lowest

end Sys2Proof.Machine

/-! ## Codec control and encode (46_lzsw_encode.md) -/

namespace Sys2Proof.Machine

/-! ### Opening, closing and reading the codec (R270, R271, R277) -/

/-- The cursor that `codec_open` latches: the source of an encoder, the output of a decoder. -/
def latchedCursor : CodecMode → State → Cursor
  | .enc, s => s.cur0
  | .dec, s => s.cur1

section
variable {mode : CodecMode} {ty : VlcType} {a : Word} {s : State}

theorem exec_codecOpen_illegal (illegal : vlcParamOk ty a = false) :
    exec (.codecOpen mode ty a) s = .next (answered s .eIllegal 0 0) := if_pos illegal

theorem exec_codecOpen_unaligned (legal : vlcParamOk ty a = true) (unaligned : (latchedCursor mode s).bitoff ≠ 0) :
    exec (.codecOpen mode ty a) s = .next (answered s .eUnaligned 0 0) := by
  cases mode <;> exact (if_neg (by simp [legal])).trans (if_pos unaligned)

theorem exec_codecOpen_aligned (legal : vlcParamOk ty a = true) (aligned : (latchedCursor mode s).bitoff = 0) :
    exec (.codecOpen mode ty a) s = .next (answered (openedState mode ty a s) .ok 0 0) := by
  cases mode <;> exact (if_neg (by simp [legal])).trans (if_neg (not_not_intro aligned))

/-- An opening that answers OK has latched a cursor on a byte boundary. -/
theorem codecOpen_of_ok {t : State} {r0 r1 : Word} (h : exec (.codecOpen mode ty a) s = .next t)
    (ok : t.response = some ⟨.ok, r0, r1⟩) :
    (latchedCursor mode s).bitoff = 0 ∧ t = answered (openedState mode ty a s) .ok 0 0 := by
  cases legal : vlcParamOk ty a with
  | false => rw [exec_codecOpen_illegal legal] at h; cases h; cases ok
  | true =>
    by_cases aligned : (latchedCursor mode s).bitoff = 0
    · rw [exec_codecOpen_aligned legal aligned] at h
      cases h
      exact ⟨aligned, rfl⟩
    · rw [exec_codecOpen_unaligned legal aligned] at h; cases h; cases ok

end

/-- Settles O37: the two answers to a legal opening, and the parameter that fits in its register. -/
theorem codecOpenStartsAFreshInstance : Obligations.CodecOpenStartsAFreshInstance := by
  intro mode ty a s legal
  have param : (a.extractLsb' 0 6).toNat = a.toNat := by
    have kept := congrArg BitVec.toNat (setWidth_vlcParam legal)
    rwa [BitVec.toNat_setWidth_of_le (by decide)] at kept
  cases mode
  case enc =>
    exact ⟨exec_codecOpen_unaligned (mode := .enc) legal, fun aligned =>
      ⟨_, param, exec_codecOpen_aligned (mode := .enc) legal aligned⟩⟩
  case dec =>
    exact ⟨exec_codecOpen_unaligned (mode := .dec) legal, fun aligned =>
      ⟨_, param, exec_codecOpen_aligned (mode := .dec) legal aligned⟩⟩

/-- The number of two fields side by side. -/
theorem toNat_append_eq {m n : Nat} (hi : BitVec m) (lo : BitVec n) :
    (hi ++ lo).toNat = 2 ^ n * hi.toNat + lo.toNat := by
  rw [BitVec.toNat_append, ← Nat.shiftLeft_add_eq_or_of_lt lo.isLt, Nat.shiftLeft_eq, Nat.mul_comm]

/-- The four registers of `codec_state` stand side by side, a byte each. -/
theorem exec_codecState (s : State) : ∃ r0, exec .codecState s = .next (answered s .ok r0 s.wLen) ∧
    r0.toNat = 2 ^ 24 * s.posBits.toNat + 2 ^ 16 * s.vlcParam.toNat + 2 ^ 8 * s.vlcType.code.toNat +
      (codecStateCode s.cstate).toNat := by
  refine ⟨_, rfl, ?_⟩
  simp only [toNat_append_eq, BitVec.toNat_setWidth_of_le (show 6 ≤ 8 by decide),
    BitVec.toNat_setWidth_of_le (show 2 ≤ 8 by decide), BitVec.toNat_setWidth_of_le (show 3 ≤ 8 by decide)]
  omega

/-- Settles O38: what `codec_close` tests, and the numbers of the types and the codec states. -/
theorem codecCloseAndCodecState : Obligations.CodecCloseAndCodecState := by
  intro s
  obtain ⟨r0, answer, value⟩ := exec_codecState s
  refine ⟨fun closed => if_pos closed, fun running => if_neg running, r0, answer,
    value.trans
    (congrArg₂ (2 ^ 24 * s.posBits.toNat + 2 ^ 16 * s.vlcParam.toNat + 2 ^ 8 * · + ·) ?type ?state)⟩
  case type => cases s.vlcType <;> rfl
  case state => cases s.cstate <;> rfl

/-! ### Readiness (R272, R291) -/

theorem exec_encode_of_not_ready {s : State} (notReady : encReady s = false) {i : Instr}
    (hi : i ∈ [Instr.deflateStep, .deflateRun, .winFind]) : exec i s = .next (answered s .eSequence 0 0) := by
  have refused : ¬ encReady s = true := by simp [notReady]
  simp only [List.mem_cons, List.not_mem_nil, or_false] at hi
  rcases hi with rfl | rfl | rfl <;> exact if_neg refused

theorem exec_decode_of_not_ready {s : State} (notReady : decReady s = false) {i : Instr}
    (hi : i ∈ [Instr.inflateStep, .inflateRun]) : exec i s = .next (answered s .eSequence 0 0) := by
  have refused : ¬ decReady s = true := by simp [notReady]
  simp only [List.mem_cons, List.not_mem_nil, or_false] at hi
  rcases hi with rfl | rfl <;> exact if_neg refused

theorem regionsDisjoint_iff (k l : Cursor) :
    regionsDisjoint k l = true ↔ k.fin.toNat ≤ l.origin.toNat ∨ l.fin.toNat ≤ k.origin.toNat := decide_eq_true_iff

/-- Settles O39: each command tests its readiness first. -/
theorem codecCommandsRefuseWhenNotReady : Obligations.CodecCommandsRefuseWhenNotReady := by
  intro s
  simp only [← regionsDisjoint_iff, ← encReady_iff, ← decReady_iff, Bool.not_eq_true]
  exact ⟨fun notReady i => exec_encode_of_not_ready notReady, fun notReady i => exec_decode_of_not_ready notReady,
    exec_winFind_of_ready⟩

theorem encReady_openedState {s : State} (ty : VlcType) (a : Word) (aligned : s.cur0.bitoff = 0)
    (source : CursorOk s.cur0) (apart : regionsDisjoint s.cur0 s.cur1 = true) :
    encReady (openedState .enc ty a s) = true :=
  (encReady_iff _).mpr ⟨rfl, aligned, rfl, source.1, rfl, apart⟩

theorem decReady_openedState {s : State} (ty : VlcType) (a : Word) (aligned : s.cur1.bitoff = 0)
    (output : CursorOk s.cur1) (apart : regionsDisjoint s.cur0 s.cur1 = true) :
    decReady (openedState .dec ty a s) = true :=
  (decReady_iff _).mpr ⟨rfl, aligned, rfl, output.1, apart⟩

theorem deflateStep_of_ready {s : State} (ready : encReady s = true) :
    exec .deflateStep s = .next (answerTurn (deflateToken s)) := by
  simp only [exec, execDeflateStep, ready, if_true]
  rfl

/-- A turn of the encoder that ends in OK or OUT_FULL leaves it ready. -/
theorem encReady_of_turn {s : State} (ready : encReady s = true)
    (goesOn : (deflateToken s).2.1 = .ok ∨ (deflateToken s).2.1 = .outFull) :
    encReady (deflateToken s).1 = true := by
  rcases goesOn with ok | full
  · exact encReady_deflateToken ready ok
  · rcases deflateToken_spec s with ⟨-, turn⟩ | ⟨-, -, turn⟩ | ⟨-, -, turn⟩ <;> rw [turn] at full ⊢
    · cases full
    · exact ready
    · cases full

/-- A turn of the decoder that ends in OK or OUT_FULL leaves it ready. -/
theorem decReady_of_turn {s : State} (ready : decReady s = true)
    (goesOn : (inflateToken s).2.1 = .ok ∨ (inflateToken s).2.1 = .outFull) :
    decReady (inflateToken s).1 = true := by
  rcases goesOn with ok | full
  · exact decReady_inflateToken ready ok
  · rcases inflateToken_spec s with ⟨-, turn⟩ | ⟨-, turn⟩ | ⟨-, e, codec, turn⟩ | ⟨-, m, n, len, turn, -⟩ <;>
      rw [turn] at full ⊢
    · cases full
    · exact ready
    · rcases codec with rfl | rfl | rfl <;> cases full
    · cases full

theorem encReady_of_deflateStep {s t : State} {st : Status} {r0 r1 : Word} (h : exec .deflateStep s = .next t)
    (answer : t.response = some ⟨st, r0, r1⟩) (goesOn : st = .ok ∨ st = .outFull) : encReady t = true := by
  cases ready : encReady s with
  | false =>
    rw [exec_encode_of_not_ready ready (by simp)] at h
    cases h
    cases answer
    simp at goesOn
  | true =>
    rw [deflateStep_of_ready ready] at h
    cases h
    cases answer
    exact encReady_of_turn ready goesOn

theorem decReady_of_inflateStep {s t : State} {st : Status} {r0 r1 : Word} (h : exec .inflateStep s = .next t)
    (answer : t.response = some ⟨st, r0, r1⟩) (goesOn : st = .ok ∨ st = .outFull) : decReady t = true := by
  cases ready : decReady s with
  | false =>
    rw [exec_decode_of_not_ready ready (by simp)] at h
    cases h
    cases answer
    simp at goesOn
  | true =>
    rw [inflateStep_of_ready ready] at h
    cases h
    cases answer
    exact decReady_of_turn ready goesOn

/-- Settles O40: an opening that answers OK latches an aligned cursor, and a turn that goes on keeps what
readiness tests. -/
theorem readinessIsEstablishedAndKept : Obligations.ReadinessIsEstablishedAndKept := by
  refine fun s t r0 r1 ⟨source, output⟩ => ⟨fun ty a apart h ok => ?_, fun ty a apart h ok => ?_,
    fun h answer => ?_, fun h answer => ?_⟩
  · obtain ⟨aligned, rfl⟩ := codecOpen_of_ok h ok
    exact encReady_openedState ty a aligned source apart
  · obtain ⟨aligned, rfl⟩ := codecOpen_of_ok h ok
    exact decReady_openedState ty a aligned output apart
  · rcases answer with answer | answer
    · exact encReady_of_deflateStep h answer (.inl rfl)
    · exact encReady_of_deflateStep h answer (.inr rfl)
  · rcases answer with answer | answer
    · exact decReady_of_inflateStep h answer (.inl rfl)
    · exact decReady_of_inflateStep h answer (.inr rfl)

/-! ### The token that a step emits (R273, R275, R279) -/

/-- The offset that `find` reports fits in a word, a stale node's too. -/
theorem findAtCursor_offset_lt (s : State) : (findAtCursor s).1 < 2 ^ 32 := by
  have none_lt : ((0, 0) : Nat × Nat).1 < 2 ^ 32 := by decide
  have offset_lt (addr : Word) (ws : Nat) : windowOffset addr ws < 2 ^ 32 := by
    simp only [windowOffset]
    split
    · have := addr.isLt
      omega
    · exact BitVec.isLt _
  simp only [findAtCursor, findMatch]
  split
  · exact none_lt
  split
  · exact none_lt
  refine walkRing_keeps (fun best => best.1 < 2 ^ 32) _ _ _ _ _ _ _ _ _ _ none_lt fun n best small => ?_
  simp only [tryCandidate]
  split
  · split
    · exact offset_lt n.addr _
    · exact small
  · exact small

theorem chooseToken_of_match {s : State} (found : 2 < (findAtCursor s).2) :
    chooseToken s =
      (.matchRef (word (findAtCursor s).1)
        (word (min (findAtCursor s).2 (vlcMax s.vlcType s.vlcParam.toNat + 2) - 2)),
        min (findAtCursor s).2 (vlcMax s.vlcType s.vlcParam.toNat + 2)) := if_pos found

theorem chooseToken_of_pair {s : State} (absent : (findAtCursor s).2 ≤ 2) (two : 2 ≤ leftBytes s.cur0) :
    chooseToken s =
      (.literalPair (memRead s.mem s.cur0.pos.toNat) (memRead s.mem (s.cur0.pos.toNat + 1)), 2) :=
  (if_neg (Nat.not_lt.mpr absent)).trans (if_pos two)

theorem chooseToken_of_single {s : State} (absent : (findAtCursor s).2 ≤ 2) (one : leftBytes s.cur0 < 2) :
    chooseToken s = (.singleLiteral (memRead s.mem s.cur0.pos.toNat), 1) :=
  (if_neg (Nat.not_lt.mpr absent)).trans (if_neg (Nat.not_le.mpr one))

/-- The bits of the match token: the offset and the clamped length fit in their words. -/
theorem chosenBits_of_match {s : State} (found : 2 < (findAtCursor s).2) :
    chosenBits s = [true] ++ fieldBits s.posBits.toNat (findAtCursor s).1 ++
      vlcCode s.vlcType s.vlcParam.toNat
        (min (findAtCursor s).2 (vlcMax s.vlcType s.vlcParam.toNat + 2) - 2) := by
  have small := findAtCursor_length_lt s
  rw [chosenBits, chooseToken_of_match found, tokenBits, word_toNat_of_lt _ (findAtCursor_offset_lt s),
    word_toNat_of_lt _ (by omega)]
  rfl

/-- What a token that is written leaves (R278), whatever it is. -/
theorem encoded_afterToken {s : State} (ready : encReady s = true) (source : CursorOk s.cur0)
    (more : s.cur0.pos ≠ s.cur0.fin) (room : (chosenBits s).length ≤ leftBits s.cur1) :
    Encoded s (afterToken s) (chosenBits s) (chooseToken s).2 := by
  obtain ⟨-, -, atEnd, -⟩ := (encReady_iff s).mp ready
  have bound := (chooseToken_bounds s source more).2
  have below : s.cur0.pos.toNat + (chooseToken s).2 < 2 ^ 32 := by
    have fin := s.cur0.fin.isLt
    have order := source.2.1
    simp only [leftBytes] at bound
    omega
  refine ⟨storesBits_writeBits _ _ _, movedBits_advance _ _ room, movedBits_advanceBytes _ _ bound, ?wEnd, ?wLen,
    slideWindow_posBits _ _ below, slideWindow_base _ _ below, rfl, rfl, rfl, rfl, rfl, rfl, rfl, rfl, rfl⟩
  case wEnd => exact (word_toNat_of_lt _ below).trans (by rw [atEnd])
  case wLen =>
    rw [← atEnd]
    exact word_toNat_of_lt (min (s.cur0.pos.toNat + (chooseToken s).2 - s.wOrg.toNat) s.maxWindow) (by omega)

section
variable {s : State}

theorem exec_deflateStep_atEnd (ready : encReady s = true) (atEnd : s.cur0.pos = s.cur0.fin) :
    exec .deflateStep s =
      .next (answered { s with cur1 := syncCursor s.cur1, cstate := .encDone } .done 0 0) := by
  rw [deflateStep_of_ready ready, deflateToken, if_pos atEnd]
  rfl

theorem exec_deflateStep_full (ready : encReady s = true) (more : s.cur0.pos ≠ s.cur0.fin)
    (noRoom : leftBits s.cur1 < (chosenBits s).length) :
    exec .deflateStep s = .next (answered s .outFull 0 0) := by
  rcases deflateToken_spec s with ⟨atEnd, -⟩ | ⟨-, -, turn⟩ | ⟨-, room, -⟩
  · exact absurd atEnd more
  · rw [deflateStep_of_ready ready, turn]
    rfl
  · omega

theorem exec_deflateStep_token (ready : encReady s = true) (more : s.cur0.pos ≠ s.cur0.fin)
    (room : (chosenBits s).length ≤ leftBits s.cur1) :
    exec .deflateStep s =
      .next (answered (afterToken s) .ok (word (chooseToken s).2) (word (chosenBits s).length)) := by
  rcases deflateToken_spec s with ⟨atEnd, -⟩ | ⟨-, noRoom, -⟩ | ⟨-, -, turn⟩
  · exact absurd atEnd more
  · omega
  · rw [deflateStep_of_ready ready, turn]
    rfl

end

/-- Settles O42: the three forms of the statement are the token that the step chooses. -/
theorem deflateStepEmitsOneToken : Obligations.DeflateStepEmitsOneToken := by
  refine fun s ready ⟨source, output⟩ _ => ⟨fun atEnd => ?done, fun bits n more form => ?token⟩
  case done =>
    obtain ⟨aligned, boundary, origin, fin, -⟩ := syncCursor_spec _ output
    exact ⟨_, aligned, boundary, origin, fin, exec_deflateStep_atEnd ready atEnd⟩
  case token =>
    obtain ⟨rfl, rfl⟩ : n = (chooseToken s).2 ∧ bits = chosenBits s := by
      rcases form with ⟨found, rfl, rfl⟩ | ⟨absent, two, rfl, rfl⟩ | ⟨absent, one, rfl, rfl⟩
      · exact ⟨by rw [chooseToken_of_match found], (chosenBits_of_match found).symm⟩
      · rw [chosenBits, chooseToken_of_pair absent two]
        exact ⟨rfl, rfl⟩
      · rw [chosenBits, chooseToken_of_single absent (by omega)]
        exact ⟨rfl, rfl⟩
    exact ⟨exec_deflateStep_full ready more, fun room =>
      ⟨_, exec_deflateStep_token ready more room, rfl, encoded_afterToken ready source more room⟩⟩

/-! ### A run of the encoder (R276) -/

/-- A run: tokens that are written, then the end of the source or a token without room. The number counts
the source bytes consumed. -/
inductive EncodeRun : State → Nat → Status → State → Prop where
  | done {s : State} (atEnd : s.cur0.pos = s.cur0.fin) :
      EncodeRun s 0 .done { s with cur1 := syncCursor s.cur1, cstate := .encDone }
  | full {s : State} (more : s.cur0.pos ≠ s.cur0.fin) (noRoom : leftBits s.cur1 < (chosenBits s).length) :
      EncodeRun s 0 .outFull s
  | token {s t : State} {n : Nat} {st : Status} (more : s.cur0.pos ≠ s.cur0.fin)
      (room : (chosenBits s).length ≤ leftBits s.cur1) (rest : EncodeRun (afterToken s) n st t) :
      EncodeRun s ((chooseToken s).2 + n) st t

theorem leftBytes_afterToken {s : State} (source : CursorOk s.cur0) (more : s.cur0.pos ≠ s.cur0.fin) :
    leftBytes (afterToken s).cur0 = leftBytes s.cur0 - (chooseToken s).2 :=
  leftBytes_advanceBytes _ _ (chooseToken_bounds s source more).2

theorem leftBits_afterToken {s : State} (room : (chosenBits s).length ≤ leftBits s.cur1) :
    leftBits (afterToken s).cur1 = leftBits s.cur1 - (chosenBits s).length := leftBits_advance _ _ room

theorem atEnd_of_leftBytes_eq_zero {k : Cursor} (ok : CursorOk k) (none : leftBytes k = 0) : k.pos = k.fin := by
  have order := ok.2.1
  simp only [leftBytes] at none
  exact BitVec.eq_of_toNat_eq (by omega)

/-- The loop of `deflate_run` is a run, when its bound covers the source bytes left. -/
theorem encodeRun_deflateLoop (fuel : Nat) {s : State} (consumed : Nat) (ready : encReady s = true)
    (cursors : CursorsOk s) (enough : leftBytes s.cur0 ≤ fuel) :
    ∃ n st t, EncodeRun s n st t ∧ deflateLoop fuel s consumed = (t, st, consumed + n) := by
  induction fuel generalizing s consumed with
  | zero =>
    have atEnd := atEnd_of_leftBytes_eq_zero cursors.1 (Nat.le_zero.mp enough)
    exact ⟨_, _, _, .done atEnd, by rw [deflateLoop, deflateToken, if_pos atEnd]⟩
  | succ fuel ih =>
    rcases deflateToken_spec s with ⟨atEnd, turn⟩ | ⟨more, noRoom, turn⟩ | ⟨more, room, turn⟩
    · exact ⟨_, _, _, .done atEnd, by rw [deflateLoop, turn]; rfl⟩
    · exact ⟨_, _, _, .full more noRoom, by rw [deflateLoop, turn]; rfl⟩
    · have progress := (chooseToken_bounds s cursors.1 more).1
      obtain ⟨n, st, t, rest, loop⟩ := ih (consumed + (chooseToken s).2) (encReady_afterToken ready)
        ((EncodeStep.token ready more room).cursorsOk cursors)
        (by rw [leftBytes_afterToken cursors.1 more]; omega)
      exact ⟨_, st, t, .token more room rest, by rw [deflateLoop, turn, ← Nat.add_assoc]; exact loop⟩

theorem exec_deflateRun_of_ready {s : State} (ready : encReady s = true) (cursors : CursorsOk s) :
    ∃ n st t, EncodeRun s n st t ∧ exec .deflateRun s =
      .next (answered t st (word n) (word (t.cur1.pos.toNat - s.cur1.pos.toNat))) := by
  obtain ⟨n, st, t, run, loop⟩ := encodeRun_deflateLoop (leftBytes s.cur0) 0 ready cursors (Nat.le_refl _)
  rw [Nat.zero_add] at loop
  refine ⟨n, st, t, run, ?_⟩
  simp only [exec, execDeflateRun, ready, if_true, loop, respond_eq]

/-- No turn of the encoder looks at the last response. -/
theorem afterToken_answered (s : State) (st : Status) (r0 r1 : Word) :
    afterToken (answered s st r0 r1) = answered (afterToken s) st r0 r1 := rfl

theorem exec_deflateStep_answered {s : State} (ready : encReady s = true) (st : Status) (r0 r1 : Word) :
    exec .deflateStep (answered s st r0 r1) = exec .deflateStep s := by
  have ready' : encReady (answered s st r0 r1) = true := ready
  rcases deflateToken_spec s with ⟨atEnd, -⟩ | ⟨more, noRoom, -⟩ | ⟨more, room, -⟩
  · rw [exec_deflateStep_atEnd ready atEnd, exec_deflateStep_atEnd ready' atEnd]
    rfl
  · rw [exec_deflateStep_full ready more noRoom, exec_deflateStep_full ready' more noRoom]
    rfl
  · rw [exec_deflateStep_token ready more room, exec_deflateStep_token ready' more room, afterToken_answered]
    rfl

/-- A run is a chain of steps that answer OK and a last step, from any state that steps as its first does. -/
theorem EncodeRun.okSteps {s t : State} {n : Nat} {st : Status} (run : EncodeRun s n st t)
    (ready : encReady s = true) {s' : State} (same : exec .deflateStep s' = exec .deflateStep s) :
    ∃ u, OkSteps .deflateStep s' (word n) u ∧ exec .deflateStep u = .next (answered t st 0 0) := by
  induction run generalizing s' with
  | done atEnd => exact ⟨s', .none s', same.trans (exec_deflateStep_atEnd ready atEnd)⟩
  | full more noRoom => exact ⟨s', .none s', same.trans (exec_deflateStep_full ready more noRoom)⟩
  | token more room _ ih =>
    obtain ⟨u, steps, last⟩ := ih (encReady_afterToken ready)
      (exec_deflateStep_answered (encReady_afterToken ready) .ok _ _)
    have sum := OkSteps.more (same.trans (exec_deflateStep_token ready more room)) rfl steps
    exact ⟨u, by rwa [word, word, ← BitVec.ofNat_add] at sum, last⟩

theorem EncodeRun.status {s t : State} {n : Nat} {st : Status} (run : EncodeRun s n st t) :
    st = .done ∨ st = .outFull := by
  induction run with
  | done => exact .inl rfl
  | full => exact .inr rfl
  | token _ _ _ ih => exact ih

/-- Settles O43: the run of the loop, read as a chain of steps. -/
theorem deflateRunIsDeflateStepRepeated : Obligations.DeflateRunIsDeflateStepRepeated := by
  intro s ready cursors
  obtain ⟨n, st, t, run, answer⟩ := exec_deflateRun_of_ready ready cursors
  obtain ⟨u, steps, last⟩ := run.okSteps ready rfl
  exact ⟨u, _, _, st, steps, last, rfl, run.status, answer⟩

/-! ### The size of the output (R282) -/

theorem vlcLen_le {ty : VlcType} {p : Nat} (legal : ty = .gamma ∨ p ≤ 32) (v : Nat) :
    vlcLen ty p v ≤ 2 * v + 33 := by
  cases ty with
  | fixed =>
    have := legal.resolve_left (by decide)
    simp only [vlcLen]
    omega
  | golomb =>
    have := legal.resolve_left (by decide)
    have := Nat.div_le_self v (2 ^ p)
    simp only [vlcLen]
    omega
  | gamma =>
    have := Nat.log2_le_self v
    simp only [vlcLen]
    omega

/-- The least length of a match is never clamped below 3. -/
theorem one_le_vlcMax {s : State} (strategy : StrategyOk s) (running : s.cstate ≠ .closed) :
    1 ≤ vlcMax s.vlcType s.vlcParam.toNat := by
  have legal := strategy running
  cases type : s.vlcType with
  | fixed =>
    rw [type, vlcParamOk_fixed, BitVec.toNat_setWidth_of_le (by decide)] at legal
    have := Nat.pow_le_pow_right (show 0 < 2 by decide) legal.1
    simp only [vlcMax]
    omega
  | golomb => simp [vlcMax]
  | gamma => simp [vlcMax]

/-- A token spends fewer than 24 bits per source byte. -/
theorem chosenBits_length_lt {s : State} (ready : encReady s = true) (ok : InstanceOk s) :
    (chosenBits s).length < 24 * (chooseToken s).2 := by
  obtain ⟨-, strategy, window⟩ := ok
  have running : s.cstate ≠ .closed := by simp [((encReady_iff s).mp ready).1]
  rw [chosenBits, tokenBits_length]
  by_cases found : 2 < (findAtCursor s).2
  · obtain ⟨-, -, width, -⟩ := window running
    have width_le := clog2_le _ s.wLen.isLt
    have three : 3 ≤ min (findAtCursor s).2 (vlcMax s.vlcType s.vlcParam.toNat + 2) := by
      have := one_le_vlcMax strategy running
      omega
    rw [chooseToken_of_match found, tokenLen]
    set n := min (findAtCursor s).2 (vlcMax s.vlcType s.vlcParam.toNat + 2)
    have code := vlcLen_le (vlcParam_le_of_strategyOk strategy running) (word (n - 2)).toNat
    have value : (word (n - 2)).toNat ≤ n - 2 := (word_toNat _).trans_le (Nat.mod_le _ _)
    omega
  · by_cases two : 2 ≤ leftBytes s.cur0
    · rw [chooseToken_of_pair (Nat.not_lt.mp found) two, tokenLen]
      omega
    · rw [chooseToken_of_single (Nat.not_lt.mp found) (Nat.not_le.mp two), tokenLen]
      omega

/-- With 24 bits of room per source byte a run meets no token without room. -/
theorem EncodeRun.done_of_room {s t : State} {n : Nat} {st : Status} (run : EncodeRun s n st t)
    (ready : encReady s = true) (ok : InstanceOk s) (room : 24 * leftBytes s.cur0 ≤ leftBits s.cur1) :
    st = .done ∧ n = leftBytes s.cur0 ∧ t.cur0.pos = s.cur0.fin ∧ t.cstate = .encDone ∧ t.cur1.bitoff = 0 := by
  induction run with
  | done atEnd =>
    obtain ⟨⟨-, output⟩, -⟩ := ok
    exact ⟨rfl, by rw [leftBytes, atEnd, Nat.sub_self], atEnd, rfl, (syncCursor_spec _ output).1⟩
  | @full s more noRoom =>
    have spent := chosenBits_length_lt ready ok
    have bound := (chooseToken_bounds s ok.1.1 more).2
    omega
  | @token s t n st more fits rest ih =>
    have ⟨⟨source, _⟩, _⟩ := ok
    have spent := chosenBits_length_lt ready ok
    have bound := (chooseToken_bounds s source more).2
    obtain ⟨done, all, atEnd, state, synced⟩ := ih (encReady_afterToken ready)
      ((EncodeStep.token ready more fits).instanceOk ok)
      (by rw [leftBytes_afterToken source more, leftBits_afterToken fits]; omega)
    rw [leftBytes_afterToken source more] at all
    exact ⟨done, by omega, atEnd, state, synced⟩

/-- Settles O44: the bound on the bits of a token, along the run of the loop. -/
theorem threeBytesPerByteAlwaysHoldTheEncoding : Obligations.ThreeBytesPerByteAlwaysHoldTheEncoding := by
  intro s ready cursors _ strategy window room
  obtain ⟨n, st, t, run, answer⟩ := exec_deflateRun_of_ready ready cursors
  obtain ⟨rfl, rfl, atEnd, state, synced⟩ := run.done_of_room ready ⟨cursors, strategy, window⟩ room
  exact ⟨_, _, answer, rfl, atEnd, state, synced⟩

end Sys2Proof.Machine

/-! ## One token of decode (47_lzsw_decode.md R292 to R300) -/

namespace Sys2Proof.Machine

/-! ### The token that stands at the input cursor -/

/-- A token whose bits stand at the input cursor is the token that is read there (R103 to R106). -/
theorem tokenAtCursor_of_bitsStand {s : State} {tk : Token} (strategy : StrategyOk s) (running : s.cstate ≠ .closed)
    (width : s.posBits.toNat ≤ 32) (last : ∀ b0, tk = .singleLiteral b0 → leftBits s.cur0 < 17)
    (coded : ∀ off v, tk = .matchRef off v → off.toNat < 2 ^ s.posBits.toNat ∧ representable s v.toNat = true)
    (stands : bitsStand s.mem s.cur0 (tokenBits s.posBits.toNat s.vlcType s.vlcParam.toNat tk)) :
    tokenAtCursor s = .ok (tk, tokenLen s.posBits.toNat s.vlcType s.vlcParam.toNat tk) := by
  have parameter : (s.vlcParam.setWidth 32).toNat = s.vlcParam.toNat := BitVec.toNat_setWidth_of_le (by decide)
  have reads := tokensDecodeToThemselves s.posBits.toNat s.vlcType (s.vlcParam.setWidth 32) tk
    (bitsAt s.mem s.cur0) (leftBits s.cur0) width (strategy running)
  rw [parameter] at reads
  refine (reads ?fits stands.1 stands.2).1
  cases tk with
  | literalPair b0 b1 => trivial
  | singleLiteral b0 => exact last b0 rfl
  | matchRef off v => exact ⟨(coded off v rfl).1, (representable_iff s v.toNat).mp (coded off v rfl).2⟩

theorem inflateToken_of_reads {s : State} {tk : Token} {len : Nat} (more : 9 ≤ leftBits s.cur0)
    (room : leftBytes s.cur1 ≠ 0) (reads : tokenAtCursor s = .ok (tk, len)) :
    inflateToken s = applyToken tk len s := by
  rw [inflateToken, if_neg (Nat.not_lt.mpr more), if_neg room, reads]

theorem inflateToken_of_malformed {s : State} {e : Status} (more : 9 ≤ leftBits s.cur0)
    (room : leftBytes s.cur1 ≠ 0) (fails : tokenAtCursor s = .error e) : inflateToken s = failToken e s := by
  rw [inflateToken, if_neg (Nat.not_lt.mpr more), if_neg room, fails]

/-! ### The effect of a token, by the room for its bytes -/

/-- The token puts out `n` bytes, which leaves memory `m`, or finds no room for them (R294, R295, R296, R298). -/
def PutsOut (s : State) (tk : Token) (m : Memory) (n : Nat) : Prop :=
  ∀ len, (leftBytes s.cur1 < n → applyToken tk len s = (s, .outFull, 0, 0)) ∧
    (n ≤ leftBytes s.cur1 → applyToken tk len s = commitToken s m n len)

theorem putsOut_literalPair (s : State) (b0 b1 : Byte) :
    PutsOut s (.literalPair b0 b1) (memWriteBytes s.mem s.cur1.pos.toNat [b0, b1]) 2 :=
  fun len => ⟨fun short => if_pos short, fun room => applyToken_literalPair b0 b1 room len⟩

theorem putsOut_singleLiteral (s : State) (b0 : Byte) :
    PutsOut s (.singleLiteral b0) (memWriteBytes s.mem s.cur1.pos.toNat [b0]) 1 :=
  fun len => ⟨fun short => if_pos short, fun room => applyToken_singleLiteral b0 room len⟩

theorem putsOut_matchRef {s : State} {off v : Word} (short : v.toNat + 2 < 2 ^ 32)
    (inside : off.toNat < s.wLen.toNat) :
    PutsOut s (.matchRef off v)
      (memCopy s.mem (s.wEnd.toNat - s.wLen.toNat + off.toNat) s.cur1.pos.toNat (v.toNat + 2)) (v.toNat + 2) := by
  refine fun len => ⟨fun noRoom => ?_, fun room => applyToken_matchRef short inside room len⟩
  rw [applyToken, if_neg (by omega), if_neg (by omega), if_pos noRoom]

/-- A step on a token that stands, in both cases of the room; `Store` is what is said of the memory. -/
theorem inflateStep_of_putsOut {s : State} {tk : Token} {m : Memory} {n len : Nat} {Store : Memory → Prop}
    (ready : decReady s = true) (more : 9 ≤ leftBits s.cur0) (output : leftBytes s.cur1 ≠ 0)
    (reads : tokenAtCursor s = .ok (tk, len)) (effect : PutsOut s tk m n) (store : Store m) :
    (leftBytes s.cur1 < n → exec .inflateStep s = .next (answered s .outFull 0 0)) ∧
    (n ≤ leftBytes s.cur1 → ∃ t, exec .inflateStep s = .next t ∧ t.response = some ⟨.ok, word n, word len⟩ ∧
      Decoded s t n len ∧ Store t.mem) := by
  have turn := inflateToken_of_reads more output reads
  have there := (decodeToken_len _ _ _ _ _ _ _ more reads).2
  obtain ⟨full, fits⟩ := effect len
  rw [inflateStep_of_ready ready, turn]
  exact ⟨fun short => by rw [full short]; rfl, fun room => ⟨answerTurn (commitToken s m n len),
    by rw [fits room], rfl, decoded_commitToken m ready there room, store⟩⟩

theorem memRead_memWriteBytes_pair (m : Memory) (a x : Nat) (b0 b1 : Byte) :
    memRead (memWriteBytes m a [b0, b1]) x = if x = a then b0 else if x = a + 1 then b1 else memRead m x := by
  simp only [memWriteBytes, memRead_memWrite]
  by_cases second : x = a + 1
  · simp [second]
  · simp [second]

theorem memRead_memWriteBytes_single (m : Memory) (a x : Nat) (b0 : Byte) :
    memRead (memWriteBytes m a [b0]) x = if x = a then b0 else memRead m x := memRead_memWrite m a x b0

/-- The copy of a match, by the distance of its offset from the output position (R296). -/
theorem repeatsBytes_matchCopy {s : State} (ready : decReady s = true) (window : WindowOk s) {off : Nat} (n : Nat)
    (inside : off < s.wLen.toNat) :
    repeatsBytes s.mem (memCopy s.mem (s.wEnd.toNat - s.wLen.toNat + off) s.cur1.pos.toNat n) s.cur1.pos.toNat
      (s.wLen.toNat - off) n := by
  obtain ⟨decoding, -, atEnd, -⟩ := (decReady_iff s).mp ready
  obtain ⟨-, wLen, -⟩ := window (by simp [decoding])
  have source : s.wEnd.toNat - s.wLen.toNat + off = s.cur1.pos.toNat - (s.wLen.toNat - off) := by
    rw [atEnd]
    omega
  rw [source]
  exact repeatsBytes_memCopy _ _ _ _ (by omega) (by rw [atEnd]; omega)

theorem exec_inflateStep_drained {s : State} (ready : decReady s = true) (drained : leftBits s.cur0 < 9) :
    exec .inflateStep s = .next (answered { s with cstate := .decDone } .done 0 0) := by
  rw [inflateStep_of_ready ready, inflateToken, if_pos drained]
  rfl

theorem exec_inflateStep_noOutput {s : State} (ready : decReady s = true) (more : 9 ≤ leftBits s.cur0)
    (none : leftBytes s.cur1 = 0) : exec .inflateStep s = .next (answered s .outFull 0 0) := by
  rw [inflateStep_of_ready ready, inflateToken, if_neg (Nat.not_lt.mpr more), if_pos none]
  rfl

/-- Settles O46: each form of the statement is a token that is read at the cursor, with its effect. -/
theorem inflateStepDecodesTheTokenThatStands : Obligations.InflateStepDecodesTheTokenThatStands := by
  intro s ready _ strategy window
  have running : s.cstate ≠ .closed := by simp [((decReady_iff s).mp ready).1]
  obtain ⟨-, -, posBits, -⟩ := window running
  have width : s.posBits.toNat ≤ 32 := posBits.trans_le (clog2_le _ s.wLen.isLt)
  refine ⟨exec_inflateStep_drained ready, exec_inflateStep_noOutput ready, fun n len Store more output form => ?_⟩
  rcases form with ⟨b0, b1, rfl, rfl, stands, store⟩ | ⟨b0, rfl, rfl, last, stands, store⟩ |
    ⟨off, v, rfl, short, inside, fits, coded, rfl, stands, store⟩
  case inl =>
    have reads := tokenAtCursor_of_bitsStand (tk := .literalPair b0 b1) strategy running width (by simp) (by simp)
      stands
    exact inflateStep_of_putsOut ready more output reads (putsOut_literalPair s b0 b1)
      (store ▸ fun x => memRead_memWriteBytes_pair _ _ x b0 b1)
  case inr.inl =>
    have reads := tokenAtCursor_of_bitsStand (tk := .singleLiteral b0) strategy running width (fun _ _ => last)
      (by simp) stands
    exact inflateStep_of_putsOut ready more output reads (putsOut_singleLiteral s b0)
      (store ▸ fun x => memRead_memWriteBytes_single _ _ x b0)
  case inr.inr =>
    have offset : (word off).toNat = off := word_toNat_of_lt _ (inside.trans s.wLen.isLt)
    have value : (word v).toNat = v := word_toNat_of_lt _ (by omega)
    have reads := tokenAtCursor_of_bitsStand (tk := .matchRef (word off) (word v)) strategy running width (by simp)
      (by rintro _ _ ⟨⟩; rw [offset, value]; exact ⟨fits, coded⟩) (by rw [tokenBits, offset, value]; exact stands)
    have effect := putsOut_matchRef (s := s) (off := word off) (v := word v) (by rwa [value]) (by rwa [offset])
    rw [tokenLen, value] at reads
    rw [offset, value] at effect
    exact inflateStep_of_putsOut ready more output reads effect
      (store ▸ repeatsBytes_matchCopy ready window _ inside)

/-! ### A malformed token (R297) -/

theorem tokenAtCursor_of_match {s : State} (flag : bitsAt s.mem s.cur0 0 = true)
    (offset : s.posBits.toNat ≤ leftBits s.cur0 - 1) {v len : Nat}
    (code : vlcDecode s.vlcType s.vlcParam.toNat (bitsAt s.mem s.cur0) (1 + s.posBits.toNat)
      (leftBits s.cur0 - 1 - s.posBits.toNat) = .ok (v, len)) :
    tokenAtCursor s = .ok (.matchRef (word (readField (bitsAt s.mem s.cur0) 1 s.posBits.toNat)) (word v),
      1 + s.posBits.toNat + len) := by
  rw [tokenAtCursor, decodeToken, if_pos flag, if_neg (Nat.not_lt.mpr offset), code]
  rfl

theorem tokenAtCursor_of_offset_short {s : State} (flag : bitsAt s.mem s.cur0 0 = true)
    (short : leftBits s.cur0 - 1 < s.posBits.toNat) : tokenAtCursor s = .error .eCodecTrunc := by
  rw [tokenAtCursor, decodeToken, if_pos flag, if_pos short]

theorem tokenAtCursor_of_code_error {s : State} (flag : bitsAt s.mem s.cur0 0 = true)
    (offset : s.posBits.toNat ≤ leftBits s.cur0 - 1) {e : Status}
    (code : vlcDecode s.vlcType s.vlcParam.toNat (bitsAt s.mem s.cur0) (1 + s.posBits.toNat)
      (leftBits s.cur0 - 1 - s.posBits.toNat) = .error e) :
    tokenAtCursor s = .error e := by
  rw [tokenAtCursor, decodeToken, if_pos flag, if_neg (Nat.not_lt.mpr offset), code]

theorem applyToken_matchRef_overlong {s : State} {off v : Word} (long : 2 ^ 32 - 1 < v.toNat + 2) (len : Nat) :
    applyToken (.matchRef off v) len s = failToken .eCodecVlc s := if_pos long

theorem applyToken_matchRef_outside {s : State} {off v : Word} (short : v.toNat + 2 ≤ 2 ^ 32 - 1)
    (outside : s.wLen.toNat ≤ off.toNat) (len : Nat) :
    applyToken (.matchRef off v) len s = failToken .eCodecOffset s := by
  rw [applyToken, if_neg (by omega), if_pos outside]

theorem exec_inflateStep_of_failToken {s : State} {e : Status} (ready : decReady s = true)
    (turn : inflateToken s = failToken e s) :
    exec .inflateStep s = .next (answered { s with cstate := .failed } e 0 0) := by
  rw [inflateStep_of_ready ready, turn]
  rfl

/-- Settles O47: what is wrong with the match token is found in the order of R297. -/
theorem inflateStepRefusesMalformedTokens : Obligations.InflateStepRefusesMalformedTokens := by
  intro s e ready more output flag malformed
  refine exec_inflateStep_of_failToken ready ?_
  rcases malformed with ⟨short, rfl⟩ | ⟨offset, fails⟩ | ⟨offset, width, v, len, small, reads, wrong⟩
  case inl => exact inflateToken_of_malformed more output (tokenAtCursor_of_offset_short flag short)
  case inr.inl => exact inflateToken_of_malformed more output (tokenAtCursor_of_code_error flag offset fails)
  case inr.inr =>
    rw [inflateToken_of_reads more output (tokenAtCursor_of_match flag offset reads)]
    have value : (word v).toNat = v := word_toNat_of_lt _ small
    have field : (word (readField (bitsAt s.mem s.cur0) 1 s.posBits.toNat)).toNat =
        readField (bitsAt s.mem s.cur0) 1 s.posBits.toNat :=
      word_toNat_of_lt _ ((readField_lt _ _ _).trans_le (Nat.pow_le_pow_right (by decide) width))
    rcases wrong with ⟨long, rfl⟩ | ⟨short, outside, rfl⟩
    · exact applyToken_matchRef_overlong (by rwa [value]) _
    · exact applyToken_matchRef_outside (by rwa [value]) (by rwa [field]) _

end Sys2Proof.Machine

/-! ### A run of the decoder (R299) -/

namespace Sys2Proof.Machine

/-- A run: tokens that are put out, then a turn that answers another status than OK. The number counts the
bytes put out. -/
inductive DecodeRun : State → Nat → Status → State → Prop where
  | last {s t : State} {st : Status} (turn : inflateToken s = (t, st, 0, 0)) (stops : st ≠ .ok) : DecodeRun s 0 st t
  | token {s u t : State} {n len k : Nat} {st : Status} (turn : inflateToken s = (u, .ok, n, len))
      (rest : DecodeRun u k st t) : DecodeRun s (n + k) st t

/-- A turn stops the run with results 0, or puts out a token and spends at least one bit (R371). -/
theorem inflateToken_stops_or_spends (s : State) :
    (∃ t st, inflateToken s = (t, st, 0, 0) ∧ st ≠ .ok) ∨
    ∃ u n len, inflateToken s = (u, .ok, n, len) ∧ leftBits u.cur0 < leftBits s.cur0 := by
  rcases inflateToken_spec s with ⟨-, turn⟩ | ⟨-, turn⟩ | ⟨-, e, codec, turn⟩ |
    ⟨-, m, n, len, turn, -, -, least, there, -⟩
  · exact .inl ⟨_, _, turn, by decide⟩
  · exact .inl ⟨_, _, turn, by decide⟩
  · exact .inl ⟨_, _, turn, by rcases codec with rfl | rfl | rfl <;> decide⟩
  · refine .inr ⟨_, _, _, turn, ?_⟩
    exact (leftBits_advance _ _ there).trans_lt (by omega)

/-- The loop of `inflate_run` is a run, when its bound covers the bits left. -/
theorem decodeRun_inflateLoop (fuel : Nat) (s : State) (produced : Nat) (enough : leftBits s.cur0 ≤ fuel) :
    ∃ n st t, DecodeRun s n st t ∧ inflateLoop fuel s produced = (t, st, produced + n) := by
  induction fuel generalizing s produced with
  | zero =>
    rcases inflateToken_stops_or_spends s with ⟨t, st, turn, stops⟩ | ⟨u, n, len, turn, spent⟩
    · exact ⟨_, _, _, .last turn stops, by rw [inflateLoop, turn]⟩
    · omega
  | succ fuel ih =>
    rcases inflateToken_stops_or_spends s with ⟨t, st, turn, stops⟩ | ⟨u, n, len, turn, spent⟩
    · refine ⟨_, _, _, .last turn stops, ?_⟩
      rw [inflateLoop, turn]
      cases st with
      | ok => exact absurd rfl stops
      | _ => rfl
    · obtain ⟨k, st, t, rest, loop⟩ := ih u (produced + n) (by omega)
      exact ⟨_, st, t, .token turn rest, by rw [inflateLoop, turn, ← Nat.add_assoc]; exact loop⟩

theorem exec_inflateRun_of_ready {s : State} (ready : decReady s = true) :
    ∃ n st t, DecodeRun s n st t ∧ exec .inflateRun s = .next (if IsError st then answered t st 0 0
      else answered t st (word n) (word (t.cur0.pos.toNat - s.cur0.pos.toNat))) := by
  obtain ⟨n, st, t, run, loop⟩ := decodeRun_inflateLoop (leftBits s.cur0) s 0 (Nat.le_refl _)
  rw [Nat.zero_add] at loop
  refine ⟨n, st, t, run, ?_⟩
  simp only [exec, execInflateRun, ready, if_true, loop, respond_eq, raise_eq, isError_iff]
  split <;> rfl

/-- The result of a turn with another last response in its state. -/
def reanswer (st : Status) (r0 r1 : Word) (turn : State × Status × Nat × Nat) : State × Status × Nat × Nat :=
  (answered turn.1 st r0 r1, turn.2)

/-- No turn of the decoder looks at the last response. -/
theorem applyToken_answered (tk : Token) (len : Nat) (s : State) (st : Status) (r0 r1 : Word) :
    applyToken tk len (answered s st r0 r1) = reanswer st r0 r1 (applyToken tk len s) := by
  cases tk <;> simp only [applyToken, apply_ite (reanswer st r0 r1)] <;> rfl

theorem inflateToken_answered (s : State) (st : Status) (r0 r1 : Word) :
    inflateToken (answered s st r0 r1) = reanswer st r0 r1 (inflateToken s) := by
  have sameToken : tokenAtCursor (answered s st r0 r1) = tokenAtCursor s := rfl
  simp only [inflateToken, apply_ite (reanswer st r0 r1), sameToken]
  cases tokenAtCursor s with
  | error e => rfl
  | ok token => simp only [applyToken_answered]; rfl

theorem exec_inflateStep_answered {s : State} (ready : decReady s = true) (st : Status) (r0 r1 : Word) :
    exec .inflateStep (answered s st r0 r1) = exec .inflateStep s := by
  have ready' : decReady (answered s st r0 r1) = true := ready
  rw [inflateStep_of_ready ready, inflateStep_of_ready ready', inflateToken_answered]
  rfl

/-- A run is a chain of steps that answer OK and a last step, from any state that steps as its first does. -/
theorem DecodeRun.okSteps {s t : State} {n : Nat} {st : Status} (run : DecodeRun s n st t)
    (ready : decReady s = true) {s' : State} (same : exec .inflateStep s' = exec .inflateStep s) :
    ∃ u, OkSteps .inflateStep s' (word n) u ∧ exec .inflateStep u = .next (answered t st 0 0) := by
  induction run generalizing s' with
  | last turn _ => exact ⟨s', .none s', by rw [same, inflateStep_of_ready ready, turn]; rfl⟩
  | @token s u t n len k st turn _ ih =>
    have readyNext := decReady_inflateToken ready (by rw [turn])
    rw [turn] at readyNext
    obtain ⟨v, steps, last⟩ := ih readyNext (exec_inflateStep_answered readyNext .ok (word n) (word len))
    have first : exec .inflateStep s' = .next (answered u .ok (word n) (word len)) := by
      rw [same, inflateStep_of_ready ready, turn]
      rfl
    have sum := OkSteps.more first rfl steps
    exact ⟨v, by rwa [word, word, ← BitVec.ofNat_add] at sum, last⟩

theorem DecodeRun.stops {s t : State} {n : Nat} {st : Status} (run : DecodeRun s n st t) : st ≠ .ok := by
  induction run with
  | last _ stops => exact stops
  | token _ _ ih => exact ih

/-- Settles O48: the run of the loop, read as a chain of steps. -/
theorem inflateRunIsInflateStepRepeated : Obligations.InflateRunIsInflateStepRepeated := by
  intro s ready _
  obtain ⟨n, st, t, run, answer⟩ := exec_inflateRun_of_ready ready
  obtain ⟨u, steps, last⟩ := run.okSteps ready rfl
  refine ⟨u, _, _, st, steps, last, rfl, run.stops, answer.trans ?_⟩
  split <;> rfl

end Sys2Proof.Machine

/-! ## Every command has a response (60_exceptions.md R320) -/

namespace Sys2Proof.Machine

theorem CursorEffect.responds {i : Instr} {c : CurSel} {s t : State} (h : CursorEffect i c s t) :
    ∃ r, t.response = some r := by
  rcases h with ⟨st, r0, r1, rfl, -⟩ | ⟨m, k, r0, r1, rfl, -⟩
  · exact ⟨_, rfl⟩
  · exact ⟨_, rfl⟩

theorem CommandEffect.responds {i : Instr} {s t : State} (h : CommandEffect i s t) : ∃ r, t.response = some r := by
  cases h with
  | named _ effect => exact effect.responds
  | _ => exact ⟨_, rfl⟩

/-- A command word, legal or not, gets a response and takes none of the host's further acts. -/
theorem runCommand_responds {w : CommandWord} {s t : State} (h : runCommand w s = .next t) :
    (∃ r, t.response = some r) ∧ t.inputs = s.inputs := by
  simp only [runCommand] at h
  split at h
  · have effect := commandEffect_of_exec h
    exact ⟨effect.responds, effect.sameHost.1⟩
  · cases h
    exact ⟨⟨_, rfl⟩, rfl⟩

theorem answers_runInput (x : HostInput) (s : State) : Answers (runInput x s) := by
  cases x with
  | command w => exact answers_runCommand w s
  | write a b => exact ⟨_, rfl⟩
  | reset => exact ⟨_, rfl⟩
  | resetDuring w => exact ⟨_, rfl⟩

theorem answers_step (s : State) : Answers (step s) := by
  simp only [step, takeInput]
  split
  · exact ⟨_, rfl⟩
  · exact answers_runInput _ _

/-- Settles O9: every act of the host has a next state, and a command word a response. -/
theorem everyCommandIsAnswered : Obligations.EveryCommandIsAnswered := by
  refine ⟨answers_step, fun s w rest h => ?_⟩
  obtain ⟨t, runs⟩ := answers_runCommand w { s with inputs := rest }
  obtain ⟨⟨r, response⟩, inputs⟩ := runCommand_responds runs
  exact ⟨t, r, (step_command h).trans runs, response, inputs⟩

end Sys2Proof.Machine

/-! ## Right after reset (70_reset_and_hazards.md R352) -/

namespace Sys2Proof.Machine

/-! ### A field of no bits, in any state -/

section
variable {ext : Nat → Word} (c : CurSel) (s : State)

theorem getField_zero (zero : ext 0 = 0) : getField 0 ext c s = .next (answered s .ok 0 0) := by
  rw [getField_fits (Nat.zero_le _), advance_zero, setCur_getCur, readField, zero]

theorem peekField_zero (zero : ext 0 = 0) : peekField 0 ext c s = .next (answered s .ok 0 0) := by
  rw [peekField_fits (Nat.zero_le _), readField, zero]

theorem setField_zero (v : Nat) : setField 0 v c s = .next (answered s .ok 0 0) := by
  rw [setField_fits (Nat.zero_le _), advance_zero, fieldBits, writeBits, setCur_getCur]

end

/-! ### A detached cursor (10_state.md R23) -/

theorem cursorOk_detached : CursorOk Cursor.detached := by decide

theorem setCur_of_eq {s : State} {c : CurSel} {k : Cursor} (same : getCur s c = k) : setCur s c k = s := by
  rw [← same, setCur_getCur]

section
variable {c : CurSel} {s : State} (detached : getCur s c = .detached)
include detached

theorem aligned_of_detached : (getCur s c).bitoff = 0 := by rw [detached]; rfl

theorem leftBytes_of_detached : leftBytes (getCur s c) = 0 := by rw [detached]; rfl

theorem leftBits_of_detached : leftBits (getCur s c) = 0 := by rw [detached]; rfl

theorem clippedCount_of_detached (b : Word) : clippedCount (getCur s c) b = 0 := by
  rw [clippedCount, leftBytes_of_detached detached, Nat.min_zero]

/-- The cursor put back as it is detached leaves the state as it was. -/
theorem answer_setCur_detached : (Host.Outcome.next (answered (setCur s c .detached) .ok 0 0) :
    Host.Outcome State Fault Refusal) = .next (answered s .ok 0 0) := by rw [setCur_of_eq detached]

theorem exec_tell_detached : exec (.tell c) s = .next (answered s .ok 0 0) := by
  have reports := exec_tell (c := c) (s := s) (by rw [detached]; exact cursorOk_detached)
  rw [detached] at reports
  rw [reports]
  exact answer_setCur_detached detached

theorem exec_leftBytes_detached : exec (.leftBytes c) s = .next (answered s .ok 0 0) := by
  have reports := exec_leftBytes (c := c) (s := s) (by rw [detached]; exact cursorOk_detached)
  rw [detached] at reports
  rw [reports]
  exact answer_setCur_detached detached

theorem exec_leftBits_detached : exec (.leftBits c) s = .next (answered s .ok 0 0) := by
  simp only [exec, execLeftBits, leftBits_of_detached detached, respond_eq]
  rfl

theorem exec_sync_detached : exec (.sync c) s = .next (answered s .ok 0 0) := by
  simp only [exec, execSync, detached, respond_eq]
  exact answer_setCur_detached detached

theorem exec_skipBytes_detached : exec (.skipBytes c 0) s = .next (answered s .ok 0 0) := by
  rw [exec_skipBytes_fits (aligned_of_detached detached) (Nat.zero_le _), detached]
  exact answer_setCur_detached detached

theorem exec_skipBits_detached : exec (.skipBits c 0) s = .next (answered s .ok 0 0) := by
  rw [exec_skipBits_fits (Nat.zero_le _), detached]
  exact answer_setCur_detached detached

theorem exec_goto_detached : exec (.goto c 0) s = .next (answered s .ok 0 0) := by
  rw [exec_goto_within (Nat.zero_le _), detached]
  exact answer_setCur_detached detached

/-- A block copy at a detached cursor has no byte to copy. -/
theorem blockCopy_detached (src dst : Nat) (a b : Word) :
    blockCopy src dst c a b s = .next (answered s .ok 0 0) := by
  have none := clippedCount_of_detached detached b
  rw [blockCopy_within (aligned_of_detached detached) (by rw [none]; rfl), none, blockCopied, memCopy, detached]
  exact answer_setCur_detached detached

theorem exec_getString_detached : exec (.getString c) s = .next (answered s .notFound 0 0) :=
  exec_getString_absent (aligned_of_detached detached) (by rw [leftBytes_of_detached detached]; rfl)

section
variable {n : Nat} (nonzero : 1 ≤ n)
include nonzero

theorem leftBits_lt_of_detached : leftBits (getCur s c) < n := by rw [leftBits_of_detached detached]; exact nonzero

theorem leftBytes_lt_of_detached : leftBytes (getCur s c) < n := by rw [leftBytes_of_detached detached]; exact nonzero

theorem regionSize_lt_of_detached : regionSize (getCur s c) < n := by rw [detached]; exact nonzero

end

end

/-! ### The codec -/

theorem exec_codecState_after_reset {s : State} (cstate : s.cstate = .closed) (type : s.vlcType = .fixed)
    (param : s.vlcParam = 0) (wLen : s.wLen = 0) (posBits : s.posBits = 0) :
    exec .codecState s = .next (answered s .ok 0 0) := by
  obtain ⟨r0, reports, value⟩ := exec_codecState s
  have zero : r0 = 0 := BitVec.eq_of_toNat_eq (by rw [value, cstate, type, param, posBits]; rfl)
  rw [reports, zero, wLen]

/-- The commands of an open codec refuse in `CLOSED`. -/
theorem exec_of_closed {s : State} (closed : s.cstate = .closed) (c : CurSel) (a : Word) :
    ∀ i ∈ [Instr.vlcPut c a, .vlcGet c, .codecClose, .deflateStep, .deflateRun, .inflateStep, .inflateRun, .winFind],
      exec i s = .next (answered s .eSequence 0 0) := by
  have encoder := @exec_encode_of_not_ready s (by simp [encReady, closed])
  have decoder := @exec_decode_of_not_ready s (by simp [decReady, closed])
  exact List.forall_iff_forall_mem.mp ⟨exec_vlcPut_closed closed, exec_vlcGet_closed closed,
    (codecCloseAndCodecState s).1 closed, encoder (by simp), encoder (by simp), decoder (by simp), decoder (by simp),
    encoder (by simp)⟩

/-- An encoder opened on two detached cursors is at the end of its source at once. -/
theorem codecOpen_then_deflateStep_detached {s : State} (cur0 : s.cur0 = .detached) (cur1 : s.cur1 = .detached)
    {ty : VlcType} {a : Word} (legal : vlcParamOk ty a = true) :
    ∃ t u, exec (.codecOpen .enc ty a) s = .next t ∧ t.response = some ⟨.ok, 0, 0⟩ ∧
      exec .deflateStep t = .next u ∧ u.response = some ⟨.done, 0, 0⟩ := by
  have apart : regionsDisjoint s.cur0 s.cur1 = true := by rw [cur0, cur1]; rfl
  have aligned : s.cur0.bitoff = 0 := by rw [cur0]; rfl
  have source : CursorOk s.cur0 := by rw [cur0]; exact cursorOk_detached
  have atEnd : s.cur0.pos = s.cur0.fin := by rw [cur0]; rfl
  have ready : encReady (answered (openedState .enc ty a s) .ok 0 0) = true :=
    encReady_openedState ty a aligned source apart
  exact ⟨_, _, exec_codecOpen_aligned legal aligned, rfl, exec_deflateStep_atEnd ready atEnd, rfl⟩

/-- A decoder opened on two detached cursors has no token to read. -/
theorem codecOpen_then_inflateStep_detached {s : State} (cur0 : s.cur0 = .detached) (cur1 : s.cur1 = .detached)
    {ty : VlcType} {a : Word} (legal : vlcParamOk ty a = true) :
    ∃ t u, exec (.codecOpen .dec ty a) s = .next t ∧ t.response = some ⟨.ok, 0, 0⟩ ∧
      exec .inflateStep t = .next u ∧ u.response = some ⟨.done, 0, 0⟩ := by
  have apart : regionsDisjoint s.cur0 s.cur1 = true := by rw [cur0, cur1]; rfl
  have aligned : s.cur1.bitoff = 0 := by rw [cur1]; rfl
  have output : CursorOk s.cur1 := by rw [cur1]; exact cursorOk_detached
  have drained : leftBits s.cur0 < 9 := by rw [cur0]; decide
  have ready : decReady (answered (openedState .dec ty a s) .ok 0 0) = true :=
    decReady_openedState ty a aligned output apart
  exact ⟨_, _, exec_codecOpen_aligned legal aligned, rfl, exec_inflateStep_drained ready drained, rfl⟩

/-- Settles O7: both cursors are detached and the codec is closed. -/
theorem answersRightAfterReset : Obligations.AnswersRightAfterReset := by
  intro s c a b n cur0 cur1 closed type param wLen posBits
  have detached : getCur s c = .detached := by
    cases c with
    | c0 => exact cur0
    | c1 => exact cur1
  have aligned := aligned_of_detached detached
  have noBits {n : Nat} := @leftBits_lt_of_detached c s detached n
  have noBytes {n : Nat} := @leftBytes_lt_of_detached c s detached n
  refine ⟨?unchanged, exec_getString_detached detached, ?bounds, fun nonzero legal => ?fields, fun nonzero => ?moves,
    exec_of_closed closed c a, fun mode ty legal => ?opening⟩
  case unchanged =>
    exact List.forall_iff_forall_mem.mp ⟨exec_tell_detached detached, exec_leftBytes_detached detached,
      exec_leftBits_detached detached, exec_sync_detached detached, exec_skipBytes_detached detached,
      exec_skipBits_detached detached, exec_goto_detached detached, getField_zero c s rfl, setField_zero c s _,
      peekField_zero c s rfl, getField_zero c s rfl, setField_zero c s _, peekField_zero c s rfl,
      blockCopy_detached detached _ _ a b, blockCopy_detached detached _ _ a b,
      exec_codecState_after_reset closed type param wLen posBits⟩
  case bounds =>
    have get {w order ext} : getBytes (w + 1) order ext c s = .next (answered s .eBounds 0 0) :=
      getBytes_short aligned (noBytes (Nat.succ_pos w))
    have set {w order v} : setBytes (w + 1) order v c s = .next (answered s .eBounds 0 0) :=
      setBytes_short aligned (noBytes (Nat.succ_pos w))
    have noBit := noBits Nat.one_pos
    refine List.forall_iff_forall_mem.mp ⟨getField_short noBit, setField_short noBit, ?_⟩
    and_intros
    iterate 14 exact get
    all_goals exact set
  case fields =>
    have short := noBits nonzero
    exact List.forall_iff_forall_mem.mp ⟨(exec_getUbits legal).trans (getField_short short),
      (exec_getSbits legal).trans (getField_short short), (exec_setUbits legal).trans (setField_short short),
      (exec_setSbits legal).trans (setField_short short), (exec_peekUbits legal).trans (peekField_short short),
      (exec_peekSbits legal).trans (peekField_short short)⟩
  case opening =>
    cases mode with
    | enc => exact codecOpen_then_deflateStep_detached cur0 cur1 legal
    | dec => exact codecOpen_then_inflateStep_detached cur0 cur1 legal
  case moves =>
    have least : 1 ≤ a.toNat := Nat.pos_of_ne_zero fun zero => nonzero (BitVec.eq_of_toNat_eq zero)
    exact List.forall_iff_forall_mem.mp ⟨exec_goto_outside (regionSize_lt_of_detached detached least),
      exec_skipBytes_short aligned (noBytes least), exec_skipBits_short (noBits least)⟩

end Sys2Proof.Machine

/-! ## Decode gives back what encode read (47_lzsw_decode.md R301; 30_encoding.md R108)

The encoder and the decoder are run side by side: `Mirrors` relates their states before a token, and the
decoder's step on the token that the encoder wrote keeps it, as long as 9 bits are left. -/

namespace Sys2Proof.Machine

/-! ### Chains of steps that answer OK -/

section
variable {i : Instr} {s t u e : State} {a b : Word}

theorem OkSteps.trans (first : OkSteps i s a t) (rest : OkSteps i t b u) : OkSteps i s (a + b) u := by
  induction first with
  | none => simpa using rest
  | more he hr _ ih => rw [BitVec.add_assoc]; exact .more he hr (ih rest)

theorem OkSteps.single {r0 r1 : Word} (h : exec i s = .next t) (ok : t.response = some ⟨.ok, r0, r1⟩) :
    OkSteps i s r0 t := by simpa using OkSteps.more h ok (.none t)

/-- No step from this state answers OK. -/
def Stuck (i : Instr) (s : State) : Prop := ∀ t r0 r1, exec i s = .next t → t.response ≠ some ⟨.ok, r0, r1⟩

theorem stuck_of_response {st : Status} {r0 r1 : Word} (h : exec i s = .next t)
    (response : t.response = some ⟨st, r0, r1⟩) (stops : st ≠ .ok) : Stuck i s := by
  intro t' q0 q1 h' ok
  cases h.symm.trans h'
  cases response.symm.trans ok
  exact stops rfl

theorem OkSteps.of_stuck (steps : OkSteps i s a e) (stuck : Stuck i s) : e = s ∧ a = 0 := by
  cases steps with
  | none => exact ⟨rfl, rfl⟩
  | more he hr _ => exact absurd hr (stuck _ _ _ he)

/-- Steps are deterministic: a chain that ends where no step answers OK runs through every other chain. -/
theorem OkSteps.rest_of_stuck (steps : OkSteps i s a u) (whole : OkSteps i s b e) (stuck : Stuck i e) :
    ∃ c, OkSteps i u c e ∧ b = a + c := by
  induction steps generalizing b with
  | none => exact ⟨b, whole, (BitVec.zero_add b).symm⟩
  | more he hr _ ih =>
    cases whole with
    | none => exact absurd hr (stuck _ _ _ he)
    | more he' hr' rest' =>
      cases he.symm.trans he'
      cases hr.symm.trans hr'
      obtain ⟨c, rest, sum⟩ := ih rest'
      exact ⟨c, rest, by rw [sum, BitVec.add_assoc]⟩

theorem OkSteps.last_step (steps : OkSteps i s a e) :
    e = s ∨ ∃ u b r0 r1, OkSteps i s b u ∧ exec i u = .next e ∧ e.response = some ⟨.ok, r0, r1⟩ := by
  induction steps with
  | none => exact .inl rfl
  | more he hr _ ih =>
    rcases ih with rfl | ⟨u, b, r0, r1, before, last, ok⟩
    · exact .inr ⟨_, _, _, _, .none _, he, hr⟩
    · exact .inr ⟨u, _, r0, r1, .more he hr before, last, ok⟩

end

/-- A run of the decoder from its chain of steps. -/
theorem exec_inflateRun_of_okSteps {d d' v : State} {total : Word} {st : Status} (ready : decReady d = true)
    (cursors : CursorsOk d) (steps : OkSteps .inflateStep d total d') (last : exec .inflateStep d' = .next v)
    (response : v.response = some ⟨st, 0, 0⟩) (stops : st ≠ .ok) (fine : ¬ IsError st) :
    ∃ r, exec .inflateRun d = .next (answered v st total r) := by
  obtain ⟨u, v', total', st', steps', last', response', stops', run⟩ :=
    inflateRunIsInflateStepRepeated d ready cursors
  obtain ⟨c, rest, rfl⟩ := steps.rest_of_stuck steps' (stuck_of_response last' response' stops')
  obtain ⟨rfl, rfl⟩ := rest.of_stuck (stuck_of_response last response stops)
  cases last.symm.trans last'
  cases response.symm.trans response'
  rw [if_neg fine, add_zero] at run
  exact ⟨_, run⟩

/-! ### A step of the encoder that answers OK or DONE -/

/-- The encoder writes its chosen token and answers with the source bytes it stands for. -/
structure WritesToken (u w : State) (r0 : Word) : Prop where
  ready : encReady u = true
  more : u.cur0.pos ≠ u.cur0.fin
  room : (chosenBits u).length ≤ leftBits u.cur1
  count : r0 = word (chooseToken u).2
  result : w = answered (afterToken u) .ok (word (chooseToken u).2) (word (chosenBits u).length)

/-- What a `deflate_step` can answer. -/
theorem deflateStep_cases {u w : State} (h : exec .deflateStep u = .next w) :
    w = answered u .eSequence 0 0 ∨ w = answered u .outFull 0 0 ∨
    (u.cur0.pos = u.cur0.fin ∧ w = answered { u with cur1 := syncCursor u.cur1, cstate := .encDone } .done 0 0) ∨
    WritesToken u w (word (chooseToken u).2) := by
  cases ready : encReady u with
  | false =>
    rw [exec_encode_of_not_ready ready (by simp)] at h
    cases h
    exact .inl rfl
  | true =>
    rcases deflateToken_spec u with ⟨atEnd, -⟩ | ⟨more, noRoom, -⟩ | ⟨more, room, -⟩
    · rw [exec_deflateStep_atEnd ready atEnd] at h
      cases h
      exact .inr (.inr (.inl ⟨atEnd, rfl⟩))
    · rw [exec_deflateStep_full ready more noRoom] at h
      cases h
      exact .inr (.inl rfl)
    · rw [exec_deflateStep_token ready more room] at h
      cases h
      exact .inr (.inr (.inr ⟨ready, more, room, rfl, rfl⟩))

theorem writesToken_of_ok {u w : State} {r0 r1 : Word} (h : exec .deflateStep u = .next w)
    (ok : w.response = some ⟨.ok, r0, r1⟩) : WritesToken u w r0 := by
  rcases deflateStep_cases h with rfl | rfl | ⟨-, rfl⟩ | token
  · cases ok
  · cases ok
  · cases ok
  · rw [token.result] at ok
    cases ok
    exact token

theorem atEnd_of_done {u w : State} {r0 r1 : Word} (h : exec .deflateStep u = .next w)
    (done : w.response = some ⟨.done, r0, r1⟩) :
    u.cur0.pos = u.cur0.fin ∧ w.mem = u.mem ∧ w.cur1 = syncCursor u.cur1 := by
  rcases deflateStep_cases h with rfl | rfl | ⟨atEnd, rfl⟩ | token
  · cases done
  · cases done
  · exact ⟨atEnd, rfl, rfl⟩
  · rw [token.result] at done
    cases done

theorem stuck_of_atEnd {u : State} (atEnd : u.cur0.pos = u.cur0.fin) : Stuck .deflateStep u :=
  fun _ _ _ h ok => (writesToken_of_ok h ok).more atEnd

/-- What a run of the encoder that is DONE has done: tokens up to the end of the source, then the rounding. -/
theorem exists_lastState_of_deflateRun_done {s t : State} {r0 r1 : Word} (ready : encReady s = true)
    (cursors : CursorsOk s) (h : exec .deflateRun s = .next t) (done : t.response = some ⟨.done, r0, r1⟩) :
    ∃ e total, OkSteps .deflateStep s total e ∧ e.cur0.pos = e.cur0.fin ∧ t.mem = e.mem ∧
      t.cur1 = syncCursor e.cur1 := by
  obtain ⟨e, v, total, st, steps, last, response, -, run⟩ := deflateRunIsDeflateStepRepeated s ready cursors
  cases h.symm.trans run
  cases done
  obtain ⟨atEnd, mem, cur1⟩ := atEnd_of_done last response
  exact ⟨e, _, steps, atEnd, mem, cur1⟩

/-! ### What the encoder keeps and what it leaves behind -/

/-- The encoder is ready and meets its invariants. -/
def EncoderRuns (s : State) : Prop := encReady s = true ∧ EncoderOk s ∧ StrategyOk s

/-- `e` is a later state of the encoder than `u`: its stream begins with that of `u`, the source is as it was. -/
structure Extends (u e : State) : Prop where
  output : bitAddr u.cur1 ≤ bitAddr e.cur1
  written : ∀ x < bitAddr u.cur1, readBit e.mem x = readBit u.mem x
  source : ∀ x, u.cur0.origin.toNat ≤ x → x < u.cur0.fin.toNat → memRead e.mem x = memRead u.mem x
  region : e.cur0.origin = u.cur0.origin ∧ e.cur0.fin = u.cur0.fin
  window : e.wOrg = u.wOrg
  strategy : e.vlcType = u.vlcType ∧ e.vlcParam = u.vlcParam
  forward : u.cur0.pos.toNat ≤ e.cur0.pos.toNat

theorem extends_refl (u : State) : Extends u u :=
  ⟨Nat.le_refl _, fun _ _ => rfl, fun _ _ _ => rfl, ⟨rfl, rfl⟩, rfl, ⟨rfl, rfl⟩, Nat.le_refl _⟩

theorem Extends.trans {u w e : State} (first : Extends u w) (rest : Extends w e) : Extends u e := by
  obtain ⟨origin, fin⟩ := first.region
  refine ⟨first.output.trans rest.output, fun x low => ?_, fun x low high => ?_,
    ⟨rest.region.1.trans origin, rest.region.2.trans fin⟩, rest.window.trans first.window,
    ⟨rest.strategy.1.trans first.strategy.1, rest.strategy.2.trans first.strategy.2⟩,
    first.forward.trans rest.forward⟩
  · rw [rest.written x (low.trans_le first.output), first.written x low]
  · rw [rest.source x (by rwa [origin]) (by rwa [fin]), first.source x low high]

/-- No invariant of the encoder looks at the last response. -/
theorem EncoderRuns.answered {s : State} (runs : EncoderRuns s) (st : Status) (r0 r1 : Word) :
    EncoderRuns (answered s st r0 r1) := runs

section
variable {u w : State} {r0 : Word} (token : WritesToken u w r0)
include token

theorem WritesToken.encoded (runs : EncoderRuns u) : Encoded u w (chosenBits u) (chooseToken u).2 := by
  obtain ⟨ready, ⟨⟨source, -⟩, -⟩, -⟩ := runs
  rw [token.result]
  exact (encoded_afterToken ready source token.more token.room :)

theorem WritesToken.encoderRuns (runs : EncoderRuns u) : EncoderRuns w := by
  obtain ⟨ready, ok, strategy⟩ := runs
  have turn := EncodeStep.token ready token.more token.room
  have running : u.cstate ≠ .closed := by simp [((encReady_iff u).mp ready).1]
  have next : EncoderRuns (afterToken u) := ⟨encReady_afterToken ready, turn.encoderOk ok,
    strategyOk_of_sameOpening turn.sameOpening running strategy⟩
  rw [token.result]
  exact next.answered _ _ _

theorem WritesToken.pos_toNat (runs : EncoderRuns u) :
    w.cur0.pos.toNat = u.cur0.pos.toNat + (chooseToken u).2 := by
  obtain ⟨-, ⟨⟨source, -⟩, -⟩, -⟩ := runs
  rw [token.result]
  exact advanceBytes_pos _ _ (chooseToken_bounds u source token.more).2

theorem WritesToken.pos_eq : w.cur0.pos = u.cur0.pos + r0 := by
  rw [token.result, token.count]
  exact (BitVec.ofNat_add _ _).trans (congrArg (· + _) (word_of_toNat _))

theorem WritesToken.leftBytes_eq (runs : EncoderRuns u) :
    leftBytes w.cur0 = leftBytes u.cur0 - (chooseToken u).2 := by
  obtain ⟨-, ⟨⟨source, -⟩, -⟩, -⟩ := runs
  rw [token.result]
  exact leftBytes_afterToken source token.more

/-- The token that stands for all the source bytes left is the last one. -/
theorem WritesToken.atEnd (runs : EncoderRuns u) (all : leftBytes u.cur0 ≤ (chooseToken u).2) :
    w.cur0.pos = w.cur0.fin := by
  obtain ⟨-, ⟨⟨source, -⟩, -⟩, -⟩ := token.encoderRuns runs
  exact atEnd_of_leftBytes_eq_zero source (by rw [token.leftBytes_eq runs]; omega)

theorem WritesToken.grows (runs : EncoderRuns u) : Extends u w := by
  have ⟨ready, ⟨⟨_, output⟩, _⟩, _⟩ := runs
  obtain ⟨stores, moved, -⟩ := token.encoded runs
  have forward := token.pos_toNat runs
  refine ⟨by rw [moved.1]; exact Nat.le_add_right _ _, fun x low => ?_, fun x low high => ?_, ?_, ?_, ?_, by omega⟩
  · rw [stores x, if_neg (by omega)]
  · rw [token.result]
    exact (memRead_writeBits_source ready output token.room low high :)
  · rw [token.result]
    exact ⟨rfl, rfl⟩
  · rw [token.result]
    rfl
  · rw [token.result]
    exact ⟨rfl, rfl⟩

end

/-- A chain of the encoder's steps: the invariants, what it leaves behind, and its sum of source bytes. -/
theorem OkSteps.encoder {u e : State} {total : Word} (steps : OkSteps .deflateStep u total e) (runs : EncoderRuns u) :
    EncoderRuns e ∧ Extends u e ∧ e.cur0.pos = u.cur0.pos + total := by
  induction steps with
  | none => exact ⟨runs, extends_refl _, (BitVec.add_zero _).symm⟩
  | more he hr _ ih =>
    have token := writesToken_of_ok he hr
    obtain ⟨runs', after, sum⟩ := ih (token.encoderRuns runs)
    exact ⟨runs', (token.grows runs).trans after, by rw [sum, token.pos_eq, BitVec.add_assoc]⟩

end Sys2Proof.Machine

/-! ## The decoder behind the encoder (47_lzsw_decode.md R301) -/

namespace Sys2Proof.Machine

/-! ### What the source holds where a match is found (45_window_index.md R258) -/

theorem memRead_eq_of_lt_agreement {m : Memory} {p sp room j : Nat} (inside : j < agreement m p sp room) :
    memRead m (p + j) = memRead m (sp + j) := by
  induction room generalizing p sp j with
  | zero => exact absurd inside (Nat.not_lt_zero j)
  | succ room ih =>
    rw [agreement] at inside
    split at inside
    · rename_i same
      cases j with
      | zero => exact same
      | succ j =>
        have next := ih (Nat.lt_of_succ_lt_succ inside)
        rwa [Nat.add_assoc, Nat.add_assoc, Nat.add_comm 1] at next
    · exact absurd inside (Nat.not_lt_zero j)

/-- Bytes that agree with the bytes `d` before them repeat those `d` bytes. -/
theorem eq_mod_of_agrees {f : Nat → Byte} {p d n : Nat} (agrees : ∀ j < n, f (p + j) = f (p + d + j)) :
    ∀ j < n, f (p + d + j) = f (p + j % d) := by
  intro j
  induction j using Nat.strong_induction_on with
  | _ j ih =>
    intro inside
    rw [← agrees j inside]
    by_cases early : j < d
    · rw [Nat.mod_eq_of_lt early]
    · by_cases zero : d = 0
      · rw [zero, Nat.mod_zero]
      · have back := ih (j - d) (by omega) (by omega)
        rwa [Nat.add_assoc, Nat.add_sub_cancel' (by omega), ← Nat.mod_eq_sub_mod (by omega)] at back

theorem le_two_pow_clog2 (n : Nat) : n ≤ 2 ^ clog2 n := by
  rw [clog2]
  split
  · assumption
  · have := @Nat.lt_log2_self (n - 1)
    omega

/-- A match that the encoder uses stands at a position of its window. -/
theorem exists_position_of_match {u : State} (runs : EncoderRuns u) (found : 2 < (findAtCursor u).2) :
    ∃ p, windowStart u ≤ p ∧ p < u.wEnd.toNat ∧ (findAtCursor u).1 = p - windowStart u ∧
      ∀ j < (findAtCursor u).2, memRead u.mem (p + j) = memRead u.mem (u.cur0.pos.toNat + j) := by
  obtain ⟨ready, ⟨-, params, window, -, index⟩, -⟩ := runs
  have enough : 3 ≤ leftBytes u.cur0 := by
    by_contra short
    rw [findAtCursor_of_short (by omega)] at found
    exact absurd found (by decide)
  rcases isBestMatch_findAtCursor ready params window index enough with ⟨-, none⟩ | ⟨p, ⟨low, high, -⟩, best, -⟩
  · rw [none] at found
    exact absurd found (by decide)
  · exact ⟨p, low, high, by rw [best], fun j inside => memRead_eq_of_lt_agreement (by rwa [best] at inside)⟩

/-- The clamped length of a match (R279): at least 3, and its code exists. -/
theorem matchLength_spec {u : State} (runs : EncoderRuns u) (found : 2 < (findAtCursor u).2) {n : Nat}
    (clamped : n = min (findAtCursor u).2 (vlcMax u.vlcType u.vlcParam.toNat + 2)) :
    3 ≤ n ∧ n < 2 ^ 32 ∧ n ≤ (findAtCursor u).2 ∧ representable u (n - 2) = true := by
  obtain ⟨ready, -, strategy⟩ := runs
  have most := one_le_vlcMax strategy (by simp [((encReady_iff u).mp ready).1])
  have least : vlcMin u.vlcType ≤ 1 := by cases u.vlcType <;> decide
  have small := findAtCursor_length_lt u
  exact ⟨by omega, by omega, by omega, (representable_iff u _).mpr ⟨by omega, by omega⟩⟩

/-! ### The two states before a token -/

/-- The decoder in state `d` stands before the token that the encoder in state `u` is about to write, in the
finished stream that the last state `e` of the encoder leaves: it has put out, from `dst` on, the source bytes
from `src` on that the encoder has consumed. -/
structure Mirrors (e : State) (src dst : Nat) (u d : State) : Prop where
  encoder : EncoderRuns u
  ready : decReady d = true
  decoder : InstanceOk d
  maxWindow : d.maxWindow = u.maxWindow
  strategy : d.vlcType = u.vlcType ∧ d.vlcParam = u.vlcParam
  origins : u.wOrg.toNat = src ∧ d.wOrg.toNat = dst
  position : bitAddr d.cur0 = bitAddr u.cur1
  finish : d.cur0.fin = (syncCursor e.cur1).pos
  stream : ∀ x, bitAddr u.cur1 ≤ x → x < 8 * d.cur0.fin.toNat → readBit d.mem x = readBit e.mem x
  produced : d.wEnd.toNat - dst = u.wEnd.toNat - src
  copied : ∀ j < u.wEnd.toNat - src, memRead d.mem (dst + j) = memRead e.mem (src + j)
  room : leftBytes u.cur0 ≤ leftBytes d.cur1

section
variable {e u d : State} {src dst : Nat} (m : Mirrors e src dst u d)
include m

/-- Both windows have the same length, so an offset has the same width on both sides (R278, R300). -/
theorem Mirrors.window_eq : d.wLen.toNat = u.wLen.toNat ∧ d.posBits.toNat = u.posBits.toNat := by
  obtain ⟨encReady, ⟨-, -, encWindow, -⟩, -⟩ := m.encoder
  obtain ⟨-, -, decWindow⟩ := m.decoder
  obtain ⟨-, encLen, encBits, -⟩ := encWindow (by simp [((encReady_iff u).mp encReady).1])
  obtain ⟨-, decLen, decBits, -⟩ := decWindow (by simp [((decReady_iff d).mp m.ready).1])
  obtain ⟨srcOrigin, dstOrigin⟩ := m.origins
  have wLen : d.wLen.toNat = u.wLen.toNat := by rw [decLen, encLen, srcOrigin, dstOrigin, m.produced, m.maxWindow]
  exact ⟨wLen, by rw [decBits, encBits, wLen]⟩

theorem Mirrors.leftBits_eq : bitAddr u.cur1 + leftBits d.cur0 = 8 * d.cur0.fin.toNat := by
  obtain ⟨⟨input, -⟩, -⟩ := m.decoder
  rw [← m.position, bitAddr_add_leftBits input]

end

/-- The finished stream ends where the last state's output cursor is rounded up to (R274). -/
theorem Mirrors.finish_eq {e u d : State} {src dst : Nat} (m : Mirrors e src dst u d) (last : CursorOk e.cur1) :
    d.cur0.fin.toNat = (bitAddr e.cur1 + 7) / 8 := by
  rw [m.finish]
  exact (syncCursor_spec _ last).2.1

section
variable {e u w d : State} {src dst : Nat} {r0 c : Word} (m : Mirrors e src dst u d) (token : WritesToken u w r0)
  (rest : OkSteps .deflateStep w c e)
include m token rest

/-- The token that the encoder wrote stands at the decoder's input cursor. -/
theorem Mirrors.bitsStand_chosenBits : bitsStand d.mem d.cur0 (chosenBits u) := by
  obtain ⟨stores, moved, -⟩ := token.encoded m.encoder
  obtain ⟨⟨-, ⟨⟨-, last⟩, -⟩, -⟩, after, -⟩ := rest.encoder (token.encoderRuns m.encoder)
  have fin := m.finish_eq last
  have left := m.leftBits_eq
  have output := after.output
  rw [moved.1] at output
  refine ⟨by omega, fun i inside => ?_⟩
  rw [bitsAt, m.position, m.stream _ (by omega) (by omega), after.written _ (by rw [moved.1]; omega), stores _,
    if_pos (by omega), Nat.add_sub_cancel_left]

/-- A token at the end of the source is the last one, with less than a byte of padding behind it (R274). -/
theorem Mirrors.leftBits_lt_of_last (atEnd : w.cur0.pos = w.cur0.fin) :
    leftBits d.cur0 < (chosenBits u).length + 8 := by
  obtain ⟨-, moved, -⟩ := token.encoded m.encoder
  obtain ⟨⟨-, ⟨⟨-, last⟩, -⟩, -⟩, -⟩ := rest.encoder (token.encoderRuns m.encoder)
  obtain ⟨rfl, -⟩ := rest.of_stuck (stuck_of_atEnd atEnd)
  have fin := m.finish_eq last
  have left := m.leftBits_eq
  have output := moved.1
  omega

end

end Sys2Proof.Machine

namespace Sys2Proof.Machine

/-! ### The decoder's step on the encoder's token -/

/-- Memory `new` is `old` but for `n` bytes at `a`, which are `f 0`, `f 1` and so on. -/
def PutsBytes (old new : Memory) (a n : Nat) (f : Nat → Byte) : Prop :=
  (∀ j < n, memRead new (a + j) = f j) ∧ ∀ x, x < a ∨ a + n ≤ x → memRead new x = memRead old x

section
variable {old new : Memory} {a : Nat} {f : Nat → Byte}

theorem putsBytes_pair
    (store : ∀ x, memRead new x = if x = a then f 0 else if x = a + 1 then f 1 else memRead old x) :
    PutsBytes old new a 2 f := by
  refine ⟨fun j inside => ?_, fun x outside => by rw [store, if_neg (by omega), if_neg (by omega)]⟩
  obtain rfl | rfl : j = 0 ∨ j = 1 := by omega
  · rw [store, if_pos (Nat.add_zero a)]
  · rw [store, if_neg (by omega), if_pos rfl]

theorem putsBytes_single (store : ∀ x, memRead new x = if x = a then f 0 else memRead old x) :
    PutsBytes old new a 1 f := by
  refine ⟨fun j inside => ?_, fun x outside => by rw [store, if_neg (by omega)]⟩
  obtain rfl : j = 0 := by omega
  rw [store, if_pos (Nat.add_zero a)]

theorem putsBytes_repeat {d n : Nat} (store : repeatsBytes old new a d n)
    (source : ∀ j < n, memRead old (a - d + j % d) = f j) : PutsBytes old new a n f :=
  ⟨fun j inside => (store.1 j inside).trans (source j inside), store.2⟩

end

/-- The bytes of the token have room behind what was put out before. -/
theorem Mirrors.token_fits {e u w d : State} {src dst : Nat} {r0 : Word} (m : Mirrors e src dst u d)
    (token : WritesToken u w r0) : 1 ≤ (chooseToken u).2 ∧ (chooseToken u).2 ≤ leftBytes d.cur1 := by
  have ⟨_, ⟨⟨source, _⟩, _⟩, _⟩ := m.encoder
  obtain ⟨least, most⟩ := chooseToken_bounds u source token.more
  exact ⟨least, most.trans m.room⟩

section
variable {e u w d : State} {src dst : Nat} {r0 c : Word} (m : Mirrors e src dst u d) (token : WritesToken u w r0)
  (rest : OkSteps .deflateStep w c e)
include m token rest

/-- The source bytes that the token stands for are still there at the end. -/
theorem Mirrors.source_eq {x : Nat} (low : src ≤ x) (high : x < u.cur0.pos.toNat + (chooseToken u).2) :
    memRead e.mem x = memRead u.mem x := by
  have after := (token.grows m.encoder).trans (rest.encoder (token.encoderRuns m.encoder)).2.1
  have ⟨ready, ⟨⟨source, _⟩, _⟩, _⟩ := m.encoder
  obtain ⟨-, -, -, origin, -⟩ := (encReady_iff u).mp ready
  have bound := (chooseToken_bounds u source token.more).2
  have start := m.origins.1
  have order := source.2.1
  simp only [leftBytes] at bound
  exact after.source x (by omega) (by omega)

/-- The bytes of a match are repeated from what the decoder has put out before (R296, R301). -/
theorem Mirrors.repeats_source {p : Nat} (low : windowStart u ≤ p) (high : p < u.wEnd.toNat)
    (agrees : ∀ j < (chooseToken u).2, memRead u.mem (p + j) = memRead u.mem (u.cur0.pos.toNat + j)) :
    ∀ j < (chooseToken u).2,
      memRead d.mem (d.cur1.pos.toNat - (d.wLen.toNat - (p - windowStart u)) +
        j % (d.wLen.toNat - (p - windowStart u))) = memRead e.mem (u.cur0.pos.toNat + j) := by
  obtain ⟨ready, ⟨-, -, encWindow, -⟩, -⟩ := m.encoder
  obtain ⟨encoding, -, encEnd, -⟩ := (encReady_iff u).mp ready
  obtain ⟨-, -, decEnd, -⟩ := (decReady_iff d).mp m.ready
  obtain ⟨order, encLen, -⟩ := encWindow (by simp [encoding])
  have start := m.origins.1
  have produced := m.produced
  rw [encEnd] at agrees ⊢
  rw [decEnd, m.window_eq.1]
  simp only [windowStart] at low ⊢
  have distance : u.wLen.toNat - (p - (u.wEnd.toNat - u.wLen.toNat)) = u.wEnd.toNat - p := by omega
  have behind : p + (u.wEnd.toNat - p) = u.wEnd.toNat := by omega
  have periodic := eq_mod_of_agrees (f := memRead e.mem) (p := p) (d := u.wEnd.toNat - p) (n := (chooseToken u).2)
    (fun j inside => by
      rw [behind, m.source_eq token rest (by omega) (by rw [encEnd]; omega),
        m.source_eq token rest (by omega) (by rw [encEnd]; omega), agrees j inside])
  intro j inside
  have back := periodic j inside
  rw [behind] at back
  have short : j % (u.wEnd.toNat - p) < u.wEnd.toNat - p := Nat.mod_lt _ (by omega)
  have copied := m.copied (p - src + j % (u.wEnd.toNat - p)) (by omega)
  rw [distance, back, show d.wEnd.toNat - (u.wEnd.toNat - p) + j % (u.wEnd.toNat - p) =
    dst + (p - src + j % (u.wEnd.toNat - p)) by omega, copied]
  congr 1
  omega

/-- The literals of a token are bytes of the source. -/
theorem Mirrors.literal_eq {j : Nat} (inside : j < (chooseToken u).2) :
    memRead u.mem (u.cur0.pos.toNat + j) = memRead e.mem (u.cur0.pos.toNat + j) := by
  obtain ⟨ready, ⟨-, -, window, -⟩, -⟩ := m.encoder
  obtain ⟨encoding, -, atEnd, -⟩ := (encReady_iff u).mp ready
  obtain ⟨order, -⟩ := window (by simp [encoding])
  have start := m.origins.1
  exact (m.source_eq token rest (by rw [atEnd]; omega) (by omega)).symm

end

/-- One step of the decoder in `d` puts out the source bytes that the token of the encoder in `u` stands for. -/
def FollowsToken (e u d : State) : Prop :=
  ∃ d', exec .inflateStep d = .next d' ∧
    d'.response = some ⟨.ok, word (chooseToken u).2, word (chosenBits u).length⟩ ∧
    Decoded d d' (chooseToken u).2 (chosenBits u).length ∧
    PutsBytes d.mem d'.mem d.cur1.pos.toNat (chooseToken u).2 (fun j => memRead e.mem (u.cur0.pos.toNat + j))

section
variable {e u w d : State} {src dst : Nat} {r0 c : Word} (m : Mirrors e src dst u d) (token : WritesToken u w r0)
  (rest : OkSteps .deflateStep w c e) (more : 9 ≤ leftBits d.cur0)
include m token rest more

theorem Mirrors.follows_match (found : 2 < (findAtCursor u).2) : FollowsToken e u d := by
  obtain ⟨cursors, strategy, window⟩ := m.decoder
  obtain ⟨sameLen, sameBits⟩ := m.window_eq
  obtain ⟨type, param⟩ := m.strategy
  obtain ⟨least, room⟩ := m.token_fits token
  have stands := m.bitsStand_chosenBits token rest
  obtain ⟨p, low, high, offset, agrees⟩ := exists_position_of_match m.encoder found
  have adv : (chooseToken u).2 = min (findAtCursor u).2 (vlcMax u.vlcType u.vlcParam.toNat + 2) := by
    rw [chooseToken_of_match found]
  have bits := chosenBits_of_match found
  rw [← adv, offset, ← type, ← param, ← sameBits] at bits
  obtain ⟨three, small, clamped, coded⟩ := matchLength_spec m.encoder found adv
  rw [representable_iff, ← type, ← param, ← representable_iff] at coded
  have inside : p - windowStart u < d.wLen.toNat := by
    simp only [windowStart] at low ⊢
    omega
  have width : d.wLen.toNat ≤ 2 ^ d.posBits.toNat := by
    obtain ⟨-, -, posBits, -⟩ := window (by simp [((decReady_iff d).mp m.ready).1])
    rw [posBits]
    exact le_two_pow_clog2 _
  have length : (chosenBits u).length =
      1 + d.posBits.toNat + vlcLen d.vlcType d.vlcParam.toNat ((chooseToken u).2 - 2) := by
    rw [bits, List.length_append, List.length_append, fieldBits_length, vlcCode_length]
    rfl
  obtain ⟨d', he, hr, decoded, store⟩ :=
    ((inflateStepDecodesTheTokenThatStands d m.ready cursors strategy window).2.2 _ _ _ more (by omega)
      (.inr (.inr ⟨_, _, (Nat.sub_add_cancel (by omega)).symm, small, inside, inside.trans_le width, coded, length,
        bits ▸ stands, rfl⟩))).2 room
  exact ⟨d', he, hr, decoded, putsBytes_repeat store (m.repeats_source token rest low high
    fun j short => agrees j (by omega))⟩

theorem Mirrors.follows_pair (absent : (findAtCursor u).2 ≤ 2) (two : 2 ≤ leftBytes u.cur0) : FollowsToken e u d := by
  obtain ⟨cursors, strategy, window⟩ := m.decoder
  obtain ⟨least, room⟩ := m.token_fits token
  have stands := m.bitsStand_chosenBits token rest
  have chosen := chooseToken_of_pair absent two
  have adv : (chooseToken u).2 = 2 := by rw [chosen]
  have bits : chosenBits u = [false] ++ fieldBits 8 (memRead e.mem (u.cur0.pos.toNat + 0)).toNat ++
      fieldBits 8 (memRead e.mem (u.cur0.pos.toNat + 1)).toNat := by
    rw [chosenBits, chosen, ← m.literal_eq token rest (by omega), ← m.literal_eq token rest (by omega)]
    rfl
  obtain ⟨d', he, hr, decoded, store⟩ :=
    ((inflateStepDecodesTheTokenThatStands d m.ready cursors strategy window).2.2 _ _ _ more (by omega)
      (.inl ⟨_, _, adv, congrArg List.length bits, bits ▸ stands, rfl⟩)).2 room
  exact ⟨d', he, hr, decoded, adv ▸ putsBytes_pair store⟩

theorem Mirrors.follows_single (absent : (findAtCursor u).2 ≤ 2) (one : leftBytes u.cur0 < 2) :
    FollowsToken e u d := by
  obtain ⟨cursors, strategy, window⟩ := m.decoder
  obtain ⟨least, room⟩ := m.token_fits token
  have stands := m.bitsStand_chosenBits token rest
  have chosen := chooseToken_of_single absent one
  have adv : (chooseToken u).2 = 1 := by rw [chosen]
  have bits : chosenBits u = [false] ++ fieldBits 8 (memRead e.mem (u.cur0.pos.toNat + 0)).toNat := by
    rw [chosenBits, chosen, ← m.literal_eq token rest (by omega)]
    rfl
  have length : (chosenBits u).length = 9 := congrArg List.length bits
  have last := m.leftBits_lt_of_last token rest (token.atEnd m.encoder (by omega))
  obtain ⟨d', he, hr, decoded, store⟩ :=
    ((inflateStepDecodesTheTokenThatStands d m.ready cursors strategy window).2.2 _ _ _ more (by omega)
      (.inr (.inl ⟨_, adv, length, by omega, bits ▸ stands, rfl⟩))).2 room
  exact ⟨d', he, hr, decoded, adv ▸ putsBytes_single store⟩

theorem Mirrors.follows : FollowsToken e u d := by
  by_cases found : 2 < (findAtCursor u).2
  · exact m.follows_match token rest more found
  · by_cases two : 2 ≤ leftBytes u.cur0
    · exact m.follows_pair token rest more (Nat.not_lt.mp found) two
    · exact m.follows_single token rest more (Nat.not_lt.mp found) (Nat.not_le.mp two)

end

section
variable {e u w d d' : State} {src dst : Nat} {r0 : Word} (m : Mirrors e src dst u d) (token : WritesToken u w r0)
  (puts : PutsBytes d.mem d'.mem d.cur1.pos.toNat (chooseToken u).2
    (fun j => memRead e.mem (u.cur0.pos.toNat + j)))
include m token puts

/-- The rest of the stream lies in the input region, apart from the bytes that are put out (20_memory.md R76). -/
theorem Mirrors.stream_next {x : Nat} (behind : bitAddr w.cur1 ≤ x) (inside : x < 8 * d.cur0.fin.toNat) :
    readBit d'.mem x = readBit e.mem x := by
  have ⟨_, ⟨⟨source, _⟩, _⟩, _⟩ := m.encoder
  obtain ⟨⟨input, output⟩, -⟩ := m.decoder
  obtain ⟨-, -, -, -, apart⟩ := (decReady_iff d).mp m.ready
  have apart := (regionsDisjoint_iff _ _).mp apart
  have bytes := (chooseToken_bounds u source token.more).2.trans m.room
  have forward := (token.grows m.encoder).output
  have position := m.position
  have low := input.1
  have high := output.1
  simp only [bitAddr, leftBytes] at behind bytes forward position
  rw [← m.stream x (by simp only [bitAddr]; omega) inside, readBit, readBit, puts.2 (x / 8) (by omega)]

theorem Mirrors.copied_next {j : Nat} (inside : j < w.wEnd.toNat - src) :
    memRead d'.mem (dst + j) = memRead e.mem (src + j) := by
  obtain ⟨encReady, ⟨-, -, encWindow, -⟩, -⟩ := m.encoder
  obtain ⟨-, -, decWindow⟩ := m.decoder
  obtain ⟨encoding, -, encEnd, -⟩ := (encReady_iff u).mp encReady
  obtain ⟨decoding, -, decEnd, -⟩ := (decReady_iff d).mp m.ready
  have encOrder := (encWindow (by simp [encoding])).1
  have decOrder := (decWindow (by simp [decoding])).1
  obtain ⟨-, -, -, wEnd, -⟩ := token.encoded m.encoder
  obtain ⟨srcOrigin, dstOrigin⟩ := m.origins
  have produced := m.produced
  obtain ⟨bytes, frame⟩ := puts
  rw [decEnd] at bytes frame
  rw [encEnd] at bytes
  by_cases before : j < u.wEnd.toNat - src
  · rw [frame _ (by omega), m.copied j before]
  · have put : memRead d'.mem (d.wEnd.toNat + (j - (u.wEnd.toNat - src))) =
        memRead e.mem (u.wEnd.toNat + (j - (u.wEnd.toNat - src))) := bytes _ (by omega)
    rwa [show d.wEnd.toNat + (j - (u.wEnd.toNat - src)) = dst + j by omega,
      show u.wEnd.toNat + (j - (u.wEnd.toNat - src)) = src + j by omega] at put

/-- Behind the token the two states mirror each other again. -/
theorem Mirrors.next (decoded : Decoded d d' (chooseToken u).2 (chosenBits u).length) (ready : decReady d' = true)
    (opened : InstanceOk d') : Mirrors e src dst w d' := by
  have runs := m.encoder
  obtain ⟨encReady, ⟨-, -, encWindow, -⟩, -⟩ := m.encoder
  obtain ⟨-, -, decWindow⟩ := m.decoder
  obtain ⟨encoding, -⟩ := (encReady_iff u).mp encReady
  obtain ⟨decoding, aligned, -⟩ := (decReady_iff d).mp m.ready
  obtain ⟨-, aligned', -⟩ := (decReady_iff d').mp ready
  have encOrder := (encWindow (by simp [encoding])).1
  have decOrder := (decWindow (by simp [decoding])).1
  obtain ⟨srcOrigin, dstOrigin⟩ := m.origins
  have produced := m.produced
  have left := token.leftBytes_eq runs
  obtain ⟨-, moved, -, wEnd, -, -, -, wOrg, -, -, vlcType, vlcParam, -, maxWindow, -⟩ := token.encoded runs
  obtain ⟨movedIn, movedOut, wEnd', -, -, wOrg', -, -, -, -, vlcType', vlcParam', -, maxWindow', -⟩ := decoded
  obtain ⟨addr, -, fin⟩ := movedOut
  exact {
    encoder := token.encoderRuns runs
    ready := ready
    decoder := opened
    maxWindow := by rw [maxWindow', maxWindow, m.maxWindow]
    strategy := ⟨by rw [vlcType', vlcType, m.strategy.1], by rw [vlcParam', vlcParam, m.strategy.2]⟩
    origins := ⟨by rw [wOrg, srcOrigin], by rw [wOrg', dstOrigin]⟩
    position := by rw [movedIn.1, moved.1, m.position]
    finish := by rw [movedIn.2.2, m.finish]
    stream := fun x behind inside => m.stream_next token puts behind (by rwa [movedIn.2.2] at inside)
    produced := by omega
    copied := fun _ => m.copied_next token puts
    room := by
      have room := m.room
      rw [bitAddr_of_aligned aligned, bitAddr_of_aligned aligned'] at addr
      simp only [leftBytes] at left room ⊢
      rw [left, fin]
      omega }

end

/-- One step on each side keeps the two states in step, while 9 bits are left (R292). -/
theorem Mirrors.step {e u w d : State} {src dst : Nat} {r0 c : Word} (m : Mirrors e src dst u d)
    (token : WritesToken u w r0) (rest : OkSteps .deflateStep w c e) (more : 9 ≤ leftBits d.cur0) :
    ∃ d' r1, exec .inflateStep d = .next d' ∧ d'.response = some ⟨.ok, r0, r1⟩ ∧ Mirrors e src dst w d' := by
  obtain ⟨d', he, hr, decoded, puts⟩ := m.follows token rest more
  rw [← token.count] at hr
  exact ⟨d', _, he, hr, m.next token puts decoded (decReady_of_inflateStep he hr (.inl rfl))
    ((commandEffect_of_exec he).instanceOk m.decoder)⟩

end Sys2Proof.Machine

/-! ## The round trip (47_lzsw_decode.md R301; 30_encoding.md R108) -/

namespace Sys2Proof.Machine

/-- A chain of tokens on the encoder's side is one on the decoder's side, with the same sum of bytes, if each of
them starts with 9 bits left. -/
theorem Mirrors.steps {e u p d : State} {src dst : Nat} {total c : Word} (m : Mirrors e src dst u d)
    (path : OkSteps .deflateStep u total p) (rest : OkSteps .deflateStep p c e)
    (more : bitAddr p.cur1 + 9 ≤ 8 * (syncCursor e.cur1).pos.toNat) :
    ∃ d', OkSteps .inflateStep d total d' ∧ Mirrors e src dst p d' := by
  induction path generalizing d with
  | none => exact ⟨d, .none d, m⟩
  | more he hr path ih =>
    have token := writesToken_of_ok he hr
    have runs := m.encoder
    have first := (token.grows runs).output
    have others := (path.encoder (token.encoderRuns runs)).2.1.output
    have left := m.leftBits_eq
    rw [m.finish] at left
    obtain ⟨d₁, r1, he', hr', m'⟩ := m.step token (path.trans rest) (by omega)
    obtain ⟨d', steps, last⟩ := ih m' rest more
    exact ⟨d', .more he' hr' steps, last⟩

theorem indexOk_of_empty {s : State} (index : s.index = .empty) (wLen : s.wLen = 0) : IndexOk s := by
  have none : indexedPositions s = [] := by simp [indexedPositions, wLen]
  have rings (h : Nat) : expectedRing s h = [] := by simp [expectedRing, none]
  refine ⟨fun h _ => ?_, by rw [none, index]; rfl⟩
  rw [ringOk, rings, index]
  rfl

/-- A fresh encoder `s` has run to its end `t`, and a fresh decoder `d` of the same strategy and window stands
before that stream, with room for the source (R301). -/
structure HandedOver (s t d : State) : Prop where
  ready : encReady s = true
  cursors : CursorsOk s
  params : ParamsOk s
  strategy : StrategyOk s
  window : WindowOk s
  noWindow : s.wLen = 0
  noIndex : s.index = .empty
  source : s.wOrg = s.wEnd
  runs : exec .deflateRun s = .next t
  done : ∃ r0 r1, t.response = some ⟨.done, r0, r1⟩
  decReady : decReady d = true
  decCursors : CursorsOk d
  decWindow : WindowOk d
  output : d.wOrg = d.wEnd
  mem : d.mem = t.mem
  maxWindow : d.maxWindow = s.maxWindow
  vlcType : d.vlcType = s.vlcType
  vlcParam : d.vlcParam = s.vlcParam
  pos : d.cur0.pos = s.cur1.pos
  bitoff : d.cur0.bitoff = s.cur1.bitoff
  fin : d.cur0.fin = t.cur1.pos
  room : leftBytes s.cur0 ≤ leftBytes d.cur1

/-- From `s` a chain of tokens leads to `u`, and one more token from there to `w`. -/
def EncodesTo (s u w : State) : Prop :=
  ∃ total q0 q1, OkSteps .deflateStep s total u ∧ exec .deflateStep u = .next w ∧ w.response = some ⟨.ok, q0, q1⟩

/-- The bits from the encoder's output position in `u` to the end of the finished stream. -/
def streamLeft (t u : State) : Nat := 8 * t.cur1.pos.toNat - bitAddr u.cur1

/-- `inflate_run` from `d` is DONE and puts out the first `n` bytes of the source of `s`. -/
def DecodesPrefix (s d : State) (n : Nat) : Prop :=
  ∃ v r, exec .inflateRun d = .next v ∧ v.response = some ⟨.done, word n, r⟩ ∧
    ∀ j < n, memRead v.mem (d.cur1.pos.toNat + j) = memRead s.mem (s.cur0.pos.toNat + j)

section
variable {s t d : State} (h : HandedOver s t d)
include h

theorem HandedOver.encoderRuns : EncoderRuns s := by
  have pool : PoolOk s := by
    rw [poolOk_iff, h.noIndex]
    exact empty_pool _
  exact ⟨h.ready, ⟨h.cursors, h.params, h.window, pool, indexOk_of_empty h.noIndex h.noWindow⟩, h.strategy⟩

theorem HandedOver.exists_lastState : ∃ e total, OkSteps .deflateStep s total e ∧ e.cur0.pos = e.cur0.fin ∧
    t.mem = e.mem ∧ t.cur1 = syncCursor e.cur1 := by
  obtain ⟨r0, r1, done⟩ := h.done
  exact exists_lastState_of_deflateRun_done h.ready h.cursors h.runs done

theorem HandedOver.mirrors {e : State} (mem : t.mem = e.mem) (cur1 : t.cur1 = syncCursor e.cur1) :
    Mirrors e s.cur0.pos.toNat d.cur1.pos.toNat s d := by
  obtain ⟨encoding, -, encEnd, -⟩ := (encReady_iff s).mp h.ready
  obtain ⟨decoding, -, decEnd, -⟩ := (decReady_iff d).mp h.decReady
  exact {
    encoder := h.encoderRuns
    ready := h.decReady
    decoder := ⟨h.decCursors, fun _ => by rw [h.vlcType, h.vlcParam]; exact h.strategy (by simp [encoding]),
      h.decWindow⟩
    maxWindow := h.maxWindow
    strategy := ⟨h.vlcType, h.vlcParam⟩
    origins := ⟨by rw [h.source, encEnd], by rw [h.output, decEnd]⟩
    position := by rw [bitAddr, bitAddr, h.pos, h.bitoff]
    finish := by rw [h.fin, cur1]
    stream := fun x _ _ => by rw [h.mem, mem]
    produced := by rw [encEnd, decEnd, Nat.sub_self, Nat.sub_self]
    copied := fun j inside => absurd inside (by rw [encEnd]; omega)
    room := h.room }

/-- A chain of tokens goes on to the last state of the run. -/
theorem HandedOver.exists_rest {u : State} {total : Word} (path : OkSteps .deflateStep s total u) :
    ∃ e c, OkSteps .deflateStep u c e ∧ e.cur0.pos = e.cur0.fin ∧ t.mem = e.mem ∧ t.cur1 = syncCursor e.cur1 := by
  obtain ⟨e, _, whole, atEnd, mem, cur1⟩ := h.exists_lastState
  obtain ⟨c, rest, -⟩ := path.rest_of_stuck whole (stuck_of_atEnd atEnd)
  exact ⟨e, c, rest, atEnd, mem, cur1⟩

/-- With fewer than 9 bits left for the decoder, its run ends (R293). -/
theorem HandedOver.decodesPrefix {e u d' : State} {total c : Word}
    (m : Mirrors e s.cur0.pos.toNat d.cur1.pos.toNat u d') (path : OkSteps .deflateStep s total u)
    (rest : OkSteps .deflateStep u c e) (steps : OkSteps .inflateStep d total d') (drained : leftBits d'.cur0 < 9) :
    DecodesPrefix s d (u.cur0.pos.toNat - s.cur0.pos.toNat) := by
  obtain ⟨runs, toHere, sum⟩ := path.encoder h.encoderRuns
  have toEnd := toHere.trans (rest.encoder runs).2.1
  have ⟨ready, ⟨⟨source, _⟩, _⟩, _⟩ := runs
  obtain ⟨-, -, encEnd, -⟩ := (encReady_iff u).mp ready
  have forward := toHere.forward
  obtain ⟨r, run⟩ := exec_inflateRun_of_okSteps h.decReady h.decCursors steps
    (exec_inflateStep_drained m.ready drained) rfl (by decide) (by decide)
  refine ⟨_, r, run, ?_, fun j inside => ?_⟩
  · have bytes : word (u.cur0.pos.toNat - s.cur0.pos.toNat) = total := by
      rw [word_sub_of_le forward, sum]
      exact add_sub_cancel_left _ _
    rw [bytes]
    rfl
  · have below := source.2.1
    rw [toHere.region.2] at below
    have origin := h.cursors.1.1
    rw [← toEnd.source _ (by omega) (by omega)]
    exact m.copied j (by rwa [← encEnd])

/-- Decode stops before the first token that starts with fewer than 9 bits left (R292, R293; log 19). -/
theorem HandedOver.decodesPrefix_of_drained {u : State} (drained : streamLeft t u < 9)
    (reached : u = s ∨ ∃ p, EncodesTo s p u ∧ 9 ≤ streamLeft t p) :
    DecodesPrefix s d (u.cur0.pos.toNat - s.cur0.pos.toNat) := by
  have drained_of_mirrors {e d' : State} (m : Mirrors e s.cur0.pos.toNat d.cur1.pos.toNat u d')
      (cur1 : t.cur1 = syncCursor e.cur1) : leftBits d'.cur0 < 9 := by
    have left := m.leftBits_eq
    rw [m.finish, ← cur1] at left
    simp only [streamLeft] at drained
    omega
  rcases reached with rfl | ⟨p, ⟨total, q0, q1, path, he, hr⟩, more⟩
  · obtain ⟨e, c, rest, -, mem, cur1⟩ := h.exists_rest (.none u)
    have m := h.mirrors mem cur1
    exact h.decodesPrefix m (.none u) rest (.none d) (drained_of_mirrors m cur1)
  · have token := writesToken_of_ok he hr
    obtain ⟨e, c, rest, -, mem, cur1⟩ := h.exists_rest (path.trans (.single he hr))
    have before := (OkSteps.single he hr).trans rest
    rw [streamLeft, cur1] at more
    obtain ⟨d₁, steps, m₁⟩ := (h.mirrors mem cur1).steps path before (by omega)
    have left := m₁.leftBits_eq
    rw [m₁.finish] at left
    obtain ⟨d', r1, he', hr', m⟩ := m₁.step token rest (by omega)
    exact h.decodesPrefix m (path.trans (.single he hr)) rest (steps.trans (.single he' hr'))
      (drained_of_mirrors m cur1)

/-- Behind the last token only the padding is left, less than a byte (R274). -/
theorem HandedOver.streamLeft_of_atEnd {u : State} {total : Word} (path : OkSteps .deflateStep s total u)
    (atEnd : u.cur0.pos = u.cur0.fin) : streamLeft t u < 9 := by
  obtain ⟨⟨-, ⟨⟨-, output⟩, -⟩, -⟩, -⟩ := path.encoder h.encoderRuns
  obtain ⟨e, c, rest, -, -, cur1⟩ := h.exists_rest path
  obtain ⟨rfl, -⟩ := rest.of_stuck (stuck_of_atEnd atEnd)
  rw [streamLeft, cur1, (syncCursor_spec _ output).2.1]
  omega

/-- The whole source comes back when the last token starts with at least 9 bits left (R301 item 1). -/
theorem HandedOver.decodes_source
    (last : s.cur0.pos = s.cur0.fin ∨ ∃ u w, EncodesTo s u w ∧ w.cur0.pos = w.cur0.fin ∧ 9 ≤ streamLeft t u) :
    DecodesPrefix s d (leftBytes s.cur0) := by
  rcases last with empty | ⟨u, w, ⟨total, q0, q1, path, he, hr⟩, atEnd, more⟩
  · have all := h.decodesPrefix_of_drained (h.streamLeft_of_atEnd (.none s) empty) (.inl rfl)
    rwa [leftBytes, ← empty]
  · have whole := path.trans (.single he hr)
    have all := h.decodesPrefix_of_drained (h.streamLeft_of_atEnd whole atEnd)
      (.inr ⟨u, ⟨total, q0, q1, path, he, hr⟩, more⟩)
    rwa [atEnd, (whole.encoder h.encoderRuns).2.1.region.2] at all

end

/-- Settles O60: both parts are what the decoder puts out up to the first token with fewer than 9 bits left. -/
theorem roundTripEndsWhereATokenStartsWithFewerThanNineBits :
    Obligations.RoundTripEndsWhereATokenStartsWithFewerThanNineBits := by
  intro s t d r0 r1 ready cursors params strategy window noWindow noIndex source runs done decReady decCursors
    decWindow _ output mem maxWindow vlcType vlcParam pos bitoff fin room
  have h : HandedOver s t d := ⟨ready, cursors, params, strategy, window, noWindow, noIndex, source, runs,
    ⟨r0, r1, done⟩, decReady, decCursors, decWindow, output, mem, maxWindow, vlcType, vlcParam, pos, bitoff,
    fin, room⟩
  exact ⟨h.decodes_source, fun u => h.decodesPrefix_of_drained⟩

/-! ### Strategies whose tokens have at least 9 bits (R301 item 3) -/

/-- A token stands for two source bytes or more, unless it is the last. -/
theorem two_le_chooseToken_or_last {u : State} (strategy : StrategyOk u) (running : u.cstate ≠ .closed) :
    2 ≤ (chooseToken u).2 ∨ leftBytes u.cur0 ≤ (chooseToken u).2 := by
  by_cases found : 2 < (findAtCursor u).2
  · have := one_le_vlcMax strategy running
    rw [chooseToken_of_match found]
    exact .inl (by simp only; omega)
  · by_cases two : 2 ≤ leftBytes u.cur0
    · rw [chooseToken_of_pair (Nat.not_lt.mp found) two]
      exact .inl (Nat.le_refl _)
    · rw [chooseToken_of_single (Nat.not_lt.mp found) (Nat.not_le.mp two)]
      exact .inr (by simp only; omega)

/-- The length codes of fixed-width(7) and wider and of Golomb(6) and up have at least 7 bits (R225, R226). -/
def LongCodes (s : State) : Prop :=
  (s.vlcType = .fixed ∧ 7 ≤ s.vlcParam.toNat) ∨ (s.vlcType = .golomb ∧ 6 ≤ s.vlcParam.toNat)

theorem seven_le_vlcLen {s : State} (long : LongCodes s) (v : Nat) : 7 ≤ vlcLen s.vlcType s.vlcParam.toNat v := by
  rcases long with ⟨type, param⟩ | ⟨type, param⟩
  · rw [type]
    exact param
  · rw [type, vlcLen]
    generalize v / 2 ^ s.vlcParam.toNat = quotient
    omega

theorem one_le_clog2 {n : Nat} (two : 2 ≤ n) : 1 ≤ clog2 n := by
  rw [clog2, if_neg (by omega)]
  omega

/-- A match needs a window; with two bytes in it or more, an offset has at least one bit. -/
theorem nine_le_chosenBits {u : State} (runs : EncoderRuns u) (long : LongCodes u)
    (window : u.wLen.toNat = 0 ∨ 2 ≤ u.wLen.toNat) : 9 ≤ (chosenBits u).length := by
  rw [chosenBits, tokenBits_length]
  by_cases found : 2 < (findAtCursor u).2
  · obtain ⟨p, low, high, -⟩ := exists_position_of_match runs found
    obtain ⟨ready, ⟨-, -, windowOk, -⟩, -⟩ := runs
    obtain ⟨-, -, width, -⟩ := windowOk (by simp [((encReady_iff u).mp ready).1])
    simp only [windowStart] at low
    have offset := one_le_clog2 (n := u.wLen.toNat) (by omega)
    rw [chooseToken_of_match found, tokenLen]
    have code := seven_le_vlcLen long
      (word (min (findAtCursor u).2 (vlcMax u.vlcType u.vlcParam.toNat + 2) - 2)).toNat
    omega
  · by_cases two : 2 ≤ leftBytes u.cur0
    · rw [chooseToken_of_pair (Nat.not_lt.mp found) two, tokenLen]
      omega
    · rw [chooseToken_of_single (Nat.not_lt.mp found) (Nat.not_le.mp two), tokenLen]

section
variable {s t d : State} (h : HandedOver s t d)
include h

/-- The window of a fresh encoder never holds just one byte, unless the source ends there. -/
theorem HandedOver.window_of_steps {u : State} {total : Word} (path : OkSteps .deflateStep s total u)
    (more : u.cur0.pos ≠ u.cur0.fin) : u.wLen.toNat = 0 ∨ 2 ≤ u.wLen.toNat := by
  rcases path.last_step with rfl | ⟨p, _, _, _, before, he, hr⟩
  · rw [h.noWindow]
    exact .inl rfl
  · have token := writesToken_of_ok he hr
    have runs := (before.encoder h.encoderRuns).1
    have ⟨ready, ⟨_, ⟨two, _⟩, window, _⟩, strategy⟩ := runs
    have running : p.cstate ≠ .closed := by simp [((encReady_iff p).mp ready).1]
    obtain ⟨order, -⟩ := window running
    obtain ⟨-, -, -, -, wLen, -⟩ := token.encoded runs
    rcases two_le_chooseToken_or_last strategy running with bytes | last
    · exact .inr (by omega)
    · exact absurd (token.atEnd runs last) more

theorem HandedOver.nine_le_streamLeft (long : LongCodes s) {u w : State} (last : EncodesTo s u w) :
    9 ≤ streamLeft t u := by
  obtain ⟨total, q0, q1, path, he, hr⟩ := last
  have token := writesToken_of_ok he hr
  obtain ⟨runs, toHere, -⟩ := path.encoder h.encoderRuns
  have sameCodes : LongCodes u := by
    rw [LongCodes, toHere.strategy.1, toHere.strategy.2]
    exact long
  have bits := nine_le_chosenBits runs sameCodes (h.window_of_steps path token.more)
  obtain ⟨-, moved, -⟩ := token.encoded runs
  obtain ⟨e, c, rest, -, -, cur1⟩ := h.exists_rest (path.trans (.single he hr))
  obtain ⟨⟨-, ⟨⟨-, output⟩, -⟩, -⟩, after, -⟩ := rest.encoder (token.encoderRuns runs)
  have behind := after.output
  rw [moved.1] at behind
  rw [streamLeft, cur1, (syncCursor_spec _ output).2.1]
  omega

theorem HandedOver.decodes_source_of_longCodes (long : LongCodes s) : DecodesPrefix s d (leftBytes s.cur0) := by
  obtain ⟨e, total, whole, atEnd, -⟩ := h.exists_lastState
  refine h.decodes_source ?_
  rcases whole.last_step with rfl | ⟨u, b, q0, q1, path, he, hr⟩
  · exact .inl atEnd
  · have last : EncodesTo s u e := ⟨b, q0, q1, path, he, hr⟩
    exact .inr ⟨u, e, last, atEnd, h.nine_le_streamLeft long last⟩

end

/-- Settles O50: every token has at least 9 bits, so the last one does too. -/
theorem longTokenStrategiesRoundTripTheSource : Obligations.LongTokenStrategiesRoundTripTheSource := by
  intro s t d r0 r1 ready cursors params strategy window noWindow noIndex source long runs done decReady decCursors
    decWindow _ output mem maxWindow vlcType vlcParam pos bitoff fin room
  have h : HandedOver s t d := ⟨ready, cursors, params, strategy, window, noWindow, noIndex, source, runs,
    ⟨r0, r1, done⟩, decReady, decCursors, decWindow, output, mem, maxWindow, vlcType, vlcParam, pos, bitoff,
    fin, room⟩
  exact h.decodes_source_of_longCodes long

end Sys2Proof.Machine
